-- ==== Sys2Proof/Word.lean ====
section
/-! DEFINITION. The words of the OAEP-RSA block: bytes, 32-bit registers, 64-bit data addresses (R14, R21, R60). -/

namespace Sys2Proof

/-- A byte (R13). -/
abbrev Byte := BitVec 8

/-- A 32-bit register value, a command word, a provider status (R21, R80, R100). -/
abbrev Word := BitVec 32

/-- A 64-bit data-memory address (R60). -/
abbrev Addr := BitVec 64

/-- A byte string; index 0 is the first byte in memory order (R13). -/
abbrev Bytes := List Byte

/-- `Zero(n)`: `n` bytes of 0x00 (R13). -/
abbrev zeros (n : Nat) : Bytes := List.replicate n 0

end Sys2Proof
end

