-- ==== Sys2Proof/Config.lean ====
section
/-! DEFINITION. The configuration of a deployment (R7), the oracles behind the provider ports (R12), the glitch
oracle (R250), and the one opaque deployment this machine runs on. -/

namespace Sys2Proof

/-- R87: the descriptor a selector resolves to. Only `hashLen` enters the block's arithmetic; the algorithm
identifier and the digest handle are the provider's. DESIGN CHOICE (log 16): both are plain numbers. -/
structure HashDescriptor where
  algId   : Nat
  hashLen : Nat
  handle  : Nat
deriving DecidableEq, Repr, Inhabited

/-- R251: the closed list of double-evaluated predicates. -/
inductive Site
  | param | encLen | hashStatus | rngStatus | decY | decLhash | decPs | decLen | expPtr | expHeld | expStatus
deriving DecidableEq, Repr, Inhabited

/-- R250: the two independently evaluated copies of a predicate. -/
inductive Copy
  | A | B
deriving DecidableEq, Repr, Inhabited

/-- R172: the operands of one plain engine call; an optional operand is absent or a byte string. -/
structure PlainOps where
  base     : Bytes
  exponent : Bytes
  modulus  : Bytes
  p        : Option Bytes
  q        : Option Bytes
  pub      : Option Bytes
  totient  : Option Bytes
  bitLen   : Nat
deriving DecidableEq, Repr, Inhabited

/-- R173: the operands of one CRT engine call. -/
structure CrtOps where
  base    : Bytes
  p       : Bytes
  q       : Bytes
  dp      : Bytes
  dq      : Bytes
  qinv    : Bytes
  pub     : Option Bytes
  modulus : Option Bytes
  bitLen  : Nat
deriving DecidableEq, Repr, Inhabited

/-- R7, R12, R250: everything fixed for a deployment, and the oracles. The configuration is an argument of the model,
never state (R50). -/
structure Cfg where
  /-- `K`, ModulusLen. -/
  K : Nat := 4
  /-- `HREF`, ReferenceHashLen (OPEN). -/
  href : Nat := 1
  /-- `HashTable`, a partial map from selectors to descriptors; the first entry of a selector counts. -/
  hashTable : List (Word × HashDescriptor) := []
  /-- `HashInstance`, passed through unchanged to every Digest call. -/
  hashInstance : Nat := 0
  /-- `LEN_E`, default 4 (D39). -/
  lenE : Nat := 4
  /-- `Hash.H`: the digest of an input under a selector (the port's `instance` argument comes first). -/
  hashH : Nat → Word → Bytes → Bytes := fun _ _ _ => zeros 1
  /-- `Hash.fail`: the status of the n-th Digest call of a command; the command's number comes first (log 4). -/
  hashFail : Nat → Nat → Word := fun _ _ => 0
  /-- `Entropy.draw`: status and `len` bytes; the command's number comes first (log 4). -/
  entropy : Nat → Nat → Word × Bytes := fun _ n => (0, zeros n)
  /-- `Engine.plain` as a function of its operands (R172, R174 a). -/
  enginePlain : PlainOps → Word × Bytes := fun _ => (0, zeros 4)
  /-- `Engine.crt` as a function of its operands (R173, R174 a). -/
  engineCrt : CrtOps → Word × Bytes := fun _ => (0, zeros 4)
  /-- The engine's failure draw of a command (R174 a); 0 means no failure was drawn (log 3). -/
  engineFail : Nat → Word := fun _ => 0
  /-- R172, U8: the `K` bytes a failed engine call hands over, which mean nothing, by command number (log 3). -/
  failedResult : Nat → Bytes := fun _ => zeros 4
  /-- `glitch(site, copy)` for one dynamic evaluation, named by the command's number and the number of the
  evaluation within the command (R250; log 2). -/
  glitch : Nat → Nat → Site → Copy → Bool := fun _ _ _ _ => false
  /-- U6: whether byte `i` of the region an abandoned emitting phase was writing already holds its new value, by
  command number (log 7). -/
  torn : Nat → Nat → Bool := fun _ _ => false
  /-- U8: what a selector without an entry resolves to when S_PARAM was passed falsely (log 11). -/
  stray : Word → HashDescriptor := fun _ => ⟨0, 1, 0⟩
  /-- U8: the data block of a message that does not fit when S_ENC_LEN was passed falsely, by command number (log 11). -/
  crowded : Nat → Bytes := fun _ => []
  /-- U8: what byte `i` beyond the top of data memory reads as when a pointer check was passed falsely, by command
  number (log 11). -/
  beyond : Nat → Nat → Byte := fun _ _ => 0
deriving Inhabited

namespace Cfg

/-- `HashTable(sel)` (R7, R22). -/
def lookup (c : Cfg) (sel : Word) : Option HashDescriptor :=
  c.hashTable.lookup sel

/-- R9: one entry of `HashTable` is admissible. -/
def descriptorOk (c : Cfg) (d : HashDescriptor) : Bool :=
  decide (1 ≤ d.hashLen) && decide (2 * d.hashLen + 2 ≤ c.K)

/-- R9, `WF(Cfg)`. -/
def wf (c : Cfg) : Bool :=
  (c.K % 2 == 0) && decide (4 ≤ c.K) && decide (c.K < 2 ^ 31) && decide (1 ≤ c.lenE) &&
    c.hashTable.all (fun e => c.descriptorOk e.2)

/-- R87: the descriptor a selector resolves to; one without an entry gets this far only when S_PARAM was passed falsely
(U8; log 11). -/
def descriptor (c : Cfg) (sel : Word) : HashDescriptor := (c.lookup sel).getD (c.stray sel)

/-- R12, R100, R101, R172, R173: the byte strings the providers hand over have the lengths their ports promise. DESIGN
CHOICE (log 11): a selector without an entry resolves to a descriptor within the bounds of R9, and its digests have that
length, so the fixed sizes of R10 and the call counts of R103 and R105 hold there too. -/
structure Lawful (c : Cfg) : Prop where
  strayOk : ∀ sel, c.descriptorOk (c.stray sel) = true
  hashLength : ∀ sel x, (c.hashH c.hashInstance sel x).length = (c.descriptor sel).hashLen
  entropyLength : ∀ k n, (c.entropy k n).2.length = n
  plainLength : ∀ ops, (c.enginePlain ops).2.length = c.K
  crtLength : ∀ ops, (c.engineCrt ops).2.length = c.K
  failedLength : ∀ k, (c.failedResult k).length = c.K

end Cfg

/-- A configuration that passed the check at construction (R9, R16 b, U13): an ill-formed one cannot be built. -/
structure Deployment where
  cfg : Cfg := {}
  wf : cfg.wf = true := by decide
  lawful : cfg.Lawful := by
    constructor
    · intro sel; rfl
    · intro sel x; rfl
    · intro k n; exact List.length_replicate
    · intro ops; rfl
    · intro ops; rfl
    · intro k; rfl
deriving Inhabited

/-- The deployment this machine runs on. It has no body: nothing about it can be computed or proved but that it is
well formed and that its providers keep the lengths of their ports (R7, D37; log 1). -/
opaque Config.deployment : Deployment

/-- The configuration of this machine. -/
def Config.cfg : Cfg := Config.deployment.cfg

end Sys2Proof
end

