-- ==== Sys2Proof/Syntax.lean ====
section
/-! DEFINITION. The commands of the block (R82), the names of its registers (R93), and what the host writes on the bus
and in a host script (R95). -/

namespace Sys2Proof

/-- R82: the six commands. A command word carries no operand (R80). -/
inductive Instr
  | encode
  | decode
  | expPlain
  | expCrt
  | encrypt
  | decrypt
deriving DecidableEq, Repr, Inhabited

/-- R21, R23 to R26: the 64-bit pointer registers, each two consecutive 32-bit registers. -/
inductive Ptr
  | label | inp | out
  | opBase | opExp | opMod | opP | opQ | opDp | opDq | opQinv | opPub | opTot | opRes
deriving DecidableEq, Repr, Inhabited

/-- R93: what stands at an aligned offset of the register window. -/
inductive Reg
  | cmd | ctrl | status | extStatus | cfgModlen | cfgRefhash | hashSel | labelLen | inLen | outLen
  | lo (p : Ptr)
  | hi (p : Ptr)
  | reserved
deriving DecidableEq, Repr, Inhabited

/-- One access of the host made between commands: a 32-bit register access at a raw offset, a placement of bytes in
data memory, a look at bytes of data memory, or the reset input asserted and released (R95, R280, R296). -/
inductive HostEvent
  | wr (off : Nat) (v : Word)
  | rd (off : Nat)
  | mem (a : Addr) (bytes : Bytes)
  | look (a : Addr) (n : Nat)
  | reset
deriving DecidableEq, Repr, Inhabited

/-- One access of the host made while a command runs (R290, R296). The index is the offset divided by four: premise P5
of R296 is built into the type. -/
inductive LiveEvent
  | rd (i : Fin 64)
  | wr (i : Fin 64) (v : Word)
  | mem (a : Addr) (bytes : Bytes)
  | look (a : Addr) (n : Nat)
deriving DecidableEq, Repr

/-- What the host does during one phase of a running command: its accesses in their order, and whether it then asserts
reset (R282). -/
structure LiveSlot where
  accesses : List LiveEvent := []
  reset : Bool := false
deriving DecidableEq, Repr

/-- R95: the statements of a host script. -/
inductive Stmt
  | wr (off : Nat) (v : Word)
  | wr64 (p : Ptr) (v : Addr)
  | rd (off : Nat)
  | cmd (i : Instr)
  | wait
  | mem (a : Addr) (bytes : Bytes)
  | expectMem (a : Addr) (bytes : Bytes)
deriving DecidableEq, Repr, Inhabited

end Sys2Proof
end

