-- ==== Sys2Proof/WellFormed.lean ====
section
/-! DEFINITION. Which terms are well formed: commands, host accesses (premises P2 and P5 of R296), host scripts. The
check of a configuration is `Cfg.wf` (R9), made where a `Deployment` is built. -/

namespace Sys2Proof

/-- R80, R82: a command carries no operand, so each of the six is well formed. -/
def Instr.wf : Instr → Bool
  | .encode => true
  | .decode => true
  | .expPlain => true
  | .expCrt => true
  | .encrypt => true
  | .decrypt => true

/-- R73, U7: an aligned offset of the 256-byte window. -/
def offsetOk (off : Nat) : Bool :=
  decide (off < 256) && (off % 4 == 0)

/-- R60: `n` bytes from `a` do not run past the top of the address space. -/
def inSpace (a : Addr) (n : Nat) : Bool :=
  decide (a.toNat + n ≤ 2 ^ 64)

/-- A host access the model gives a meaning to. -/
def HostEvent.wf : HostEvent → Bool
  | .wr off _ => offsetOk off
  | .rd off => offsetOk off
  | .mem a bytes => inSpace a bytes.length
  | .look a n => inSpace a n
  | .reset => true

/-- A script statement whose bus activity is well formed. -/
def Stmt.wf : Stmt → Bool
  | .wr off _ => offsetOk off
  | .wr64 _ _ => true
  | .rd off => offsetOk off
  | .cmd i => i.wf
  | .wait => true
  | .mem a bytes => inSpace a bytes.length
  | .expectMem a bytes => inSpace a bytes.length

end Sys2Proof
end

