-- ==== Sys2Proof/Decode.lean ====
section
/-! DEFINITION. Decoding of command words (R81 to R83, R218) and of register offsets (R93), total on every value and
rejecting by name; after it the encoders: command words (R82), offsets, host scripts (R95). -/

namespace Sys2Proof

/-- Why a word written to CMD is no command (R83). -/
inductive IllegalWord
  | zeroFieldSet
  | opcodeZero
  | opcodeAboveSix
deriving DecidableEq, Repr

/-- What the word decode of DISPATCH gives (R218). -/
inductive Decoded
  | instr (i : Instr)
  | illegal (why : IllegalWord)
deriving DecidableEq, Repr

/-- `OPC`, bits 3:0 (R81). -/
def opcOf (w : Word) : BitVec 4 := w.extractLsb' 0 4

/-- `ZERO`, bits 31:4 (R81). -/
def zeroOf (w : Word) : BitVec 28 := w.extractLsb' 4 28

/-- R82, the opcode map. -/
def instrOfOpc (opc : BitVec 4) : Option Instr :=
  match opc.toNat with
  | 1 => some .encode
  | 2 => some .decode
  | 3 => some .expPlain
  | 4 => some .expCrt
  | 5 => some .encrypt
  | 6 => some .decrypt
  | _ => none

/-- R218, the word decode of DISPATCH. -/
def decodeWord (w : Word) : Decoded :=
  if zeroOf w ≠ 0 then .illegal .zeroFieldSet
  else if opcOf w = 0 then .illegal .opcodeZero
  else match instrOfOpc (opcOf w) with
    | some i => .instr i
    | none => .illegal .opcodeAboveSix

/-- The instruction the decoder reads from a table word of `nbits` bits. The word has no byte layout: it is the value
of one 32-bit register write (R80, R69). -/
def decodeTableWord (nbits w : Nat) : Option Instr :=
  if nbits ≤ 32 then
    match decodeWord (BitVec.ofNat 32 (w % 2 ^ nbits)) with
    | .instr i => some i
    | .illegal _ => none
  else none

/-- R93: the first offset of each pointer register (its `_LO` half). -/
def ptrOffset : Ptr → Nat
  | .label => 0x020
  | .inp => 0x030
  | .out => 0x040
  | .opBase => 0x050
  | .opExp => 0x058
  | .opMod => 0x060
  | .opP => 0x068
  | .opQ => 0x070
  | .opDp => 0x078
  | .opDq => 0x080
  | .opQinv => 0x088
  | .opPub => 0x090
  | .opTot => 0x098
  | .opRes => 0x0A0

/-- R93: the pointer register whose `_LO` half stands at an offset. -/
def ptrAt (off : Nat) : Option Ptr :=
  match off with
  | 0x020 => some .label
  | 0x030 => some .inp
  | 0x040 => some .out
  | 0x050 => some .opBase
  | 0x058 => some .opExp
  | 0x060 => some .opMod
  | 0x068 => some .opP
  | 0x070 => some .opQ
  | 0x078 => some .opDp
  | 0x080 => some .opDq
  | 0x088 => some .opQinv
  | 0x090 => some .opPub
  | 0x098 => some .opTot
  | 0x0A0 => some .opRes
  | _ => none

/-- R93: the register at the aligned offset `4 * i`; every offset without a register is reserved (R33). -/
def regAt (i : Fin 64) : Reg :=
  match 4 * i.val with
  | 0x000 => .cmd
  | 0x004 => .ctrl
  | 0x008 => .status
  | 0x00C => .extStatus
  | 0x010 => .cfgModlen
  | 0x014 => .cfgRefhash
  | 0x018 => .hashSel
  | 0x028 => .labelLen
  | 0x038 => .inLen
  | 0x048 => .outLen
  | off =>
    match ptrAt off with
    | some p => .lo p
    | none =>
      match ptrAt (off - 4) with
      | some p => .hi p
      | none => .reserved

/-- R73, U7: the index of an aligned offset of the window; `none` rejects a misaligned offset or one outside. -/
def regIndex (off : Nat) : Option (Fin 64) :=
  if h : off < 256 ∧ off % 4 = 0 then some ⟨off / 4, by omega⟩ else none

/-- R82: the word of a command. -/
def encode : Instr → Word
  | .encode => 0x00000001
  | .decode => 0x00000002
  | .expPlain => 0x00000003
  | .expCrt => 0x00000004
  | .encrypt => 0x00000005
  | .decrypt => 0x00000006

/-- R93: the offset of a register; a reserved place has none of its own. -/
def regOffset : Reg → Option Nat
  | .cmd => some 0x000
  | .ctrl => some 0x004
  | .status => some 0x008
  | .extStatus => some 0x00C
  | .cfgModlen => some 0x010
  | .cfgRefhash => some 0x014
  | .hashSel => some 0x018
  | .labelLen => some 0x028
  | .inLen => some 0x038
  | .outLen => some 0x048
  | .lo p => some (ptrOffset p)
  | .hi p => some (ptrOffset p + 4)
  | .reserved => none

/-- R95: the host accesses a statement stands for. `WAIT` reads STATUS until BUSY is 0; the model runs a command
inside one step, so its first read is its last (log 5). `EXPECT MEM` has no bus activity. -/
def Stmt.events : Stmt → List HostEvent
  | .wr off v => [.wr off v]
  | .wr64 p v => [.wr (ptrOffset p) (v.extractLsb' 0 32), .wr (ptrOffset p + 4) (v.extractLsb' 32 32)]
  | .rd off => [.rd off]
  | .cmd i => [.wr 0x000 (encode i)]
  | .wait => [.rd 0x008]
  | .mem a bytes => [.mem a bytes]
  | .expectMem _ _ => []

/-- R95: the encoding of a script, the list of its bus writes `(offset, value)`. -/
def busWrites (script : List Stmt) : List (Nat × Word) :=
  (script.flatMap Stmt.events).filterMap fun
    | .wr off v => some (off, v)
    | .rd _ => none
    | .mem _ _ => none
    | .look _ _ => none
    | .reset => none

end Sys2Proof
end

