-- ==== Sys2Proof/Machine/State.lean ====
section
/-! DEFINITION. The state of the machine (R20 to R45, R106, R60) as plain data, its value after reset (R55), and the
reasons a step can stop. -/

namespace Sys2Proof.Machine

/-- R216: the closed enumeration of the sequencer phase `PH`, 29 values. -/
inductive Phase
  | idle | locked
  | dispatch
  | encCheck | encLhash | encBuild | encSeed | encDbMask | encSeedMask | encEmit
  | decCheck | decY | decLhash | decSeedMask | decDbMask | decCmp | decScan | decLen | decEval | decCopy
  | expCheck | expRelease | expRun | expHold | expVerify | expEmit
  | rev
  | exitScrub | exitStatus
deriving DecidableEq, Repr

/-- R240: the closed list of status kinds. -/
inductive Kind
  | success | notDone | invalidParam | invalidMessageLength | byteMismatchError | dataCompareError | dbMismatchError
  | exponentInvalidParam | hashFailure | entropyFailure | engineFailure | glitchError | illegalCommand | decodeError
deriving DecidableEq, Repr

/-- R170, R171: the two entry points of the ModularExponentiator. -/
inductive ExpKind
  | plain | crt
deriving DecidableEq, Repr

/-- R216: the observable actions of a command, recorded with sizes but without contents (log 13). -/
inductive Action
  | phase (p : Phase)
  | memRead (a : Addr) (n : Nat)
  | memWrite (a : Addr) (n : Nat)
  | digest (inst : Nat) (sel : Word) (len : Nat)
  | draw (n : Nat)
  | engRst (held : Bool)
  | engCall (k : ExpKind)
  | outLen (v : Word)
deriving DecidableEq, Repr

/-- Why the machine stops. No command stops it: each reaches the exit point with a status (R16). What is left is R16 (c),
"the spec gives no meaning, and a model must not give one either". -/
inductive Fault
  /-- Raised by every command: while it ran the host changed a region it names, read its output region or an earlier one
  it still awaits, or left the address space (premises P2, P3 and P8 of R296; U1). Raised by a look of the host between
  commands: it meets an output region of a command since which the host has not read `BUSY = 0` (P8; U1). Safe: the model
  stops where the hardware may go on. -/
  | hostPremiseBroken
deriving DecidableEq, Repr

/-- Why a step has no meaning. -/
inductive Refusal
  /-- An instruction whose meaning is not written yet. Raised by exec's arm. Safe. -/
  | notModelled (mnemonic : String)
  /-- Raised by step: a register access that is not an aligned 32-bit access inside the window (R73, U7 `refuse`,
  premise P5). Safe. -/
  | registerAccess (off : Nat)
  /-- Raised by step: the host accesses data memory above its top (R60, U4 `refuse`, premise P2). Safe. -/
  | hostMemoryAccess (a : Addr) (n : Nat)
deriving DecidableEq, Repr

/-- R60: data memory as the list of its bytes that differ from 0x00, addresses strictly rising (log 8). -/
abbrev Memory := List Host.Cell

/-- What the host has read: a register at an offset, in a phase, or bytes of data memory. -/
inductive HostRead
  | reg (ph : Phase) (off : Nat) (v : Word)
  | mem (a : Addr) (bytes : Bytes)
deriving DecidableEq, Repr

/-- An access of the host to data memory while a command runs. -/
inductive MemAccess
  | store (a : Addr) (bytes : Bytes)
  | look (a : Addr) (n : Nat)
deriving DecidableEq, Repr

/-- The host's side of a run: what it has read, oldest first, its accesses to data memory during the running command,
oldest first, and the output regions of the commands accepted since it last read `BUSY = 0` (R296 P8; log 5). -/
structure HostLog where
  reads   : List HostRead := []
  posted  : List MemAccess := []
  awaited : List (Addr × Nat) := []
deriving DecidableEq, Repr

/-- R22 to R26: the parameter registers. -/
structure Regs where
  hashSel  : Word := 0
  labelLen : Word := 0
  inLen    : Word := 0
  outLen   : Word := 0
  label    : Addr := 0
  inp      : Addr := 0
  out      : Addr := 0
  opBase   : Addr := 0
  opExp    : Addr := 0
  opMod    : Addr := 0
  opP      : Addr := 0
  opQ      : Addr := 0
  opDp     : Addr := 0
  opDq     : Addr := 0
  opQinv   : Addr := 0
  opPub    : Addr := 0
  opTot    : Addr := 0
  opRes    : Addr := 0
deriving DecidableEq, Repr

/-- R38: the decode validation flags. -/
structure DecFlags where
  acc   : Byte := 0
  found : Bool := false
  viol  : Bool := false
  sep   : Nat := 0
  mLen  : Nat := 0
deriving DecidableEq, Repr

/-- R40: the work buffers, each held over its full capacity. -/
structure Work where
  em    : Bytes
  db    : Bytes
  seed  : Bytes
  lhash : Bytes
  mask  : Bytes
  msg   : Bytes
  res   : Bytes
deriving DecidableEq, Repr

/-- R40, R41: every work buffer all zero over its capacity (R9: `HMAX = (K - 2) / 2`). -/
def Work.zero (c : Cfg) : Work where
  em    := zeros c.K
  db    := zeros (c.K - 2)
  seed  := zeros ((c.K - 2) / 2)
  lhash := zeros ((c.K - 2) / 2)
  mask  := zeros (c.K - 2)
  msg   := zeros (c.K - 4)
  res   := zeros c.K

/-- R20: the state of the block and data memory, and the fields the model adds. -/
structure State where
  /-- R22 to R26. -/
  regs : Regs
  /-- R29: `CTRL` bit 0; the other bits read 0. -/
  collapse : Bool
  /-- R30: `STATUS.CODE`. -/
  code : Byte
  /-- R30: `STATUS.CODE_N`. -/
  codeN : Byte
  /-- R31. -/
  extStatus : Word
  /-- R35. -/
  busy : Bool
  /-- R36. -/
  alarm : Bool
  /-- R37: true is 1, the engine held. -/
  engRst : Bool
  /-- R39. -/
  st : Byte
  /-- R39. -/
  stN : Byte
  /-- R38. -/
  flags : DecFlags
  /-- R40. -/
  work : Work
  /-- R45. -/
  ph : Phase
  /-- R106. -/
  hashCalls : Nat
  /-- R60. -/
  mem : Memory
  /-- MODEL's own: how many commands were accepted; names the draws (log 2, 3, 4). -/
  commands : Nat
  /-- MODEL's own: how many double evaluations the running command made; names the glitch draws (log 2). -/
  evals : Nat
  /-- MODEL's own: the observable actions of the running or last command, newest first (log 13). -/
  acts : List Action
  /-- MODEL's own: the host's accesses between commands still to come (log 5). -/
  script : List HostEvent
  /-- MODEL's own: the host's accesses while a command runs still to come, one slot per phase (log 6). -/
  live : List LiveSlot
  /-- MODEL's own: what the host has read, what it did to data memory during a command, and the outputs it may not look at
  yet (log 5, log 6). -/
  log : HostLog
deriving DecidableEq, Repr

/-- R55, R280: the state after reset on a configuration; memory lists nothing (log 8) and the model's own fields are
empty (log 9). -/
def State.resetOn (c : Cfg) : State where
  regs      := {}
  collapse  := false
  code      := 0x01
  codeN     := 0xFE
  extStatus := 0
  busy      := false
  alarm     := false
  engRst    := true
  st        := 0x01
  stN       := 0xFE
  flags     := {}
  work      := Work.zero c
  ph        := .idle
  hashCalls := 0
  mem       := []
  commands  := 0
  evals     := 0
  acts      := []
  script    := []
  live      := []
  log       := {}

/-- R55: the machine right after reset. -/
def State.reset : State := State.resetOn Config.cfg

end Sys2Proof.Machine
end

