-- ==== Sys2Proof/Machine/Bits.lean ====
section
/-! DEFINITION. Byte strings and bit fields (R13, R14, R21): slices, exclusive-or, reversal, the big-endian counter,
register halves, writes into a work buffer. -/

namespace Sys2Proof.Machine

/-- `X[a..b)` (R13). -/
def slice (x : Bytes) (a b : Nat) : Bytes := (x.drop a).take (b - a)

/-- `X ^ Y`, two strings of equal length (R13). -/
def xorBytes (x y : Bytes) : Bytes := List.zipWith (fun a b => a ^^^ b) x y

/-- `rev(X)` (R13). -/
def revBytes (x : Bytes) : Bytes := x.reverse

/-- `BE32(c)` (R13, R66): most significant byte first. The counters of the block stay below 2^31 (R103), also under a
selector without an entry, so that a wrap-around never shows in a command. DESIGN CHOICE (log 11): a larger counter, which
only `mgf` asked for more than any command asks for would reach, is taken modulo 2^32. -/
def be32 (c : Nat) : Bytes :=
  [BitVec.ofNat 8 (c >>> 24), BitVec.ofNat 8 (c >>> 16), BitVec.ofNat 8 (c >>> 8), BitVec.ofNat 8 c]

/-- `buf[off ..) <- x`: the rest of the buffer keeps its bytes, and the buffer its capacity (R10, R40). DESIGN CHOICE
(log 11): of an `x` that runs past the end, which only a double inversion lets through (U8), the part that fits is
stored. -/
def put (buf : Bytes) (off : Nat) (x : Bytes) : Bytes :=
  buf.take off ++ x.take (buf.length - off) ++ buf.drop (off + x.length)

/-- `_LO`, bits 31:0 of a 64-bit register (R21). -/
def loHalf (a : Addr) : Word := a.extractLsb' 0 32

/-- `_HI`, bits 63:32 of a 64-bit register (R21). -/
def hiHalf (a : Addr) : Word := a.extractLsb' 32 32

/-- A 64-bit register with its `_LO` half replaced (R21, R291). -/
def setLo (a : Addr) (v : Word) : Addr := hiHalf a ++ v

/-- A 64-bit register with its `_HI` half replaced (R21, R291). -/
def setHi (a : Addr) (v : Word) : Addr := v ++ loHalf a

end Sys2Proof.Machine
end

