-- ==== Sys2Proof/Machine/Flags.lean ====
section
/-! DEFINITION. Status codes and the status word (R30, R240), the verdict of a double evaluation (R250), and the decode
validation flags of steps 6 to 8 (R38, R149 to R151). -/

namespace Sys2Proof.Machine

/-- R240: the code of a status kind. -/
def Kind.code : Kind → Byte
  | .success => 0x00
  | .notDone => 0x01
  | .invalidParam => 0x02
  | .invalidMessageLength => 0x03
  | .byteMismatchError => 0x04
  | .dataCompareError => 0x05
  | .dbMismatchError => 0x06
  | .exponentInvalidParam => 0x07
  | .hashFailure => 0x08
  | .entropyFailure => 0x09
  | .engineFailure => 0x0A
  | .glitchError => 0x0B
  | .illegalCommand => 0x0C
  | .decodeError => 0x0D

/-- R240: `CODE_N`, the redundant copy of a code. -/
def Kind.codeN (k : Kind) : Byte := k.code ^^^ 0xFF

/-- R30: the word a read of STATUS gives; bits 31:19 read 0. -/
def statusWord (s : State) : Word :=
  let top : BitVec 16 :=
    (0 : BitVec 13) ++ BitVec.ofBool s.engRst ++ BitVec.ofBool s.alarm ++ BitVec.ofBool s.busy
  top ++ s.codeN ++ s.code

/-- R29: the word a read of CTRL gives. -/
def ctrlWord (s : State) : Word := (0 : BitVec 31) ++ BitVec.ofBool s.collapse

/-- R250: the outcomes of a double evaluation. -/
inductive Verdict
  | pass | fail | split
deriving DecidableEq, Repr

/-- R250: both copies true, both false, or copies that differ. -/
def verdict (a b : Bool) : Verdict :=
  if a ≠ b then .split else if a then .pass else .fail

/-- R149, step 6: the OR of the bytewise differences; every pair is compared. -/
def compareAcc (db lhash : Bytes) : Byte :=
  (xorBytes db lhash).foldl (fun acc d => acc ||| d) 0

/-- R150, step 7: what the scan carries. -/
structure ScanState where
  found : Bool := false
  viol  : Bool := false
  sep   : Nat := 0
deriving DecidableEq, Repr

/-- R150, step 7: one byte of the scan, at index `i`. -/
def scanByte (i : Nat) (b : Byte) (f : ScanState) : ScanState :=
  let isOne := b == 0x01
  let isZero := b == 0x00
  let take := !f.found && isOne
  { found := f.found || take
    viol := f.viol || (!f.found && !isOne && !isZero)
    sep := if take then i else f.sep }

/-- R150, step 7: the scan of the bytes from index `i` on; it has no exit before the last byte. -/
def scanFrom (i : Nat) : Bytes → ScanState → ScanState
  | [], f => f
  | b :: rest, f => scanFrom (i + 1) rest (scanByte i b f)

/-- R150: the scan of `DB[h .. DBLen)`. -/
def scanPadding (h : Nat) (t : Bytes) : ScanState := scanFrom h t {}

/-- R151, step 8: the recovered message length. -/
def messageLength (dbLen sep : Nat) : Nat := dbLen - sep - 1

/-- R152, R154, R244: the kind the evaluation point reports for a structural failure. -/
def structuralKind (collapse : Bool) (k : Kind) : Kind :=
  if collapse then .decodeError else k

end Sys2Proof.Machine
end

