-- ==== Sys2Proof/Machine/Operands.lean ====
section
/-! DEFINITION. The operands of the commands: derived lengths (R8), regions (R62), the pointer registers by name (R26),
the parameter checks of each command (R121, R141, R175), the register file as the host sees it (R21 to R33). -/

namespace Sys2Proof.Machine

/-- `DBLen(h)` (R8). -/
def dbLen (c : Cfg) (h : Nat) : Nat := c.K - h - 1

/-- `MaxMessageLen(h)` (R8). -/
def maxMessageLen (c : Cfg) (h : Nat) : Nat := c.K - 2 * h - 2

/-- `HalfLen` (R8). -/
def halfLen (c : Cfg) : Nat := c.K / 2

/-- `BitLen` (R8, R189 e). -/
def bitLen (c : Cfg) : Nat := 8 * c.K

/-- R122, step 2: the bound derived from the reference hash, on the integers (R14, R134). -/
def actualMaxMsgLen (c : Cfg) (h : Nat) : Int :=
  let diffHashLen : Int := ((h : Int) - (c.href : Int)).natAbs
  let refMaxMsgLen : Int := (c.K : Int) - 2 * (c.href : Int) - 2
  if h ≤ c.href then refMaxMsgLen + 2 * diffHashLen else refMaxMsgLen - 2 * diffHashLen

/-- `RegionOK(addr, n)` (R62). -/
def regionOk (a : Addr) (n : Nat) : Bool :=
  decide (a ≠ 0) && decide (a.toNat + n ≤ 2 ^ 64)

/-- R26: a pointer register by name. -/
def Regs.ptr (r : Regs) : Ptr → Addr
  | .label => r.label
  | .inp => r.inp
  | .out => r.out
  | .opBase => r.opBase
  | .opExp => r.opExp
  | .opMod => r.opMod
  | .opP => r.opP
  | .opQ => r.opQ
  | .opDp => r.opDp
  | .opDq => r.opDq
  | .opQinv => r.opQinv
  | .opPub => r.opPub
  | .opTot => r.opTot
  | .opRes => r.opRes

/-- R26: a pointer register replaced. -/
def Regs.setPtr (r : Regs) (p : Ptr) (a : Addr) : Regs :=
  match p with
  | .label => { r with label := a }
  | .inp => { r with inp := a }
  | .out => { r with out := a }
  | .opBase => { r with opBase := a }
  | .opExp => { r with opExp := a }
  | .opMod => { r with opMod := a }
  | .opP => { r with opP := a }
  | .opQ => { r with opQ := a }
  | .opDp => { r with opDp := a }
  | .opDq => { r with opDq := a }
  | .opQinv => { r with opQinv := a }
  | .opPub => { r with opPub := a }
  | .opTot => { r with opTot := a }
  | .opRes => { r with opRes := a }

/-- R23, D12: an empty label needs no pointer. -/
def labelOk (r : Regs) : Bool :=
  (r.labelLen == 0) || regionOk r.label r.labelLen.toNat

/-- R120 step 1, R121: the predicate of S_PARAM for ENCODE and ENCRYPT. -/
def encodeParamsOk (c : Cfg) (r : Regs) : Bool :=
  (c.lookup r.hashSel).isSome && regionOk r.inp r.inLen.toNat && regionOk r.out c.K && labelOk r

/-- R140 step 1, R141: the predicate of S_PARAM for DECODE and DECRYPT; the output region is taken at its largest. -/
def decodeParamsOk (c : Cfg) (r : Regs) : Bool :=
  match c.lookup r.hashSel with
  | none => false
  | some d => regionOk r.inp c.K && regionOk r.out (maxMessageLen c d.hashLen) && labelOk r

/-- R176: the mandatory operand pointers and their lengths. -/
def mandatoryOps (c : Cfg) : ExpKind → List (Ptr × Nat)
  | .plain => [(.opExp, c.lenE), (.opMod, c.K)]
  | .crt => [(.opP, halfLen c), (.opQ, halfLen c), (.opDp, halfLen c), (.opDq, halfLen c), (.opQinv, halfLen c)]

/-- R176: the optional operand pointers and their lengths. -/
def optionalOps (c : Cfg) : ExpKind → List (Ptr × Nat)
  | .plain => [(.opP, halfLen c), (.opQ, halfLen c), (.opPub, c.lenE), (.opTot, c.K)]
  | .crt => [(.opPub, c.lenE), (.opMod, c.K)]

/-- R176: where the base of an exponentiation comes from. -/
inductive BaseOperand
  /-- a pointer, read from data memory -/
  | pointer (a : Addr)
  /-- the internal `EM` buffer -/
  | internal
deriving DecidableEq, Repr

/-- R176: the base pointer check; an internal base needs none. -/
def baseOk (c : Cfg) : BaseOperand → Bool
  | .pointer a => regionOk a c.K
  | .internal => true

/-- R175, R176: the predicate of S_EXP_PTR. -/
def expParamsOk (c : Cfg) (k : ExpKind) (base : BaseOperand) (resultToMemory : Bool) (r : Regs) : Bool :=
  (mandatoryOps c k).all (fun (p, n) => regionOk (r.ptr p) n) &&
    baseOk c base &&
    (!resultToMemory || regionOk r.opRes c.K) &&
    (optionalOps c k).all (fun (p, n) => decide (r.ptr p = 0) || regionOk (r.ptr p) n)

/-- R63, R64, R296 P3: the regions of data memory a command names, an address and a length each; a null pointer names
none (log 6). -/
structure Named where
  inputs  : List (Addr × Nat) := []
  outputs : List (Addr × Nat) := []
deriving DecidableEq, Repr

/-- R120, R200: the regions of the encode stage it reads. -/
def encodeInputs (r : Regs) : List (Addr × Nat) := [(r.inp, r.inLen.toNat), (r.label, r.labelLen.toNat)]

/-- R140, R201: the output region of a decode, taken at its largest. DESIGN CHOICE (log 6): a selector without an entry
gives it no length, and the command then names none. -/
def decodeOutput (c : Cfg) (r : Regs) : List (Addr × Nat) :=
  match c.lookup r.hashSel with
  | none => []
  | some d => [(r.out, maxMessageLen c d.hashLen)]

/-- R176: the key operands of an exponentiation. -/
def keyInputs (c : Cfg) (k : ExpKind) (r : Regs) : List (Addr × Nat) :=
  (mandatoryOps c k ++ optionalOps c k).map fun e => (r.ptr e.1, e.2)

/-- The regions a command names (R120, R140, R170, R171, R200, R201). -/
def namedRegions (c : Cfg) (i : Instr) (r : Regs) : Named :=
  match i with
  | .encode => { inputs := encodeInputs r, outputs := [(r.out, c.K)] }
  | .decode => { inputs := [(r.inp, c.K), (r.label, r.labelLen.toNat)], outputs := decodeOutput c r }
  | .expPlain => { inputs := (r.opBase, c.K) :: keyInputs c .plain r, outputs := [(r.opRes, c.K)] }
  | .expCrt => { inputs := (r.opBase, c.K) :: keyInputs c .crt r, outputs := [(r.opRes, c.K)] }
  | .encrypt => { inputs := encodeInputs r ++ keyInputs c .plain r, outputs := [(r.out, c.K)] }
  | .decrypt => { inputs := (r.inp, c.K) :: (r.label, r.labelLen.toNat) :: keyInputs c .crt r
                  outputs := decodeOutput c r }

/-- The `n` bytes from `a` on meet a region. DESIGN CHOICE (log 6): a region that would wrap past the top counts as named
up to the top while the command runs, though the command refuses it (R62). -/
def meets (a : Addr) (n : Nat) (e : Addr × Nat) : Bool :=
  decide (e.1 ≠ 0) && decide (0 < n) && decide (0 < e.2) && decide (a.toNat < e.1.toNat + e.2) &&
    decide (e.1.toNat < a.toNat + n)

/-- The `n` bytes from `a` on meet none of the regions. -/
def clearOf (l : List (Addr × Nat)) (a : Addr) (n : Nat) : Bool := l.all fun e => !meets a n e

/-- R296 P2, P3, P8: what the host may do to data memory while a command runs that names the regions `n`: store outside
them, read outside the output regions it awaits, the command's own among them. -/
def MemAccess.allowed (n : Named) (awaited : List (Addr × Nat)) : MemAccess → Bool
  | .store a bytes => inSpace a bytes.length && clearOf (n.inputs ++ n.outputs) a bytes.length
  | .look a k => inSpace a k && clearOf awaited a k

/-- R21 to R33: what a host read of a register gives. No read has a side effect (R33). -/
def readReg (c : Cfg) (s : State) : Reg → Word
  | .cmd => 0
  | .ctrl => ctrlWord s
  | .status => statusWord s
  | .extStatus => s.extStatus
  | .cfgModlen => BitVec.ofNat 32 c.K
  | .cfgRefhash => BitVec.ofNat 32 c.href
  | .hashSel => s.regs.hashSel
  | .labelLen => s.regs.labelLen
  | .inLen => s.regs.inLen
  | .outLen => s.regs.outLen
  | .lo p => loHalf (s.regs.ptr p)
  | .hi p => hiHalf (s.regs.ptr p)
  | .reserved => 0

/-- R21 to R33: what a host write of a register other than CMD stores while BUSY = 0; CMD has no storage, read-only
and reserved places ignore it. -/
def writeReg (s : State) (v : Word) : Reg → State
  | .cmd => s
  | .ctrl => { s with collapse := v.getLsbD 0 }
  | .status => s
  | .extStatus => s
  | .cfgModlen => s
  | .cfgRefhash => s
  | .hashSel => { s with regs := { s.regs with hashSel := v } }
  | .labelLen => { s with regs := { s.regs with labelLen := v } }
  | .inLen => { s with regs := { s.regs with inLen := v } }
  | .outLen => { s with regs := { s.regs with outLen := v } }
  | .lo p => { s with regs := s.regs.setPtr p (setLo (s.regs.ptr p) v) }
  | .hi p => { s with regs := s.regs.setPtr p (setHi (s.regs.ptr p) v) }
  | .reserved => s

/-- R290: a host write of a register; while BUSY = 1 it changes nothing. -/
def hostWrite (s : State) (v : Word) (r : Reg) : State :=
  if s.busy then s else writeReg s v r

end Sys2Proof.Machine
end

