-- ==== Sys2Proof/Machine/Ops.lean ====
section
/-! DEFINITION. The shared operations: data memory (R60 to R64), the form of a command body and the phase step (R45,
R290), raising a status kind and the single exit point (R222, R242), double evaluation (R250), provider calls (R100,
R101), acceptance, lock and reset (R217, R221, R280). -/

namespace Sys2Proof.Machine

/-! ### Data memory -/

/-- What an address the list does not hold reads as. DESIGN CHOICE, unsafe (log 8). -/
def Memory.unlisted : Byte := 0x00

/-- The byte at an address. -/
def Memory.read : Memory → Nat → Byte
  | [], _ => Memory.unlisted
  | (b, v) :: rest, a => if a = b then v else Memory.read rest a

/-- One byte written; a byte equal to what an unlisted address reads as is not listed. -/
def Memory.write : Memory → Nat → Byte → Memory
  | [], a, v => if v = Memory.unlisted then [] else [(a, v)]
  | (b, w) :: rest, a, v =>
    if a < b then (if v = Memory.unlisted then (b, w) :: rest else (a, v) :: (b, w) :: rest)
    else if a = b then (if v = Memory.unlisted then rest else (a, v) :: rest)
    else (b, w) :: Memory.write rest a v

/-- The addresses of a memory are all at least `lo`, below 2^64 and strictly rising, and no listed byte is what an
unlisted address reads as. -/
def Memory.wfFrom (lo : Nat) : Memory → Bool
  | [] => true
  | (b, v) :: rest =>
    decide (lo ≤ b) && decide (b < 2 ^ 64) && decide (v ≠ Memory.unlisted) && Memory.wfFrom (b + 1) rest

/-- The canonical form of a memory: equal memories are equal lists. -/
def Memory.wf (m : Memory) : Bool := Memory.wfFrom 0 m

/-- The `n` bytes from `a` on (R63). -/
def Memory.readBytes (m : Memory) (a : Nat) : Nat → Bytes
  | 0 => []
  | n + 1 => m.read a :: Memory.readBytes m (a + 1) n

/-- The bytes `v` written from `a` on, in ascending order (R64, R71). -/
def Memory.writeBytes (m : Memory) (a : Nat) : Bytes → Memory
  | [] => m
  | b :: rest => Memory.writeBytes (m.write a b) (a + 1) rest

/-- What an access of the host leaves of data memory; a store that runs past the top stores nothing (it breaks
premise P2, and the command has no next state then). -/
def MemAccess.apply (m : Memory) : MemAccess → Memory
  | .store a bytes => if inSpace a bytes.length then m.writeBytes a.toNat bytes else m
  | .look _ _ => m

/-- Data memory with the host's accesses joined to it, oldest first. -/
def Memory.joined (m : Memory) (l : List MemAccess) : Memory := l.foldl MemAccess.apply m

/-- R30, R75: a read of STATUS that shows `BUSY = 0`. -/
def HostRead.showsIdle : HostRead → Bool
  | .reg _ off v => off == 0x008 && !v.getLsbD 16
  | .mem _ _ => false

/-! ### State updates of a running command -/

namespace State

/-- `PH <- p` (R45). -/
def setPhase (s : State) (p : Phase) : State := { s with ph := p, acts := .phase p :: s.acts }

/-- An observable action recorded (log 13). -/
def record (s : State) (a : Action) : State := { s with acts := a :: s.acts }

/-- One more double evaluation made (log 2). -/
def bumpEvals (s : State) : State := { s with evals := s.evals + 1 }

/-- One more Digest call made (R106). -/
def bumpHashCalls (s : State) : State := { s with hashCalls := s.hashCalls + 1 }

/-- `ALARM <- 1` (R36). -/
def setAlarm (s : State) : State := { s with alarm := true }

/-- `ENG_RST <- v` (R37). -/
def setEngRst (s : State) (v : Bool) : State := { s with engRst := v, acts := .engRst v :: s.acts }

/-- The work buffers replaced. -/
def setWork (s : State) (w : Work) : State := { s with work := w }

/-- The decode flags replaced. -/
def setFlags (s : State) (f : DecFlags) : State := { s with flags := f }

/-- Data memory replaced. -/
def setMem (s : State) (m : Memory) : State := { s with mem := m }

/-- A value the host has read; after one that shows `BUSY = 0` it awaits no output (R75, R296 P8). -/
def note (s : State) (r : HostRead) : State :=
  { s with log := { s.log with
      reads := s.log.reads ++ [r], awaited := if r.showsIdle then [] else s.log.awaited } }

/-- An access of the host to data memory while a command runs. -/
def post (s : State) (a : MemAccess) : State := { s with log := { s.log with posted := s.log.posted ++ [a] } }

/-- The end of a command as the host sees it: what it stored while the command ran is joined to data memory. With
premises P2, P3 and P8 of R296 kept this is where it stands however the accesses and the command interleave, but for a
command in which both copies of one evaluation were inverted: it may reach bytes it does not name, U8 claims nothing
there, and that the host's stores then land last is the model's choice. DESIGN CHOICE (log 6). -/
def settle (s : State) : State :=
  { s with mem := s.mem.joined s.log.posted, log := { s.log with posted := [] } }

/-- R16, R296: the outcome of a command that named these regions, began with these slots of the host to come and ended
in this state; with P2, P3 or P8 broken by the host there is none (R16 c, U1). Without a slot nothing was broken. -/
def conclude (n : Named) (live : List LiveSlot) (s : State) : Host.Outcome State Fault Refusal :=
  if live.isEmpty || s.log.posted.all (MemAccess.allowed n s.log.awaited) then .next s.settle else .fault .hostPremiseBroken

/-- `OUT_LEN <- v`, by the block (R25). -/
def setOutLen (s : State) (v : Word) : State :=
  { s with regs := { s.regs with outLen := v }, acts := .outLen v :: s.acts }

/-- R280, R281: the reset input asserted and released. Data memory keeps its bytes; the host's accesses still to come,
what it has read, and the number of accepted commands are not the block's (log 9). -/
def hardReset (c : Cfg) (s : State) : State :=
  { State.resetOn c with
    mem := s.mem, script := s.script, live := s.live, log := s.log, commands := s.commands }

/-- R217: a command that names these regions accepted, in one atomic step; the host awaits its outputs (R296 P8). -/
def accept (c : Cfg) (names : Named) (s : State) : State :=
  { s with
    busy := true
    st := Kind.notDone.code
    stN := Kind.notDone.codeN
    code := Kind.notDone.code
    codeN := Kind.notDone.codeN
    extStatus := 0
    hashCalls := 0
    work := Work.zero c
    flags := {}
    ph := .dispatch
    commands := s.commands + 1
    evals := 0
    acts := [.phase .dispatch]
    log := { s.log with posted := [], awaited := s.log.awaited ++ names.outputs } }

/-- R221: the answer to a CMD write in the locked state, and nothing else. -/
def answerLocked (s : State) : State :=
  { s with code := Kind.glitchError.code, codeN := Kind.glitchError.codeN, extStatus := 0 }

/-- R222 (b), R223: the scrub. -/
def scrub (c : Cfg) (s : State) : State := { s with work := Work.zero c, flags := {} }

/-- R222 (c) and (d): the final status and the fall of BUSY, one atomic register update. -/
def complete (s : State) (k : Kind) (info : Word) : State :=
  let p : Phase := if s.alarm then .locked else .idle
  { s with
    extStatus := info
    st := k.code
    stN := k.codeN
    code := k.code
    codeN := k.codeN
    busy := false
    ph := p
    acts := .phase p :: s.acts }

end State

/-! ### Command bodies -/

/-- How the body of a command stops before its end. -/
inductive Stop
  /-- `raise Kind(info)` (R15, R222): go to the exit point. -/
  | raised (k : Kind) (info : Word)
  /-- The reset input was asserted (R282): no exit point. -/
  | resetHit
deriving DecidableEq, Repr

/-- A piece of a command: it runs on the state and ends with a value or a `Stop`; the state is kept in both cases. -/
abbrev Cmd (α : Type) := EStateM Stop State α

/-- `raise Kind(info)` (R222, R242): the one operation by which a command fails. -/
def raise {α : Type} (k : Kind) (info : Word) : Cmd α := throw (Stop.raised k info)

/-- One access of the host while a command runs: it reads a register, writes one (dropped, R290), stores to data memory
or reads it. A store is joined to data memory when the command ends; a read sees the stores before it. -/
def liveAccess (c : Cfg) (s : State) : LiveEvent → State
  | .rd i => s.note (.reg s.ph (4 * i.val) (readReg c s (regAt i)))
  | .wr i v => hostWrite s v (regAt i)
  | .mem a bytes => s.post (.store a bytes)
  | .look a n => (s.note (.mem a ((s.mem.joined s.log.posted).readBytes a.toNat n))).post (.look a n)

/-- What the host does during the phase now in `PH`, at its end: any number of accesses (R290, R296), then reset if it
asserts it (R282; log 6). -/
def hostSlot (c : Cfg) : Cmd Unit := fun s =>
  match s.live with
  | [] => .ok () s
  | slot :: rest =>
    let t := slot.accesses.foldl (liveAccess c) { s with live := rest }
    if slot.reset then .error .resetHit (State.hardReset c t) else .ok () t

/-- `PH <- p` (R45). -/
def phase (c : Cfg) (p : Phase) : Cmd Unit := do
  hostSlot c
  modify fun s => s.setPhase p

/-- An observable action. -/
def record (a : Action) : Cmd Unit := modify fun s => s.record a

/-- How many addresses there are from `a` on (R60). -/
def roomAbove (a : Addr) : Nat := 2 ^ 64 - a.toNat

/-- The `n` bytes from `a` on. Bytes beyond the top are read only after both copies of a pointer check were inverted,
and each is a free value then (U8; log 11). -/
def fetched (c : Cfg) (s : State) (a : Addr) (n : Nat) : Bytes :=
  s.mem.readBytes a.toNat (min n (roomAbove a)) ++ (List.range (n - roomAbove a)).map (c.beyond s.commands)

/-- `MemRead(addr, n)` (R63); it always succeeds. -/
def memRead (c : Cfg) (a : Addr) (n : Nat) : Cmd Bytes := fun s =>
  if n = 0 then .ok [] s else .ok (fetched c s a n) (s.record (.memRead a n))

/-- U6: the bytes an emitting phase leaves when reset is asserted inside it: each is the old one or the new one, by a
free value (log 7). -/
def tornBytes (c : Cfg) (k : Nat) (old new : Bytes) : Bytes :=
  (old.zip new).mapIdx fun i on => if c.torn k i then on.2 else on.1

/-- The host asserts reset in the phase that is now in `PH`. -/
def resetNow : List LiveSlot → Bool
  | [] => false
  | slot :: _ => slot.reset

/-- What reaches data memory of the `v` written at `a` by an emitting phase: `v`, or a torn mixture when the host
asserts reset before the phase is over. -/
def emitted (c : Cfg) (s : State) (a : Addr) (v : Bytes) : Bytes :=
  if resetNow s.live then tornBytes c s.commands (s.mem.readBytes a.toNat v.length) v else v

/-- `MemWrite(addr, n, v)` (R64), by an emitting phase (R220); it always succeeds. Bytes beyond the top are written only
after both copies of a pointer check were inverted, and have no address to go to then (R60, R64 "nowhere else"; log 11). -/
def memWrite (c : Cfg) (a : Addr) (v : Bytes) : Cmd Unit := fun s =>
  if v.length = 0 then .ok () s
  else .ok () ((s.setMem (s.mem.writeBytes a.toNat (emitted c s a (v.take (roomAbove a))))).record
    (.memWrite a v.length))

/-! ### Double evaluation -/

/-- R250: one evaluation of both copies; the oracle is consulted afresh each time. -/
def evalTwice (c : Cfg) (site : Site) (pred : Bool) : Cmd Verdict := fun s =>
  .ok (verdict (pred ^^ c.glitch s.commands s.evals site .A) (pred ^^ c.glitch s.commands s.evals site .B))
    s.bumpEvals

/-- R250: the answer to a verdict; copies that differ set ALARM and end the command. -/
def settle : Verdict → Cmd Bool
  | .pass => pure true
  | .fail => pure false
  | .split => do
    modify fun s => s.setAlarm
    raise .glitchError 0

/-- `CritEval(site, pred)` (R250). -/
def critEval (c : Cfg) (site : Site) (pred : Bool) : Cmd Bool := do
  let v ← evalTwice c site pred
  settle v

/-- Go on when a condition holds, else raise. -/
def ensure (b : Bool) (k : Kind) (info : Word) : Cmd Unit :=
  if b then pure () else raise k info

/-- `if not CritEval(site, pred): raise k(info)`. -/
def check (c : Cfg) (site : Site) (pred : Bool) (k : Kind) (info : Word) : Cmd Unit := do
  let b ← critEval c site pred
  ensure b k info

/-! ### Provider calls -/

/-- R87: the descriptor of a selector that S_PARAM passed. -/
def resolve (c : Cfg) (sel : Word) : Cmd HashDescriptor := pure (c.descriptor sel)

/-- `Digest(sel, x)` (R100). -/
def digest (c : Cfg) (sel : Word) (x : Bytes) : Cmd Bytes := do
  let s ← get
  modify fun s => s.bumpHashCalls.record (.digest c.hashInstance sel x.length)
  let status := c.hashFail s.commands s.hashCalls
  check c .hashStatus (status == 0) .hashFailure status
  pure (c.hashH c.hashInstance sel x)

/-- `GetRandom(n)` (R101). -/
def getRandom (c : Cfg) (n : Nat) : Cmd Bytes := do
  let s ← get
  record (.draw n)
  let drawn := c.entropy s.commands n
  check c .rngStatus (drawn.1 == 0) .entropyFailure drawn.1
  pure drawn.2

/-! ### Acceptance and the exit point -/

/-- R222: `EXIT(kind, info)`. ENG_RST is 1 here (step a). -/
def exitPoint (c : Cfg) (k : Kind) (info : Word) : Cmd Unit := do
  phase c .exitScrub
  modify fun s => s.scrub c
  phase c .exitStatus
  modify fun s => s.complete k info

/-- The state of a result. -/
def stateOf {α : Type} : EStateM.Result Stop State α → State
  | .ok _ s => s
  | .error _ s => s

/-- R218, R222: a body run on an accepted command, then the exit point with the kind it ended with; after a reset there
is no exit point (R282). -/
def runBody (c : Cfg) (body : Cmd Unit) (s : State) : State :=
  match body s with
  | .ok _ t => stateOf (exitPoint c .success 0 t)
  | .error (.raised k info) t => stateOf (exitPoint c k info t)
  | .error .resetHit t => t

/-- A write of a command word to CMD (R28): dropped while BUSY = 1 (R290), answered at once while ALARM = 1 (R221),
else accepted and run to its end (R217). `names` are the regions the command names (R296). -/
def issue (c : Cfg) (body : Cmd Unit) (names : Named) (s : State) : Host.Outcome State Fault Refusal :=
  if s.busy then .next s
  else if s.alarm then .next s.answerLocked
  else (runBody c body (s.accept c names)).conclude names s.live

/-- R218: the body of a word that is no command. -/
def illegalBody : Cmd Unit := raise .illegalCommand 0

end Sys2Proof.Machine
end

