-- ==== Sys2Proof/Machine/ModExp.lean ====
section
/-! DEFINITION. The modular-exponentiation wrapper (R172 to R189): the engine call in its release and hold bracket, and
the meanings of EXP_PLAIN and EXP_CRT. -/

namespace Sys2Proof.Machine

/-- R176: the bytes of every operand in a list, in its order. -/
def readOperands (c : Cfg) : List (Ptr × Nat) → Cmd (List Bytes)
  | [] => pure []
  | (p, n) :: rest => do
    let s ← get
    let x ← memRead c (s.regs.ptr p) n
    let xs ← readOperands c rest
    pure (x :: xs)

/-- R175, R176: an optional operand, absent when its pointer is 0. -/
def readOptional (c : Cfg) (p : Ptr) (n : Nat) : Cmd (Option Bytes) := do
  let s ← get
  if s.regs.ptr p = 0 then pure none
  else do
    let x ← memRead c (s.regs.ptr p) n
    pure (some x)

/-- R176: every optional operand in a list, in its order. -/
def readOptionals (c : Cfg) : List (Ptr × Nat) → Cmd (List (Option Bytes))
  | [] => pure []
  | (p, n) :: rest => do
    let x ← readOptional c p n
    let xs ← readOptionals c rest
    pure (x :: xs)

/-- R176: the base, from memory or from EM. -/
def readBase (c : Cfg) : BaseOperand → Cmd Bytes
  | .pointer a => memRead c a c.K
  | .internal => do
    let s ← get
    pure (s.work.em.take c.K)

/-- R172: the operands of a plain call in the order of `mandatoryOps` and `optionalOps`. -/
def plainOps (c : Cfg) (base : Bytes) (mand : List Bytes) (opt : List (Option Bytes)) : PlainOps where
  base     := base
  exponent := mand.getD 0 []
  modulus  := mand.getD 1 []
  p        := opt.getD 0 none
  q        := opt.getD 1 none
  pub      := opt.getD 2 none
  totient  := opt.getD 3 none
  bitLen   := bitLen c

/-- R173: the operands of a CRT call in the order of `mandatoryOps` and `optionalOps`. -/
def crtOps (c : Cfg) (base : Bytes) (mand : List Bytes) (opt : List (Option Bytes)) : CrtOps where
  base    := base
  p       := mand.getD 0 []
  q       := mand.getD 1 []
  dp      := mand.getD 2 []
  dq      := mand.getD 3 []
  qinv    := mand.getD 4 []
  pub     := opt.getD 0 none
  modulus := opt.getD 1 none
  bitLen  := bitLen c

/-- R172, R173: the engine as a function of its operands. -/
def engineResultOf (c : Cfg) (kind : ExpKind) (base : Bytes) (mand : List Bytes) (opt : List (Option Bytes)) :
    Word × Bytes :=
  match kind with
  | .plain => c.enginePlain (plainOps c base mand opt)
  | .crt => c.engineCrt (crtOps c base mand opt)

/-- R172, R173, R174 (a): one engine call; a drawn failure replaces the status (log 3). DESIGN CHOICE (log 3, log 11):
the bytes are "meaningful only when `s = 0`" (R172), so those of a failed call are a free value; a command uses them
only when both copies of S_EXP_STATUS were inverted (U8). -/
def engineAnswer (c : Cfg) (k : Nat) (kind : ExpKind) (base : Bytes) (mand : List Bytes)
    (opt : List (Option Bytes)) : Word × Bytes :=
  let r := engineResultOf c kind base mand opt
  let status := if c.engineFail k = 0 then r.1 else c.engineFail k
  (status, if status = 0 then r.2 else c.failedResult k)

/-- R176, R182: the engine invoked while released; its result lands in RES and its status is the value. -/
def engineCall (c : Cfg) (kind : ExpKind) (base : Bytes) (mand : List Bytes) (opt : List (Option Bytes)) :
    Cmd Word := do
  record (.engCall kind)
  let s ← get
  let r := engineAnswer c s.commands kind base mand opt
  modify fun s => s.setWork { s.work with res := put s.work.res 0 r.2 }
  pure r.1

/-- R176, R177: the `HOLD` label, `ENG_RST <- 1`, never skipped. -/
def hold (c : Cfg) : Cmd Unit := do
  phase c .expHold
  modify fun s => s.setEngRst true

/-- R176, R177: S_EXP_PTR. Both ways it can stop the wrapper, `fail` and `split`, go through HOLD first. -/
def expCheck (c : Cfg) (kind : ExpKind) (base : BaseOperand) (resultToMemory : Bool) : Cmd Unit := do
  phase c .expCheck
  let s ← get
  let v ← evalTwice c .expPtr (expParamsOk c kind base resultToMemory s.regs)
  match v with
  | .pass => pure ()
  | .fail => do
    hold c
    raise .exponentInvalidParam 0
  | .split => do
    modify fun s => s.setAlarm
    hold c
    raise .glitchError 0

/-- R179: the held read-back; an agreed `fail` sets ALARM as a `split` does (R252). -/
def expHeldCheck (c : Cfg) : Cmd Unit := do
  let s ← get
  let v ← evalTwice c .expHeld s.engRst
  match v with
  | .pass => pure ()
  | .fail => do
    modify fun s => s.setAlarm
    raise .glitchError 0
  | .split => do
    modify fun s => s.setAlarm
    raise .glitchError 0

/-- `ExpWrap(kind, base, resultToMemory)` (R176); the result is in RES. -/
def expWrap (c : Cfg) (kind : ExpKind) (base : BaseOperand) (resultToMemory : Bool) : Cmd Unit := do
  expCheck c kind base resultToMemory
  let b ← readBase c base
  let mand ← readOperands c (mandatoryOps c kind)
  let opt ← readOptionals c (optionalOps c kind)
  phase c .expRelease
  modify fun s => s.setEngRst false
  phase c .expRun
  let status ← engineCall c kind b mand opt
  hold c
  phase c .expVerify
  expHeldCheck c
  check c .expStatus (status == 0) .engineFailure status

/-- R176: the wrapper on the base pointer register, its result to OP_RES_ADDR. -/
def expCommand (c : Cfg) (kind : ExpKind) : Cmd Unit := do
  let s ← get
  expWrap c kind (.pointer s.regs.opBase) true
  phase c .expEmit
  let s ← get
  memWrite c s.regs.opRes (s.work.res.take c.K)

/-- R170: the body of EXP_PLAIN. -/
def expPlainBody (c : Cfg) : Cmd Unit := expCommand c .plain

/-- R171: the body of EXP_CRT; the result is written as the engine gave it. -/
def expCrtBody (c : Cfg) : Cmd Unit := expCommand c .crt

/-- R170: EXP_PLAIN on a configuration. -/
def runExpPlain (c : Cfg) (s : State) : Host.Outcome State Fault Refusal :=
  issue c (expPlainBody c) (namedRegions c .expPlain s.regs) s

/-- R171: EXP_CRT on a configuration. -/
def runExpCrt (c : Cfg) (s : State) : Host.Outcome State Fault Refusal :=
  issue c (expCrtBody c) (namedRegions c .expCrt s.regs) s

/-- R170: the meaning of EXP_PLAIN. -/
def execExpPlain (s : State) : Host.Outcome State Fault Refusal := runExpPlain Config.cfg s

/-- R171: the meaning of EXP_CRT. -/
def execExpCrt (s : State) : Host.Outcome State Fault Refusal := runExpCrt Config.cfg s

end Sys2Proof.Machine
end

