-- ==== Sys2Proof/Machine/MaskGenerator.lean ====
section
/-! DEFINITION. The mask generator (R102 to R106), an internal operation built on Digest. -/

namespace Sys2Proof.Machine

/-- R102: the counter loop; it calls Digest while fewer than `outLen` bytes are there. `fuel` bounds the calls left and
is never what ends the loop, since a digest has at least one byte (R9; log 11). -/
def mgfLoop (c : Cfg) (sel : Word) (seed : Bytes) (outLen : Nat) : Nat → Nat → Bytes → Cmd Bytes
  | 0, _, t => pure t
  | fuel + 1, ctr, t =>
    if t.length < outLen then do
      let d ← digest c sel (seed ++ be32 ctr)
      mgfLoop c sel seed outLen fuel (ctr + 1) (t ++ d)
    else pure t

/-- R102: `MASK <- MGF(sel, seed, outLen)`. -/
def mgf (c : Cfg) (sel : Word) (seed : Bytes) (outLen : Nat) : Cmd Unit := do
  let t ← mgfLoop c sel seed outLen outLen 0 []
  modify fun s => s.setWork { s.work with mask := put s.work.mask 0 (t.take outLen) }

end Sys2Proof.Machine
end

