-- ==== Sys2Proof/Machine/OaepEncode.lean ====
section
/-! DEFINITION. OAEP encode (R120 to R136): steps 1 to 8, and the meaning of ENCODE. -/

namespace Sys2Proof.Machine

/-- R122, step 2: the predicate of S_ENC_LEN. -/
def messageFits (c : Cfg) (h : Nat) (r : Regs) : Bool := decide ((r.inLen.toNat : Int) ≤ actualMaxMsgLen c h)

/-- R121, R122: steps 1 and 2; the hash length of the selector. -/
def encodeChecks (c : Cfg) : Cmd Nat := do
  phase c .encCheck
  let s ← get
  check c .param (encodeParamsOk c s.regs) .invalidParam 0
  let d ← resolve c s.regs.hashSel
  check c .encLen (messageFits c d.hashLen s.regs) .invalidMessageLength 0
  pure d.hashLen

/-- R123: the input copy, the message into MSG; the label is the value. Of a message that does not fit MSG keeps what
fits, and nothing reads it (log 11). -/
def encodeLoad (c : Cfg) : Cmd Bytes := do
  let s ← get
  let m ← memRead c s.regs.inp s.regs.inLen.toNat
  modify fun s => s.setWork { s.work with msg := put s.work.msg 0 m }
  memRead c s.regs.label s.regs.labelLen.toNat

/-- R124: step 3, the label hash at the start of DB. -/
def encodeLabelHash (c : Cfg) (label : Bytes) : Cmd Unit := do
  phase c .encLhash
  let s ← get
  let lh ← digest c s.regs.hashSel label
  modify fun s => s.setWork { s.work with db := put s.work.db 0 lh }

/-- R125: PS, the separator and the message of `m` bytes behind the label hash. -/
def filledDb (c : Cfg) (h m : Nat) (w : Work) : Bytes :=
  put (put (put w.db h (zeros (maxMessageLen c h - m))) (dbLen c h - m - 1) [0x01]) (dbLen c h - m) (w.msg.take m)

/-- R125: step 4. A message that does not fit gets here only after both copies of S_ENC_LEN were inverted, and the data
block is a free value of its own capacity then (U8; log 11). -/
def encodeBuild (c : Cfg) (h : Nat) : Cmd Unit := do
  phase c .encBuild
  modify fun s => s.setWork { s.work with
    db := if messageFits c h s.regs then filledDb c h s.regs.inLen.toNat s.work
      else put s.work.db 0 (c.crowded s.commands) }

/-- R126: step 5, the seed. -/
def encodeSeed (c : Cfg) (h : Nat) : Cmd Unit := do
  phase c .encSeed
  let r ← getRandom c h
  modify fun s => s.setWork { s.work with seed := put s.work.seed 0 r }

/-- `DB <- DB ^ MASK` on the first `n` bytes (R127, R146). -/
def maskDb (n : Nat) : Cmd Unit :=
  modify fun s => s.setWork { s.work with db := put s.work.db 0 (xorBytes (s.work.db.take n) (s.work.mask.take n)) }

/-- `SEED <- SEED ^ MASK` on the first `n` bytes (R128, R146). -/
def maskSeed (n : Nat) : Cmd Unit :=
  modify fun s =>
    s.setWork { s.work with seed := put s.work.seed 0 (xorBytes (s.work.seed.take n) (s.work.mask.take n)) }

/-- R127: step 6. -/
def encodeDbMask (c : Cfg) (h : Nat) : Cmd Unit := do
  phase c .encDbMask
  let s ← get
  mgf c s.regs.hashSel (s.work.seed.take h) (dbLen c h)
  maskDb (dbLen c h)

/-- R128: step 7. -/
def encodeSeedMask (c : Cfg) (h : Nat) : Cmd Unit := do
  phase c .encSeedMask
  let s ← get
  mgf c s.regs.hashSel (s.work.db.take (dbLen c h)) h
  maskSeed h

/-- R120, R129: step 8, `EM <- 0x00 ‖ SEED ‖ DB`. -/
def assembleEm (c : Cfg) (h : Nat) : Cmd Unit :=
  modify fun s =>
    s.setWork { s.work with em := put s.work.em 0 ([0x00] ++ s.work.seed.take h ++ s.work.db.take (dbLen c h)) }

/-- R120: steps 1 to 7 of EncodeCore; the value is the hash length. Step 8 is the caller's: in ENCODE it is in phase
ENC_EMIT, in ENCRYPT at the end of ENC_SEEDMASK (R219; log 14). -/
def encodeCore (c : Cfg) : Cmd Nat := do
  let h ← encodeChecks c
  let label ← encodeLoad c
  encodeLabelHash c label
  encodeBuild c h
  encodeSeed c h
  encodeDbMask c h
  encodeSeedMask c h
  pure h

/-- R120: the body of ENCODE. -/
def encodeBody (c : Cfg) : Cmd Unit := do
  let h ← encodeCore c
  phase c .encEmit
  assembleEm c h
  let s ← get
  memWrite c s.regs.out (s.work.em.take c.K)

/-- R120: ENCODE on a configuration. -/
def runEncode (c : Cfg) (s : State) : Host.Outcome State Fault Refusal :=
  issue c (encodeBody c) (namedRegions c .encode s.regs) s

/-- R120: the meaning of ENCODE. -/
def execEncode (s : State) : Host.Outcome State Fault Refusal := runEncode Config.cfg s

end Sys2Proof.Machine
end

