-- ==== Sys2Proof/Machine/OaepDecode.lean ====
section
/-! DEFINITION. OAEP decode (R140 to R160): steps 1 to 9, and the meaning of DECODE. -/

namespace Sys2Proof.Machine

/-- R141: step 1; the hash length of the selector. -/
def decodeChecks (c : Cfg) : Cmd Nat := do
  phase c .decCheck
  let s ← get
  check c .param (decodeParamsOk c s.regs) .invalidParam 0
  let d ← resolve c s.regs.hashSel
  pure d.hashLen

/-- R142: `EM <- MemRead(IN_ADDR, K)`, DECODE's way to load the block. -/
def loadEmFromMemory (c : Cfg) : Cmd Unit := do
  let s ← get
  let em ← memRead c s.regs.inp c.K
  modify fun s => s.setWork { s.work with em := put s.work.em 0 em }

/-- R142: the label. -/
def loadLabel (c : Cfg) : Cmd Bytes := do
  let s ← get
  memRead c s.regs.label s.regs.labelLen.toNat

/-- R143: step 2, the leading byte. -/
def decodeLeadingByte (c : Cfg) : Cmd Unit := do
  phase c .decY
  let s ← get
  check c .decY (s.work.em.take 1 == [0x00]) .byteMismatchError 0

/-- R144: step 3, the label hash into LHASH. -/
def decodeLabelHash (c : Cfg) (label : Bytes) : Cmd Unit := do
  phase c .decLhash
  let s ← get
  let lh ← digest c s.regs.hashSel label
  modify fun s => s.setWork { s.work with lhash := put s.work.lhash 0 lh }

/-- R145: step 4, MaskedSeed into SEED and MaskedDB into DB. -/
def decodeSplit (c : Cfg) (h : Nat) : Cmd Unit :=
  modify fun s =>
    s.setWork { s.work with
      seed := put s.work.seed 0 (slice s.work.em 1 (1 + h))
      db := put s.work.db 0 (slice s.work.em (1 + h) c.K) }

/-- R146: step 5, the seed unmasked. -/
def decodeSeedMask (c : Cfg) (h : Nat) : Cmd Unit := do
  phase c .decSeedMask
  let s ← get
  mgf c s.regs.hashSel (s.work.db.take (dbLen c h)) h
  maskSeed h

/-- R146: step 5, the data block unmasked. -/
def decodeDbMask (c : Cfg) (h : Nat) : Cmd Unit := do
  phase c .decDbMask
  let s ← get
  mgf c s.regs.hashSel (s.work.seed.take h) (dbLen c h)
  maskDb (dbLen c h)

/-- R149: step 6, `acc`. -/
def decodeCompare (c : Cfg) (h : Nat) : Cmd Unit := do
  phase c .decCmp
  modify fun s => s.setFlags { s.flags with acc := compareAcc (s.work.db.take h) (s.work.lhash.take h) }

/-- R150: step 7, `found`, `viol`, `sep`. -/
def decodeScan (c : Cfg) (h : Nat) : Cmd Unit := do
  phase c .decScan
  modify fun s =>
    let f := scanPadding h (slice s.work.db h (dbLen c h))
    s.setFlags { s.flags with found := f.found, viol := f.viol, sep := f.sep }

/-- R151: step 8, `mLen`. -/
def decodeLength (c : Cfg) (h : Nat) : Cmd Unit := do
  phase c .decLen
  modify fun s => s.setFlags { s.flags with mLen := messageLength (dbLen c h) s.flags.sep }

/-- R152, R154: the single evaluation point. All three sites are evaluated before any verdict is answered (R246;
log 14); the first failing one in step order names the kind. -/
def decodeEval (c : Cfg) (h : Nat) : Cmd Unit := do
  phase c .decEval
  let s ← get
  let v6 ← evalTwice c .decLhash (s.flags.acc == 0)
  let v7 ← evalTwice c .decPs (s.flags.found && !s.flags.viol)
  let v8 ← evalTwice c .decLen (decide (s.flags.mLen ≤ maxMessageLen c h))
  let e6 ← settle v6
  let e7 ← settle v7
  let e8 ← settle v8
  ensure e6 (structuralKind s.collapse .dataCompareError) 0
  ensure e7 (structuralKind s.collapse .dbMismatchError) 0
  ensure e8 (structuralKind s.collapse .invalidMessageLength) 0

/-- R140: steps 1 to 8 of DecodeCore; the value is the message. `load` puts the PaddedBlock into EM. -/
def decodeCore (c : Cfg) (load : Cmd Unit) : Cmd Bytes := do
  let h ← decodeChecks c
  load
  let label ← loadLabel c
  decodeLeadingByte c
  decodeLabelHash c label
  decodeSplit c h
  decodeSeedMask c h
  decodeDbMask c h
  decodeCompare c h
  decodeScan c h
  decodeLength c h
  decodeEval c h
  let s ← get
  pure (slice s.work.db (s.flags.sep + 1) (dbLen c h))

/-- R153: step 9, the message to OUT_ADDR and its length to OUT_LEN. -/
def decodeCopy (c : Cfg) (m : Bytes) : Cmd Unit := do
  phase c .decCopy
  let s ← get
  memWrite c s.regs.out m
  modify fun s => s.setOutLen (BitVec.ofNat 32 m.length)

/-- R140: the body of DECODE. -/
def decodeBody (c : Cfg) : Cmd Unit := do
  let m ← decodeCore c (loadEmFromMemory c)
  decodeCopy c m

/-- R140: DECODE on a configuration. -/
def runDecode (c : Cfg) (s : State) : Host.Outcome State Fault Refusal :=
  issue c (decodeBody c) (namedRegions c .decode s.regs) s

/-- R140: the meaning of DECODE. -/
def execDecode (s : State) : Host.Outcome State Fault Refusal := runDecode Config.cfg s

end Sys2Proof.Machine
end

