-- ==== Sys2Proof/Machine/Composite.lean ====
section
/-! DEFINITION. The composite commands ENCRYPT and DECRYPT (R200 to R208). -/

namespace Sys2Proof.Machine

/-- R202: `EM <- rev(X)` over all K bytes of the engine's result. -/
def reverseResult (c : Cfg) : Cmd Unit := do
  phase c .rev
  modify fun s => s.setWork { s.work with em := put s.work.em 0 (revBytes (s.work.res.take c.K)) }

/-- R200: the body of ENCRYPT. -/
def encryptBody (c : Cfg) : Cmd Unit := do
  let h ← encodeCore c
  assembleEm c h
  expWrap c .plain .internal false
  phase c .expEmit
  let s ← get
  memWrite c s.regs.out (s.work.res.take c.K)

/-- R201: the body of DECRYPT; the block to decode is in EM already. -/
def decryptBody (c : Cfg) : Cmd Unit := do
  let s ← get
  expWrap c .crt (.pointer s.regs.inp) false
  reverseResult c
  let m ← decodeCore c (pure ())
  decodeCopy c m

/-- R200: ENCRYPT on a configuration. -/
def runEncrypt (c : Cfg) (s : State) : Host.Outcome State Fault Refusal :=
  issue c (encryptBody c) (namedRegions c .encrypt s.regs) s

/-- R201: DECRYPT on a configuration. -/
def runDecrypt (c : Cfg) (s : State) : Host.Outcome State Fault Refusal :=
  issue c (decryptBody c) (namedRegions c .decrypt s.regs) s

/-- R200: the meaning of ENCRYPT. -/
def execEncrypt (s : State) : Host.Outcome State Fault Refusal := runEncrypt Config.cfg s

/-- R201: the meaning of DECRYPT. -/
def execDecrypt (s : State) : Host.Outcome State Fault Refusal := runDecrypt Config.cfg s

end Sys2Proof.Machine
end

