-- ==== Sys2Proof/Machine/HostBus.lean ====
section
/-! DEFINITION. What the host does between commands (R95, R290, R291, R280), but for the write of a command word. -/

namespace Sys2Proof.Machine

/-- R33: a host read of the register at an aligned offset; its value is kept with the offset. -/
def hostRead (c : Cfg) (i : Fin 64) (s : State) : State :=
  s.note (.reg s.ph (4 * i.val) (readReg c s (regAt i)))

/-- R83, R218: a word that is no command written to CMD; accepted, it ends with IllegalCommand at once. -/
def issueIllegal (c : Cfg) (s : State) : Host.Outcome State Fault Refusal := issue c illegalBody {} s

/-- R95: the host places bytes in data memory; the block sees them at once (R296 P8). -/
def hostMemWrite (a : Addr) (bytes : Bytes) (s : State) : Host.Outcome State Fault Refusal :=
  if inSpace a bytes.length then .next (s.setMem (s.mem.writeBytes a.toNat bytes))
  else .refused (.hostMemoryAccess a bytes.length)

/-- R296 P8: the host looks at bytes of data memory, at any but the outputs it awaits: those of the commands accepted
since it last read `BUSY = 0`. A look at one of these breaks P8 and has no meaning (R16 c, U1 `refuse`). -/
def hostMemRead (a : Addr) (n : Nat) (s : State) : Host.Outcome State Fault Refusal :=
  if inSpace a n then
    if clearOf s.log.awaited a n then .next (s.note (.mem a (s.mem.readBytes a.toNat n)))
    else .fault .hostPremiseBroken
  else .refused (.hostMemoryAccess a n)

end Sys2Proof.Machine
end

