-- ==== Sys2Proof/Machine/Step.lean ====
section
/-! DEFINITION. One step: the next access of the host's script (R11, R95, R300; log 5). A write of a command word to CMD
runs the command. -/

namespace Sys2Proof.Machine

/-- R28, R217, R218: a word written to CMD. -/
def commandWrite (w : Word) (s : State) : Host.Outcome State Fault Refusal :=
  match decodeWord w with
  | .instr i => exec i s
  | .illegal _ => issueIllegal Config.cfg s

/-- A host write at a raw offset. -/
def busWrite (off : Nat) (v : Word) (s : State) : Host.Outcome State Fault Refusal :=
  match regIndex off with
  | none => .refused (.registerAccess off)
  | some i =>
    match regAt i with
    | .cmd => commandWrite v s
    | r => .next (hostWrite s v r)

/-- A host read at a raw offset. -/
def busRead (off : Nat) (s : State) : Host.Outcome State Fault Refusal :=
  match regIndex off with
  | none => .refused (.registerAccess off)
  | some i => .next (hostRead Config.cfg i s)

/-- One access of the host. -/
def hostEvent (e : HostEvent) (s : State) : Host.Outcome State Fault Refusal :=
  match e with
  | .wr off v => busWrite off v s
  | .rd off => busRead off s
  | .mem a bytes => hostMemWrite a bytes s
  | .look a n => hostMemRead a n s
  | .reset => .next (s.hardReset Config.cfg)

/-- One step of the machine. With no access to come the block rests (R263: "a block with `BUSY = 0` is simply
idle"). -/
def step (s : State) : Host.Outcome State Fault Refusal :=
  match s.script with
  | [] => .next s
  | e :: rest => hostEvent e { s with script := rest }

/-- The table word of `nbits` bits as the value of the host's next access, a write to CMD at offset 0x000: where step
fetches its next instruction (log 5). -/
def State.withFetchWord (s : State) (nbits w : Nat) : State :=
  { s with script := .wr 0x000 (BitVec.ofNat 32 (w % 2 ^ nbits)) :: s.script }

end Sys2Proof.Machine
end

