-- ==== Sys2Proof/Machine/Bindings.lean ====
section
/-! DEFINITION. The test bindings of the spec's vectors (spec/95_test_vectors.md section 1.2, R183): toy hashes, the
reference engine, the configuration T16. None is part of the hardware; the machine's own deployment is opaque (log 1,
log 17). -/

namespace Sys2Proof.Machine

/-! ### Integers and byte strings (R183) -/

/-- `int(X)`: the big-endian integer of a byte string. -/
def intBE (x : Bytes) : Nat := x.foldl (fun acc b => acc * 256 + b.toNat) 0

/-- `bytesBE(v, n)`: `n` bytes, most significant first. -/
def bytesBE (v : Nat) : Nat → Bytes
  | 0 => []
  | n + 1 => BitVec.ofNat 8 (v / 256 ^ n) :: bytesBE v n

/-- `b ^ e mod n` by squaring; `fuel` bounds the bits of `e` looked at. -/
def powMod (n : Nat) : Nat → Nat → Nat → Nat
  | 0, _, _ => 1 % n
  | fuel + 1, b, e =>
    if e = 0 then 1 % n
    else
      let r := powMod n fuel (b * b % n) (e / 2)
      if e % 2 = 1 then r * b % n else r

/-- R183, `RefEngine.plain`. -/
def refPlain (K : Nat) (o : PlainOps) : Word × Bytes :=
  let n := intBE o.modulus
  if n = 0 then (1, zeros K)
  else (0, bytesBE (powMod n (8 * o.exponent.length) (intBE o.base) (intBE o.exponent)) K)

/-- R183, `RefEngine.crt`: the result is in reversed byte order. -/
def refCrt (K : Nat) (o : CrtOps) : Word × Bytes :=
  let p := intBE o.p
  let q := intBE o.q
  if p = 0 ∨ q = 0 then (1, zeros K)
  else
    let c := intBE o.base
    let m1 := powMod p (8 * o.dp.length) c (intBE o.dp)
    let m2 := powMod q (8 * o.dq.length) c (intBE o.dq)
    let hh := ((intBE o.qinv : Int) * ((m1 : Int) - (m2 : Int)) % (p : Int)).toNat
    (0, (bytesBE (m2 + hh * q) K).reverse)

/-! ### Toy hashes -/

/-- `F(x)` of the vectors. -/
def toyF (x : Bytes) : Word := x.foldl (fun s b => (s ^^^ b.zeroExtend 32) * 0x01000193) 0x811C9DC5

/-- `TOY4`. -/
def toy4 (x : Bytes) : Bytes := be32 (toyF x).toNat

/-- `TOY2`. -/
def toy2 (x : Bytes) : Bytes :=
  let f := (toyF x).toNat
  let v := (f >>> 16) ^^^ (f % 65536)
  [BitVec.ofNat 8 (v >>> 8), BitVec.ofNat 8 v]

/-- `TOY6`. -/
def toy6 (x : Bytes) : Bytes := toy4 x ++ toy2 x

/-- The hash function of T16: selectors 1, 2, 3. -/
def toyHash (_inst : Nat) (sel : Word) (x : Bytes) : Bytes :=
  if sel = 1 then toy4 x else if sel = 2 then toy2 x else toy6 x

/-- The entropy binding: the first bytes of AA BB CC DD EE FF. -/
def toyEntropy (_k n : Nat) : Word × Bytes :=
  (0, ([0xAA, 0xBB, 0xCC, 0xDD, 0xEE, 0xFF] ++ zeros n).take n)

/-- Configuration T16 with its bindings: no provider fails and nothing is glitched. -/
def t16Cfg : Cfg where
  K            := 16
  href         := 4
  hashTable    := [(1, ⟨1, 4, 0⟩), (2, ⟨2, 2, 0⟩), (3, ⟨3, 6, 0⟩)]
  hashInstance := 0
  lenE         := 4
  hashH        := toyHash
  hashFail     := fun _ _ => 0
  entropy      := toyEntropy
  enginePlain  := refPlain 16
  engineCrt    := refCrt 16
  engineFail   := fun _ => 0
  failedResult := fun _ => zeros 16
  glitch       := fun _ _ _ _ => false
  torn         := fun _ _ => false
  stray        := fun _ => ⟨3, 6, 0⟩

/-- `bytesBE` gives as many bytes as asked for. -/
theorem length_bytesBE (v n : Nat) : (bytesBE v n).length = n := by
  induction n with
  | zero => rfl
  | succ n ih => simp [bytesBE, ih]

/-- The digests of T16 have the lengths of its hash table. -/
theorem t16_hashLength (sel : Word) (x : Bytes) : (toyHash 0 sel x).length = (t16Cfg.descriptor sel).hashLen := by
  simp only [Cfg.descriptor, Cfg.lookup, t16Cfg, List.lookup, toyHash]
  by_cases h1 : sel = 1
  · subst h1; rfl
  · by_cases h2 : sel = 2
    · subst h2; rfl
    · by_cases h3 : sel = 3
      · subst h3; rfl
      · rw [beq_eq_false_iff_ne.mpr h1, beq_eq_false_iff_ne.mpr h2, beq_eq_false_iff_ne.mpr h3, if_neg h1, if_neg h2]
        rfl

/-- The bindings of T16 keep the lengths of their ports. -/
theorem t16_lawful : t16Cfg.Lawful where
  strayOk := fun _ => rfl
  hashLength := t16_hashLength
  entropyLength := by intro k n; simp [t16Cfg, toyEntropy]; omega
  plainLength := by
    intro o
    simp only [t16Cfg, refPlain]
    split
    · rfl
    · exact length_bytesBE _ _
  crtLength := by
    intro o
    simp only [t16Cfg, refCrt]
    split
    · rfl
    · simp [length_bytesBE]
  failedLength := fun _ => rfl

/-- T16 as a deployment. -/
def t16 : Deployment where
  cfg := t16Cfg
  wf := by decide
  lawful := t16_lawful

end Sys2Proof.Machine
end

