-- ==== Sys2Proof/Safety.lean ====
section
/-! DEFINITION. The terms claims are stated in: a command on a deployment, the premises of a run, the values the rules
give (R88 to R90, R102, R120, R140, R156), how a command ends (R222), projections of the recorded actions, the
invariants. -/

/-- R250: the same configuration on which nothing is ever glitched. -/
def Sys2Proof.Cfg.glitchFree (c : Sys2Proof.Cfg) : Sys2Proof.Cfg := { c with glitch := fun _ _ _ _ => false }

namespace Sys2Proof.Machine

/-! ### A command on a deployment -/

/-- The meaning of a command on a configuration: `exec` is this at the machine's own configuration. -/
def runOn (c : Cfg) (i : Instr) (s : State) : Host.Outcome State Fault Refusal :=
  match i with
  | .encode => runEncode c s
  | .decode => runDecode c s
  | .expPlain => runExpPlain c s
  | .expCrt => runExpCrt c s
  | .encrypt => runEncrypt c s
  | .decrypt => runDecrypt c s

/-- On deployment `D` command `i` takes `s` to `t`; on the machine's own deployment that is what `exec` answers. -/
def Answers (D : Deployment) (i : Instr) (s t : State) : Prop :=
  runOn D.cfg i s = .next t ∧ (D = Config.deployment → exec i s = .next t)

/-- R170, R171: the command of an entry point of the ModularExponentiator. -/
def expInstr : ExpKind → Instr
  | .plain => .expPlain
  | .crt => .expCrt

/-! ### Premises of a run -/

/-- R45, R217, R224: a CMD write is accepted here; between commands the engine is held. -/
def State.Ready (s : State) : Prop :=
  s.busy = false ∧ s.alarm = false ∧ s.engRst = true

/-- The access to data memory an access of the host makes. -/
def memAccess : LiveEvent → Option MemAccess
  | .rd _ => none
  | .wr _ _ => none
  | .mem a bytes => some (.store a bytes)
  | .look a n => some (.look a n)

/-- The host's accesses to data memory in some slots, in their order. -/
def memAccesses (l : List LiveSlot) : List MemAccess := l.flatMap fun slot => slot.accesses.filterMap memAccess

/-- The register read an access of the host makes in a phase: the phase and the offset. -/
def registerRead (p : Phase) : LiveEvent → Option (Phase × Nat)
  | .rd i => some (p, 4 * i.val)
  | .wr _ _ => none
  | .mem _ _ => none
  | .look _ _ => none

/-- The register reads the host makes in some slots, in their order, when these are the phases the slots stand in. -/
def registerReads (phases : List Phase) (slots : List LiveSlot) : List (Phase × Nat) :=
  (phases.zip slots).flatMap fun e => e.2.accesses.filterMap (registerRead e.1)

/-- The phase and the offset of a register read the host has made. -/
def HostRead.register : HostRead → Option (Phase × Nat)
  | .reg ph off _ => some (ph, off)
  | .mem _ _ => none

/-- The host asserts no reset in these slots. -/
def noReset (l : List LiveSlot) : Bool := l.all fun slot => !slot.reset

/-- A command is accepted, no reset falls inside it, and the host leaves data memory alone meanwhile; it may read and
write registers (R290). What any other host does to the command is stated apart. -/
def State.Undisturbed (s : State) : Prop := s.Ready ∧ noReset s.live = true ∧ memAccesses s.live = []

/-- The number the next accepted command gets; its draws are named by it (log 2, 3, 4). -/
def State.nextCommand (s : State) : Nat := s.commands + 1

/-- R250: the fault-free machine during command `k`. -/
def FaultFree (c : Cfg) (k : Nat) : Prop := ∀ e site copy, c.glitch k e site copy = false

/-- No Digest call of command `k` fails (R100). -/
def HashSucceeds (c : Cfg) (k : Nat) : Prop := ∀ n, c.hashFail k n = 0

/-- R255: during command `k` no evaluation has both copies inverted; at most one inversion in all implies it. -/
def NoDoubleInversion (c : Cfg) (k : Nat) : Prop :=
  ∀ e site, ¬ (c.glitch k e site .A = true ∧ c.glitch k e site .B = true)

/-- R255: during command `k` at most one copy of one evaluation is inverted. -/
def AtMostOneInversion (c : Cfg) (k : Nat) : Prop :=
  ∀ e1 e2 s1 s2 c1 c2, c.glitch k e1 s1 c1 = true → c.glitch k e2 s2 c2 = true →
    e1 = e2 ∧ s1 = s2 ∧ c1 = c2

/-- A command is accepted, no reset falls inside it, memory has its canonical form, and nothing is glitched. -/
def State.Calm (c : Cfg) (s : State) : Prop :=
  s.Undisturbed ∧ s.mem.wf = true ∧ FaultFree c s.nextCommand

/-! ### The values the rules give -/

/-- `Hash(x)` under a selector (R100). -/
def hashOf (c : Cfg) (sel : Word) (x : Bytes) : Bytes := c.hashH c.hashInstance sel x

/-- R103: `ceil(n / h)`. -/
def ceilDiv (n h : Nat) : Nat := (n + h - 1) / h

/-- R102, R103: the mask: `Hash(seed ‖ C)` for C = 0, 1, … concatenated, truncated to `n` bytes. -/
def mgfMask (c : Cfg) (sel : Word) (h : Nat) (seed : Bytes) (n : Nat) : Bytes :=
  ((List.range (ceilDiv n h)).flatMap fun ctr => hashOf c sel (seed ++ be32 ctr)).take n

/-- R89: `DB = Hash(Label) ‖ PS ‖ 0x01 ‖ Message`. -/
def dataBlock (c : Cfg) (sel : Word) (h : Nat) (label m : Bytes) : Bytes :=
  hashOf c sel label ++ zeros (maxMessageLen c h - m.length) ++ [0x01] ++ m

/-- R127: the data block masked with the mask of the seed. -/
def maskedDb (c : Cfg) (sel : Word) (h : Nat) (label m seed : Bytes) : Bytes :=
  xorBytes (dataBlock c sel h label m) (mgfMask c sel h seed (dbLen c h))

/-- R128: the seed masked with the mask of the masked data block. -/
def maskedSeed (c : Cfg) (sel : Word) (h : Nat) (label m seed : Bytes) : Bytes :=
  xorBytes seed (mgfMask c sel h (maskedDb c sel h label m seed) h)

/-- R88, R129: the PaddedBlock `0x00 ‖ MaskedSeed ‖ MaskedDB`. -/
def paddedBlock (c : Cfg) (sel : Word) (h : Nat) (label m seed : Bytes) : Bytes :=
  [0x00] ++ maskedSeed c sel h label m seed ++ maskedDb c sel h label m seed

/-- R146: the seed recovered from a PaddedBlock. -/
def recoveredSeed (c : Cfg) (sel : Word) (h : Nat) (em : Bytes) : Bytes :=
  xorBytes (slice em 1 (1 + h)) (mgfMask c sel h (slice em (1 + h) c.K) h)

/-- R146: the data block recovered from a PaddedBlock. -/
def recoveredDb (c : Cfg) (sel : Word) (h : Nat) (em : Bytes) : Bytes :=
  xorBytes (slice em (1 + h) c.K) (mgfMask c sel h (recoveredSeed c sel h em) (dbLen c h))

/-- R156: what follows the separator, when the first byte that is not 0x00 is 0x01. -/
def afterSeparator : Bytes → Option Bytes
  | [] => none
  | b :: rest => if b = 0x00 then afterSeparator rest else if b = 0x01 then some rest else none

/-- R156, R158, R154: what the rules give for a PaddedBlock when no hash call fails. -/
def decodeVerdict (c : Cfg) (sel : Word) (h : Nat) (label : Bytes) (collapse : Bool) (em : Bytes) :
    Except Kind Bytes :=
  if em.take 1 ≠ [0x00] then .error .byteMismatchError
  else if (recoveredDb c sel h em).take h ≠ hashOf c sel label then
    .error (structuralKind collapse .dataCompareError)
  else match afterSeparator ((recoveredDb c sel h em).drop h) with
    | none => .error (structuralKind collapse .dbMismatchError)
    | some m => .ok m

/-! ### What a command reads -/

/-- The label bytes a command reads (R23, R123). -/
def labelBytes (s : State) : Bytes := s.mem.readBytes s.regs.label.toNat s.regs.labelLen.toNat

/-- The message bytes ENCODE and ENCRYPT read (R24, R123). -/
def messageBytes (s : State) : Bytes := s.mem.readBytes s.regs.inp.toNat s.regs.inLen.toNat

/-- The K bytes at a pointer register. -/
def blockAt (c : Cfg) (s : State) (a : Addr) : Bytes := s.mem.readBytes a.toNat c.K

/-- The seed ENCODE and ENCRYPT draw (R126). -/
def seedDrawn (c : Cfg) (s : State) (h : Nat) : Bytes := (c.entropy s.nextCommand h).2

/-- R176: the mandatory operands in memory. -/
def mandatoryBytes (c : Cfg) (k : ExpKind) (s : State) : List Bytes :=
  (mandatoryOps c k).map fun e => s.mem.readBytes (s.regs.ptr e.1).toNat e.2

/-- R176: the optional operands in memory, absent where the pointer is 0. -/
def optionalBytes (c : Cfg) (k : ExpKind) (s : State) : List (Option Bytes) :=
  (optionalOps c k).map fun e =>
    if s.regs.ptr e.1 = 0 then none else some (s.mem.readBytes (s.regs.ptr e.1).toNat e.2)

/-- R172, R173: what the engine answers the next command for a base. -/
def engineResult (c : Cfg) (k : ExpKind) (s : State) (base : Bytes) : Word × Bytes :=
  engineAnswer c s.nextCommand k base (mandatoryBytes c k s) (optionalBytes c k s)

/-- R184, `EngineRoundTrip(pub, priv)`: a named property of the engine, no rule of the block. `pub` and `priv` are the
mandatory operands of the two calls; the optional ones, which R184 writes `…`, are arguments too, so a claim says which
it means. -/
def EngineRoundTrip (c : Cfg) (pub : List Bytes) (pubOpt : List (Option Bytes)) (priv : List Bytes)
    (privOpt : List (Option Bytes)) : Prop :=
  ∀ em : Bytes, em.length = c.K → em.take 1 = [0x00] →
    let x := c.enginePlain (plainOps c em pub pubOpt)
    let y := c.engineCrt (crtOps c x.2 priv privOpt)
    x.1 = 0 → y.1 = 0 ∧ revBytes y.2 = em

/-! ### How a command ends -/

/-- R222: the state the exit point leaves, whatever the kind. -/
structure Ended (c : Cfg) (s t : State) (k : Kind) (info : Word) : Prop where
  code : t.code = k.code
  codeN : t.codeN = k.code ^^^ 0xFF
  st : t.st = k.code
  stN : t.stN = k.code ^^^ 0xFF
  extStatus : t.extStatus = info
  busy : t.busy = false
  engRst : t.engRst = true
  phase : t.ph = if t.alarm then .locked else .idle
  work : t.work = Work.zero c
  flags : t.flags = {}
  collapse : t.collapse = s.collapse
  commands : t.commands = s.commands + 1
  script : t.script = s.script

/-- R243: no data memory written, no parameter register changed. -/
def NoOutput (s t : State) : Prop := t.mem = s.mem ∧ t.regs = s.regs

/-- R64: the bytes `v` stand at `a`, and every byte outside them is as before. -/
def Stored (s t : State) (a : Addr) (v : Bytes) : Prop :=
  t.mem.readBytes a.toNat v.length = v ∧
    ∀ x, x < a.toNat ∨ a.toNat + v.length ≤ x → t.mem.read x = s.mem.read x

/-- A command that ended without success, with no output. -/
def FailsWith (c : Cfg) (s t : State) (k : Kind) (info : Word) : Prop :=
  Ended c s t k info ∧ NoOutput s t ∧ t.alarm = false

/-- What a decode leaves, by the verdict of the rules. -/
def DecodeAnswer (c : Cfg) (s t : State) (v : Except Kind Bytes) : Prop :=
  match v with
  | .ok m => Ended c s t .success 0 ∧ t.alarm = false ∧ Stored s t s.regs.out m ∧
      t.regs = { s.regs with outLen := BitVec.ofNat 32 m.length }
  | .error k => FailsWith c s t k 0

/-- R241: the kinds a command can end with, by COLLAPSE. -/
def allowedKinds (collapse : Bool) : Instr → List Kind
  | .encode => [.success, .invalidParam, .invalidMessageLength, .hashFailure, .entropyFailure, .glitchError]
  | .decode =>
    [.success, .invalidParam, .byteMismatchError, .hashFailure, .glitchError] ++
      (if collapse then [.decodeError] else [.dataCompareError, .dbMismatchError, .invalidMessageLength])
  | .expPlain => [.success, .exponentInvalidParam, .engineFailure, .glitchError]
  | .expCrt => [.success, .exponentInvalidParam, .engineFailure, .glitchError]
  | .encrypt =>
    [.success, .invalidParam, .invalidMessageLength, .exponentInvalidParam, .hashFailure, .entropyFailure,
      .engineFailure, .glitchError]
  | .decrypt =>
    [.success, .invalidParam, .byteMismatchError, .exponentInvalidParam, .hashFailure, .engineFailure,
      .glitchError] ++
      (if collapse then [.decodeError] else [.dataCompareError, .dbMismatchError, .invalidMessageLength])

/-- R175: the pointers of an exponentiation command. -/
def expPointersOk (c : Cfg) (k : ExpKind) (r : Regs) : Bool := expParamsOk c k (.pointer r.opBase) true r

/-- R175: the key pointers of ENCRYPT. -/
def encryptPointersOk (c : Cfg) (r : Regs) : Bool := expParamsOk c .plain .internal false r

/-- R175: the pointers DECRYPT's wrapper checks. -/
def decryptPointersOk (c : Cfg) (r : Regs) : Bool := expParamsOk c .crt (.pointer r.inp) false r

/-- R64: where a command writes, and how many bytes; for DECODE and DECRYPT the count is the OUT_LEN it leaves. -/
def outputRegion (c : Cfg) (i : Instr) (s t : State) : Addr × Nat :=
  match i with
  | .encode => (s.regs.out, c.K)
  | .decode => (s.regs.out, t.regs.outLen.toNat)
  | .expPlain => (s.regs.opRes, c.K)
  | .expCrt => (s.regs.opRes, c.K)
  | .encrypt => (s.regs.out, c.K)
  | .decrypt => (s.regs.out, t.regs.outLen.toNat)

/-! ### Projections of the recorded actions, oldest first -/

/-- The actions of a command in the order they happened. -/
def actions (s : State) : List Action := s.acts.reverse

/-- The phases visited. -/
def phasesOf (l : List Action) : List Phase :=
  l.filterMap fun
    | .phase p => some p
    | .memRead _ _ => none
    | .memWrite _ _ => none
    | .digest _ _ _ => none
    | .draw _ => none
    | .engRst _ => none
    | .engCall _ => none
    | .outLen _ => none

/-- R176: the writes of the engine's line and the engine calls. -/
def bracketOf (l : List Action) : List Action :=
  l.filter fun
    | .engRst _ => true
    | .engCall _ => true
    | .phase _ => false
    | .memRead _ _ => false
    | .memWrite _ _ => false
    | .digest _ _ _ => false
    | .draw _ => false
    | .outLen _ => false

/-- R176: the writes of the engine's line and the one engine call of a full bracket. -/
def fullBracket (k : ExpKind) : List Action := [.engRst false, .engCall k, .engRst true]

/-- R176, R177, R178: what a command may do on the engine's line, by whether it ended with success. -/
def bracketAllowed (i : Instr) (success : Bool) (b : List Action) : Prop :=
  match i with
  | .encode => b = []
  | .decode => b = []
  | .expPlain => b = fullBracket .plain ∨ (success = false ∧ b = [.engRst true])
  | .expCrt => b = fullBracket .crt ∨ (success = false ∧ b = [.engRst true])
  | .encrypt => b = fullBracket .plain ∨ (success = false ∧ (b = [] ∨ b = [.engRst true]))
  | .decrypt => b = fullBracket .crt ∨ (success = false ∧ b = [.engRst true])

/-- R106: how many Digest calls were made. -/
def digestCount (l : List Action) : Nat :=
  l.countP fun
    | .digest _ _ _ => true
    | .phase _ => false
    | .memRead _ _ => false
    | .memWrite _ _ => false
    | .draw _ => false
    | .engRst _ => false
    | .engCall _ => false
    | .outLen _ => false

/-- R126: how many entropy draws were made. -/
def drawCount (l : List Action) : Nat :=
  l.countP fun
    | .draw _ => true
    | .phase _ => false
    | .memRead _ _ => false
    | .memWrite _ _ => false
    | .digest _ _ _ => false
    | .engRst _ => false
    | .engCall _ => false
    | .outLen _ => false

/-- An access to data memory. -/
def Action.isMemory : Action → Bool
  | .memRead _ _ => true
  | .memWrite _ _ => true
  | .phase _ => false
  | .digest _ _ _ => false
  | .draw _ => false
  | .engRst _ => false
  | .engCall _ => false
  | .outLen _ => false

/-- A read of data memory. -/
def Action.isRead : Action → Bool
  | .memRead _ _ => true
  | .memWrite _ _ => false
  | .phase _ => false
  | .digest _ _ _ => false
  | .draw _ => false
  | .engRst _ => false
  | .engCall _ => false
  | .outLen _ => false

/-- R219: the phases of each command on its success path. -/
def successPhases : Instr → List Phase
  | .encode =>
    [.dispatch, .encCheck, .encLhash, .encBuild, .encSeed, .encDbMask, .encSeedMask, .encEmit,
      .exitScrub, .exitStatus, .idle]
  | .decode =>
    [.dispatch, .decCheck, .decY, .decLhash, .decSeedMask, .decDbMask, .decCmp, .decScan, .decLen, .decEval, .decCopy,
      .exitScrub, .exitStatus, .idle]
  | .expPlain =>
    [.dispatch, .expCheck, .expRelease, .expRun, .expHold, .expVerify, .expEmit, .exitScrub, .exitStatus, .idle]
  | .expCrt =>
    [.dispatch, .expCheck, .expRelease, .expRun, .expHold, .expVerify, .expEmit, .exitScrub, .exitStatus, .idle]
  | .encrypt =>
    [.dispatch, .encCheck, .encLhash, .encBuild, .encSeed, .encDbMask, .encSeedMask,
      .expCheck, .expRelease, .expRun, .expHold, .expVerify, .expEmit, .exitScrub, .exitStatus, .idle]
  | .decrypt =>
    [.dispatch, .expCheck, .expRelease, .expRun, .expHold, .expVerify, .rev,
      .decCheck, .decY, .decLhash, .decSeedMask, .decDbMask, .decCmp, .decScan, .decLen, .decEval, .decCopy,
      .exitScrub, .exitStatus, .idle]

/-- R220: the phase in which a command writes data memory. -/
def emitPhase : Instr → Phase
  | .encode => .encEmit
  | .decode => .decCopy
  | .expPlain => .expEmit
  | .expCrt => .expEmit
  | .encrypt => .expEmit
  | .decrypt => .decCopy

/-- How many phases a command passes before it writes data memory (R219, R220). -/
def phasesBeforeEmit (i : Instr) : Nat := (successPhases i).idxOf (emitPhase i)

/-- R155: the actions of a decode up to the evaluation point. -/
def beforeEval (l : List Action) : List Action := l.takeWhile fun a => decide (a ≠ .phase .decEval)

/-! ### Invariants -/

/-- R224, R41, R45, R177: what holds whenever no command runs. -/
structure Resting (c : Cfg) (s : State) : Prop where
  busy : s.busy = false
  engRst : s.engRst = true
  codeN : s.codeN = s.code ^^^ 0xFF
  phase : s.ph = if s.alarm then .locked else .idle
  work : s.work = Work.zero c
  flags : s.flags = {}

/-- R10, R40: every work buffer has the capacity it has at reset. -/
structure Work.Sized (c : Cfg) (w : Work) : Prop where
  em : w.em.length = c.K
  db : w.db.length = c.K - 2
  seed : w.seed.length = (c.K - 2) / 2
  lhash : w.lhash.length = (c.K - 2) / 2
  mask : w.mask.length = c.K - 2
  msg : w.msg.length = c.K - 4
  res : w.res.length = c.K

/-- The invariant every step keeps: data memory has its canonical form, and the block rests. -/
structure Inv (c : Cfg) (s : State) : Prop where
  mem : s.mem.wf = true
  resting : Resting c s

/-- R257: a host may take a status word for success. -/
def acceptableStatus (w : Word) : Bool :=
  decide (w.extractLsb' 0 8 = 0x00) && decide (w.extractLsb' 8 8 = 0xFF) &&
    !w.getLsbD 16 && !w.getLsbD 17

/-- R21 to R33: what a register reads as after `v` was written to it, when it read `old` before. -/
def writtenValue (v old : Word) : Reg → Word
  | .cmd => 0
  | .ctrl => v &&& 1
  | .status => old
  | .extStatus => old
  | .cfgModlen => old
  | .cfgRefhash => old
  | .hashSel => v
  | .labelLen => v
  | .inLen => v
  | .outLen => v
  | .lo _ => v
  | .hi _ => v
  | .reserved => 0

/-- R282: the state a reset inside a command leaves: reset values everywhere in the block, the host's side kept. -/
def Abandoned (c : Cfg) (s t : State) : Prop :=
  t = { State.resetOn c with
        mem := t.mem, script := s.script, live := t.live, log := t.log, commands := s.commands + 1 }

end Sys2Proof.Machine
end

