-- ==== Sys2Proof/Certificates/Slice0/Obligations.lean ====
section
/-! DEFINITION. The statements for the provers. A statement about a command is made for every deployment `D` whose
configuration is well formed; its conclusion `Answers D i s t` says that the command takes `s` to `t` on `D`, and that
`exec i s` answers `next t` when `D` is the machine's own deployment, about which nothing else is known (log 1). -/

open Sys2Proof Sys2Proof.Machine

/-! ### Command words and registers -/

/-- R81, R82: a word decodes to a command exactly when it is the word of that command. -/
def Obligations.CommandWordsDecodeUniquely : Prop :=
  ∀ (w : Word) (i : Instr), decodeWord w = .instr i ↔ w = encode i

/-- R83: a word is illegal exactly when a bit of ZERO is set, OPC is 0, or OPC is 7 or more. -/
def Obligations.IllegalWordsAreExactly : Prop :=
  ∀ w : Word, (∃ why, decodeWord w = .illegal why) ↔
    (w.extractLsb' 4 28 ≠ 0 ∨ w.extractLsb' 0 4 = 0 ∨ 7 ≤ (w.extractLsb' 0 4).toNat)

/-- R82, R83: the six words as the opcode map writes them, and some that are illegal. -/
def Obligations.LiteralWordsDecode : Prop :=
  decodeTableWord 32 0x00000001 = some .encode ∧ decodeTableWord 32 0x00000002 = some .decode ∧
  decodeTableWord 32 0x00000003 = some .expPlain ∧ decodeTableWord 32 0x00000004 = some .expCrt ∧
  decodeTableWord 32 0x00000005 = some .encrypt ∧ decodeTableWord 32 0x00000006 = some .decrypt ∧
  decodeTableWord 32 0x00000000 = none ∧ decodeTableWord 32 0x00000007 = none ∧
  decodeTableWord 32 0x0000000F = none ∧ decodeTableWord 32 0x80000001 = none ∧ decodeTableWord 32 0x00000011 = none

/-- R93: the offsets of the table, written out; the decoder of offsets agrees with them, and every other offset of the
window is reserved. -/
def Obligations.RegisterOffsetsAgree : Prop :=
  (∀ e ∈ [(Reg.cmd, 0x000), (.ctrl, 0x004), (.status, 0x008), (.extStatus, 0x00C), (.cfgModlen, 0x010),
      (.cfgRefhash, 0x014), (.hashSel, 0x018), (.labelLen, 0x028), (.inLen, 0x038), (.outLen, 0x048)],
    regOffset e.1 = some e.2) ∧
  (∀ e ∈ [(Ptr.label, 0x020, 0x024), (.inp, 0x030, 0x034), (.out, 0x040, 0x044), (.opBase, 0x050, 0x054),
      (.opExp, 0x058, 0x05C), (.opMod, 0x060, 0x064), (.opP, 0x068, 0x06C), (.opQ, 0x070, 0x074),
      (.opDp, 0x078, 0x07C), (.opDq, 0x080, 0x084), (.opQinv, 0x088, 0x08C), (.opPub, 0x090, 0x094),
      (.opTot, 0x098, 0x09C), (.opRes, 0x0A0, 0x0A4)],
    regOffset (.lo e.1) = some e.2.1 ∧ regOffset (.hi e.1) = some e.2.2) ∧
  (∀ (r : Reg) (off : Nat), regOffset r = some off ↔ r ≠ .reserved ∧ ∃ i, regIndex off = some i ∧ regAt i = r) ∧
  (∀ i : Fin 64, regAt i = .reserved ↔
    4 * i.val = 0x01C ∨ 4 * i.val = 0x02C ∨ 4 * i.val = 0x03C ∨ 4 * i.val = 0x04C ∨ 0x0A8 ≤ 4 * i.val)

/-- R33: reserved offsets and reserved bits read 0 and ignore writes; no read has a side effect; CMD alone has a side
effect on write: any other write changes at most what the register written reads as. -/
def Obligations.ReservedSpaceIsInert : Prop :=
  ∀ (s : State) (i : Fin 64) (v : Word),
    (4 * i.val = 0x01C ∨ 4 * i.val = 0x02C ∨ 4 * i.val = 0x03C ∨ 4 * i.val = 0x04C ∨ 0x0A8 ≤ 4 * i.val →
      busRead (4 * i.val) s = .next (s.note (.reg s.ph (4 * i.val) 0)) ∧
      busWrite (4 * i.val) v s = .next s) ∧
    ((ctrlWord s).extractLsb' 1 31 = 0 ∧ (statusWord s).extractLsb' 19 13 = 0 ∧
      hostWrite s v .ctrl = hostWrite s (v &&& 1) .ctrl) ∧
    (∃ x, busRead (4 * i.val) s = .next (s.note (.reg s.ph (4 * i.val) x))) ∧
    (regAt i ≠ .cmd → ∃ regs col, busWrite (4 * i.val) v s = .next { s with regs := regs, collapse := col } ∧
      ∀ c r, r ≠ regAt i → readReg c { s with regs := regs, collapse := col } r = readReg c s r)

/-- R21 to R33: what each register reads as, field by field of the state; and after a write on the bus to any register
but CMD while BUSY = 0, that register reads as the rules say and every other register as before. (A write to CMD starts a
command, R28.) -/
def Obligations.RegisterReadBack : Prop :=
  (∀ (c : Cfg) (s : State),
    readReg c s .cmd = 0 ∧ (readReg c s .ctrl).getLsbD 0 = s.collapse ∧ readReg c s .status = statusWord s ∧
    readReg c s .extStatus = s.extStatus ∧ readReg c s .cfgModlen = BitVec.ofNat 32 c.K ∧
    readReg c s .cfgRefhash = BitVec.ofNat 32 c.href ∧ readReg c s .hashSel = s.regs.hashSel ∧
    readReg c s .labelLen = s.regs.labelLen ∧ readReg c s .inLen = s.regs.inLen ∧
    readReg c s .outLen = s.regs.outLen ∧ readReg c s .reserved = 0 ∧
    ∀ e ∈ [(Ptr.label, s.regs.label), (.inp, s.regs.inp), (.out, s.regs.out), (.opBase, s.regs.opBase),
        (.opExp, s.regs.opExp), (.opMod, s.regs.opMod), (.opP, s.regs.opP), (.opQ, s.regs.opQ), (.opDp, s.regs.opDp),
        (.opDq, s.regs.opDq), (.opQinv, s.regs.opQinv), (.opPub, s.regs.opPub), (.opTot, s.regs.opTot),
        (.opRes, s.regs.opRes)],
      readReg c s (.lo e.1) = e.2.extractLsb' 0 32 ∧ readReg c s (.hi e.1) = e.2.extractLsb' 32 32) ∧
  ∀ (c : Cfg) (s : State) (v : Word) (i : Fin 64), s.busy = false → regAt i ≠ .cmd →
    ∃ t, busWrite (4 * i.val) v s = .next t ∧ ∀ r, readReg c t r =
      if r = regAt i then writtenValue v (readReg c s (regAt i)) (regAt i) else readReg c s r

/-- R30, R240: the fields of the status word, and the fourteen codes with their complements; there is no other kind. -/
def Obligations.StatusWordLayout : Prop :=
  (∀ e ∈ [(Kind.success, (0x00 : Byte), (0xFF : Byte)), (.notDone, 0x01, 0xFE), (.invalidParam, 0x02, 0xFD),
      (.invalidMessageLength, 0x03, 0xFC), (.byteMismatchError, 0x04, 0xFB), (.dataCompareError, 0x05, 0xFA),
      (.dbMismatchError, 0x06, 0xF9), (.exponentInvalidParam, 0x07, 0xF8), (.hashFailure, 0x08, 0xF7),
      (.entropyFailure, 0x09, 0xF6), (.engineFailure, 0x0A, 0xF5), (.glitchError, 0x0B, 0xF4),
      (.illegalCommand, 0x0C, 0xF3), (.decodeError, 0x0D, 0xF2)],
    e.1.code = e.2.1 ∧ e.1.code ^^^ 0xFF = e.2.2) ∧
  (∀ k : Kind, k.code.toNat ≤ 0x0D) ∧ (∀ k k' : Kind, k.code = k'.code → k = k') ∧
  ∀ s : State, (statusWord s).extractLsb' 0 8 = s.code ∧ (statusWord s).extractLsb' 8 8 = s.codeN ∧
    (statusWord s).getLsbD 16 = s.busy ∧ (statusWord s).getLsbD 17 = s.alarm ∧ (statusWord s).getLsbD 18 = s.engRst ∧
    (statusWord s).extractLsb' 19 13 = 0

/-! ### Steps -/

/-- R28, R83, R217: when the host's next access writes a word to CMD, the step is that write, on the state in which the
access is used up: the command the word decodes to, or an illegal command. -/
def Obligations.StepRunsTheCommand : Prop :=
  ∀ (s : State) (w : Word) (rest : List HostEvent), s.script = .wr 0x000 w :: rest →
    step s = commandWrite w { s with script := rest } ∧
    (∀ i, decodeWord w = .instr i → step s = exec i { s with script := rest }) ∧
    (∀ why, decodeWord w = .illegal why → step s = issueIllegal Config.cfg { s with script := rest })

/-- The word of a table row placed for the next fetch is decoded and run (log 5). -/
def Obligations.FetchedWordRuns : Prop :=
  ∀ (s : State) (nbits w : Nat) (i : Instr), decodeTableWord nbits w = some i →
    step (s.withFetchWord nbits w) = exec i s

/-- `exec` is the command's run on the machine's own configuration, of which nothing is known but that it is well formed
(log 1); it is one step because provider calls are functions here (premise P6, log 10). It does not say that the run
reaches its exit point: while BUSY = 1 the command is dropped, while ALARM = 1 it is refused, and `EveryCommandEnds` says
where an accepted one ends. -/
def Obligations.ExecRunsOnDeployment : Prop :=
  ∀ (i : Instr) (s : State), exec i s = runOn Config.cfg i s

/-- R33, R95, R280, R291, R296 P8: what a step does for the other accesses of the host, and with none to come (log 5,
log 12). A reset is served in every state. A look that meets an output the host awaits has no next state. -/
def Obligations.StepServesTheHost : Prop :=
  ∀ (s : State) (rest : List HostEvent),
    (s.script = [] → step s = .next s) ∧
    (∀ (i : Fin 64) (v : Word), s.script = .wr (4 * i.val) v :: rest → regAt i ≠ .cmd →
      step s = .next (hostWrite { s with script := rest } v (regAt i))) ∧
    (∀ i : Fin 64, s.script = .rd (4 * i.val) :: rest →
      step s = .next (State.note { s with script := rest }
        (.reg s.ph (4 * i.val) (readReg Config.cfg s (regAt i))))) ∧
    (∀ (a : Addr) (b : Bytes), s.script = .mem a b :: rest → a.toNat + b.length ≤ 2 ^ 64 →
      step s = .next { s with script := rest, mem := s.mem.writeBytes a.toNat b }) ∧
    (∀ (a : Addr) (n : Nat), s.script = .look a n :: rest → a.toNat + n ≤ 2 ^ 64 →
      (clearOf s.log.awaited a n = true →
        step s = .next (State.note { s with script := rest } (.mem a (s.mem.readBytes a.toNat n)))) ∧
      (clearOf s.log.awaited a n = false → step s = .fault .hostPremiseBroken)) ∧
    (s.script = .reset :: rest → step s = .next { State.reset with
      mem := s.mem, script := rest, live := s.live, log := s.log, commands := s.commands })

/-- R290: while BUSY = 1 a write to any register is dropped, and so is a command. -/
def Obligations.WritesWhileBusyAreDropped : Prop :=
  ∀ (s : State) (i : Fin 64) (v : Word), s.busy = true →
    busWrite (4 * i.val) v s = .next s ∧ ∀ j : Instr, exec j s = .next s

/-! ### Reset -/

/-- R55: the value of every piece of state after reset. The model's own fields are empty by its own choice (log 9), and
data memory lists nothing by its own choice (log 8); neither is stated here. -/
def Obligations.ResetValues : Prop :=
  ∀ c : Cfg, let z := State.resetOn c
    (∀ p, z.regs.ptr p = 0) ∧ z.regs.hashSel = 0 ∧ z.regs.labelLen = 0 ∧ z.regs.inLen = 0 ∧ z.regs.outLen = 0 ∧
    ctrlWord z = 0 ∧ statusWord z = 0x0004FE01 ∧ z.extStatus = 0 ∧
    readReg c z .cfgModlen = BitVec.ofNat 32 c.K ∧ readReg c z .cfgRefhash = BitVec.ofNat 32 c.href ∧
    z.busy = false ∧ z.alarm = false ∧ z.engRst = true ∧ z.st = 0x01 ∧ z.stN = 0xFE ∧
    z.flags.acc = 0 ∧ z.flags.found = false ∧ z.flags.viol = false ∧ z.flags.sep = 0 ∧ z.flags.mLen = 0 ∧
    z.work.em = zeros c.K ∧ z.work.db = zeros (c.K - 2) ∧ z.work.seed = zeros ((c.K - 2) / 2) ∧
    z.work.lhash = zeros ((c.K - 2) / 2) ∧ z.work.mask = zeros (c.K - 2) ∧ z.work.msg = zeros (c.K - 4) ∧
    z.work.res = zeros c.K ∧ z.ph = .idle

/-- R280, R281: the reset input brings the block to its reset values from any state, and data memory keeps its bytes. -/
def Obligations.ResetInput : Prop :=
  ∀ (c : Cfg) (s : State), let t := State.hardReset c s
    t.mem = s.mem ∧ t.alarm = false ∧ t.engRst = true ∧ t.ph = .idle ∧ statusWord t = 0x0004FE01 ∧
    t = { State.resetOn c with
          mem := s.mem, script := s.script, live := s.live, log := s.log, commands := s.commands }

/-- R55, R280, R283: a reset leaves every pointer null and the block ready at once; and whatever memory holds and however
many commands went before, a command with every pointer null fails InvalidParam or ExponentInvalidParam and makes no
access to data memory. -/
def Obligations.FirstCommandAfterReset : Prop :=
  (∀ (c : Cfg) (u : State), (State.hardReset c u).Ready ∧ ∀ p, (State.hardReset c u).regs.ptr p = 0) ∧
  ∀ (D : Deployment) (i : Instr) (s : State), s.Calm D.cfg → (∀ p, s.regs.ptr p = 0) →
    ∃ t, Answers D i s t ∧
      FailsWith D.cfg s t (match i with
        | .encode => .invalidParam
        | .decode => .invalidParam
        | .expPlain => .exponentInvalidParam
        | .expCrt => .exponentInvalidParam
        | .encrypt => .invalidParam
        | .decrypt => .exponentInvalidParam) 0 ∧
      (actions t).filter Action.isMemory = []

/-! ### Sequencer -/

/-- R217: every word written to CMD, legal or not, is accepted in the same one atomic update. How the command is
concluded, with what the host did to data memory meanwhile, is the model's (log 6). -/
def Obligations.AcceptanceIsAtomic : Prop :=
  (∀ c : Cfg, (∀ i, ∃ body, ∀ s, runOn c i s = issue c body (namedRegions c i s.regs) s) ∧
    ∃ body, ∀ s, issueIllegal c s = issue c body {} s) ∧
  ∀ (c : Cfg) (s : State) (body : Cmd Unit) (names : Named), s.busy = false → s.alarm = false →
    ∃ u, issue c body names s = (runBody c body u).conclude names s.live ∧
      u.busy = true ∧ u.st = 0x01 ∧ u.stN = 0xFE ∧ u.code = 0x01 ∧ u.codeN = 0xFE ∧ u.extStatus = 0 ∧
      u.hashCalls = 0 ∧ u.work = Work.zero c ∧ u.flags = {} ∧ u.ph = .dispatch ∧
      u.regs = s.regs ∧ u.collapse = s.collapse ∧ u.mem = s.mem ∧ u.engRst = s.engRst ∧ u.alarm = s.alarm ∧
      ∀ v r, hostWrite u v r = u

/-- R83: an illegal word completes at once with IllegalCommand, whatever the registers hold; it touches no memory, calls
no provider and does not write the engine's line. -/
def Obligations.IllegalCommandEnds : Prop :=
  ∀ (s : State) (w : Word), s.Undisturbed →
    (w.extractLsb' 4 28 ≠ 0 ∨ w.extractLsb' 0 4 = 0 ∨ 7 ≤ (w.extractLsb' 0 4).toNat) →
    ∃ t, commandWrite w s = .next t ∧ Ended Config.cfg s t .illegalCommand 0 ∧ NoOutput s t ∧ t.alarm = false ∧
      actions t = [.phase .dispatch, .phase .exitScrub, .phase .exitStatus, .phase .idle] ∧
      (s.live = [] → ∀ r : Regs, commandWrite w { s with regs := r } = .next { t with regs := r })

/-- R221: in the locked state a write of any word to CMD sets the status to GlitchError and does nothing else; no step
but a reset leaves the state. -/
def Obligations.LockedStateAnswersGlitchError : Prop :=
  ∀ s : State, Inv Config.cfg s → s.alarm = true →
    s.ph = .locked ∧
    (∀ w, commandWrite w s = .next { s with code := 0x0B, codeN := 0xF4, extStatus := 0 }) ∧
    ∀ t, step s = .next t → (∀ rest, s.script ≠ .reset :: rest) →
      t.ph = .locked ∧ t.busy = false ∧ t.alarm = true

/-- R222, R223: the exit point, whatever the kind. -/
def Obligations.ExitPointLeaves : Prop :=
  ∀ (c : Cfg) (s : State) (k : Kind) (info : Word), s.busy = true → noReset s.live = true →
    ∃ t, exitPoint c k info s = .ok () t ∧
      t.work = Work.zero c ∧ t.flags = {} ∧ t.extStatus = info ∧ t.st = k.code ∧ t.stN = k.code ^^^ 0xFF ∧
      t.code = k.code ∧ t.codeN = k.code ^^^ 0xFF ∧ t.busy = false ∧
      t.ph = (if s.alarm then .locked else .idle) ∧
      t.alarm = s.alarm ∧ t.engRst = s.engRst ∧ t.mem = s.mem ∧ t.regs = s.regs ∧ t.collapse = s.collapse

/-- R41, R45, R55: the reset state meets the invariant. -/
def Obligations.InvariantAtReset : Prop := Inv Config.cfg State.reset

/-- R41, R45, R177, R224: every step keeps the invariant: data memory has its canonical form, and the block rests: BUSY =
0, the engine held, CODE_N the complement of CODE, PH IDLE or LOCKED, buffers and flags zero. -/
def Obligations.StepKeepsInvariant : Prop :=
  ∀ s t : State, Inv Config.cfg s → step s = .next t → Inv Config.cfg t

/-- R222, R225, R241: every accepted command ends at the exit point, with a kind its command can end with, on every
oracle. Provider calls are functions here (premise P6, log 10). -/
def Obligations.EveryCommandEnds : Prop :=
  ∀ (D : Deployment) (i : Instr) (s : State), s.Undisturbed →
    ∃ t k info, Answers D i s t ∧ Ended D.cfg s t k info ∧ k ∈ allowedKinds s.collapse i

/-- R242, R243: a command that ends with any other kind than Success has written no data memory and changed no parameter
register. -/
def Obligations.ErrorsArePrecise : Prop :=
  ∀ (D : Deployment) (i : Instr) (s : State), s.Undisturbed →
    ∃ t, Answers D i s t ∧ (t.code ≠ Kind.success.code →
      t.mem = s.mem ∧ t.regs = s.regs ∧ t.collapse = s.collapse ∧ t.busy = false ∧ t.engRst = true ∧
      t.work = Work.zero D.cfg ∧ t.flags = {})

/-- R36, R252, R253: a command leaves ALARM = 1 exactly when it ends GlitchError. -/
def Obligations.AlarmIffGlitchError : Prop :=
  ∀ (D : Deployment) (i : Instr) (s : State), s.Undisturbed →
    ∃ t, Answers D i s t ∧ (t.alarm = true ↔ t.code = Kind.glitchError.code)

/-- R31, R240: EXT_STATUS is 0 unless the command ended with a provider's failure. -/
def Obligations.ExtStatusOnlyFromProviders : Prop :=
  ∀ (D : Deployment) (i : Instr) (s : State), s.Undisturbed →
    ∃ t, Answers D i s t ∧ (t.extStatus ≠ 0 →
      t.code = Kind.hashFailure.code ∨ t.code = Kind.entropyFailure.code ∨ t.code = Kind.engineFailure.code)

/-- R64, R70, R220: every read of data memory precedes the only write, which is made on success alone and is the
command's output. -/
def Obligations.ReadsPrecedeTheWrite : Prop :=
  ∀ (D : Deployment) (i : Instr) (s : State), s.Undisturbed →
    ∃ t, Answers D i s t ∧ ∃ reads writes : List Action,
      (actions t).filter Action.isMemory = reads ++ writes ∧ reads.all Action.isRead = true ∧
      (writes = [] ∨ (writes = [.memWrite (outputRegion D.cfg i s t).1 (outputRegion D.cfg i s t).2] ∧
        t.code = Kind.success.code))

/-- R176, R177, R178: the engine's line over a whole command: released, called, held again, in that order and once, or
written 1 once when the wrapper stops before the release, or not written at all outside the wrapper. -/
def Obligations.EngineLineIsBracketed : Prop :=
  ∀ (D : Deployment) (i : Instr) (s : State), s.Undisturbed →
    ∃ t, Answers D i s t ∧
      t.engRst = true ∧ bracketAllowed i (decide (t.code = Kind.success.code)) (bracketOf (actions t))

/-- R219: a command that ends with Success has visited the phases of its row, in that order. -/
def Obligations.SuccessVisitsThePhases : Prop :=
  ∀ (D : Deployment) (i : Instr) (s : State), s.Undisturbed →
    ∃ t, Answers D i s t ∧ (t.code = Kind.success.code → phasesOf (actions t) = successPhases i)

/-- R25, R64, R132, R157, R187: the frame of all six commands. On success the bytes outside the output region, the
parameter registers but OUT_LEN after DECODE and DECRYPT, and CTRL are as before; OUT_LEN is then the length written.
The region runs past the top of memory only after a double inversion (U8), of which the spec claims nothing: that memory
below and above the region is as before then, too, is the model's choice (log 11). -/
def Obligations.CommandFrame : Prop :=
  ∀ (D : Deployment) (i : Instr) (s : State), s.Undisturbed → s.mem.wf = true →
    ∃ t, Answers D i s t ∧
      t.collapse = s.collapse ∧ t.engRst = s.engRst ∧ t.script = s.script ∧
      (t.code ≠ Kind.success.code → t.mem = s.mem ∧ t.regs = s.regs) ∧
      (t.code = Kind.success.code →
        (NoDoubleInversion D.cfg s.nextCommand →
          (outputRegion D.cfg i s t).1.toNat + (outputRegion D.cfg i s t).2 ≤ 2 ^ 64) ∧
        (outputRegion D.cfg i s t).2 ≤ D.cfg.K ∧
        (∀ x : Nat, x < (outputRegion D.cfg i s t).1.toNat ∨
            (outputRegion D.cfg i s t).1.toNat + (outputRegion D.cfg i s t).2 ≤ x →
          t.mem.read x = s.mem.read x) ∧
        match i with
        | .encode => t.regs = s.regs
        | .decode => t.regs = { s.regs with outLen := t.regs.outLen }
        | .expPlain => t.regs = s.regs
        | .expCrt => t.regs = s.regs
        | .encrypt => t.regs = s.regs
        | .decrypt => t.regs = { s.regs with outLen := t.regs.outLen })

/-- R30, R257: after a command the status word is valid, and the host's check accepts it exactly when the command
succeeded. -/
def Obligations.HostAcceptsOnlySuccess : Prop :=
  ∀ (D : Deployment) (i : Instr) (s : State), s.Undisturbed →
    ∃ t, Answers D i s t ∧ t.codeN = t.code ^^^ 0xFF ∧
      (acceptableStatus (statusWord t) = true ↔ t.code = Kind.success.code)

/-! ### The host while a command runs -/

/-- R290: what a host that keeps P2, P3 and P8 reads of the registers while a command runs. Its reads are always
served: `made` are the slots it came to, one for each phase of the command but the last two as far as there are slots,
and the reads `l` it adds to its log are, in order, those of `made`, each with the phase of its slot. STATUS shows
NotDone and BUSY; ENG_HELD is 0 exactly in EXP_RELEASE and EXP_RUN; ALARM is 1 only in a command that leaves it 1, and
in EXIT_SCRUB what the command leaves. EXT_STATUS is 0. OUT_LEN is the old one before DEC_COPY has run and the one the
command leaves from there on. Every other register is as before the command. Two clauses are the model's choice: that
OUT_LEN shows its new value in DEC_COPY and EXIT_SCRUB, where R290 says that parameter registers read their frozen
values and R153 that the block writes OUT_LEN in DEC_COPY (log 19, DEDUCED); and that a read falls at the end of a
phase, so that ENG_HELD is 0 in exactly those two phases and ALARM is seen as said (log 6, DESIGN CHOICE). -/
def Obligations.ReadsWhileBusy : Prop :=
  ∀ (D : Deployment) (i : Instr) (s : State), s.Ready → noReset s.live = true →
    let n := namedRegions D.cfg i s.regs
    (memAccesses s.live).all (MemAccess.allowed n (s.log.awaited ++ n.outputs)) = true →
    ∃ t made rest l, Answers D i s t ∧ s.live = made ++ rest ∧ t.live = rest ∧
      made.length + 2 ≤ (phasesOf (actions t)).length ∧
      (rest = [] ∨ made.length + 2 = (phasesOf (actions t)).length) ∧
      t.log.reads = s.log.reads ++ l ∧
      l.filterMap HostRead.register = registerReads (phasesOf (actions t)) made ∧
      ∀ ph off v, .reg ph off v ∈ l → ∃ j : Fin 64, off = 4 * j.val ∧
        (regAt j = .status → v.extractLsb' 0 17 = 0x1FE01 ∧ v.extractLsb' 19 13 = 0 ∧
          (v.getLsbD 18 = false ↔ ph = .expRelease ∨ ph = .expRun) ∧
          (v.getLsbD 17 = true → t.alarm = true) ∧ (ph = .exitScrub → v.getLsbD 17 = t.alarm)) ∧
        (regAt j = .extStatus → v = 0) ∧
        (regAt j = .outLen → v = if ph = .decCopy ∨ ph = .exitScrub then t.regs.outLen else s.regs.outLen) ∧
        (regAt j ≠ .status → regAt j ≠ .extStatus → regAt j ≠ .outLen → v = readReg D.cfg s (regAt j))

/-- R282, R290, R296, U1, U6: whatever the host does at the ends of a command's phases (log 6). `made` are the slots it
came to, one for each phase passed: all but the last two that the command passes alone, as far as there are slots, when
no reset is among them, and none after a reset. A host that breaks P2, P3 or P8 leaves the command without a next
state. A host that keeps them awaits the command's outputs afterwards (P8), and its accesses change nothing but its own
log and the bytes it stored, none of which lies in a region the command names; a reset among them abandons the command:
the block is then at its reset values, and data memory, but for the host's stores, is the old one before the emitting
phase, the one the command would have left after it, and within it each byte is the one or the other. After a double
inversion the command may access bytes no region of it names; U8 claims nothing there, and that the host's stores are
joined to memory after the command's accesses then is the model's choice (log 6, log 11). -/
def Obligations.HostDuringACommand : Prop :=
  ∀ (D : Deployment) (i : Instr) (s : State), s.Ready → s.mem.wf = true →
    let n := namedRegions D.cfg i s.regs
    ∃ (made rest : List LiveSlot) (t0 : State), s.live = made ++ rest ∧
      Answers D i { s with live := [], log := {} } t0 ∧
      made.length + 2 ≤ (phasesOf (actions t0)).length ∧
      (noReset made = true → rest = [] ∨ made.length + 2 = (phasesOf (actions t0)).length) ∧
      ((memAccesses made).all (MemAccess.allowed n (s.log.awaited ++ n.outputs)) = false →
        runOn D.cfg i s = .fault .hostPremiseBroken ∧
        (D = Config.deployment → exec i s = .fault .hostPremiseBroken)) ∧
      ((memAccesses made).all (MemAccess.allowed n (s.log.awaited ++ n.outputs)) = true →
        (∀ (m : Memory) (e : Addr × Nat) (x : Nat), m.wf = true → e ∈ n.inputs ++ n.outputs → e.1 ≠ 0 →
          e.1.toNat ≤ x → x < e.1.toNat + e.2 → (m.joined (memAccesses made)).read x = m.read x) ∧
        ∃ t, Answers D i s t ∧ t.live = rest ∧ t.log.awaited = s.log.awaited ++ n.outputs ∧
          ((noReset made = true ∧
            ∃ log, t = { t0 with live := rest, log := log, mem := t0.mem.joined (memAccesses made) }) ∨
          (∃ (before : List LiveSlot) (slot : LiveSlot) (m : Memory),
            made = before ++ [slot] ∧ noReset before = true ∧ slot.reset = true ∧
            Abandoned D.cfg s t ∧ t.mem = m.joined (memAccesses made) ∧
            (made.length ≤ phasesBeforeEmit i → m = s.mem) ∧
            (phasesBeforeEmit i + 1 < made.length → m = t0.mem) ∧
            ∀ x, m.read x = s.mem.read x ∨ m.read x = t0.mem.read x)))

/-- R83, R282, R290, R296: whatever the host does at the ends of the two phases of an illegal command, DISPATCH and
EXIT_SCRUB (log 6). `made` are the slots it came to: both, as far as there are slots, when no reset is among them, and
none after a reset. The command names no region, so a host breaks a premise only by leaving the address space (R60) or
by a look at an output it awaits of an earlier command (P8), and then there is no next state. Else its accesses change
nothing but its own log and the bytes it stored; a reset among them abandons the command. With no reset to come every
read of `made` is served, in order, and those of STATUS give NotDone, BUSY and the line held, of EXT_STATUS 0, and of
every other register what it read before. -/
def Obligations.HostDuringAnIllegalCommand : Prop :=
  ∀ (s : State) (w : Word), s.Ready →
    (w.extractLsb' 4 28 ≠ 0 ∨ w.extractLsb' 0 4 = 0 ∨ 7 ≤ (w.extractLsb' 0 4).toNat) →
    ∃ (made rest : List LiveSlot) (t0 : State), s.live = made ++ rest ∧ made.length ≤ 2 ∧
      (noReset made = true → rest = [] ∨ made.length = 2) ∧
      commandWrite w { s with live := [], log := {} } = .next t0 ∧
      ((memAccesses made).all (MemAccess.allowed {} s.log.awaited) = false →
        commandWrite w s = .fault .hostPremiseBroken) ∧
      ((memAccesses made).all (MemAccess.allowed {} s.log.awaited) = true →
        ∃ t, commandWrite w s = .next t ∧ t.live = rest ∧ t.log.awaited = s.log.awaited ∧ t.mem = s.mem.joined (memAccesses made) ∧
          ((noReset made = true ∧ ∃ log, t = { t0 with live := rest, log := log, mem := t.mem }) ∨
          (∃ (before : List LiveSlot) (slot : LiveSlot), made = before ++ [slot] ∧ noReset before = true ∧
            slot.reset = true ∧ Abandoned Config.cfg s t)) ∧
          (noReset s.live = true → ∃ l, t.log.reads = s.log.reads ++ l ∧
            l.filterMap HostRead.register = registerReads [.dispatch, .exitScrub] made ∧
            ∀ ph off v, .reg ph off v ∈ l → ∃ j : Fin 64, (ph = .dispatch ∨ ph = .exitScrub) ∧ off = 4 * j.val ∧
              (regAt j = .status → v = 0x0005FE01) ∧ (regAt j = .extStatus → v = 0) ∧
              (regAt j ≠ .status → regAt j ≠ .extStatus → v = readReg Config.cfg s (regAt j))))

/-! ### Work buffers -/

/-- R10, R40: every work buffer keeps its capacity in every command, however it ends, on every oracle (double inversions
among them) and whatever the host does; the buffers a command starts with have these capacities. -/
def Obligations.BuffersKeepTheirCapacity : Prop :=
  ∀ c : Cfg, (Work.zero c).Sized c ∧
    ∀ body ∈ [encodeBody c, decodeBody c, expPlainBody c, expCrtBody c, encryptBody c, decryptBody c],
      ∀ s : State, s.work.Sized c → (stateOf (body s)).work.Sized c

/-! ### Memory -/

/-- R63, R64: bytes written read back, every byte outside is as before, and the canonical form is kept. -/
def Obligations.MemoryReadAfterWrite : Prop :=
  ∀ (m : Memory) (a : Nat) (v : Bytes), m.wf = true → a + v.length ≤ 2 ^ 64 →
    (m.writeBytes a v).readBytes a v.length = v ∧
    (∀ x, x < a ∨ a + v.length ≤ x → (m.writeBytes a v).read x = m.read x) ∧
    (m.writeBytes a v).wf = true

/-! ### Double evaluation and one fault -/

/-- R250, R179, R252: CritEval, and the held read-back, the one site where copies that agree on `false` raise the alarm. -/
def Obligations.DoubleEvaluation : Prop :=
  (∀ (c : Cfg) (s : State) (site : Site) (pred : Bool),
    let a := pred ^^ c.glitch s.commands s.evals site .A
    let b := pred ^^ c.glitch s.commands s.evals site .B
    (a ≠ b → critEval c site pred s =
      .error (.raised .glitchError 0) { s with evals := s.evals + 1, alarm := true }) ∧
    (a = b → critEval c site pred s = .ok a { s with evals := s.evals + 1 }) ∧
    (FaultFree c s.commands → critEval c site pred s = .ok pred { s with evals := s.evals + 1 })) ∧
  (∀ (c : Cfg) (s : State),
    let a := s.engRst ^^ c.glitch s.commands s.evals .expHeld .A
    let b := s.engRst ^^ c.glitch s.commands s.evals .expHeld .B
    (a = true → b = true → expHeldCheck c s = .ok () { s with evals := s.evals + 1 }) ∧
    (a = false ∨ b = false → expHeldCheck c s =
      .error (.raised .glitchError 0) { s with evals := s.evals + 1, alarm := true }) ∧
    (FaultFree c s.commands → s.engRst = true → expHeldCheck c s = .ok () { s with evals := s.evals + 1 }))

/-- R255: at most one copy of one evaluation inverted in a command. (a) A Success is the fault-free machine's, outputs
and all; (b) where the fault-free machine succeeds, the faulted one succeeds or ends GlitchError with nothing written;
(c) where the fault-free machine ends with an error, the faulted one ends with that error or GlitchError. -/
def Obligations.SingleFault : Prop :=
  ∀ (D : Deployment) (i : Instr) (s : State), s.Undisturbed → AtMostOneInversion D.cfg s.nextCommand →
    ∃ t t0, Answers D i s t ∧ runOn D.cfg.glitchFree i s = .next t0 ∧
      (t.code = Kind.success.code → t = t0) ∧
      (t0.code = Kind.success.code → t.code = Kind.success.code ∨
        (t.code = Kind.glitchError.code ∧ t.mem = s.mem ∧ t.regs = s.regs)) ∧
      (∀ k : Kind, k ≠ .success → t0.code = k.code → t.code = k.code ∨
        (t.code = Kind.glitchError.code ∧ t.mem = s.mem ∧ t.regs = s.regs)) ∧
      (t = t0 ∨ (Ended D.cfg s t .glitchError 0 ∧ NoOutput s t ∧ t.alarm = true))

/-! ### The mask generator -/

/-- R102: the mask generator: Hash(seed ‖ BE32(C)) for C = 0, 1, 2, … concatenated and truncated, in ceil(n / h) Digest
calls; the first call that fails ends it with HashFailure. The MASK buffer, which `BuffersKeepTheirCapacity` says holds
K - 2 bytes, keeps its size and holds any mask of the block (R105). That of a longer mask, which the block never asks for, the part
that fits is stored, and that a counter past 2^32 would wrap, which R103 leaves unspecified, is the model's choice
(log 11). -/
def Obligations.MaskGeneration : Prop :=
  ∀ (D : Deployment) (s : State) (sel : Word) (d : HashDescriptor) (seed : Bytes) (n : Nat),
    D.cfg.lookup sel = some d → FaultFree D.cfg s.commands →
    let q := ceilDiv n d.hashLen
    ((∀ j, j < q → D.cfg.hashFail s.commands (s.hashCalls + j) = 0) →
      ∃ t, mgf D.cfg sel seed n s = .ok () t ∧
        (n ≤ s.work.mask.length → t.work.mask.take n = mgfMask D.cfg sel d.hashLen seed n) ∧
        t.work.mask.take n = (mgfMask D.cfg sel d.hashLen seed n).take s.work.mask.length ∧
        t.work.mask.drop n = s.work.mask.drop n ∧
        t.acts = List.replicate q (.digest D.cfg.hashInstance sel (seed.length + 4)) ++ s.acts ∧
        t = { s with work := { s.work with mask := t.work.mask }, hashCalls := s.hashCalls + q,
                     evals := s.evals + q, acts := t.acts }) ∧
    (∀ j, j < q → (∀ i, i < j → D.cfg.hashFail s.commands (s.hashCalls + i) = 0) →
      D.cfg.hashFail s.commands (s.hashCalls + j) ≠ 0 →
      ∃ t, mgf D.cfg sel seed n s =
          .error (.raised .hashFailure (D.cfg.hashFail s.commands (s.hashCalls + j))) t ∧
        t.hashCalls = s.hashCalls + (j + 1) ∧ t.work = s.work ∧ t.mem = s.mem ∧ t.regs = s.regs)

/-! ### ENCODE -/

/-- R122, D10: the bound derived from the reference hash is K - 2h - 2, whatever HREF is. -/
def Obligations.EncodeBoundIgnoresHref : Prop :=
  ∀ (c : Cfg) (h : Nat), actualMaxMsgLen c h = (c.K : Int) - 2 * (h : Int) - 2

/-- R120, R123 to R129: ENCODE of an admissible message writes the PaddedBlock `0x00 ‖ MaskedSeed ‖ MaskedDB` at
OUT_ADDR; one draw, 2 + ceil(DBLen / h) Digest calls. -/
def Obligations.EncodeResult : Prop :=
  ∀ (D : Deployment) (s : State) (d : HashDescriptor), s.Calm D.cfg →
    encodeParamsOk D.cfg s.regs = true → D.cfg.lookup s.regs.hashSel = some d →
    s.regs.inLen.toNat ≤ maxMessageLen D.cfg d.hashLen →
    HashSucceeds D.cfg s.nextCommand → (D.cfg.entropy s.nextCommand d.hashLen).1 = 0 →
    ∃ t, Answers D .encode s t ∧ Ended D.cfg s t .success 0 ∧ t.alarm = false ∧ t.regs = s.regs ∧
      Stored s t s.regs.out (paddedBlock D.cfg s.regs.hashSel d.hashLen (labelBytes s) (messageBytes s)
        (seedDrawn D.cfg s d.hashLen)) ∧
      (paddedBlock D.cfg s.regs.hashSel d.hashLen (labelBytes s) (messageBytes s)
        (seedDrawn D.cfg s d.hashLen)).length = D.cfg.K ∧
      digestCount (actions t) = 2 + ceilDiv (dbLen D.cfg d.hashLen) d.hashLen ∧ drawCount (actions t) = 1

/-- R121, R122, R126, R133, R203 a: ENCODE and ENCRYPT on bad parameters, and on a message that is too long: the kind of
the first failing step, no access to memory, no provider call, the engine's line not written. -/
def Obligations.EncodeStageRefuses : Prop :=
  ∀ (D : Deployment) (i : Instr) (s : State), (i = .encode ∨ i = .encrypt) → s.Calm D.cfg →
    (encodeParamsOk D.cfg s.regs = false →
      ∃ t, Answers D i s t ∧ FailsWith D.cfg s t .invalidParam 0 ∧
        actions t = [.phase .dispatch, .phase .encCheck, .phase .exitScrub, .phase .exitStatus, .phase .idle]) ∧
    (∀ d, encodeParamsOk D.cfg s.regs = true → D.cfg.lookup s.regs.hashSel = some d →
      maxMessageLen D.cfg d.hashLen < s.regs.inLen.toNat →
      ∃ t, Answers D i s t ∧ FailsWith D.cfg s t .invalidMessageLength 0 ∧
        actions t = [.phase .dispatch, .phase .encCheck, .phase .exitScrub, .phase .exitStatus, .phase .idle])

/-- R100, R101, R124, R126, R246: a failing provider in the encode stage of ENCODE and ENCRYPT: the label hash goes
before the draw, the draw before the mask hashes; EXT_STATUS is the provider's status. -/
def Obligations.EncodeStageProviderFailures : Prop :=
  ∀ (D : Deployment) (i : Instr) (s : State) (d : HashDescriptor), (i = .encode ∨ i = .encrypt) → s.Calm D.cfg →
    encodeParamsOk D.cfg s.regs = true → D.cfg.lookup s.regs.hashSel = some d →
    s.regs.inLen.toNat ≤ maxMessageLen D.cfg d.hashLen →
    (D.cfg.hashFail s.nextCommand 0 ≠ 0 →
      ∃ t, Answers D i s t ∧ FailsWith D.cfg s t .hashFailure (D.cfg.hashFail s.nextCommand 0)) ∧
    (D.cfg.hashFail s.nextCommand 0 = 0 → (D.cfg.entropy s.nextCommand d.hashLen).1 ≠ 0 →
      ∃ t, Answers D i s t ∧ FailsWith D.cfg s t .entropyFailure (D.cfg.entropy s.nextCommand d.hashLen).1) ∧
    (∀ j, 0 < j → j < 2 + ceilDiv (dbLen D.cfg d.hashLen) d.hashLen →
      (∀ i, i < j → D.cfg.hashFail s.nextCommand i = 0) → D.cfg.hashFail s.nextCommand j ≠ 0 →
      (D.cfg.entropy s.nextCommand d.hashLen).1 = 0 →
      ∃ t, Answers D i s t ∧ FailsWith D.cfg s t .hashFailure (D.cfg.hashFail s.nextCommand j))

/-! ### DECODE -/

/-- R140, R142 to R154, R158: DECODE answers the verdict of the rules on the K bytes at IN_ADDR. -/
def Obligations.DecodeResult : Prop :=
  ∀ (D : Deployment) (s : State) (d : HashDescriptor), s.Calm D.cfg →
    decodeParamsOk D.cfg s.regs = true → D.cfg.lookup s.regs.hashSel = some d →
    HashSucceeds D.cfg s.nextCommand →
    ∃ t, Answers D .decode s t ∧ DecodeAnswer D.cfg s t
      (decodeVerdict D.cfg s.regs.hashSel d.hashLen (labelBytes s) s.collapse (blockAt D.cfg s s.regs.inp))

/-- R141, R143, R158: DECODE on bad parameters makes no access and no call; on a block that does not start with 0x00 it
calls no hash, and neither does DECRYPT when the engine's result reversed does not, whatever the hash provider would do. -/
def Obligations.DecodeEarlyFailures : Prop :=
  ∀ (D : Deployment) (s : State), s.Calm D.cfg →
    (decodeParamsOk D.cfg s.regs = false →
      ∃ t, Answers D .decode s t ∧ FailsWith D.cfg s t .invalidParam 0 ∧
        actions t = [.phase .dispatch, .phase .decCheck, .phase .exitScrub, .phase .exitStatus, .phase .idle]) ∧
    (decodeParamsOk D.cfg s.regs = true → (blockAt D.cfg s s.regs.inp).take 1 ≠ [0x00] →
      ∃ t, Answers D .decode s t ∧ FailsWith D.cfg s t .byteMismatchError 0 ∧ digestCount (actions t) = 0) ∧
    (decryptPointersOk D.cfg s.regs = true → (engineResult D.cfg .crt s (blockAt D.cfg s s.regs.inp)).1 = 0 →
      decodeParamsOk D.cfg s.regs = true →
      (revBytes (engineResult D.cfg .crt s (blockAt D.cfg s s.regs.inp)).2).take 1 ≠ [0x00] →
      ∃ t, Answers D .decrypt s t ∧ FailsWith D.cfg s t .byteMismatchError 0 ∧ digestCount (actions t) = 0)

/-- R100, R158: the first failing Digest call of DECODE, and of DECRYPT after the engine succeeded, ends it with
HashFailure and the provider's status. -/
def Obligations.DecodeHashFailure : Prop :=
  ∀ (D : Deployment) (s : State) (d : HashDescriptor) (j : Nat), s.Calm D.cfg →
    decodeParamsOk D.cfg s.regs = true → D.cfg.lookup s.regs.hashSel = some d →
    j < 2 + ceilDiv (dbLen D.cfg d.hashLen) d.hashLen →
    (∀ i, i < j → D.cfg.hashFail s.nextCommand i = 0) → D.cfg.hashFail s.nextCommand j ≠ 0 →
    ((blockAt D.cfg s s.regs.inp).take 1 = [0x00] →
      ∃ t, Answers D .decode s t ∧ FailsWith D.cfg s t .hashFailure (D.cfg.hashFail s.nextCommand j)) ∧
    (decryptPointersOk D.cfg s.regs = true →
      (engineResult D.cfg .crt s (blockAt D.cfg s s.regs.inp)).1 = 0 →
      (revBytes (engineResult D.cfg .crt s (blockAt D.cfg s s.regs.inp)).2).take 1 = [0x00] →
      ∃ t, Answers D .decrypt s t ∧ FailsWith D.cfg s t .hashFailure (D.cfg.hashFail s.nextCommand j))

/-- R156: what steps 6 to 8 accept. `acc` is 0 exactly when the label hash matches; the scan accepts exactly when the
first byte that is not 0x00 is 0x01, and then `sep` is its index and the message what follows; DECODE succeeds exactly
when the block starts with 0x00, the label hash matches and the rest is zeros, 0x01 and the message. -/
def Obligations.DecodeAcceptsExactly : Prop :=
  (∀ x y : Bytes, x.length = y.length → (compareAcc x y = 0 ↔ x = y)) ∧
  (∀ (h : Nat) (t : Bytes), let f := scanPadding h t
    ((f.found = true ∧ f.viol = false) ↔ ∃ p m, t = zeros p ++ [0x01] ++ m) ∧
    ∀ p m, t = zeros p ++ [0x01] ++ m → f.sep = h + p ∧ t.drop (f.sep - h + 1) = m) ∧
  (∀ (D : Deployment) (s : State) (d : HashDescriptor), s.Calm D.cfg →
    decodeParamsOk D.cfg s.regs = true → D.cfg.lookup s.regs.hashSel = some d → HashSucceeds D.cfg s.nextCommand →
    let db := recoveredDb D.cfg s.regs.hashSel d.hashLen (blockAt D.cfg s s.regs.inp)
    ∃ t, Answers D .decode s t ∧ (t.code = Kind.success.code ↔
      (blockAt D.cfg s s.regs.inp).take 1 = [0x00] ∧ db.take d.hashLen = hashOf D.cfg s.regs.hashSel (labelBytes s) ∧
      ∃ p m, db.drop d.hashLen = zeros p ++ [0x01] ++ m))

/-- R151: when the scan found a separator, the recovered length is within the bound: the check of step 8 cannot fail in
a glitch-free run. -/
def Obligations.LengthCheckCannotFail : Prop :=
  ∀ (c : Cfg) (h : Nat) (t : Bytes), t.length = dbLen c h - h → (scanPadding h t).found = true →
    messageLength (dbLen c h) (scanPadding h t).sep ≤ maxMessageLen c h

/-- R155: up to and including the evaluation point, what the decode of DECODE and of DECRYPT does is the same for every
content of the block, of memory and of the engine's result: the phases, the reads and their sizes, the Digest calls and
their input lengths. -/
def Obligations.DecodeDataIndependence : Prop :=
  ∀ (D : Deployment) (s1 s2 : State) (d : HashDescriptor), s1.Calm D.cfg → s2.Calm D.cfg → s1.regs = s2.regs →
    decodeParamsOk D.cfg s1.regs = true → D.cfg.lookup s1.regs.hashSel = some d →
    HashSucceeds D.cfg s1.nextCommand → HashSucceeds D.cfg s2.nextCommand →
    ((blockAt D.cfg s1 s1.regs.inp).take 1 = [0x00] → (blockAt D.cfg s2 s2.regs.inp).take 1 = [0x00] →
      ∃ t1 t2, Answers D .decode s1 t1 ∧ Answers D .decode s2 t2 ∧
        .phase .decEval ∈ actions t1 ∧ .phase .decEval ∈ actions t2 ∧
        beforeEval (actions t1) = beforeEval (actions t2)) ∧
    (decryptPointersOk D.cfg s1.regs = true →
      (engineResult D.cfg .crt s1 (blockAt D.cfg s1 s1.regs.inp)).1 = 0 →
      (engineResult D.cfg .crt s2 (blockAt D.cfg s2 s2.regs.inp)).1 = 0 →
      (revBytes (engineResult D.cfg .crt s1 (blockAt D.cfg s1 s1.regs.inp)).2).take 1 = [0x00] →
      (revBytes (engineResult D.cfg .crt s2 (blockAt D.cfg s2 s2.regs.inp)).2).take 1 = [0x00] →
      ∃ t1 t2, Answers D .decrypt s1 t1 ∧ Answers D .decrypt s2 t2 ∧
        .phase .decEval ∈ actions t1 ∧ .phase .decEval ∈ actions t2 ∧
        beforeEval (actions t1) = beforeEval (actions t2))

/-! ### EXP_PLAIN and EXP_CRT -/

/-- R170, R176, R180, R182: EXP_PLAIN on good pointers writes the K bytes the engine gave to OP_RES_ADDR, or ends
EngineFailure with the engine's status and writes nothing. -/
def Obligations.ExpPlainResult : Prop :=
  ∀ (D : Deployment) (s : State), s.Calm D.cfg →
    expParamsOk D.cfg .plain (.pointer s.regs.opBase) true s.regs = true →
    let r := engineResult D.cfg .plain s (blockAt D.cfg s s.regs.opBase)
    ∃ t, Answers D .expPlain s t ∧
      (r.1 = 0 → Ended D.cfg s t .success 0 ∧ t.alarm = false ∧ t.regs = s.regs ∧ Stored s t s.regs.opRes r.2 ∧
        r.2.length = D.cfg.K) ∧
      (r.1 ≠ 0 → FailsWith D.cfg s t .engineFailure r.1)

/-- R171, R176, R180, R182: EXP_CRT likewise; the bytes are stored in the order the engine gave them. -/
def Obligations.ExpCrtResult : Prop :=
  ∀ (D : Deployment) (s : State), s.Calm D.cfg →
    expParamsOk D.cfg .crt (.pointer s.regs.opBase) true s.regs = true →
    let r := engineResult D.cfg .crt s (blockAt D.cfg s s.regs.opBase)
    ∃ t, Answers D .expCrt s t ∧
      (r.1 = 0 → Ended D.cfg s t .success 0 ∧ t.alarm = false ∧ t.regs = s.regs ∧ Stored s t s.regs.opRes r.2 ∧
        r.2.length = D.cfg.K) ∧
      (r.1 ≠ 0 → FailsWith D.cfg s t .engineFailure r.1)

/-- R175, R177, R187, R189 a: bad pointers end ExponentInvalidParam; the engine is neither released nor called, memory is
not accessed, and the line is written once, with 1. -/
def Obligations.ExpBadPointers : Prop :=
  ∀ (D : Deployment) (k : ExpKind) (s : State), s.Calm D.cfg →
    expParamsOk D.cfg k (.pointer s.regs.opBase) true s.regs = false →
    ∃ t, Answers D (expInstr k) s t ∧ FailsWith D.cfg s t .exponentInvalidParam 0 ∧
      actions t = [.phase .dispatch, .phase .expCheck, .phase .expHold, .engRst true, .phase .exitScrub,
        .phase .exitStatus, .phase .idle]

/-! ### ENCRYPT and DECRYPT -/

/-- R200: ENCRYPT writes to OUT_ADDR what the engine makes of the PaddedBlock, or ends EngineFailure. -/
def Obligations.EncryptResult : Prop :=
  ∀ (D : Deployment) (s : State) (d : HashDescriptor), s.Calm D.cfg →
    encodeParamsOk D.cfg s.regs = true → D.cfg.lookup s.regs.hashSel = some d →
    s.regs.inLen.toNat ≤ maxMessageLen D.cfg d.hashLen → HashSucceeds D.cfg s.nextCommand →
    (D.cfg.entropy s.nextCommand d.hashLen).1 = 0 → encryptPointersOk D.cfg s.regs = true →
    let em := paddedBlock D.cfg s.regs.hashSel d.hashLen (labelBytes s) (messageBytes s) (seedDrawn D.cfg s d.hashLen)
    let r := engineResult D.cfg .plain s em
    ∃ t, Answers D .encrypt s t ∧
      (r.1 = 0 → Ended D.cfg s t .success 0 ∧ t.alarm = false ∧ t.regs = s.regs ∧ Stored s t s.regs.out r.2 ∧
        r.2.length = D.cfg.K) ∧
      (r.1 ≠ 0 → FailsWith D.cfg s t .engineFailure r.1)

/-- R203 b: ENCRYPT looks at the key pointers only after the whole encode stage: label hash, draw and both mask runs are
made, then ExponentInvalidParam with one write of 1 to the line. -/
def Obligations.EncryptKeyPointersComeLast : Prop :=
  ∀ (D : Deployment) (s : State) (d : HashDescriptor), s.Calm D.cfg →
    encodeParamsOk D.cfg s.regs = true → D.cfg.lookup s.regs.hashSel = some d →
    s.regs.inLen.toNat ≤ maxMessageLen D.cfg d.hashLen → HashSucceeds D.cfg s.nextCommand →
    (D.cfg.entropy s.nextCommand d.hashLen).1 = 0 → encryptPointersOk D.cfg s.regs = false →
    ∃ t, Answers D .encrypt s t ∧ FailsWith D.cfg s t .exponentInvalidParam 0 ∧
      digestCount (actions t) = 2 + ceilDiv (dbLen D.cfg d.hashLen) d.hashLen ∧ drawCount (actions t) = 1 ∧
      bracketOf (actions t) = [.engRst true]

/-- R201, R202: DECRYPT, when the engine succeeds and no hash call fails, answers the verdict of the rules on the
engine's result reversed. -/
def Obligations.DecryptResult : Prop :=
  ∀ (D : Deployment) (s : State) (d : HashDescriptor), s.Calm D.cfg →
    decryptPointersOk D.cfg s.regs = true → (engineResult D.cfg .crt s (blockAt D.cfg s s.regs.inp)).1 = 0 →
    decodeParamsOk D.cfg s.regs = true → D.cfg.lookup s.regs.hashSel = some d → HashSucceeds D.cfg s.nextCommand →
    ∃ t, Answers D .decrypt s t ∧ DecodeAnswer D.cfg s t
      (decodeVerdict D.cfg s.regs.hashSel d.hashLen (labelBytes s) s.collapse
        (revBytes (engineResult D.cfg .crt s (blockAt D.cfg s s.regs.inp)).2))

/-- R180, R201, R203 c, d: DECRYPT looks at the ciphertext and key pointers first, then at the engine's status, and at
the codec parameters only after a complete bracket. -/
def Obligations.DecryptEngineComesFirst : Prop :=
  ∀ (D : Deployment) (s : State), s.Calm D.cfg →
    (decryptPointersOk D.cfg s.regs = false →
      ∃ t, Answers D .decrypt s t ∧ FailsWith D.cfg s t .exponentInvalidParam 0 ∧ bracketOf (actions t) = [.engRst true]) ∧
    (decryptPointersOk D.cfg s.regs = true → (engineResult D.cfg .crt s (blockAt D.cfg s s.regs.inp)).1 ≠ 0 →
      ∃ t, Answers D .decrypt s t ∧
        FailsWith D.cfg s t .engineFailure (engineResult D.cfg .crt s (blockAt D.cfg s s.regs.inp)).1) ∧
    (decryptPointersOk D.cfg s.regs = true → (engineResult D.cfg .crt s (blockAt D.cfg s s.regs.inp)).1 = 0 →
      decodeParamsOk D.cfg s.regs = false →
      ∃ t, Answers D .decrypt s t ∧ FailsWith D.cfg s t .invalidParam 0 ∧ bracketOf (actions t) = fullBracket .crt)

/-! ### Round trips -/

/-- R136: what ENCODE produced, DECODE with the same selector and label gives back, wherever the block was put. -/
def Obligations.EncodeDecodeRoundTrip : Prop :=
  ∀ (D : Deployment) (s t s' : State),
    s.Calm D.cfg → Answers D .encode s t → t.code = Kind.success.code →
    s'.Calm D.cfg → HashSucceeds D.cfg s'.nextCommand → decodeParamsOk D.cfg s'.regs = true →
    s'.regs.hashSel = s.regs.hashSel → labelBytes s' = labelBytes s →
    blockAt D.cfg s' s'.regs.inp = blockAt D.cfg t s.regs.out →
    ∃ t', Answers D .decode s' t' ∧ Ended D.cfg s' t' .success 0 ∧
      Stored s' t' s'.regs.out (messageBytes s) ∧ t'.regs.outLen = BitVec.ofNat 32 (messageBytes s).length

/-- R207: what ENCRYPT produced, DECRYPT gives back, when the engine has the named property EngineRoundTrip (R184) for
the operands the two commands pass, the optional ones among them, and no provider fails. -/
def Obligations.EncryptDecryptRoundTrip : Prop :=
  ∀ (D : Deployment) (s t s' : State),
    EngineRoundTrip D.cfg (mandatoryBytes D.cfg .plain s) (optionalBytes D.cfg .plain s)
      (mandatoryBytes D.cfg .crt s') (optionalBytes D.cfg .crt s') →
    s.Calm D.cfg → Answers D .encrypt s t → t.code = Kind.success.code →
    s'.Calm D.cfg → HashSucceeds D.cfg s'.nextCommand → D.cfg.engineFail s'.nextCommand = 0 →
    decryptPointersOk D.cfg s'.regs = true → decodeParamsOk D.cfg s'.regs = true →
    s'.regs.hashSel = s.regs.hashSel → labelBytes s' = labelBytes s →
    blockAt D.cfg s' s'.regs.inp = blockAt D.cfg t s.regs.out →
    ∃ t', Answers D .decrypt s' t' ∧ Ended D.cfg s' t' .success 0 ∧
      Stored s' t' s'.regs.out (messageBytes s) ∧ t'.regs.outLen = BitVec.ofNat 32 (messageBytes s).length

/-! ### The host after a command -/

/-- R75, R296 P8: the host looks at outputs only after it has read BUSY = 0. A command leaves the host awaiting the
output regions it names (taken at their largest, log 6) beside those it awaited already; a look that meets one of them
has no next state, wherever it starts; a read of STATUS, which shows BUSY = 0 then, ends the wait, and every look is
served again with the bytes the command left. No read but one of STATUS with BUSY = 0 ends a wait. That a reset ends
none is the model's choice (log 5, DESIGN CHOICE). -/
def Obligations.OutputsAwaitBusyZero : Prop :=
  (∀ (D : Deployment) (i : Instr) (s : State), s.Undisturbed →
    ∃ t, Answers D i s t ∧ t.log.awaited = s.log.awaited ++ (namedRegions D.cfg i s.regs).outputs ∧
      (∀ (e : Addr × Nat) (a : Addr) (k : Nat), e ∈ t.log.awaited → e.1 ≠ 0 → a.toNat + k ≤ 2 ^ 64 →
        (∃ x : Nat, e.1.toNat ≤ x ∧ x < e.1.toNat + e.2 ∧ a.toNat ≤ x ∧ x < a.toNat + k) →
        hostEvent (.look a k) t = .fault .hostPremiseBroken) ∧
      ∃ u, hostEvent (.rd 0x008) t = .next u ∧ (statusWord t).getLsbD 16 = false ∧ u.log.awaited = [] ∧
        ∀ (a : Addr) (k : Nat), a.toNat + k ≤ 2 ^ 64 →
          hostEvent (.look a k) u = .next (u.note (.mem a (t.mem.readBytes a.toNat k)))) ∧
  (∀ (s : State) (j : Fin 64), ∃ u, hostEvent (.rd (4 * j.val)) s = .next u ∧
    u.log.awaited = if 4 * j.val = 0x008 ∧ s.busy = false then [] else s.log.awaited) ∧
  ∀ s : State, ∃ u, hostEvent .reset s = .next u ∧ u.log.awaited = s.log.awaited
end

