-- ==== Sys2Proof/Laws/Bits.lean ====
section
/-! SUPPORT. Byte strings: slices, writes into a buffer, exclusive-or (R13, R40). -/

namespace Sys2Proof.Machine

/-- A write keeps a buffer's capacity (R10, R40). -/
@[simp] theorem length_put (buf : Bytes) (off : Nat) (x : Bytes) : (put buf off x).length = buf.length := by
  simp only [put, List.length_append, List.length_take, List.length_drop]
  omega

/-- A write inside the buffer stores all of what is written. -/
theorem put_of_fits {buf : Bytes} {off : Nat} {x : Bytes} (h : off + x.length ≤ buf.length) :
    put buf off x = buf.take off ++ x ++ buf.drop (off + x.length) := by
  rw [put, List.take_of_length_le (show x.length ≤ buf.length - off by omega)]

/-- The bytes just written at the start of a buffer. -/
theorem take_put_zero {buf x : Bytes} (h : x.length ≤ buf.length) : (put buf 0 x).take x.length = x := by
  rw [put_of_fits (by omega)]
  simp

theorem take_put_zero_of_length {buf x : Bytes} {n : Nat} (h : x.length = n) (hb : n ≤ buf.length) :
    (put buf 0 x).take n = x := by
  subst h; exact take_put_zero hb

/-- What stands before and at the place written. -/
theorem take_put_end {buf : Bytes} {off : Nat} {x : Bytes} (h : off + x.length ≤ buf.length) :
    (put buf off x).take (off + x.length) = buf.take off ++ x := by
  rw [put_of_fits h, List.take_append_of_le_length (by simp; omega), List.take_of_length_le (by simp)]

theorem length_zeros (n : Nat) : (zeros n).length = n := List.length_replicate

/-- R40: the buffers of reset have their capacities. -/
theorem Work.zero_sized (c : Cfg) : (Work.zero c).Sized c :=
  ⟨length_zeros _, length_zeros _, length_zeros _, length_zeros _, length_zeros _, length_zeros _, length_zeros _⟩

@[simp] theorem length_xorBytes (x y : Bytes) : (xorBytes x y).length = min x.length y.length := by
  simp [xorBytes]

/-- `X ^ Y ^ Y = X` (R136). -/
theorem xorBytes_cancel {x y : Bytes} (h : x.length = y.length) : xorBytes (xorBytes x y) y = x := by
  induction x generalizing y with
  | nil => rfl
  | cons a x ih =>
    cases y with
    | nil => simp at h
    | cons b y =>
      simp only [xorBytes, List.zipWith_cons_cons] at ih ⊢
      rw [ih (by simpa using h), BitVec.xor_assoc, BitVec.xor_self, BitVec.xor_zero]

@[simp] theorem length_slice (x : Bytes) (a b : Nat) : (slice x a b).length = min (b - a) (x.length - a) := by
  simp [slice]

@[simp] theorem length_be32 (n : Nat) : (be32 n).length = 4 := rfl

/-- `acc` is zero exactly when the two strings agree (R149, R156). -/
theorem foldl_or_eq_zero (l : Bytes) (a : Byte) :
    l.foldl (fun acc d => acc ||| d) a = 0 ↔ a = 0 ∧ ∀ d ∈ l, d = 0 := by
  induction l generalizing a with
  | nil => simp
  | cons b l ih =>
    rw [List.foldl_cons, ih]
    constructor
    · rintro ⟨h, hl⟩
      have hab : a = 0 ∧ b = 0 := by
        constructor
        · ext i hi
          have := congrArg (fun v => v.getLsbD i) h
          simp at this ⊢
          exact this.1
        · ext i hi
          have := congrArg (fun v => v.getLsbD i) h
          simp at this ⊢
          exact this.2
      exact ⟨hab.1, by intro d hd; rcases List.mem_cons.mp hd with rfl | h'; exacts [hab.2, hl d h']⟩
    · rintro ⟨rfl, hl⟩
      have hb : b = 0 := hl b (by simp)
      subst hb
      exact ⟨by decide, fun d hd => hl d (by simp [hd])⟩

theorem compareAcc_eq_zero {x y : Bytes} (h : x.length = y.length) : compareAcc x y = 0 ↔ x = y := by
  rw [compareAcc, foldl_or_eq_zero]
  simp only [true_and]
  induction x generalizing y with
  | nil => cases y with
    | nil => simp [xorBytes]
    | cons b y => simp at h
  | cons a x ih =>
    cases y with
    | nil => simp at h
    | cons b y =>
      have ih' := ih (y := y) (by simpa using h)
      simp only [xorBytes] at ih'
      simp only [xorBytes, List.zipWith_cons_cons, List.mem_cons, forall_eq_or_imp, List.cons.injEq]
      rw [ih']
      have : a ^^^ b = 0 ↔ a = b := by
        constructor
        · intro hab
          have := congrArg (fun v => v ^^^ b) hab
          simpa [BitVec.xor_assoc] using this
        · rintro rfl; exact BitVec.xor_self
      rw [this]

/-! ### The scan (R150, R156) -/

/-- After the separator the scan changes nothing. -/
theorem scanFrom_found (i : Nat) (l : Bytes) (f : ScanState) (h : f.found = true) : scanFrom i l f = f := by
  induction l generalizing i f with
  | nil => rfl
  | cons b l ih =>
    have : scanByte i b f = f := by
      cases f
      simp only at h
      subst h
      simp [scanByte]
    rw [scanFrom, this, ih _ _ h]

/-- A violation seen stays seen. -/
theorem scanFrom_viol (i : Nat) (l : Bytes) (f : ScanState) (h : f.viol = true) : (scanFrom i l f).viol = true := by
  induction l generalizing i f with
  | nil => exact h
  | cons b l ih => exact ih _ _ (by simp [scanByte, h])

/-- R156: the scan accepts exactly when the first byte that is not 0x00 is 0x01, and then `sep` is its index. -/
theorem scanFrom_spec (i : Nat) (l : Bytes) (s0 : Nat) :
    let f := scanFrom i l ⟨false, false, s0⟩
    match afterSeparator l with
    | some m => f.found = true ∧ f.viol = false ∧ i ≤ f.sep ∧ f.sep - i < l.length ∧ l.drop (f.sep - i + 1) = m
    | none => (f.found && !f.viol) = false := by
  induction l generalizing i with
  | nil => simp [afterSeparator, scanFrom]
  | cons b l ih =>
    by_cases h0 : b = 0x00
    · subst h0
      have hstep : scanByte i 0x00 ⟨false, false, s0⟩ = ⟨false, false, s0⟩ := by simp [scanByte]
      have := ih (i + 1)
      simp only [afterSeparator, if_true, scanFrom, hstep]
      split at this
      · rename_i m hm
        obtain ⟨h1, h2, h3, h4, h5⟩ := this
        refine ⟨h1, h2, by omega, by simp only [List.length_cons]; omega, ?_⟩
        have e : (scanFrom (i + 1) l ⟨false, false, s0⟩).sep - i + 1
            = (scanFrom (i + 1) l ⟨false, false, s0⟩).sep - (i + 1) + 1 + 1 := by omega
        rw [e, List.drop_succ_cons]
        exact h5
      · exact this
    · by_cases h1 : b = 0x01
      · subst h1
        have hstep : scanByte i 0x01 ⟨false, false, s0⟩ = ⟨true, false, i⟩ := by simp [scanByte]
        simp only [afterSeparator, scanFrom, hstep]
        rw [scanFrom_found _ _ _ rfl]
        simp
      · have hstep : scanByte i b ⟨false, false, s0⟩ = ⟨false, true, s0⟩ := by
          have e0 : (b == 0x00) = false := beq_eq_false_iff_ne.mpr h0
          have e1 : (b == 0x01) = false := beq_eq_false_iff_ne.mpr h1
          simp only [scanByte, e0, e1]
          rfl
        simp only [afterSeparator, h0, h1, if_false, scanFrom, hstep]
        rw [scanFrom_viol _ _ _ rfl]
        simp

end Sys2Proof.Machine
end

