-- ==== Sys2Proof/Laws/Memory.lean ====
section
/-! SUPPORT. Data memory: reading after writing, and the canonical form kept by every write (R63, R64). -/

namespace Sys2Proof.Machine

namespace Memory

theorem wfFrom_mono {lo lo' : Nat} (h : lo' ≤ lo) {m : Memory} (hm : wfFrom lo m = true) : wfFrom lo' m = true := by
  cases m with
  | nil => rfl
  | cons e rest =>
    obtain ⟨b, v⟩ := e
    simp only [wfFrom, Bool.and_eq_true, decide_eq_true_eq] at hm ⊢
    exact ⟨⟨⟨Nat.le_trans h hm.1.1.1, hm.1.1.2⟩, hm.1.2⟩, hm.2⟩

/-- Below the first listed address every byte is the unlisted one. -/
theorem read_below {lo : Nat} {m : Memory} (hm : wfFrom lo m = true) {a : Nat} (h : a < lo) :
    m.read a = unlisted := by
  induction m generalizing lo with
  | nil => rfl
  | cons e rest ih =>
    obtain ⟨b, v⟩ := e
    simp only [wfFrom, Bool.and_eq_true, decide_eq_true_eq] at hm
    have hb : a ≠ b := by omega
    simp only [read, hb, if_false]
    exact ih hm.2 (by omega)

theorem read_write_same {lo : Nat} {m : Memory} (hm : wfFrom lo m = true) (a : Nat) (v : Byte) :
    (m.write a v).read a = v := by
  induction m generalizing lo with
  | nil =>
    by_cases hv : v = unlisted <;> simp [write, read, hv]
  | cons e rest ih =>
    obtain ⟨b, w⟩ := e
    simp only [wfFrom, Bool.and_eq_true, decide_eq_true_eq] at hm
    have hw := hm.2
    unfold write
    split
    · split
      · rename_i h1 h2
        have : a ≠ b := by omega
        simp only [read, this, if_false]
        rw [read_below hw (by omega), h2]
      · simp [read]
    · split
      · split
        · rename_i h1 h2 h3
          rw [read_below hw (by omega), h3]
        · simp [read]
      · rename_i h1 h2
        simp only [read, h2, if_false]
        exact ih hw

theorem read_write_other {lo : Nat} {m : Memory} (hm : wfFrom lo m = true) {a x : Nat} (v : Byte) (h : x ≠ a) :
    (m.write a v).read x = m.read x := by
  induction m generalizing lo with
  | nil =>
    by_cases hv : v = unlisted <;> simp [write, read, hv, h]
  | cons e rest ih =>
    obtain ⟨b, w⟩ := e
    simp only [wfFrom, Bool.and_eq_true, decide_eq_true_eq] at hm
    have hw := hm.2
    unfold write
    split
    · split
      · rfl
      · simp [read, h]
    · split
      · rename_i h1 h2
        subst h2
        split <;> simp [read, h]
      · by_cases hx : x = b
        · simp [read, hx]
        · simp only [read, hx, if_false]
          exact ih hw

theorem wfFrom_write {lo : Nat} {m : Memory} (hm : wfFrom lo m = true) {a : Nat} (v : Byte) (ha : lo ≤ a)
    (hb : a < 2 ^ 64) : wfFrom lo (m.write a v) = true := by
  induction m generalizing lo with
  | nil =>
    by_cases hv : v = unlisted
    · simp [write, wfFrom, hv]
    · simp only [write, hv, if_false, wfFrom, ha, hb, decide_true, ne_eq, not_false_eq_true, Bool.and_self]
  | cons e rest ih =>
    obtain ⟨b, w⟩ := e
    simp only [wfFrom, Bool.and_eq_true, decide_eq_true_eq] at hm
    unfold write
    split
    · rename_i h1
      split
      · simp only [wfFrom, Bool.and_eq_true, decide_eq_true_eq]
        exact hm
      · rename_i h2
        simp only [wfFrom, Bool.and_eq_true, decide_eq_true_eq]
        exact ⟨⟨⟨ha, hb⟩, h2⟩, ⟨⟨by omega, hm.1.1.2⟩, hm.1.2⟩, hm.2⟩
    · split
      · rename_i h1 h2
        subst h2
        split
        · exact wfFrom_mono (by omega) hm.2
        · rename_i h3
          simp only [wfFrom, Bool.and_eq_true, decide_eq_true_eq]
          exact ⟨⟨⟨ha, hb⟩, h3⟩, hm.2⟩
      · rename_i h1 h2
        simp only [wfFrom, Bool.and_eq_true, decide_eq_true_eq]
        exact ⟨hm.1, ih hm.2 (by omega)⟩

/-- One byte written keeps the canonical form. -/
theorem wf_write {m : Memory} (hm : m.wf = true) {a : Nat} (v : Byte) (h : a < 2 ^ 64) : (m.write a v).wf = true :=
  wfFrom_write hm v (Nat.zero_le a) h

/-- A byte string written inside the address space keeps the canonical form. -/
theorem wf_writeBytes {m : Memory} (hm : m.wf = true) {a : Nat} {v : Bytes} (h : a + v.length ≤ 2 ^ 64) :
    (m.writeBytes a v).wf = true := by
  induction v generalizing m a with
  | nil => exact hm
  | cons b rest ih =>
    simp only [List.length_cons] at h
    exact ih (wf_write hm b (by omega)) (by omega)

/-- A byte outside the region written is as before. -/
theorem read_writeBytes_outside {m : Memory} (hm : m.wf = true) {a : Nat} {v : Bytes} (h : a + v.length ≤ 2 ^ 64)
    {x : Nat} (hx : x < a ∨ a + v.length ≤ x) : (m.writeBytes a v).read x = m.read x := by
  induction v generalizing m a with
  | nil => rfl
  | cons b rest ih =>
    simp only [List.length_cons] at h hx
    rw [writeBytes, ih (wf_write hm b (by omega)) (by omega) (by omega)]
    exact read_write_other hm b (by omega)

@[simp] theorem length_readBytes (m : Memory) (a n : Nat) : (m.readBytes a n).length = n := by
  induction n generalizing a with
  | zero => rfl
  | succ n ih => simp [readBytes, ih]

/-- The bytes read back from a region are the bytes written to it. -/
theorem readBytes_writeBytes {m : Memory} (hm : m.wf = true) {a : Nat} {v : Bytes} (h : a + v.length ≤ 2 ^ 64) :
    (m.writeBytes a v).readBytes a v.length = v := by
  induction v generalizing m a with
  | nil => rfl
  | cons b rest ih =>
    simp only [List.length_cons] at h
    have h1 := wf_write hm (a := a) b (by omega)
    simp only [writeBytes, List.length_cons, readBytes]
    rw [ih h1 (by omega), read_writeBytes_outside h1 (by omega) (Or.inl (by omega)), read_write_same hm]

/-- Memories that agree on a region give the same bytes there. -/
theorem readBytes_congr {m m' : Memory} {a n : Nat} (h : ∀ x, a ≤ x → x < a + n → m.read x = m'.read x) :
    m.readBytes a n = m'.readBytes a n := by
  induction n generalizing a with
  | zero => rfl
  | succ n ih =>
    simp only [readBytes]
    rw [h a (Nat.le_refl a) (by omega), ih (fun x h1 h2 => h x (by omega) (by omega))]

/-- The byte at an index of a region read. -/
theorem getElem?_readBytes (m : Memory) (a n i : Nat) (h : i < n) :
    (m.readBytes a n)[i]? = some (m.read (a + i)) := by
  induction n generalizing a i with
  | zero => omega
  | succ n ih =>
    cases i with
    | zero => rfl
    | succ i => simpa [readBytes, Nat.add_assoc, Nat.add_comm 1 i] using ih (a + 1) i (by omega)

/-- A byte inside the region written is the byte written. -/
theorem read_writeBytes_inside {m : Memory} (hm : m.wf = true) {a : Nat} {v : Bytes} (h : a + v.length ≤ 2 ^ 64)
    {i : Nat} (hi : i < v.length) : (m.writeBytes a v).read (a + i) = v[i] := by
  have h1 := getElem?_readBytes (m.writeBytes a v) a v.length i hi
  rw [readBytes_writeBytes hm h, List.getElem?_eq_getElem hi] at h1
  exact (Option.some.inj h1).symm

end Memory

end Sys2Proof.Machine
end

