-- ==== Sys2Proof/Laws/State.lean ====
section
/-! SUPPORT. The fields of every named update of the state, true by rfl. -/

namespace Sys2Proof.Machine

@[simp] theorem State.setPhase_fields (s : State) (p : Phase) :
    (s.setPhase p).regs = s.regs ∧
    (s.setPhase p).collapse = s.collapse ∧
    (s.setPhase p).code = s.code ∧
    (s.setPhase p).codeN = s.codeN ∧
    (s.setPhase p).extStatus = s.extStatus ∧
    (s.setPhase p).busy = s.busy ∧
    (s.setPhase p).alarm = s.alarm ∧
    (s.setPhase p).engRst = s.engRst ∧
    (s.setPhase p).st = s.st ∧
    (s.setPhase p).stN = s.stN ∧
    (s.setPhase p).flags = s.flags ∧
    (s.setPhase p).work = s.work ∧
    (s.setPhase p).ph = p ∧
    (s.setPhase p).hashCalls = s.hashCalls ∧
    (s.setPhase p).mem = s.mem ∧
    (s.setPhase p).commands = s.commands ∧
    (s.setPhase p).evals = s.evals ∧
    (s.setPhase p).acts = .phase p :: s.acts ∧
    (s.setPhase p).script = s.script ∧
    (s.setPhase p).live = s.live ∧
    (s.setPhase p).log = s.log := by
  and_intros <;> rfl

@[simp] theorem State.record_fields (s : State) (a : Action) :
    (s.record a).regs = s.regs ∧
    (s.record a).collapse = s.collapse ∧
    (s.record a).code = s.code ∧
    (s.record a).codeN = s.codeN ∧
    (s.record a).extStatus = s.extStatus ∧
    (s.record a).busy = s.busy ∧
    (s.record a).alarm = s.alarm ∧
    (s.record a).engRst = s.engRst ∧
    (s.record a).st = s.st ∧
    (s.record a).stN = s.stN ∧
    (s.record a).flags = s.flags ∧
    (s.record a).work = s.work ∧
    (s.record a).ph = s.ph ∧
    (s.record a).hashCalls = s.hashCalls ∧
    (s.record a).mem = s.mem ∧
    (s.record a).commands = s.commands ∧
    (s.record a).evals = s.evals ∧
    (s.record a).acts = a :: s.acts ∧
    (s.record a).script = s.script ∧
    (s.record a).live = s.live ∧
    (s.record a).log = s.log := by
  and_intros <;> rfl

@[simp] theorem State.bumpEvals_fields (s : State) :
    s.bumpEvals.regs = s.regs ∧
    s.bumpEvals.collapse = s.collapse ∧
    s.bumpEvals.code = s.code ∧
    s.bumpEvals.codeN = s.codeN ∧
    s.bumpEvals.extStatus = s.extStatus ∧
    s.bumpEvals.busy = s.busy ∧
    s.bumpEvals.alarm = s.alarm ∧
    s.bumpEvals.engRst = s.engRst ∧
    s.bumpEvals.st = s.st ∧
    s.bumpEvals.stN = s.stN ∧
    s.bumpEvals.flags = s.flags ∧
    s.bumpEvals.work = s.work ∧
    s.bumpEvals.ph = s.ph ∧
    s.bumpEvals.hashCalls = s.hashCalls ∧
    s.bumpEvals.mem = s.mem ∧
    s.bumpEvals.commands = s.commands ∧
    s.bumpEvals.evals = s.evals + 1 ∧
    s.bumpEvals.acts = s.acts ∧
    s.bumpEvals.script = s.script ∧
    s.bumpEvals.live = s.live ∧
    s.bumpEvals.log = s.log := by
  and_intros <;> rfl

@[simp] theorem State.bumpHashCalls_fields (s : State) :
    s.bumpHashCalls.regs = s.regs ∧
    s.bumpHashCalls.collapse = s.collapse ∧
    s.bumpHashCalls.code = s.code ∧
    s.bumpHashCalls.codeN = s.codeN ∧
    s.bumpHashCalls.extStatus = s.extStatus ∧
    s.bumpHashCalls.busy = s.busy ∧
    s.bumpHashCalls.alarm = s.alarm ∧
    s.bumpHashCalls.engRst = s.engRst ∧
    s.bumpHashCalls.st = s.st ∧
    s.bumpHashCalls.stN = s.stN ∧
    s.bumpHashCalls.flags = s.flags ∧
    s.bumpHashCalls.work = s.work ∧
    s.bumpHashCalls.ph = s.ph ∧
    s.bumpHashCalls.hashCalls = s.hashCalls + 1 ∧
    s.bumpHashCalls.mem = s.mem ∧
    s.bumpHashCalls.commands = s.commands ∧
    s.bumpHashCalls.evals = s.evals ∧
    s.bumpHashCalls.acts = s.acts ∧
    s.bumpHashCalls.script = s.script ∧
    s.bumpHashCalls.live = s.live ∧
    s.bumpHashCalls.log = s.log := by
  and_intros <;> rfl

@[simp] theorem State.setAlarm_fields (s : State) :
    s.setAlarm.regs = s.regs ∧
    s.setAlarm.collapse = s.collapse ∧
    s.setAlarm.code = s.code ∧
    s.setAlarm.codeN = s.codeN ∧
    s.setAlarm.extStatus = s.extStatus ∧
    s.setAlarm.busy = s.busy ∧
    s.setAlarm.alarm = true ∧
    s.setAlarm.engRst = s.engRst ∧
    s.setAlarm.st = s.st ∧
    s.setAlarm.stN = s.stN ∧
    s.setAlarm.flags = s.flags ∧
    s.setAlarm.work = s.work ∧
    s.setAlarm.ph = s.ph ∧
    s.setAlarm.hashCalls = s.hashCalls ∧
    s.setAlarm.mem = s.mem ∧
    s.setAlarm.commands = s.commands ∧
    s.setAlarm.evals = s.evals ∧
    s.setAlarm.acts = s.acts ∧
    s.setAlarm.script = s.script ∧
    s.setAlarm.live = s.live ∧
    s.setAlarm.log = s.log := by
  and_intros <;> rfl

@[simp] theorem State.setEngRst_fields (s : State) (v : Bool) :
    (s.setEngRst v).regs = s.regs ∧
    (s.setEngRst v).collapse = s.collapse ∧
    (s.setEngRst v).code = s.code ∧
    (s.setEngRst v).codeN = s.codeN ∧
    (s.setEngRst v).extStatus = s.extStatus ∧
    (s.setEngRst v).busy = s.busy ∧
    (s.setEngRst v).alarm = s.alarm ∧
    (s.setEngRst v).engRst = v ∧
    (s.setEngRst v).st = s.st ∧
    (s.setEngRst v).stN = s.stN ∧
    (s.setEngRst v).flags = s.flags ∧
    (s.setEngRst v).work = s.work ∧
    (s.setEngRst v).ph = s.ph ∧
    (s.setEngRst v).hashCalls = s.hashCalls ∧
    (s.setEngRst v).mem = s.mem ∧
    (s.setEngRst v).commands = s.commands ∧
    (s.setEngRst v).evals = s.evals ∧
    (s.setEngRst v).acts = .engRst v :: s.acts ∧
    (s.setEngRst v).script = s.script ∧
    (s.setEngRst v).live = s.live ∧
    (s.setEngRst v).log = s.log := by
  and_intros <;> rfl

@[simp] theorem State.setWork_fields (s : State) (w : Work) :
    (s.setWork w).regs = s.regs ∧
    (s.setWork w).collapse = s.collapse ∧
    (s.setWork w).code = s.code ∧
    (s.setWork w).codeN = s.codeN ∧
    (s.setWork w).extStatus = s.extStatus ∧
    (s.setWork w).busy = s.busy ∧
    (s.setWork w).alarm = s.alarm ∧
    (s.setWork w).engRst = s.engRst ∧
    (s.setWork w).st = s.st ∧
    (s.setWork w).stN = s.stN ∧
    (s.setWork w).flags = s.flags ∧
    (s.setWork w).work = w ∧
    (s.setWork w).ph = s.ph ∧
    (s.setWork w).hashCalls = s.hashCalls ∧
    (s.setWork w).mem = s.mem ∧
    (s.setWork w).commands = s.commands ∧
    (s.setWork w).evals = s.evals ∧
    (s.setWork w).acts = s.acts ∧
    (s.setWork w).script = s.script ∧
    (s.setWork w).live = s.live ∧
    (s.setWork w).log = s.log := by
  and_intros <;> rfl

@[simp] theorem State.setFlags_fields (s : State) (f : DecFlags) :
    (s.setFlags f).regs = s.regs ∧
    (s.setFlags f).collapse = s.collapse ∧
    (s.setFlags f).code = s.code ∧
    (s.setFlags f).codeN = s.codeN ∧
    (s.setFlags f).extStatus = s.extStatus ∧
    (s.setFlags f).busy = s.busy ∧
    (s.setFlags f).alarm = s.alarm ∧
    (s.setFlags f).engRst = s.engRst ∧
    (s.setFlags f).st = s.st ∧
    (s.setFlags f).stN = s.stN ∧
    (s.setFlags f).flags = f ∧
    (s.setFlags f).work = s.work ∧
    (s.setFlags f).ph = s.ph ∧
    (s.setFlags f).hashCalls = s.hashCalls ∧
    (s.setFlags f).mem = s.mem ∧
    (s.setFlags f).commands = s.commands ∧
    (s.setFlags f).evals = s.evals ∧
    (s.setFlags f).acts = s.acts ∧
    (s.setFlags f).script = s.script ∧
    (s.setFlags f).live = s.live ∧
    (s.setFlags f).log = s.log := by
  and_intros <;> rfl

@[simp] theorem State.setMem_fields (s : State) (m : Memory) :
    (s.setMem m).regs = s.regs ∧
    (s.setMem m).collapse = s.collapse ∧
    (s.setMem m).code = s.code ∧
    (s.setMem m).codeN = s.codeN ∧
    (s.setMem m).extStatus = s.extStatus ∧
    (s.setMem m).busy = s.busy ∧
    (s.setMem m).alarm = s.alarm ∧
    (s.setMem m).engRst = s.engRst ∧
    (s.setMem m).st = s.st ∧
    (s.setMem m).stN = s.stN ∧
    (s.setMem m).flags = s.flags ∧
    (s.setMem m).work = s.work ∧
    (s.setMem m).ph = s.ph ∧
    (s.setMem m).hashCalls = s.hashCalls ∧
    (s.setMem m).mem = m ∧
    (s.setMem m).commands = s.commands ∧
    (s.setMem m).evals = s.evals ∧
    (s.setMem m).acts = s.acts ∧
    (s.setMem m).script = s.script ∧
    (s.setMem m).live = s.live ∧
    (s.setMem m).log = s.log := by
  and_intros <;> rfl

@[simp] theorem State.setOutLen_fields (s : State) (v : Word) :
    (s.setOutLen v).regs = { s.regs with outLen := v } ∧
    (s.setOutLen v).collapse = s.collapse ∧
    (s.setOutLen v).code = s.code ∧
    (s.setOutLen v).codeN = s.codeN ∧
    (s.setOutLen v).extStatus = s.extStatus ∧
    (s.setOutLen v).busy = s.busy ∧
    (s.setOutLen v).alarm = s.alarm ∧
    (s.setOutLen v).engRst = s.engRst ∧
    (s.setOutLen v).st = s.st ∧
    (s.setOutLen v).stN = s.stN ∧
    (s.setOutLen v).flags = s.flags ∧
    (s.setOutLen v).work = s.work ∧
    (s.setOutLen v).ph = s.ph ∧
    (s.setOutLen v).hashCalls = s.hashCalls ∧
    (s.setOutLen v).mem = s.mem ∧
    (s.setOutLen v).commands = s.commands ∧
    (s.setOutLen v).evals = s.evals ∧
    (s.setOutLen v).acts = .outLen v :: s.acts ∧
    (s.setOutLen v).script = s.script ∧
    (s.setOutLen v).live = s.live ∧
    (s.setOutLen v).log = s.log := by
  and_intros <;> rfl

@[simp] theorem State.answerLocked_fields (s : State) :
    s.answerLocked.regs = s.regs ∧
    s.answerLocked.collapse = s.collapse ∧
    s.answerLocked.code = 0x0B ∧
    s.answerLocked.codeN = 0xF4 ∧
    s.answerLocked.extStatus = 0 ∧
    s.answerLocked.busy = s.busy ∧
    s.answerLocked.alarm = s.alarm ∧
    s.answerLocked.engRst = s.engRst ∧
    s.answerLocked.st = s.st ∧
    s.answerLocked.stN = s.stN ∧
    s.answerLocked.flags = s.flags ∧
    s.answerLocked.work = s.work ∧
    s.answerLocked.ph = s.ph ∧
    s.answerLocked.hashCalls = s.hashCalls ∧
    s.answerLocked.mem = s.mem ∧
    s.answerLocked.commands = s.commands ∧
    s.answerLocked.evals = s.evals ∧
    s.answerLocked.acts = s.acts ∧
    s.answerLocked.script = s.script ∧
    s.answerLocked.live = s.live ∧
    s.answerLocked.log = s.log := by
  and_intros <;> rfl

@[simp] theorem State.scrub_fields (s : State) (c : Cfg) :
    (State.scrub c s).regs = s.regs ∧
    (State.scrub c s).collapse = s.collapse ∧
    (State.scrub c s).code = s.code ∧
    (State.scrub c s).codeN = s.codeN ∧
    (State.scrub c s).extStatus = s.extStatus ∧
    (State.scrub c s).busy = s.busy ∧
    (State.scrub c s).alarm = s.alarm ∧
    (State.scrub c s).engRst = s.engRst ∧
    (State.scrub c s).st = s.st ∧
    (State.scrub c s).stN = s.stN ∧
    (State.scrub c s).flags = {} ∧
    (State.scrub c s).work = Work.zero c ∧
    (State.scrub c s).ph = s.ph ∧
    (State.scrub c s).hashCalls = s.hashCalls ∧
    (State.scrub c s).mem = s.mem ∧
    (State.scrub c s).commands = s.commands ∧
    (State.scrub c s).evals = s.evals ∧
    (State.scrub c s).acts = s.acts ∧
    (State.scrub c s).script = s.script ∧
    (State.scrub c s).live = s.live ∧
    (State.scrub c s).log = s.log := by
  and_intros <;> rfl

@[simp] theorem State.accept_fields (s : State) (c : Cfg) (n : Named) :
    (State.accept c n s).regs = s.regs ∧
    (State.accept c n s).collapse = s.collapse ∧
    (State.accept c n s).code = 0x01 ∧
    (State.accept c n s).codeN = 0xFE ∧
    (State.accept c n s).extStatus = 0 ∧
    (State.accept c n s).busy = true ∧
    (State.accept c n s).alarm = s.alarm ∧
    (State.accept c n s).engRst = s.engRst ∧
    (State.accept c n s).st = 0x01 ∧
    (State.accept c n s).stN = 0xFE ∧
    (State.accept c n s).flags = {} ∧
    (State.accept c n s).work = Work.zero c ∧
    (State.accept c n s).ph = .dispatch ∧
    (State.accept c n s).hashCalls = 0 ∧
    (State.accept c n s).mem = s.mem ∧
    (State.accept c n s).commands = s.commands + 1 ∧
    (State.accept c n s).evals = 0 ∧
    (State.accept c n s).acts = [.phase .dispatch] ∧
    (State.accept c n s).script = s.script ∧
    (State.accept c n s).live = s.live ∧
    (State.accept c n s).log = { s.log with
      posted := [], awaited := s.log.awaited ++ n.outputs } := by
  and_intros <;> rfl

@[simp] theorem State.complete_fields (s : State) (k : Kind) (info : Word) :
    (s.complete k info).regs = s.regs ∧
    (s.complete k info).collapse = s.collapse ∧
    (s.complete k info).code = k.code ∧
    (s.complete k info).codeN = k.codeN ∧
    (s.complete k info).extStatus = info ∧
    (s.complete k info).busy = false ∧
    (s.complete k info).alarm = s.alarm ∧
    (s.complete k info).engRst = s.engRst ∧
    (s.complete k info).st = k.code ∧
    (s.complete k info).stN = k.codeN ∧
    (s.complete k info).flags = s.flags ∧
    (s.complete k info).work = s.work ∧
    (s.complete k info).ph = (if s.alarm then .locked else .idle) ∧
    (s.complete k info).hashCalls = s.hashCalls ∧
    (s.complete k info).mem = s.mem ∧
    (s.complete k info).commands = s.commands ∧
    (s.complete k info).evals = s.evals ∧
    (s.complete k info).acts = .phase (if s.alarm then .locked else .idle) :: s.acts ∧
    (s.complete k info).script = s.script ∧
    (s.complete k info).live = s.live ∧
    (s.complete k info).log = s.log := by
  and_intros <;> rfl

@[simp] theorem State.hardReset_fields (s : State) (c : Cfg) :
    (State.hardReset c s).regs = {} ∧
    (State.hardReset c s).collapse = false ∧
    (State.hardReset c s).code = 0x01 ∧
    (State.hardReset c s).codeN = 0xFE ∧
    (State.hardReset c s).extStatus = 0 ∧
    (State.hardReset c s).busy = false ∧
    (State.hardReset c s).alarm = false ∧
    (State.hardReset c s).engRst = true ∧
    (State.hardReset c s).st = 0x01 ∧
    (State.hardReset c s).stN = 0xFE ∧
    (State.hardReset c s).flags = {} ∧
    (State.hardReset c s).work = Work.zero c ∧
    (State.hardReset c s).ph = .idle ∧
    (State.hardReset c s).hashCalls = 0 ∧
    (State.hardReset c s).mem = s.mem ∧
    (State.hardReset c s).commands = s.commands ∧
    (State.hardReset c s).evals = 0 ∧
    (State.hardReset c s).acts = [] ∧
    (State.hardReset c s).script = s.script ∧
    (State.hardReset c s).live = s.live ∧
    (State.hardReset c s).log = s.log := by
  and_intros <;> rfl

/-- The host's side of a state replaced: its accesses still to come and its log. -/
def State.served (s : State) (l : List LiveSlot) (r : HostLog) : State :=
  { s with live := l, log := r }

@[simp] theorem State.served_fields (s : State) (l : List LiveSlot) (r : HostLog) :
    (s.served l r).regs = s.regs ∧
    (s.served l r).collapse = s.collapse ∧
    (s.served l r).code = s.code ∧
    (s.served l r).codeN = s.codeN ∧
    (s.served l r).extStatus = s.extStatus ∧
    (s.served l r).busy = s.busy ∧
    (s.served l r).alarm = s.alarm ∧
    (s.served l r).engRst = s.engRst ∧
    (s.served l r).st = s.st ∧
    (s.served l r).stN = s.stN ∧
    (s.served l r).flags = s.flags ∧
    (s.served l r).work = s.work ∧
    (s.served l r).ph = s.ph ∧
    (s.served l r).hashCalls = s.hashCalls ∧
    (s.served l r).mem = s.mem ∧
    (s.served l r).commands = s.commands ∧
    (s.served l r).evals = s.evals ∧
    (s.served l r).acts = s.acts ∧
    (s.served l r).script = s.script ∧
    (s.served l r).live = l ∧
    (s.served l r).log = r := by
  and_intros <;> rfl

/-- The state as the block sees it: without the host's side. -/
def State.alone (s : State) : State := s.served [] {}

@[simp] theorem State.alone_fields (s : State) :
    s.alone.regs = s.regs ∧
    s.alone.collapse = s.collapse ∧
    s.alone.code = s.code ∧
    s.alone.codeN = s.codeN ∧
    s.alone.extStatus = s.extStatus ∧
    s.alone.busy = s.busy ∧
    s.alone.alarm = s.alarm ∧
    s.alone.engRst = s.engRst ∧
    s.alone.st = s.st ∧
    s.alone.stN = s.stN ∧
    s.alone.flags = s.flags ∧
    s.alone.work = s.work ∧
    s.alone.ph = s.ph ∧
    s.alone.hashCalls = s.hashCalls ∧
    s.alone.mem = s.mem ∧
    s.alone.commands = s.commands ∧
    s.alone.evals = s.evals ∧
    s.alone.acts = s.acts ∧
    s.alone.script = s.script ∧
    s.alone.live = [] ∧
    s.alone.log = {} := by
  and_intros <;> rfl

@[simp] theorem State.served_served (s : State) (l l' : List LiveSlot) (r r' : HostLog) :
    (s.served l r).served l' r' = s.served l' r' := rfl

@[simp] theorem State.served_self (s : State) : s.served s.live s.log = s := rfl

@[simp] theorem State.alone_served (s : State) (l : List LiveSlot) (r : HostLog) :
    (s.served l r).alone = s.alone := rfl

@[simp] theorem State.served_alone (s : State) (l : List LiveSlot) (r : HostLog) :
    s.alone.served l r = s.served l r := rfl

/-- A value read, and an access to data memory, are on the host's side. -/
theorem State.note_served (s : State) (r : HostRead) :
    s.note r = s.served s.live { s.log with
      reads := s.log.reads ++ [r], awaited := if r.showsIdle then [] else s.log.awaited } := rfl

theorem State.post_served (s : State) (a : MemAccess) :
    s.post a = s.served s.live { s.log with posted := s.log.posted ++ [a] } := rfl

@[simp] theorem State.settle_fields (s : State) :
    s.settle.regs = s.regs ∧
    s.settle.collapse = s.collapse ∧
    s.settle.code = s.code ∧
    s.settle.codeN = s.codeN ∧
    s.settle.extStatus = s.extStatus ∧
    s.settle.busy = s.busy ∧
    s.settle.alarm = s.alarm ∧
    s.settle.engRst = s.engRst ∧
    s.settle.st = s.st ∧
    s.settle.stN = s.stN ∧
    s.settle.flags = s.flags ∧
    s.settle.work = s.work ∧
    s.settle.ph = s.ph ∧
    s.settle.hashCalls = s.hashCalls ∧
    s.settle.mem = s.mem.joined s.log.posted ∧
    s.settle.commands = s.commands ∧
    s.settle.evals = s.evals ∧
    s.settle.acts = s.acts ∧
    s.settle.script = s.script ∧
    s.settle.live = s.live ∧
    s.settle.log = { s.log with posted := [] } := by
  and_intros <;> rfl

/-- Where the host left data memory alone, the end of a command changes nothing. -/
theorem State.settle_self {s : State} (h : s.log.posted = []) : s.settle = s := by
  have hl : ({ s.log with posted := [] } : HostLog) = s.log := by rw [← h]
  unfold State.settle
  rw [h, hl]
  rfl

/-- Everything the end of a command can answer (R16, R296). -/
theorem State.conclude_cases {live : List LiveSlot} {s : State} (n : Named) (h : live = [] → s.log.posted = []) :
    (s.log.posted.all (MemAccess.allowed n s.log.awaited) = true ∧ s.conclude n live = .next s.settle) ∨
    (s.log.posted.all (MemAccess.allowed n s.log.awaited) = false ∧ s.conclude n live = .fault .hostPremiseBroken) := by
  cases live with
  | nil => exact .inl ⟨by rw [h rfl]; rfl, rfl⟩
  | cons slot rest =>
    unfold State.conclude
    split
    · exact .inl ⟨‹_›, rfl⟩
    · exact .inr ⟨Bool.eq_false_iff.mpr ‹_›, rfl⟩

theorem State.conclude_next {live : List LiveSlot} {n : Named} {s t : State} (h : s.conclude n live = .next t) :
    t = s.settle := by
  unfold State.conclude at h
  split at h
  · cases h; rfl
  · cases h

theorem State.conclude_self {live : List LiveSlot} {s : State} (h : s.log.posted = []) (n : Named) :
    s.conclude n live = .next s := by
  rw [State.conclude, h, State.settle_self h, List.all_nil, Bool.or_true]; rfl

@[simp] theorem State.alone_alone (s : State) : s.alone.alone = s.alone := rfl

end Sys2Proof.Machine
end

