-- ==== Sys2Proof/Laws/Words.lean ====
section
/-! SUPPORT. Bits and fields of words put together from parts: pointer halves (R21), command words (R81), the status and
control words (R29, R30). -/

namespace Sys2Proof.Machine

/-! ### Fields -/

theorem append_bit {m n : Nat} (x : BitVec m) (y : BitVec n) (i : Nat) :
    (x ++ y).getLsbD i = if i < n then y.getLsbD i else x.getLsbD (i - n) := BitVec.getLsbD_append

theorem field_bit {w : Nat} (x : BitVec w) (a n i : Nat) :
    (x.extractLsb' a n).getLsbD i = (decide (i < n) && x.getLsbD (a + i)) := BitVec.getLsbD_extractLsb' ..

theorem field_low {m n : Nat} (x : BitVec m) (y : BitVec n) : (x ++ y).extractLsb' 0 n = y := by
  apply BitVec.eq_of_getLsbD_eq
  intro i hi
  rw [field_bit, append_bit, Nat.zero_add, if_pos hi, decide_eq_true hi, Bool.true_and]

theorem field_high {m n : Nat} (x : BitVec m) (y : BitVec n) : (x ++ y).extractLsb' n m = x := by
  apply BitVec.eq_of_getLsbD_eq
  intro i hi
  rw [field_bit, append_bit, if_neg (by omega), Nat.add_sub_cancel_left, decide_eq_true hi, Bool.true_and]

/-! ### Pointer registers -/

@[simp] theorem loHalf_setLo (a : Addr) (v : Word) : loHalf (setLo a v) = v := field_low (hiHalf a) v

@[simp] theorem hiHalf_setLo (a : Addr) (v : Word) : hiHalf (setLo a v) = hiHalf a := field_high (hiHalf a) v

@[simp] theorem loHalf_setHi (a : Addr) (v : Word) : loHalf (setHi a v) = loHalf a := field_low v (loHalf a)

@[simp] theorem hiHalf_setHi (a : Addr) (v : Word) : hiHalf (setHi a v) = v := field_high v (loHalf a)

theorem ptr_setPtr (r : Regs) (p q : Ptr) (a : Addr) : (r.setPtr p a).ptr q = if q = p then a else r.ptr q := by
  cases p <;> cases q <;> rfl

/-! ### Words -/

/-- A command word is its two fields. -/
theorem word_fields (w : Word) : w = zeroOf w ++ opcOf w := by
  apply BitVec.eq_of_getLsbD_eq
  intro i hi
  show w.getLsbD i = (zeroOf w ++ opcOf w).getLsbD i
  rw [append_bit, zeroOf, opcOf, field_bit, field_bit]
  split
  · rename_i h; rw [decide_eq_true h, Bool.true_and, Nat.zero_add]
  · rename_i h; rw [show 4 + (i - 4) = i by omega, decide_eq_true (by omega), Bool.true_and]

/-- R30, bit by bit. -/
theorem statusWord_bit (s : State) (i : Nat) : (statusWord s).getLsbD i =
    if i < 8 then s.code.getLsbD i
    else if i - 8 < 8 then s.codeN.getLsbD (i - 8)
    else if i - 8 - 8 < 1 then s.busy
    else if i - 8 - 8 - 1 < 1 then s.alarm
    else if i - 8 - 8 - 1 - 1 < 1 then s.engRst else false := by
  show ((((0 : BitVec 13) ++ BitVec.ofBool s.engRst ++ BitVec.ofBool s.alarm ++ BitVec.ofBool s.busy) ++ s.codeN) ++
    s.code).getLsbD i = _
  simp only [append_bit]
  repeat' split
  all_goals simp [*]

theorem statusWord_busy (s : State) : (statusWord s).getLsbD 16 = s.busy := statusWord_bit s 16

/-- R29: the bits of CTRL a host write leaves. -/
theorem ctrl_field (v : Word) : ((0 : BitVec 31) ++ BitVec.ofBool (v.getLsbD 0) : Word) = v &&& 1 := by
  apply BitVec.eq_of_getLsbD_eq
  intro i hi
  show ((0 : BitVec 31) ++ BitVec.ofBool (v.getLsbD 0)).getLsbD i = _
  rw [append_bit, BitVec.getLsbD_and]
  rcases Nat.eq_zero_or_pos i with rfl | h
  · simp
  · rw [if_neg (by omega), show (1 : Word).getLsbD i = false by simp; omega]
    simp

end Sys2Proof.Machine
end

