-- ==== Sys2Proof/Laws/Cmd.lean ====
section
/-! SUPPORT. Running the pieces of a command: sequencing, and one lemma per shared operation that says everything it can
answer (R45, R63, R64, R100, R101, R250). -/

namespace Sys2Proof.Machine

variable {α β : Type} {c : Cfg} {s t : State}

/-! ### Sequencing -/

theorem bind_ok {m : Cmd α} {f : α → Cmd β} {a : α} (h : m s = .ok a t) : (m >>= f) s = f a t := by
  show EStateM.bind m f s = f a t
  simp only [EStateM.bind, h]

theorem bind_error {m : Cmd α} {f : α → Cmd β} {e : Stop} (h : m s = .error e t) :
    (m >>= f) s = .error e t := by
  show EStateM.bind m f s = .error e t
  simp only [EStateM.bind, h]

@[simp] theorem pure_run (a : α) : (pure a : Cmd α) s = .ok a s := rfl

@[simp] theorem get_run : (get : Cmd State) s = .ok s s := rfl

@[simp] theorem modify_run (f : State → State) : (modify f : Cmd Unit) s = .ok () (f s) := rfl

@[simp] theorem raise_run (k : Kind) (info : Word) : (raise k info : Cmd α) s = .error (.raised k info) s := rfl

@[simp] theorem throw_run (e : Stop) : (throw e : Cmd α) s = .error e s := rfl

@[simp] theorem record_run (a : Action) : record a s = .ok () (s.record a) := rfl

@[simp] theorem get_bind_run (f : State → Cmd β) : (get >>= f) s = f s s := rfl

@[simp] theorem modify_bind_run (g : State → State) (f : Unit → Cmd β) :
    ((modify g : Cmd Unit) >>= f) s = f () (g s) := rfl

@[simp] theorem pure_bind_run (a : α) (f : α → Cmd β) : ((pure a : Cmd α) >>= f) s = f a s := rfl

@[simp] theorem raise_bind_run (k : Kind) (info : Word) (f : α → Cmd β) :
    ((raise k info : Cmd α) >>= f) s = .error (.raised k info) s := rfl

@[simp] theorem ensure_true (k : Kind) (info : Word) : ensure true k info s = .ok () s := rfl

@[simp] theorem ensure_false (k : Kind) (info : Word) : ensure false k info s = .error (.raised k info) s := rfl

@[simp] theorem settle_pass : settle .pass s = .ok true s := rfl

@[simp] theorem settle_fail : settle .fail s = .ok false s := rfl

@[simp] theorem settle_split : settle .split s = .error (.raised .glitchError 0) s.setAlarm := rfl

/-! ### What each operation can answer -/

/-- A phase step with no host access to come. -/
theorem phase_run (p : Phase) (h : s.live = []) : phase c p s = .ok () (s.setPhase p) := by
  have : hostSlot c s = .ok () s := by simp only [hostSlot, h]
  exact bind_ok this

/-- What a reset inside a command leaves of the block (R280, R282): reset values everywhere; memory is said apart. -/
def Gone (c : Cfg) (s u : State) : Prop :=
  u = { State.resetOn c with
        mem := u.mem, script := s.script, live := u.live, log := u.log, commands := s.commands }

/-! ### What the host does in the slots of a command -/

theorem memAccesses_append (l l' : List LiveSlot) : memAccesses (l ++ l') = memAccesses l ++ memAccesses l' :=
  List.flatMap_append

theorem noReset_append (l l' : List LiveSlot) : noReset (l ++ l') = (noReset l && noReset l') := List.all_append

/-- The phases a command has entered, newest first. -/
def State.trail (s : State) : List Phase := phasesOf s.acts

/-- From `s` to `t` a command passed the phases `ps`: those from the one `s` stands in on, without the one `t` stands
in. -/
def Passed (s t : State) (ps : List Phase) : Prop :=
  ∃ qs, t.trail = qs.reverse ++ s.trail ∧ s.ph :: qs = ps ++ [t.ph]

theorem Passed.refl {s t : State} (h : t.trail = s.trail) (hp : t.ph = s.ph) : Passed s t [] := ⟨[], h, by rw [hp]; rfl⟩

theorem Passed.trans {s t u : State} {ps qs : List Phase} (h : Passed s t ps) (g : Passed t u qs) :
    Passed s u (ps ++ qs) := by
  obtain ⟨x, h1, h2⟩ := h
  obtain ⟨y, g1, g2⟩ := g
  exact ⟨x ++ y, by rw [g1, h1, List.reverse_append, List.append_assoc],
    by rw [← List.cons_append, h2, List.append_assoc, List.append_assoc, ← g2]; rfl⟩

/-- What was passed is said by the states. -/
theorem Passed.unique {s t : State} {ps qs : List Phase} (h : Passed s t ps) (g : Passed s t qs) : ps = qs := by
  obtain ⟨x, h1, h2⟩ := h
  obtain ⟨y, g1, g2⟩ := g
  have : x = y := List.reverse_injective (List.append_cancel_right (h1.symm.trans g1))
  subst this
  exact List.append_cancel_right (h2.symm.trans g2)

theorem Passed.length {s t : State} {ps : List Phase} (h : Passed s t ps) :
    t.trail.length = s.trail.length + ps.length := by
  obtain ⟨x, h1, h2⟩ := h
  have := congrArg List.length h2
  simp only [List.length_cons, List.length_append, List.length_nil, h1, List.length_reverse] at this ⊢
  omega

theorem passed_setPhase (s : State) (p : Phase) : Passed s (s.setPhase p) [s.ph] := ⟨[p], rfl, rfl⟩

theorem zip_append_of_le {ps qs : List α} {m : List β} (h : m.length ≤ ps.length) : (ps ++ qs).zip m = ps.zip m := by
  induction ps generalizing m with
  | nil =>
    obtain rfl : m = [] := List.length_eq_zero_iff.mp (by simpa using h)
    simp
  | cons p ps ih =>
    cases m with
    | nil => simp
    | cons x m => simp only [List.cons_append, List.zip_cons_cons]; rw [ih (by simpa using h)]

/-- The reads of slots that stand in the first of some phases. -/
theorem registerReads_first {ps qs : List Phase} {m : List LiveSlot} (h : m.length ≤ ps.length) :
    registerReads (ps ++ qs) m = registerReads ps m := by rw [registerReads, zip_append_of_le h]; rfl

theorem registerReads_append {ps qs : List Phase} {m m' : List LiveSlot} (h : m.length ≤ ps.length)
    (h' : m.length = ps.length ∨ m' = []) :
    registerReads (ps ++ qs) (m ++ m') = registerReads ps m ++ registerReads qs m' := by
  rcases h' with h' | rfl
  · rw [registerReads, List.zip_append h'.symm, List.flatMap_append]; rfl
  · rw [List.append_nil, registerReads_first h]; simp [registerReads]

/-- From the host's side `l`, `g` the slots of the phases `ps` were served, as far as there are any, none with a reset,
and `l'`, `g'` is left. -/
def Serves (ps : List Phase) (l : List LiveSlot) (g : HostLog) (l' : List LiveSlot) (g' : HostLog) : Prop :=
  ∃ made, l = made ++ l' ∧ noReset made = true ∧ g'.posted = g.posted ++ memAccesses made ∧
    l'.length = l.length - ps.length ∧ g'.awaited = g.awaited ∧
    g'.reads.filterMap HostRead.register = g.reads.filterMap HostRead.register ++ registerReads ps made

/-- From the host's side `l`, `g` the slots of `n` phases were served, the last of them with a reset, and `l'`, `g'` is
left. -/
def ResetIn (n : Nat) (l : List LiveSlot) (g : HostLog) (l' : List LiveSlot) (g' : HostLog) : Prop :=
  ∃ made slot, l = (made ++ [slot]) ++ l' ∧ noReset made = true ∧ slot.reset = true ∧
    g'.posted = g.posted ++ memAccesses (made ++ [slot]) ∧ made.length + 1 = n ∧ g'.awaited = g.awaited

section
variable {n k : Nat} {ps qs : List Phase} {l l1 l2 : List LiveSlot} {g g1 g2 : HostLog}

theorem Serves.refl (l : List LiveSlot) (g : HostLog) : Serves [] l g l g :=
  ⟨[], rfl, rfl, by simp [memAccesses], rfl, rfl, by simp [registerReads]⟩

theorem Serves.trans (h : Serves ps l g l1 g1) (h' : Serves qs l1 g1 l2 g2) : Serves (ps ++ qs) l g l2 g2 := by
  obtain ⟨m1, rfl, n1, p1, c1, a1, r1⟩ := h
  obtain ⟨m2, rfl, n2, p2, c2, a2, r2⟩ := h'
  simp only [List.length_append] at c1 c2
  refine ⟨m1 ++ m2, by rw [List.append_assoc], by rw [noReset_append, n1, n2]; rfl,
    by rw [p2, p1, memAccesses_append, List.append_assoc], by simp only [List.length_append]; omega, a2.trans a1, ?_⟩
  rw [r2, r1, List.append_assoc, registerReads_append (by omega)]
  rcases Nat.eq_zero_or_pos m2.length with h0 | h0
  · exact .inr (List.length_eq_zero_iff.mp h0)
  · exact .inl (by omega)

theorem Serves.reset (h : Serves ps l g l1 g1) (h' : ResetIn k l1 g1 l2 g2) : ResetIn (ps.length + k) l g l2 g2 := by
  obtain ⟨m1, rfl, n1, p1, c1, a1, -⟩ := h
  obtain ⟨m2, slot, rfl, n2, hs, p2, c2, a2⟩ := h'
  refine ⟨m1 ++ m2, slot, by simp, by rw [noReset_append, n1, n2]; rfl, hs,
    by rw [p2, p1, List.append_assoc m1, memAccesses_append m1, List.append_assoc], ?_, a2.trans a1⟩
  simp only [List.length_append, List.length_cons, List.length_nil] at c1 ⊢
  omega

theorem Serves.noReset (h : Serves ps l g l1 g1) (k : noReset l = true) : noReset l1 = true := by
  obtain ⟨m1, rfl, -⟩ := h
  rw [noReset_append, Bool.and_eq_true] at k
  exact k.2

theorem ResetIn.noReset (h : ResetIn n l g l1 g1) : noReset l = false := by
  obtain ⟨m1, slot, rfl, -, hs, -⟩ := h
  simp [Machine.noReset, hs]

end

theorem regAt_status : ∀ i : Fin 64, regAt i = .status ↔ 4 * i.val = 0x008 := by decide

/-- A read shows `BUSY = 0` when it is one of STATUS and BUSY is 0 (R30). -/
theorem showsIdle_eq (c : Cfg) (s : State) (i : Fin 64) :
    (HostRead.reg s.ph (4 * i.val) (readReg c s (regAt i))).showsIdle = (decide (4 * i.val = 0x008) && !s.busy) := by
  by_cases h : 4 * i.val = 0x008
  · rw [(regAt_status i).mpr h]
    show ((4 * i.val == 0x008) && !(statusWord s).getLsbD 16) = _
    rw [statusWord_busy, h]; rfl
  · simp [HostRead.showsIdle, h]

/-- One access while a command runs is on the host's side alone, and ends no wait (R290). -/
theorem liveAccess_served (hb : s.busy = true) (e : LiveEvent) :
    ∃ g : HostLog, liveAccess c s e = s.served s.live g ∧ g.posted = s.log.posted ++ (memAccess e).toList ∧
      g.awaited = s.log.awaited ∧ g.reads.filterMap HostRead.register =
        s.log.reads.filterMap HostRead.register ++ (registerRead s.ph e).toList := by
  cases e with
  | rd i =>
    refine ⟨_, State.note_served _ _, by simp [memAccess], ?_, by simp [registerRead, HostRead.register]⟩
    show (if _ then _ else _) = _
    rw [showsIdle_eq, hb, Bool.not_true, Bool.and_false]; rfl
  | wr i v =>
    refine ⟨s.log, ?_, by simp [memAccess], rfl, by simp [registerRead]⟩
    show hostWrite s v (regAt i) = s
    rw [hostWrite, if_pos hb]
  | mem a bytes => exact ⟨_, State.post_served _ _, rfl, rfl, by simp [registerRead]⟩
  | look a n => exact ⟨_, rfl, rfl, rfl, by simp [registerRead, HostRead.register, State.note]⟩

theorem accesses_served (es : List LiveEvent) : ∀ s : State, s.busy = true →
    ∃ g : HostLog, es.foldl (liveAccess c) s = s.served s.live g ∧
      g.posted = s.log.posted ++ es.filterMap memAccess ∧
      g.awaited = s.log.awaited ∧ g.reads.filterMap HostRead.register =
        s.log.reads.filterMap HostRead.register ++ es.filterMap (registerRead s.ph) := by
  induction es with
  | nil => exact fun s _ => ⟨s.log, rfl, by simp, rfl, by simp⟩
  | cons e es ih =>
    intro s hb
    obtain ⟨g, h, hp, ha, hr⟩ := liveAccess_served (c := c) hb e
    obtain ⟨g2, h2, hp2, ha2, hr2⟩ := ih (s.served s.live g) hb
    refine ⟨g2, by rw [List.foldl_cons, h, h2]; rfl, ?_, ha2.trans ha, ?_⟩
    · rw [hp2]
      show g.posted ++ _ = _
      rw [hp, List.filterMap_cons]
      cases memAccess e <;> simp
    · rw [hr2]
      show g.reads.filterMap _ ++ es.filterMap (registerRead s.ph) = _
      rw [hr, List.filterMap_cons]
      cases registerRead s.ph e <;> simp

/-- What an access of the host leaves alone, in any state. -/
theorem liveAccess_rest (s : State) (e : LiveEvent) :
    (liveAccess c s e).mem = s.mem ∧ (liveAccess c s e).acts = s.acts ∧ (liveAccess c s e).work = s.work := by
  cases e with
  | rd i => exact ⟨rfl, rfl, rfl⟩
  | wr i v =>
    show (hostWrite s v (regAt i)).mem = _ ∧ (hostWrite s v (regAt i)).acts = _ ∧ (hostWrite s v (regAt i)).work = _
    unfold hostWrite
    split
    · exact ⟨rfl, rfl, rfl⟩
    · cases regAt i <;> exact ⟨rfl, rfl, rfl⟩
  | mem a bytes => exact ⟨rfl, rfl, rfl⟩
  | look a n => exact ⟨rfl, rfl, rfl⟩

theorem accesses_rest (es : List LiveEvent) : ∀ s : State, (es.foldl (liveAccess c) s).mem = s.mem ∧
    (es.foldl (liveAccess c) s).acts = s.acts ∧ (es.foldl (liveAccess c) s).work = s.work := by
  induction es with
  | nil => exact fun s => ⟨rfl, rfl, rfl⟩
  | cons e es ih =>
    intro s
    obtain ⟨h1, h2, h3⟩ := liveAccess_rest (c := c) s e
    obtain ⟨k1, k2, k3⟩ := ih (liveAccess c s e)
    exact ⟨k1.trans h1, k2.trans h2, k3.trans h3⟩

/-- Everything a host slot can answer, in any state. -/
theorem hostSlot_cases (s : State) :
    (∃ t, hostSlot c s = .ok () t ∧ t.mem = s.mem ∧ t.acts = s.acts ∧ t.work = s.work) ∨
    (∃ t, hostSlot c s = .error .resetHit t ∧ t.mem = s.mem ∧ t.work = Work.zero c) := by
  cases hl : s.live with
  | nil => exact .inl ⟨s, by simp only [hostSlot, hl], rfl, rfl, rfl⟩
  | cons slot rest =>
    let u := slot.accesses.foldl (liveAccess c) { s with live := rest }
    have h := accesses_rest (c := c) slot.accesses { s with live := rest }
    cases hr : slot.reset with
    | false => exact .inl ⟨u, by simp only [hostSlot, hl, hr, Bool.false_eq_true, if_false]; rfl, h⟩
    | true => exact .inr ⟨State.hardReset c u, by simp only [hostSlot, hl, hr, if_true]; rfl, h.1, rfl⟩

/-- A slot with no reset in it. -/
theorem hostSlot_serves (hb : s.busy = true) (h : resetNow s.live = false) :
    ∃ l g, Serves [s.ph] s.live s.log l g ∧ hostSlot c s = .ok () (s.served l g) := by
  cases hl : s.live with
  | nil => exact ⟨s.live, s.log, ⟨[], by rw [hl]; rfl, rfl, by simp [memAccesses], by rw [hl]; rfl, rfl,
      by simp [registerReads]⟩, by simp only [hostSlot, hl]; rw [← hl]; rfl⟩
  | cons slot rest =>
    obtain ⟨g, hf, hp, ha, hg⟩ := accesses_served (c := c) slot.accesses (s.served rest s.log) hb
    have hr : slot.reset = false := by rw [hl] at h; exact h
    refine ⟨rest, g, ⟨[slot], rfl, by simp [noReset, hr], by rw [hp]; simp [memAccesses], rfl, ha,
      by rw [hg]; simp [registerReads]⟩, ?_⟩
    simp only [hostSlot, hl, hr, Bool.false_eq_true, if_false]
    exact congrArg _ hf

/-- A slot with a reset in it. -/
theorem hostSlot_resets (hb : s.busy = true) (h : resetNow s.live = true) :
    ∃ l g, ResetIn 1 s.live s.log l g ∧ hostSlot c s = .error .resetHit (State.hardReset c (s.served l g)) := by
  cases hl : s.live with
  | nil => rw [hl] at h; cases h
  | cons slot rest =>
    obtain ⟨g, hf, hp, ha, -⟩ := accesses_served (c := c) slot.accesses (s.served rest s.log) hb
    have hr : slot.reset = true := by rw [hl] at h; exact h
    refine ⟨rest, g, ⟨[], slot, rfl, rfl, hr, by rw [hp]; simp [memAccesses], rfl, ha⟩, ?_⟩
    simp only [hostSlot, hl, hr, if_true]
    exact congrArg (fun x => EStateM.Result.error Stop.resetHit (State.hardReset c x)) hf

theorem phase_resets (p : Phase) (hb : s.busy = true) (h : resetNow s.live = true) :
    ∃ l g, ResetIn 1 s.live s.log l g ∧ phase c p s = .error .resetHit (State.hardReset c (s.served l g)) := by
  obtain ⟨l, g, hr, e⟩ := hostSlot_resets (c := c) hb h
  exact ⟨l, g, hr, by rw [phase, bind_error e]⟩

/-- A phase step while a command runs: the host's slot is served, and nothing of the block but PH changes (R45, R290); or
the reset input is asserted in it (R282). -/
theorem phase_hosted (p : Phase) (hb : s.busy = true) :
    (∃ l g, Serves [s.ph] s.live s.log l g ∧ phase c p s = .ok () ((s.setPhase p).served l g)) ∨
    (∃ l g, ResetIn 1 s.live s.log l g ∧ phase c p s = .error .resetHit (State.hardReset c (s.served l g))) := by
  cases h : resetNow s.live with
  | true => exact .inr (phase_resets p hb h)
  | false =>
    obtain ⟨l, g, hs, e⟩ := hostSlot_serves (c := c) hb h
    exact .inl ⟨l, g, hs, by rw [phase, bind_ok e]; rfl⟩

/-- A phase step while a command runs and no reset comes. -/
theorem phase_cases (p : Phase) (hb : s.busy = true) (h : noReset s.live = true) :
    ∃ l r, noReset l = true ∧ phase c p s = .ok () ((s.setPhase p).served l r) := by
  rcases phase_hosted (c := c) p hb with ⟨l, r, hn, e⟩ | ⟨l, r, hn, _⟩
  · exact ⟨l, r, hn.noReset h, e⟩
  · rw [hn.noReset] at h; cases h

theorem resetNow_of_noReset {l : List LiveSlot} (h : noReset l = true) : resetNow l = false := by
  cases l with
  | nil => rfl
  | cons slot rest =>
    rw [noReset, List.all_cons, Bool.and_eq_true] at h
    have h1 : (!slot.reset) = true := h.1
    show slot.reset = false
    simpa using h1

/-- Inside the address space there is room for every byte (R60). -/
theorem roomAbove_ge {a : Addr} {n : Nat} (h : a.toNat + n ≤ 2 ^ 64) : n ≤ roomAbove a := by
  unfold roomAbove
  omega

/-- MemRead gives as many bytes as asked for. -/
theorem length_fetched (a : Addr) (n : Nat) : (fetched c s a n).length = n := by
  simp only [fetched, List.length_append, Memory.length_readBytes, List.length_map, List.length_range]
  omega

/-- Everything MemRead can answer (R63). -/
theorem memRead_total (a : Addr) (n : Nat) :
    memRead c a n s = .ok (fetched c s a n) (if n = 0 then s else s.record (.memRead a n)) := by
  unfold memRead
  split
  · rename_i h0; subst h0; simp [fetched, Memory.readBytes]
  · rfl

/-- MemRead inside the address space gives the bytes there (R63). -/
theorem memRead_run {a : Addr} {n : Nat} (h : a.toNat + n ≤ 2 ^ 64) :
    memRead c a n s = .ok (s.mem.readBytes a.toNat n) (if n = 0 then s else s.record (.memRead a n)) := by
  have hr := roomAbove_ge h
  rw [memRead_total, fetched, Nat.min_eq_left hr, Nat.sub_eq_zero_of_le hr]
  simp

/-- Everything MemWrite can answer (R64). -/
theorem memWrite_total (a : Addr) (v : Bytes) :
    memWrite c a v s = .ok () (if v.length = 0 then s
      else (s.setMem (s.mem.writeBytes a.toNat (emitted c s a (v.take (roomAbove a))))).record (.memWrite a v.length)) := by
  unfold memWrite
  split <;> rfl

theorem emitted_calm (a : Addr) (v : Bytes) (h : resetNow s.live = false) : emitted c s a v = v := by
  rw [emitted, h]; rfl

/-- MemWrite with no reset falling into the phase (R64). -/
theorem memWrite_calm (a : Addr) (v : Bytes) (h : resetNow s.live = false) :
    memWrite c a v s = .ok () (if v.length = 0 then s
      else (s.setMem (s.mem.writeBytes a.toNat (v.take (roomAbove a)))).record (.memWrite a v.length)) := by
  rw [memWrite_total, emitted_calm _ _ h]

/-- In the fault-free machine a double evaluation gives its predicate (R250). -/
theorem evalTwice_faultFree (site : Site) (pred : Bool) (h : FaultFree c s.commands) :
    evalTwice c site pred s = .ok (if pred then .pass else .fail) s.bumpEvals := by
  unfold evalTwice
  rw [h, h]
  cases pred <;> rfl

/-- In the fault-free machine CritEval gives its predicate (R250). -/
theorem critEval_faultFree (site : Site) (pred : Bool) (h : FaultFree c s.commands) :
    critEval c site pred s = .ok pred s.bumpEvals := by
  rw [critEval, bind_ok (evalTwice_faultFree site pred h)]
  cases pred <;> rfl

/-- Everything CritEval can answer, on any oracle (R250). -/
theorem critEval_cases (site : Site) (pred : Bool) :
    critEval c site pred s = .ok true s.bumpEvals ∨ critEval c site pred s = .ok false s.bumpEvals ∨
    critEval c site pred s = .error (.raised .glitchError 0) s.bumpEvals.setAlarm := by
  obtain ⟨v, he⟩ : ∃ v, evalTwice c site pred s = .ok v s.bumpEvals := ⟨_, rfl⟩
  rw [critEval, bind_ok he]
  cases v
  · left; rfl
  · right; left; rfl
  · right; right; rfl

/-- In the fault-free machine a checked predicate decides (R250). -/
theorem check_faultFree (site : Site) (pred : Bool) (k : Kind) (info : Word) (h : FaultFree c s.commands) :
    check c site pred k info s = if pred then .ok () s.bumpEvals else .error (.raised k info) s.bumpEvals := by
  rw [check, bind_ok (critEval_faultFree site pred h)]
  cases pred <;> rfl

/-- Everything a checked predicate can answer, on any oracle (R250): it passes, it raises its kind, or the copies differ. -/
theorem check_cases (site : Site) (pred : Bool) (k : Kind) (info : Word) :
    (check c site pred k info s = .ok () s.bumpEvals) ∨
    (check c site pred k info s = .error (.raised k info) s.bumpEvals) ∨
    (check c site pred k info s = .error (.raised .glitchError 0) s.bumpEvals.setAlarm) := by
  rcases critEval_cases (c := c) (s := s) site pred with h | h | h
  · left; rw [check, bind_ok h]; rfl
  · right; left; rw [check, bind_ok h]; rfl
  · right; right; exact bind_error h

/-- One Digest call in the fault-free machine (R100). -/
theorem digest_faultFree (sel : Word) (x : Bytes) (h : FaultFree c s.commands) :
    digest c sel x s =
      if c.hashFail s.commands s.hashCalls = 0 then
        .ok (hashOf c sel x) ((s.bumpHashCalls.record (.digest c.hashInstance sel x.length)).bumpEvals)
      else .error (.raised .hashFailure (c.hashFail s.commands s.hashCalls))
        ((s.bumpHashCalls.record (.digest c.hashInstance sel x.length)).bumpEvals) := by
  simp only [digest, get_bind_run, modify_bind_run]
  have hc := check_faultFree (s := s.bumpHashCalls.record (.digest c.hashInstance sel x.length)) .hashStatus
    (c.hashFail s.commands s.hashCalls == 0) .hashFailure (c.hashFail s.commands s.hashCalls) (by simpa using h)
  by_cases h0 : c.hashFail s.commands s.hashCalls = 0
  · simp only [h0, beq_self_eq_true, if_true] at hc ⊢
    rw [bind_ok hc]
    rfl
  · simp only [beq_iff_eq, h0, if_false] at hc ⊢
    rw [bind_error hc]

/-- One entropy draw in the fault-free machine (R101). -/
theorem getRandom_faultFree (n : Nat) (h : FaultFree c s.commands) :
    getRandom c n s =
      if (c.entropy s.commands n).1 = 0 then
        .ok (c.entropy s.commands n).2 ((s.record (.draw n)).bumpEvals)
      else .error (.raised .entropyFailure (c.entropy s.commands n).1) ((s.record (.draw n)).bumpEvals) := by
  simp only [getRandom, get_bind_run]
  rw [bind_ok (record_run _)]
  have hc := check_faultFree (s := s.record (.draw n)) .rngStatus ((c.entropy s.commands n).1 == 0) .entropyFailure
    (c.entropy s.commands n).1 (by simpa using h)
  by_cases h0 : (c.entropy s.commands n).1 = 0
  · simp only [h0, beq_self_eq_true, if_true] at hc ⊢
    rw [bind_ok hc]
    rfl
  · simp only [beq_iff_eq, h0, if_false] at hc ⊢
    rw [bind_error hc]

/-- Everything one Digest call can answer, on any oracle (R100). -/
theorem digest_cases (sel : Word) (x : Bytes) :
    let u := (s.bumpHashCalls.record (.digest c.hashInstance sel x.length)).bumpEvals
    digest c sel x s = .ok (hashOf c sel x) u ∨
    digest c sel x s = .error (.raised .hashFailure (c.hashFail s.commands s.hashCalls)) u ∨
    digest c sel x s = .error (.raised .glitchError 0) u.setAlarm := by
  simp only [digest, get_bind_run, modify_bind_run]
  rcases check_cases (c := c) (s := s.bumpHashCalls.record (.digest c.hashInstance sel x.length)) .hashStatus
    (c.hashFail s.commands s.hashCalls == 0) .hashFailure (c.hashFail s.commands s.hashCalls) with h | h | h
  · left; rw [bind_ok h]; rfl
  · right; left; exact bind_error h
  · right; right; exact bind_error h

/-- Everything one entropy draw can answer, on any oracle (R101). -/
theorem getRandom_cases (n : Nat) :
    let u := (s.record (.draw n)).bumpEvals
    getRandom c n s = .ok (c.entropy s.commands n).2 u ∨
    getRandom c n s = .error (.raised .entropyFailure (c.entropy s.commands n).1) u ∨
    getRandom c n s = .error (.raised .glitchError 0) u.setAlarm := by
  simp only [getRandom, get_bind_run]
  rw [bind_ok (record_run _)]
  rcases check_cases (c := c) (s := s.record (.draw n)) .rngStatus
    ((c.entropy s.commands n).1 == 0) .entropyFailure (c.entropy s.commands n).1 with h | h | h
  · left; rw [bind_ok h]; rfl
  · right; left; exact bind_error h
  · right; right; exact bind_error h

/-- The exit point with no host access to come (R222). -/
theorem exitPoint_run (k : Kind) (info : Word) (h : s.live = []) :
    exitPoint c k info s =
      .ok () ((((s.setPhase .exitScrub).scrub c).setPhase .exitStatus).complete k info) := by
  rw [exitPoint, bind_ok (phase_run _ h), modify_bind_run, bind_ok (phase_run _ (by simpa using h))]
  rfl

/-- The exit point while no reset comes (R222, R290). -/
theorem exitPoint_cases (k : Kind) (info : Word) (hb : s.busy = true) (h : noReset s.live = true) :
    ∃ l r, noReset l = true ∧ exitPoint c k info s =
      .ok () (((((s.setPhase .exitScrub).scrub c).setPhase .exitStatus).complete k info).served l r) := by
  obtain ⟨l1, r1, h1, e1⟩ := phase_cases (c := c) .exitScrub hb h
  obtain ⟨l2, r2, h2, e2⟩ := phase_cases (c := c)
    (s := State.scrub c ((s.setPhase .exitScrub).served l1 r1)) .exitStatus (by simpa using hb) (by simpa using h1)
  exact ⟨l2, r2, h2, by rw [exitPoint, bind_ok e1, modify_bind_run, bind_ok e2]; rfl⟩

end Sys2Proof.Machine
end

