-- ==== Sys2Proof/Laws/Piece.lean ====
section
/-! SUPPORT. The pieces a command body is built of before it emits anything, beside the same pieces on the glitch-free
configuration, and what holds of every body so built: its frame (R243), its blindness to the host (R290), what a glitch
can do to it (R255). -/

namespace Sys2Proof.Machine

variable {c : Cfg} {ks : List Kind} {col : Bool} {ok : Action → Bool} {α β : Type}

/-- An action on the engine's line. -/
def Action.isLine : Action → Bool
  | .engRst _ => true
  | .engCall _ => true
  | .phase _ => false
  | .memRead _ _ => false
  | .memWrite _ _ => false
  | .digest _ _ _ => false
  | .draw _ => false
  | .outLen _ => false

/-- What every piece leaves as it was, and that it only adds actions `ok` admits. -/
structure Framed (ok : Action → Bool) (s t : State) : Prop where
  regs : t.regs = s.regs
  collapse : t.collapse = s.collapse
  code : t.code = s.code
  codeN : t.codeN = s.codeN
  extStatus : t.extStatus = s.extStatus
  busy : t.busy = s.busy
  st : t.st = s.st
  stN : t.stN = s.stN
  mem : t.mem = s.mem
  commands : t.commands = s.commands
  script : t.script = s.script
  live : noReset s.live = true → noReset t.live = true
  engRst : (∀ a, ok a = true → a.isLine = false) → t.engRst = s.engRst
  acts : ∃ l, t.acts = l ++ s.acts ∧ ∀ a ∈ l, ok a = true

/-- What the work of a piece changes. -/
theorem framed_work (s : State) (f : DecFlags) (w : Work) (n e : Nat) (al : Bool) (l : List Action)
    (h : ∀ a ∈ l, ok a = true) : Framed ok s { s with
      flags := f, work := w, hashCalls := n, evals := e, alarm := al, acts := l ++ s.acts } := by
  constructor
  case live => exact id
  case engRst => exact fun _ => rfl
  case acts => exact ⟨l, rfl, h⟩
  all_goals rfl

theorem Framed.refl (s : State) : Framed ok s s := framed_work s _ _ _ _ _ [] (by simp)

theorem Framed.trans {s t u : State} (h : Framed ok s t) (g : Framed ok t u) : Framed ok s u := by
  obtain ⟨l1, e1, o1⟩ := h.acts
  obtain ⟨l2, e2, o2⟩ := g.acts
  refine ⟨g.regs.trans h.regs, g.collapse.trans h.collapse, g.code.trans h.code, g.codeN.trans h.codeN,
    g.extStatus.trans h.extStatus, g.busy.trans h.busy, g.st.trans h.st, g.stN.trans h.stN, g.mem.trans h.mem,
    g.commands.trans h.commands, g.script.trans h.script, fun x => g.live (h.live x),
    fun x => (g.engRst x).trans (h.engRst x), l2 ++ l1, by rw [e2, e1, List.append_assoc], ?_⟩
  intro a ha
  rcases List.mem_append.mp ha with h' | h'
  exacts [o2 a h', o1 a h']

/-- An update a piece may make: framed, silent on the alarm and PH, and independent of the host's side. -/
structure Tame (ok : Action → Bool) (g : State → State) : Prop where
  framed : ∀ s, Framed ok s (g s)
  alarm : ∀ s, (g s).alarm = s.alarm
  phase : ∀ s, (g s).ph = s.ph
  trail : ∀ s, (g s).trail = s.trail
  served : ∀ s l r, g (s.served l r) = (g s).served l r

/-- However it starts, a piece that ends with GlitchError. -/
def Doomed (m : Cmd α) : Prop :=
  ∀ s, s.busy = true → noReset s.live = true → ∃ t, m s = .error (.raised .glitchError 0) t

/-- R222: an error kind whose EXT_STATUS is a provider's status. -/
def Kind.fromProvider : Kind → Bool
  | .hashFailure => true
  | .entropyFailure => true
  | .engineFailure => true
  | .success => false
  | .notDone => false
  | .invalidParam => false
  | .invalidMessageLength => false
  | .byteMismatchError => false
  | .dataCompareError => false
  | .dbMismatchError => false
  | .exponentInvalidParam => false
  | .glitchError => false
  | .illegalCommand => false
  | .decodeError => false

/-- The pieces. `ks` are the kinds a piece may raise of itself, `col` is COLLAPSE, `ok` says which actions it may make.
The second command is the first on the glitch-free configuration. -/
inductive Piece (c : Cfg) (ks : List Kind) (col : Bool) (ok : Action → Bool) : {α : Type} → Cmd α → Cmd α → Prop
  | ret {α : Type} (a : α) : Piece c ks col ok (pure a) (pure a)
  | bind {α β : Type} {m m' : Cmd α} {f f' : α → Cmd β} : Piece c ks col ok m m' →
      (∀ a, Piece c ks col ok (f a) (f' a)) → Piece c ks col ok (m >>= f) (m' >>= f')
  | look {β : Type} {f f' : State → Cmd β} : (∀ s, f s.alone = f s) → (∀ s, f' s.alone = f' s) →
      (∀ s, s.collapse = col → Piece c ks col ok (f s) (f' s)) → Piece c ks col ok (get >>= f) (get >>= f')
  | phase (p : Phase) : ok (.phase p) = true → Piece c ks col ok (phase c p) (phase c.glitchFree p)
  | update (g : State → State) : Tame ok g → Piece c ks col ok (modify g) (modify g)
  | read (a : Addr) (n : Nat) : ok (.memRead a n) = true → Piece c ks col ok (memRead c a n) (memRead c.glitchFree a n)
  | eval {β : Type} {f f' : Verdict → Cmd β} (site : Site) (pred : Bool) :
      (∀ v, Piece c ks col ok (f v) (f' v)) → Doomed (f .split) →
      Piece c ks col ok (evalTwice c site pred >>= f) (evalTwice c.glitchFree site pred >>= f')
  | fail {α : Type} (k : Kind) (info : Word) : k ∈ ks → k ≠ .glitchError → (info = 0 ∨ k.fromProvider = true) →
      Piece c ks col ok (raise k info : Cmd α) (raise k info)
  | trip {α : Type} : Piece c ks col ok (modify State.setAlarm >>= fun _ => raise (α := α) .glitchError 0)
      (modify State.setAlarm >>= fun _ => raise .glitchError 0)
  | tripHold {α : Type} : ok (.phase .expHold) = true → ok (.engRst true) = true →
      Piece c ks col ok (modify State.setAlarm >>= fun _ => hold c >>= fun _ => raise (α := α) .glitchError 0)
        (modify State.setAlarm >>= fun _ => hold c.glitchFree >>= fun _ => raise .glitchError 0)

/-! ### Updates -/

theorem tame_setWork (g : State → Work) (h : ∀ s l r, g (s.served l r) = g s) :
    Tame ok fun s => s.setWork (g s) where
  framed s := framed_work s _ _ _ _ _ [] (by simp)
  alarm _ := rfl
  phase _ := rfl
  trail _ := rfl
  served s l r := by rw [h]; rfl

theorem tame_setFlags (g : State → DecFlags) (h : ∀ s l r, g (s.served l r) = g s) :
    Tame ok fun s => s.setFlags (g s) where
  framed s := framed_work s _ _ _ _ _ [] (by simp)
  alarm _ := rfl
  phase _ := rfl
  trail _ := rfl
  served s l r := by rw [h]; rfl

theorem trail_record {a : Action} (s : State) (h : ∀ p, a ≠ .phase p) : (s.record a).trail = s.trail := by
  cases a with
  | phase p => exact absurd rfl (h p)
  | _ => rfl

theorem tame_record {a : Action} (h : ok a = true) (hp : ∀ p, a ≠ .phase p) : Tame ok fun s => s.record a where
  framed s := framed_work s _ _ _ _ _ [a] (by simpa using h)
  alarm _ := rfl
  phase _ := rfl
  trail s := trail_record s hp
  served _ _ _ := rfl

theorem tame_digest {a : Action} (h : ok a = true) (hp : ∀ p, a ≠ .phase p) :
    Tame ok fun s => s.bumpHashCalls.record a where
  framed s := framed_work s _ _ _ _ _ [a] (by simpa using h)
  alarm _ := rfl
  phase _ := rfl
  trail s := trail_record s.bumpHashCalls hp
  served _ _ _ := rfl

theorem tame_setEngRst {v : Bool} (h : ok (.engRst v) = true) : Tame ok fun s => s.setEngRst v where
  framed s := by
    constructor
    case live => exact id
    case engRst => exact fun x => absurd (x _ h) (by simp [Action.isLine])
    case acts => exact ⟨[.engRst v], rfl, by simpa using h⟩
    all_goals rfl
  alarm _ := rfl
  phase _ := rfl
  trail _ := rfl
  served _ _ _ := rfl

theorem framed_setPhase {s : State} {p : Phase} (h : ok (.phase p) = true) (l r) (hl : noReset l = true) :
    Framed ok s ((s.setPhase p).served l r) := by
  constructor
  case live => exact fun _ => hl
  case engRst => exact fun _ => rfl
  case acts => exact ⟨[.phase p], rfl, by simpa using h⟩
  all_goals rfl

theorem framed_bumpEvals {s : State} : Framed ok s s.bumpEvals := framed_work s _ _ _ _ _ [] (by simp)

theorem framed_setAlarm {s : State} : Framed ok s s.setAlarm := framed_work s _ _ _ _ _ [] (by simp)

/-- The HOLD step while no reset comes (R176). -/
theorem hold_cases {s : State} (hb : s.busy = true) (h : noReset s.live = true) :
    ∃ l r, noReset l = true ∧ hold c s = .ok () (((s.setPhase .expHold).setEngRst true).served l r) := by
  obtain ⟨l, r, hl, e⟩ := phase_cases (c := c) .expHold hb h
  exact ⟨l, r, hl, by rw [hold, bind_ok e]; rfl⟩

theorem hold_run {s : State} (h : s.live = []) :
    hold c s = .ok () ((s.setPhase .expHold).setEngRst true) := by
  rw [hold, bind_ok (phase_run _ h)]; rfl

/-! ### The frame -/

/-- What the state after a piece, run from `s`, satisfies. -/
def GoodEnd (ks : List Kind) (ok : Action → Bool) (s : State) : EStateM.Result Stop State α → Prop
  | .ok _ t => Framed ok s t ∧ t.alarm = s.alarm
  | .error (.raised k info) t => Framed ok s t ∧
      ((k = .glitchError ∧ info = 0 ∧ t.alarm = true) ∨
        (k ∈ ks ∧ k ≠ .glitchError ∧ (info = 0 ∨ k.fromProvider = true) ∧ t.alarm = s.alarm))
  | .error .resetHit _ => False

theorem GoodEnd.after {s t : State} (h : Framed ok s t) (ha : t.alarm = s.alarm) {r : EStateM.Result Stop State α}
    (g : GoodEnd ks ok t r) : GoodEnd ks ok s r := by
  cases r with
  | ok a u => exact ⟨h.trans g.1, g.2.trans ha⟩
  | error e u =>
    cases e with
    | raised k info =>
      refine ⟨h.trans g.1, ?_⟩
      rcases g.2 with h' | h'
      · exact .inl h'
      · exact .inr ⟨h'.1, h'.2.1, h'.2.2.1, h'.2.2.2.trans ha⟩
    | resetHit => exact g

/-- Every piece, on every oracle, while no reset comes. -/
theorem Piece.goodEnd {m m' : Cmd α} (h : Piece c ks col ok m m') {s : State} (hb : s.busy = true)
    (hl : noReset s.live = true) (hc : s.collapse = col) : GoodEnd ks ok s (m s) := by
  induction h generalizing s with
  | ret a => exact ⟨.refl s, rfl⟩
  | bind _ _ ih1 ih2 =>
    rename_i m m' f f' _ _
    have h1 := ih1 hb hl hc
    revert h1
    cases hm : m s with
    | ok a t =>
      intro h1
      rw [bind_ok hm]
      exact (ih2 a (h1.1.busy.trans hb) (h1.1.live hl) (h1.1.collapse.trans hc)).after h1.1 h1.2
    | error e t =>
      intro h1
      rw [bind_error hm]
      cases e <;> exact h1
  | look _ _ _ ih => exact ih s hc hb hl hc
  | phase p hp =>
    obtain ⟨l, r, hn, e⟩ := phase_cases (c := c) p hb hl
    rw [e]
    exact ⟨framed_setPhase hp l r hn, rfl⟩
  | update g hg => exact ⟨hg.framed s, hg.alarm s⟩
  | read a n hr =>
    rw [memRead_total]
    split
    · exact ⟨.refl s, rfl⟩
    · exact ⟨(tame_record hr fun _ => nofun).framed s, rfl⟩
  | eval site pred _ _ ih =>
    rename_i f f' _ _
    have e : (evalTwice c site pred >>= f) s = f _ s.bumpEvals := rfl
    rw [e]
    exact (ih _ (s := s.bumpEvals) hb hl hc).after framed_bumpEvals rfl
  | fail k info h1 h2 h3 => exact ⟨.refl s, .inr ⟨h1, h2, h3, rfl⟩⟩
  | trip => exact ⟨framed_setAlarm, .inl ⟨rfl, rfl, rfl⟩⟩
  | tripHold h1 h2 =>
    rw [modify_bind_run]
    obtain ⟨l, r, hn, e⟩ := hold_cases (c := c) (s := s.setAlarm) (by simpa using hb) (by simpa using hl)
    rw [bind_ok e]
    have f1 := framed_setPhase (s := s.setAlarm) h1 l r hn
    have f2 := (tame_setEngRst h2).framed ((s.setAlarm.setPhase .expHold).served l r)
    exact ⟨framed_setAlarm.trans (f1.trans f2), .inl ⟨rfl, rfl, rfl⟩⟩

/-! ### Blindness to the host -/

/-- The state of a result replaced. -/
def onState (g : State → State) : EStateM.Result Stop State α → EStateM.Result Stop State α
  | .ok a t => .ok a (g t)
  | .error e t => .error e (g t)

theorem phase_alone (s : State) (p : Phase) : phase c p s.alone = .ok () (s.setPhase p).alone := by
  rw [phase_run p rfl]; rfl

/-- What the host can do to a piece of a command run from a state: its accesses, one slot for each phase passed, change
nothing but what the host itself sees (R290), or a reset abandons the piece with data memory as it was (R282). -/
def HostedAt (c : Cfg) (m : Cmd α) (s : State) : Prop :=
  (stateOf (m s.alone)).alone = stateOf (m s.alone) ∧ (stateOf (m s.alone)).busy = true ∧
  ∃ ps, Passed s (stateOf (m s.alone)) ps ∧
    ((∃ l r, Serves ps s.live s.log l r ∧ m s = onState (fun t => t.served l r) (m s.alone)) ∨
      (∃ u k, k ≤ ps.length ∧ m s = .error .resetHit u ∧ ResetIn k s.live s.log u.live u.log ∧ Gone c s u ∧ u.mem = s.mem))

/-- The host and a piece, from every state in which a command runs. -/
def Hosted (c : Cfg) (m : Cmd α) : Prop := ∀ s, s.busy = true → HostedAt c m s

/-- The host and a sequence; the first part leaves memory, script and number as they were. -/
theorem HostedAt.bind {m : Cmd α} {f : α → Cmd β} {s : State} (h1 : HostedAt c m s)
    (h2 : ∀ a t, m s.alone = .ok a t → t.busy = true → (∀ l r, HostedAt c (f a) (t.served l r)) ∧
      t.mem = s.mem ∧ t.script = s.script ∧ t.commands = s.commands) : HostedAt c (m >>= f) s := by
  obtain ⟨h0, hb0, ps, hn, h⟩ := h1
  unfold HostedAt
  revert h0 hb0 hn h
  cases hm : m s.alone with
  | ok a t =>
    intro h0 hb0 hn h
    change t.alone = t at h0
    change t.busy = true at hb0
    change Passed s t ps at hn
    obtain ⟨hf, k1, k2, k3⟩ := h2 a t hm hb0
    rw [bind_ok hm]
    obtain ⟨p1, p2, qs, q, -⟩ := hf [] {}
    rw [State.alone_served, h0] at p1 p2 q
    refine ⟨p1, p2, ps ++ qs, hn.trans q, ?_⟩
    rcases h with ⟨l, r, hs, e⟩ | ⟨u, k, hk, e, g⟩
    · have e' : m s = .ok a (t.served l r) := e
      rw [bind_ok e']
      obtain ⟨-, -, qs', q3, h3⟩ := hf l r
      rw [State.alone_served, h0] at q3 h3
      obtain rfl : qs' = qs := Passed.unique (s := t) q3 q
      rcases h3 with ⟨l2, r2, hs2, e2⟩ | ⟨u, k, hk, e2, hs2, g, gm⟩
      · exact .inl ⟨l2, r2, hs.trans hs2, e2⟩
      · refine .inr ⟨u, ps.length + k, by rw [List.length_append]; omega, e2, hs.reset hs2, ?_, gm.trans k1⟩
        rw [Gone] at g ⊢
        rw [← k2, ← k3]; exact g
    · exact .inr ⟨u, k, by rw [List.length_append]; omega, bind_error e, g⟩
  | error x t =>
    intro h0 hb0 hn h
    rw [bind_error hm]
    refine ⟨h0, hb0, ps, hn, ?_⟩
    rcases h with ⟨l, r, hs, e⟩ | ⟨u, k, hk, e, g⟩
    · exact .inl ⟨l, r, hs, by rw [bind_error (show m s = .error x (t.served l r) from e)]; rfl⟩
    · exact .inr ⟨u, k, hk, bind_error e, g⟩

/-- What passes no phase, whatever the host does. -/
theorem hosted_of_plain {m : Cmd α} (h : ∀ s l r, m (s.served l r) = onState (fun t => t.served l r) (m s))
    (hb : ∀ s, (stateOf (m s)).busy = s.busy ∧ Passed s (stateOf (m s)) []) : Hosted c m := by
  intro s hs
  refine ⟨?_, (hb _).1.trans hs, [], (hb s.alone).2, .inl ⟨s.live, s.log, .refl _ _, h s.alone s.live s.log⟩⟩
  have e : m s.alone = onState (fun t => t.served [] {}) (m s) := h s [] {}
  rw [e]
  cases m s <;> rfl

theorem hosted_update {g : State → State} (h : ∀ s l r, g (s.served l r) = (g s).served l r)
    (hb : ∀ s, (g s).busy = s.busy ∧ Passed s (g s) []) : Hosted c (modify g) := by
  refine hosted_of_plain (fun s l r => ?_) hb
  show EStateM.Result.ok () (g (s.served l r)) = _
  rw [h]; rfl

theorem hosted_phase (p : Phase) : Hosted c (phase c p) := by
  intro s hb
  unfold HostedAt
  rw [phase_alone]
  refine ⟨rfl, hb, [s.ph], passed_setPhase s p, ?_⟩
  rcases phase_hosted (c := c) p hb with ⟨l, r, hn, e⟩ | ⟨l, r, hn, e⟩
  · exact .inl ⟨l, r, hn, e⟩
  · exact .inr ⟨_, 1, Nat.le_refl 1, e, hn, rfl, rfl⟩

theorem hosted_raise {k : Kind} {info : Word} : Hosted c (raise (α := α) k info) :=
  hosted_of_plain (fun _ _ _ => rfl) fun _ => ⟨rfl, .refl rfl rfl⟩

theorem hosted_hold : Hosted c (hold c) := fun s hb =>
  (hosted_phase .expHold s hb).bind fun a t e hbt => by
    rw [phase_alone] at e
    cases e
    exact ⟨fun l r => hosted_update (g := fun s => s.setEngRst true) (fun _ _ _ => rfl)
      (fun _ => ⟨rfl, .refl rfl rfl⟩) _ hbt, rfl, rfl, rfl⟩

theorem hosted_setAlarm_bind {m : Cmd α} (h : Hosted c m) : Hosted c (modify State.setAlarm >>= fun _ => m) := fun s hb =>
  (hosted_update (g := State.setAlarm) (fun _ _ _ => rfl) (fun _ => ⟨rfl, .refl rfl rfl⟩) s hb).bind fun a t e hbt => by
    cases e
    exact ⟨fun l r => h _ hbt, rfl, rfl, rfl⟩

/-- Every piece. -/
theorem Piece.hosted {m m' : Cmd α} (h : Piece c ks col ok m m') {s : State} (hb : s.busy = true)
    (hc : s.collapse = col) : HostedAt c m s := by
  induction h generalizing s with
  | ret a => exact hosted_of_plain (c := c) (fun _ _ _ => rfl) (fun _ => ⟨rfl, .refl rfl rfl⟩) s hb
  | bind h1 _ ih1 ih2 =>
    refine (ih1 hb hc).bind fun a t e hbt => ?_
    have hg := h1.goodEnd (s := s.alone) hb rfl hc
    rw [e] at hg
    exact ⟨fun l r => ih2 a (s := t.served l r) hbt (hg.1.collapse.trans hc), hg.1.mem, hg.1.script, hg.1.commands⟩
  | look hf _ _ ih =>
    have := ih s hc hb hc
    unfold HostedAt at this ⊢
    rw [get_bind_run, get_bind_run, hf]
    exact this
  | phase p hp => exact hosted_phase p s hb
  | update g hg => exact hosted_update (c := c) hg.served (fun s => ⟨(hg.framed s).busy,
      .refl (hg.trail s) (hg.phase s)⟩) s hb
  | read a n hr =>
    refine hosted_of_plain (c := c) (m := memRead c a n) (fun s l r => ?_) (fun s => ?_) s hb
    · rw [memRead_total, memRead_total]
      split <;> rfl
    · rw [memRead_total]
      split <;> exact ⟨rfl, .refl rfl rfl⟩
  | eval site pred _ _ ih =>
    exact ih (verdict (pred ^^ c.glitch s.commands s.evals site .A) (pred ^^ c.glitch s.commands s.evals site .B))
      (s := s.bumpEvals) hb hc
  | fail k info h1 h2 h3 => exact hosted_raise s hb
  | trip => exact hosted_setAlarm_bind hosted_raise s hb
  | tripHold h1 h2 =>
    refine hosted_setAlarm_bind (fun s hb => (hosted_hold s hb).bind fun a t e hbt => ?_) s hb
    rw [hold_run rfl] at e
    cases e
    exact ⟨fun l r => hosted_raise _ hbt, rfl, rfl, rfl⟩

/-! ### What a glitch can do -/

/-- A verdict is the predicate unless exactly one copy, or both, were inverted (R250). -/
theorem verdict_cases (pred a b : Bool) (h : ¬ (a = true ∧ b = true)) :
    verdict (pred ^^ a) (pred ^^ b) = verdict pred pred ∨ verdict (pred ^^ a) (pred ^^ b) = .split := by
  revert h
  cases pred <;> cases a <;> cases b <;> decide

/-- R255: with no double inversion a piece runs as on the glitch-free machine, or ends with GlitchError. -/
theorem Piece.orGlitch {m m' : Cmd α} (h : Piece c ks col ok m m') {s : State} (hd : NoDoubleInversion c s.commands)
    (hb : s.busy = true) (hl : noReset s.live = true) (hc : s.collapse = col) :
    m s = m' s ∨ ∃ t, m s = .error (.raised .glitchError 0) t := by
  induction h generalizing s with
  | ret a => exact .inl rfl
  | bind h1 _ ih1 ih2 =>
    rename_i m m' f f' _
    rcases ih1 hd hb hl hc with e | ⟨t, e⟩
    · have hg := h1.goodEnd hb hl hc
      revert hg
      cases hm : m s with
      | ok a t =>
        intro hg
        rw [bind_ok hm, bind_ok (e.symm.trans hm)]
        exact ih2 a (by rw [hg.1.commands]; exact hd) (hg.1.busy.trans hb) (hg.1.live hl) (hg.1.collapse.trans hc)
      | error x t =>
        intro _
        rw [bind_error hm, bind_error (e.symm.trans hm)]
        exact .inl rfl
    · exact .inr ⟨t, bind_error e⟩
  | look _ _ _ ih => exact ih s hc hd hb hl hc
  | phase p hp => exact .inl rfl
  | update g hg => exact .inl rfl
  | read a n hr => exact .inl rfl
  | eval site pred _ hdoom ih =>
    rename_i f f' _
    have e : (evalTwice c site pred >>= f) s = f (verdict (pred ^^ c.glitch s.commands s.evals site .A)
      (pred ^^ c.glitch s.commands s.evals site .B)) s.bumpEvals := rfl
    have e' : (evalTwice c.glitchFree site pred >>= f') s = f' (verdict pred pred) s.bumpEvals := by
      show f' (verdict (pred ^^ false) (pred ^^ false)) s.bumpEvals = _
      simp
    rw [e, e']
    rcases verdict_cases pred _ _ (hd s.evals site) with h | h
    · rw [h]; exact ih _ hd hb hl hc
    · rw [h]; exact .inr (hdoom s.bumpEvals hb hl)
  | fail k info h1 h2 h3 => exact .inl rfl
  | trip => exact .inl rfl
  | tripHold h1 h2 => exact .inl rfl

end Sys2Proof.Machine
end

