-- ==== Sys2Proof/Laws/Pieces.lean ====
section
/-! SUPPORT. The body of each command, before it emits anything, is a piece (R120, R140, R172 to R178, R200, R201). -/

namespace Sys2Proof.Machine

variable {c : Cfg} {ks ks' : List Kind} {col : Bool} {ok ok' : Action → Bool} {α β : Type}

/-- An action that is no write of data memory or OUT_LEN. -/
def Action.isQuiet : Action → Bool
  | .memWrite _ _ => false
  | .outLen _ => false
  | .phase _ => true
  | .memRead _ _ => true
  | .digest _ _ _ => true
  | .draw _ => true
  | .engRst _ => true
  | .engCall _ => true

/-- A phase in which the engine is held, before the command emits (R37, R219). -/
def Phase.isInner : Phase → Bool
  | .dispatch => true
  | .encCheck => true
  | .encLhash => true
  | .encBuild => true
  | .encSeed => true
  | .encDbMask => true
  | .encSeedMask => true
  | .decCheck => true
  | .decY => true
  | .decLhash => true
  | .decSeedMask => true
  | .decDbMask => true
  | .decCmp => true
  | .decScan => true
  | .decLen => true
  | .decEval => true
  | .expCheck => true
  | .expHold => true
  | .expVerify => true
  | .rev => true
  | .idle => false
  | .locked => false
  | .encEmit => false
  | .decCopy => false
  | .expRelease => false
  | .expRun => false
  | .expEmit => false
  | .exitScrub => false
  | .exitStatus => false

/-- An action outside the bracket of the wrapper that is no write of data memory or OUT_LEN. -/
def Action.isApart : Action → Bool
  | .phase p => p.isInner
  | .memRead _ _ => true
  | .digest _ _ _ => true
  | .draw _ => true
  | .memWrite _ _ => false
  | .outLen _ => false
  | .engRst _ => false
  | .engCall _ => false

theorem Piece.mono {m m' : Cmd α} (h : Piece c ks col ok m m') (hk : ∀ k ∈ ks, k ∈ ks')
    (ho : ∀ a, ok a = true → ok' a = true) : Piece c ks' col ok' m m' := by
  induction h with
  | ret a => exact .ret a
  | bind _ _ ih1 ih2 => exact .bind ih1 ih2
  | look h1 h2 _ ih => exact .look h1 h2 ih
  | phase p hp => exact .phase p (ho _ hp)
  | update g hg =>
    refine .update g ⟨fun s => ?_, hg.alarm, hg.phase, hg.trail, hg.served⟩
    have f := hg.framed s
    obtain ⟨l, e, hl⟩ := f.acts
    exact ⟨f.regs, f.collapse, f.code, f.codeN, f.extStatus, f.busy, f.st, f.stN, f.mem, f.commands, f.script,
      f.live, fun h => f.engRst fun a ha => h a (ho a ha), l, e, fun a ha => ho a (hl a ha)⟩
  | read a n hr => exact .read a n (ho _ hr)
  | eval site pred _ hd ih => exact .eval site pred ih hd
  | fail k info h1 h2 h3 => exact .fail k info (hk k h1) h2 h3
  | trip => exact .trip
  | tripHold h1 h2 => exact .tripHold (ho _ h1) (ho _ h2)

/-! ### Shared operations -/

theorem doomed_settle : Doomed (settle .split) := fun s _ _ => ⟨s.setAlarm, rfl⟩

theorem piece_settle (v : Verdict) : Piece c ks col ok (settle v) (settle v) := by
  cases v
  · exact .ret true
  · exact .ret false
  · exact .trip

theorem piece_critEval (site : Site) (pred : Bool) :
    Piece c ks col ok (critEval c site pred) (critEval c.glitchFree site pred) :=
  .eval site pred piece_settle doomed_settle

theorem piece_ensure {k : Kind} {info : Word} (b : Bool) (h1 : k ∈ ks) (h2 : k ≠ .glitchError)
    (h3 : info = 0 ∨ k.fromProvider = true) : Piece c ks col ok (ensure b k info) (ensure b k info) := by
  cases b
  · exact .fail k info h1 h2 h3
  · exact .ret ()

theorem piece_check {k : Kind} {info : Word} (site : Site) (pred : Bool) (h1 : k ∈ ks) (h2 : k ≠ .glitchError)
    (h3 : info = 0 ∨ k.fromProvider = true) :
    Piece c ks col ok (check c site pred k info) (check c.glitchFree site pred k info) :=
  .bind (piece_critEval site pred) fun b => piece_ensure b h1 h2 h3

theorem piece_resolve (sel : Word) : Piece c ks col ok (resolve c sel) (resolve c.glitchFree sel) :=
  .ret _

theorem piece_digest (sel : Word) (x : Bytes) (h : .hashFailure ∈ ks) (ho : ∀ a, a.isApart = true → ok a = true) :
    Piece c ks col ok (digest c sel x) (digest c.glitchFree sel x) := by
  refine .look (fun _ => rfl) (fun _ => rfl) fun s _ => ?_
  refine .bind (.update _ (tame_digest (ho _ rfl) fun _ => nofun)) fun _ => ?_
  exact .bind (piece_check _ _ h (by decide) (.inr rfl)) fun _ => .ret _

theorem piece_getRandom (n : Nat) (h : .entropyFailure ∈ ks) (ho : ∀ a, a.isApart = true → ok a = true) :
    Piece c ks col ok (getRandom c n) (getRandom c.glitchFree n) := by
  refine .look (fun _ => rfl) (fun _ => rfl) fun s _ => ?_
  refine .bind (.update _ (tame_record (ho _ rfl) fun _ => nofun)) fun _ => ?_
  exact .bind (piece_check _ _ h (by decide) (.inr rfl)) fun _ => .ret _

theorem piece_mgfLoop (sel : Word) (seed : Bytes) (n : Nat) (h : .hashFailure ∈ ks)
    (ho : ∀ a, a.isApart = true → ok a = true) (fuel ctr : Nat) (t : Bytes) :
    Piece c ks col ok (mgfLoop c sel seed n fuel ctr t) (mgfLoop c.glitchFree sel seed n fuel ctr t) := by
  induction fuel generalizing ctr t with
  | zero => exact .ret t
  | succ fuel ih =>
    unfold mgfLoop
    split
    · exact .bind (piece_digest _ _ h ho) fun d => ih _ _
    · exact .ret t

theorem piece_mgf (sel : Word) (seed : Bytes) (n : Nat) (h : .hashFailure ∈ ks)
    (ho : ∀ a, a.isApart = true → ok a = true) :
    Piece c ks col ok (mgf c sel seed n) (mgf c.glitchFree sel seed n) :=
  .bind (piece_mgfLoop sel seed n h ho _ _ _) fun _ => .update _ (tame_setWork _ fun _ _ _ => rfl)

theorem piece_maskDb (n : Nat) : Piece c ks col ok (maskDb n) (maskDb n) := .update _ (tame_setWork _ fun _ _ _ => rfl)

theorem piece_maskSeed (n : Nat) : Piece c ks col ok (maskSeed n) (maskSeed n) :=
  .update _ (tame_setWork _ fun _ _ _ => rfl)

/-! ### Encode -/

/-- R241: the kinds EncodeCore can raise of itself. -/
def encodeKinds : List Kind := [.invalidParam, .invalidMessageLength, .hashFailure, .entropyFailure]

theorem piece_encodeChecks : Piece c encodeKinds col Action.isApart (encodeChecks c) (encodeChecks c.glitchFree) := by
  refine .bind (.phase _ rfl) fun _ => .look (fun _ => rfl) (fun _ => rfl) fun s _ => ?_
  refine .bind (piece_check _ _ (by decide) (by decide) (.inl rfl)) fun _ => ?_
  refine .bind (piece_resolve _) fun d => ?_
  exact .bind (piece_check _ _ (by decide) (by decide) (.inl rfl)) fun _ => .ret _

theorem piece_encodeLoad : Piece c encodeKinds col Action.isApart (encodeLoad c) (encodeLoad c.glitchFree) := by
  refine .look (fun _ => rfl) (fun _ => rfl) fun s _ => ?_
  refine .bind (.read _ _ rfl) fun m => ?_
  exact .bind (.update _ (tame_setWork _ fun _ _ _ => rfl)) fun _ => .read _ _ rfl

theorem piece_encodeLabelHash (label : Bytes) : Piece c encodeKinds col Action.isApart (encodeLabelHash c label)
    (encodeLabelHash c.glitchFree label) := by
  refine .bind (.phase _ rfl) fun _ => .look (fun _ => rfl) (fun _ => rfl) fun s _ => ?_
  exact .bind (piece_digest _ _ (by decide) fun _ h => h) fun _ => .update _ (tame_setWork _ fun _ _ _ => rfl)

theorem piece_encodeBuild (h : Nat) :
    Piece c encodeKinds col Action.isApart (encodeBuild c h) (encodeBuild c.glitchFree h) :=
  .bind (.phase _ rfl) fun _ => .update _ (tame_setWork _ fun _ _ _ => rfl)

theorem piece_encodeSeed (h : Nat) :
    Piece c encodeKinds col Action.isApart (encodeSeed c h) (encodeSeed c.glitchFree h) :=
  .bind (.phase _ rfl) fun _ =>
    .bind (piece_getRandom _ (by decide) fun _ h => h) fun _ => .update _ (tame_setWork _ fun _ _ _ => rfl)

theorem piece_encodeDbMask (h : Nat) :
    Piece c encodeKinds col Action.isApart (encodeDbMask c h) (encodeDbMask c.glitchFree h) :=
  .bind (.phase _ rfl) fun _ => .look (fun _ => rfl) (fun _ => rfl) fun _ _ =>
    .bind (piece_mgf _ _ _ (by decide) fun _ h => h) fun _ => piece_maskDb _

theorem piece_encodeSeedMask (h : Nat) :
    Piece c encodeKinds col Action.isApart (encodeSeedMask c h) (encodeSeedMask c.glitchFree h) :=
  .bind (.phase _ rfl) fun _ => .look (fun _ => rfl) (fun _ => rfl) fun _ _ =>
    .bind (piece_mgf _ _ _ (by decide) fun _ h => h) fun _ => piece_maskSeed _

/-- Steps 1 to 7 of EncodeCore. -/
theorem piece_encodeCore : Piece c encodeKinds col Action.isApart (encodeCore c) (encodeCore c.glitchFree) :=
  .bind piece_encodeChecks fun h => .bind piece_encodeLoad fun label => .bind (piece_encodeLabelHash label) fun _ =>
    .bind (piece_encodeBuild h) fun _ => .bind (piece_encodeSeed h) fun _ => .bind (piece_encodeDbMask h) fun _ =>
      .bind (piece_encodeSeedMask h) fun _ => .ret h

theorem piece_assembleEm (h : Nat) : Piece c ks col ok (assembleEm c h) (assembleEm c.glitchFree h) :=
  .update _ (tame_setWork _ fun _ _ _ => rfl)

/-! ### Decode -/

/-- R241, R154: the kinds DecodeCore can raise of itself, by COLLAPSE. -/
def decodeKinds (col : Bool) : List Kind :=
  [.invalidParam, .byteMismatchError, .hashFailure] ++
    (if col then [.decodeError] else [.dataCompareError, .dbMismatchError, .invalidMessageLength])

theorem piece_decodeChecks :
    Piece c (decodeKinds col) col Action.isApart (decodeChecks c) (decodeChecks c.glitchFree) := by
  refine .bind (.phase _ rfl) fun _ => .look (fun _ => rfl) (fun _ => rfl) fun s _ => ?_
  refine .bind (piece_check _ _ (by simp [decodeKinds]) (by decide) (.inl rfl)) fun _ => ?_
  exact .bind (piece_resolve _) fun d => .ret _

theorem piece_loadEmFromMemory : Piece c ks col Action.isApart (loadEmFromMemory c) (loadEmFromMemory c.glitchFree) :=
  .look (fun _ => rfl) (fun _ => rfl) fun _ _ =>
    .bind (.read _ _ rfl) fun _ => .update _ (tame_setWork _ fun _ _ _ => rfl)

theorem piece_loadLabel : Piece c ks col Action.isApart (loadLabel c) (loadLabel c.glitchFree) :=
  .look (fun _ => rfl) (fun _ => rfl) fun _ _ => .read _ _ rfl

theorem piece_decodeLeadingByte :
    Piece c (decodeKinds col) col Action.isApart (decodeLeadingByte c) (decodeLeadingByte c.glitchFree) :=
  .bind (.phase _ rfl) fun _ => .look (fun _ => rfl) (fun _ => rfl) fun _ _ =>
    piece_check _ _ (by simp [decodeKinds]) (by decide) (.inl rfl)

theorem piece_decodeLabelHash (label : Bytes) :
    Piece c (decodeKinds col) col Action.isApart (decodeLabelHash c label) (decodeLabelHash c.glitchFree label) :=
  .bind (.phase _ rfl) fun _ => .look (fun _ => rfl) (fun _ => rfl) fun _ _ =>
    .bind (piece_digest _ _ (by simp [decodeKinds]) fun _ h => h) fun _ => .update _ (tame_setWork _ fun _ _ _ => rfl)

theorem piece_decodeSplit (h : Nat) : Piece c ks col ok (decodeSplit c h) (decodeSplit c.glitchFree h) :=
  .update _ (tame_setWork _ fun _ _ _ => rfl)

theorem piece_decodeSeedMask (h : Nat) :
    Piece c (decodeKinds col) col Action.isApart (decodeSeedMask c h) (decodeSeedMask c.glitchFree h) :=
  .bind (.phase _ rfl) fun _ => .look (fun _ => rfl) (fun _ => rfl) fun _ _ =>
    .bind (piece_mgf _ _ _ (by simp [decodeKinds]) fun _ h => h) fun _ => piece_maskSeed _

theorem piece_decodeDbMask (h : Nat) :
    Piece c (decodeKinds col) col Action.isApart (decodeDbMask c h) (decodeDbMask c.glitchFree h) :=
  .bind (.phase _ rfl) fun _ => .look (fun _ => rfl) (fun _ => rfl) fun _ _ =>
    .bind (piece_mgf _ _ _ (by simp [decodeKinds]) fun _ h => h) fun _ => piece_maskDb _

theorem piece_decodeCompare (h : Nat) :
    Piece c ks col Action.isApart (decodeCompare c h) (decodeCompare c.glitchFree h) :=
  .bind (.phase _ rfl) fun _ => .update _ (tame_setFlags _ fun _ _ _ => rfl)

theorem piece_decodeScan (h : Nat) : Piece c ks col Action.isApart (decodeScan c h) (decodeScan c.glitchFree h) :=
  .bind (.phase _ rfl) fun _ => .update _ (tame_setFlags _ fun _ _ _ => rfl)

theorem piece_decodeLength (h : Nat) :
    Piece c ks col Action.isApart (decodeLength c h) (decodeLength c.glitchFree h) :=
  .bind (.phase _ rfl) fun _ => .update _ (tame_setFlags _ fun _ _ _ => rfl)

/-- Answering three verdicts ends with GlitchError as soon as one of them is a split (R250, R246). -/
theorem doomed_settles (v6 v7 v8 : Verdict) (f : Bool → Bool → Bool → Cmd Unit)
    (h : v6 = .split ∨ v7 = .split ∨ v8 = .split) :
    Doomed (do let e6 ← settle v6; let e7 ← settle v7; let e8 ← settle v8; f e6 e7 e8) := by
  intro s _ _
  revert h
  cases v6 <;> cases v7 <;> cases v8 <;> intro h <;>
    first
      | exact ⟨s.setAlarm, rfl⟩
      | simp at h

theorem doomed_evalTwice {site : Site} {pred : Bool} {f : Verdict → Cmd β} (h : ∀ v, Doomed (f v)) :
    Doomed (evalTwice c site pred >>= f) := fun s hb hl => h _ s.bumpEvals hb hl

theorem piece_decodeEval (h : Nat) :
    Piece c (decodeKinds col) col Action.isApart (decodeEval c h) (decodeEval c.glitchFree h) := by
  refine .bind (.phase _ rfl) fun _ => .look (fun _ => rfl) (fun _ => rfl) fun s hs => ?_
  refine .eval _ _ (fun v6 => .eval _ _ (fun v7 => .eval _ _ (fun v8 => ?_) ?_) ?_) ?_
  · refine .bind (piece_settle v6) fun e6 => .bind (piece_settle v7) fun e7 => .bind (piece_settle v8) fun e8 => ?_
    have key : ∀ k, k ∈ [Kind.dataCompareError, .dbMismatchError, .invalidMessageLength] →
        structuralKind s.collapse k ∈ decodeKinds col ∧ structuralKind s.collapse k ≠ .glitchError := by
      rw [hs]
      cases col <;> decide
    refine .bind (piece_ensure e6 (key _ (by decide)).1 (key _ (by decide)).2 (.inl rfl)) fun _ => ?_
    refine .bind (piece_ensure e7 (key _ (by decide)).1 (key _ (by decide)).2 (.inl rfl)) fun _ => ?_
    exact piece_ensure e8 (key _ (by decide)).1 (key _ (by decide)).2 (.inl rfl)
  · exact doomed_settles v6 v7 .split _ (by simp)
  · exact doomed_evalTwice fun v8 => doomed_settles v6 .split v8 _ (by simp)
  · exact doomed_evalTwice fun v7 => doomed_evalTwice fun v8 => doomed_settles .split v7 v8 _ (by simp)

/-- Steps 1 to 8 of DecodeCore. -/
theorem piece_decodeCore {load load' : Cmd Unit} (hload : Piece c (decodeKinds col) col Action.isApart load load') :
    Piece c (decodeKinds col) col Action.isApart (decodeCore c load) (decodeCore c.glitchFree load') :=
  .bind piece_decodeChecks fun h => .bind hload fun _ => .bind piece_loadLabel fun label =>
    .bind piece_decodeLeadingByte fun _ => .bind (piece_decodeLabelHash label) fun _ =>
    .bind (piece_decodeSplit h) fun _ => .bind (piece_decodeSeedMask h) fun _ => .bind (piece_decodeDbMask h) fun _ =>
    .bind (piece_decodeCompare h) fun _ => .bind (piece_decodeScan h) fun _ => .bind (piece_decodeLength h) fun _ =>
    .bind (piece_decodeEval h) fun _ => .look (fun _ => rfl) (fun _ => rfl) fun _ _ => .ret _

/-! ### The wrapper -/

/-- R241: the kinds ExpWrap can raise of itself. -/
def wrapKinds : List Kind := [.exponentInvalidParam, .engineFailure]

theorem piece_readOperands (ho : ∀ a n, ok (.memRead a n) = true) (l : List (Ptr × Nat)) :
    Piece c ks col ok (readOperands c l) (readOperands c.glitchFree l) := by
  induction l with
  | nil => exact .ret []
  | cons e l ih =>
    exact .look (fun _ => rfl) (fun _ => rfl) fun _ _ => .bind (.read _ _ (ho _ _)) fun _ => .bind ih fun _ => .ret _

theorem piece_readOptional (ho : ∀ a n, ok (.memRead a n) = true) (p : Ptr) (n : Nat) :
    Piece c ks col ok (readOptional c p n) (readOptional c.glitchFree p n) := by
  refine .look (fun _ => rfl) (fun _ => rfl) fun s _ => ?_
  show Piece c ks col ok (if s.regs.ptr p = 0 then pure none else _) (if s.regs.ptr p = 0 then pure none else _)
  split
  · exact .ret none
  · exact .bind (.read _ _ (ho _ _)) fun _ => .ret _

theorem piece_readOptionals (ho : ∀ a n, ok (.memRead a n) = true) (l : List (Ptr × Nat)) :
    Piece c ks col ok (readOptionals c l) (readOptionals c.glitchFree l) := by
  induction l with
  | nil => exact .ret []
  | cons e l ih => exact .bind (piece_readOptional ho _ _) fun _ => .bind ih fun _ => .ret _

theorem piece_readBase (ho : ∀ a n, ok (.memRead a n) = true) (b : BaseOperand) :
    Piece c ks col ok (readBase c b) (readBase c.glitchFree b) := by
  cases b with
  | pointer a => exact .read _ _ (ho _ _)
  | internal => exact .look (fun _ => rfl) (fun _ => rfl) fun _ _ => .ret _

theorem piece_engineCall (kind : ExpKind) (b : Bytes) (mand : List Bytes) (opt : List (Option Bytes)) :
    Piece c ks col Action.isQuiet (engineCall c kind b mand opt) (engineCall c.glitchFree kind b mand opt) :=
  .bind (.update _ (tame_record rfl fun _ => nofun)) fun _ => .look (fun _ => rfl) (fun _ => rfl) fun _ _ =>
    .bind (.update _ (tame_setWork _ fun _ _ _ => rfl)) fun _ => .ret _

theorem piece_hold : Piece c ks col Action.isQuiet (hold c) (hold c.glitchFree) :=
  .bind (.phase _ rfl) fun _ => .update _ (tame_setEngRst rfl)

theorem piece_expCheck (kind : ExpKind) (b : BaseOperand) (r : Bool) :
    Piece c wrapKinds col Action.isQuiet (expCheck c kind b r) (expCheck c.glitchFree kind b r) := by
  refine .bind (.phase _ rfl) fun _ => .look (fun _ => rfl) (fun _ => rfl) fun s _ => .eval _ _ (fun v => ?_) ?_
  · cases v
    · exact .ret ()
    · exact .bind piece_hold fun _ => .fail _ _ (by decide) (by decide) (.inl rfl)
    · exact .tripHold rfl rfl
  · intro s hb hl
    obtain ⟨l, r, hn, e⟩ := hold_cases (c := c) (s := s.setAlarm) (by simpa using hb) (by simpa using hl)
    refine ⟨((s.setAlarm.setPhase .expHold).setEngRst true).served l r, ?_⟩
    show (modify State.setAlarm >>= fun _ => hold c >>= fun _ => raise .glitchError 0) s = _
    rw [modify_bind_run, bind_ok e]
    rfl

theorem piece_expHeldCheck : Piece c ks col ok (expHeldCheck c) (expHeldCheck c.glitchFree) := by
  refine .look (fun _ => rfl) (fun _ => rfl) fun s _ => .eval _ _ (fun v => ?_) ?_
  · cases v
    · exact .ret ()
    · exact .trip
    · exact .trip
  · exact fun s _ _ => ⟨s.setAlarm, rfl⟩

/-- ExpWrap. -/
theorem piece_expWrap (kind : ExpKind) (b : BaseOperand) (r : Bool) :
    Piece c wrapKinds col Action.isQuiet (expWrap c kind b r) (expWrap c.glitchFree kind b r) :=
  .bind (piece_expCheck kind b r) fun _ => .bind (piece_readBase (fun _ _ => rfl) b) fun bs =>
    .bind (piece_readOperands (fun _ _ => rfl) _) fun mand => .bind (piece_readOptionals (fun _ _ => rfl) _) fun opt =>
    .bind (.phase _ rfl) fun _ => .bind (.update _ (tame_setEngRst rfl)) fun _ =>
    .bind (.phase _ rfl) fun _ => .bind (piece_engineCall kind bs mand opt) fun _ => .bind piece_hold fun _ =>
    .bind (.phase _ rfl) fun _ => .bind piece_expHeldCheck fun _ =>
    piece_check _ _ (by decide) (by decide) (.inr rfl)

/-! ### Bodies -/

theorem quiet_of_apart (a : Action) (h : a.isApart = true) : a.isQuiet = true := by
  cases a <;> first | rfl | cases h

/-- R200: what ENCRYPT does before it emits. -/
def encryptFront (c : Cfg) : Cmd Unit := do
  let h ← encodeCore c
  assembleEm c h
  expWrap c .plain .internal false

/-- R201: what DECRYPT does before it emits. -/
def decryptFront (c : Cfg) : Cmd Bytes := do
  let s ← get
  expWrap c .crt (.pointer s.regs.inp) false
  reverseResult c
  decodeCore c (pure ())

/-- R176: what EXP_PLAIN and EXP_CRT do before they emit. -/
def expFront (c : Cfg) (kind : ExpKind) : Cmd Unit := do
  let s ← get
  expWrap c kind (.pointer s.regs.opBase) true

theorem piece_expFront (kind : ExpKind) :
    Piece c wrapKinds col Action.isQuiet (expFront c kind) (expFront c.glitchFree kind) :=
  .look (fun _ => rfl) (fun _ => rfl) fun _ _ => piece_expWrap _ _ _

theorem piece_encryptFront :
    Piece c (encodeKinds ++ wrapKinds) col Action.isQuiet (encryptFront c) (encryptFront c.glitchFree) :=
  .bind (piece_encodeCore.mono (by simp +contextual) quiet_of_apart) fun h => .bind (piece_assembleEm h) fun _ =>
    (piece_expWrap _ _ _).mono (by simp +contextual) fun _ h => h

theorem piece_reverseResult : Piece c ks col Action.isApart (reverseResult c) (reverseResult c.glitchFree) :=
  .bind (.phase _ rfl) fun _ => .update _ (tame_setWork _ fun _ _ _ => rfl)

theorem piece_decryptFront :
    Piece c (decodeKinds col ++ wrapKinds) col Action.isQuiet (decryptFront c) (decryptFront c.glitchFree) :=
  .look (fun _ => rfl) (fun _ => rfl) fun _ _ =>
    .bind ((piece_expWrap _ _ _).mono (by simp +contextual) fun _ h => h) fun _ => .bind (piece_reverseResult.mono (fun _ h => h) quiet_of_apart) fun _ =>
      (piece_decodeCore (.ret ())).mono (by simp +contextual) quiet_of_apart

end Sys2Proof.Machine
end

