-- ==== Sys2Proof/Laws/Visits.lean ====
section
/-! SUPPORT. The phases a command's pieces visit when they end without stopping (R219), on every oracle. -/

namespace Sys2Proof.Machine

variable {c : Cfg} {s : State} {α β : Type}

/-- A piece that, when it ends without stopping, has visited the phases `ps` in order. -/
def Visits (m : Cmd α) (ps : List Phase) : Prop :=
  ∀ s a t, m s = .ok a t → ∃ l, t.acts = l ++ s.acts ∧ phasesOf l.reverse = ps

theorem phasesOf_append (l l' : List Action) : phasesOf (l ++ l') = phasesOf l ++ phasesOf l' := List.filterMap_append ..

theorem Visits.bind {m : Cmd α} {f : α → Cmd β} {ps qs : List Phase} (h : Visits m ps) (hf : ∀ a, Visits (f a) qs) :
    Visits (m >>= f) (ps ++ qs) := by
  intro s b u e
  cases hm : m s with
  | ok a t =>
    rw [bind_ok hm] at e
    obtain ⟨l1, e1, p1⟩ := h s a t hm
    obtain ⟨l2, e2, p2⟩ := hf a t b u e
    exact ⟨l2 ++ l1, by rw [e2, e1, List.append_assoc], by rw [List.reverse_append, phasesOf_append, p1, p2]⟩
  | error x t => rw [bind_error hm] at e; cases e

/-- Nothing visited first. -/
theorem Visits.after {m : Cmd α} {f : α → Cmd β} {qs : List Phase} (h : Visits m []) (hf : ∀ a, Visits (f a) qs) :
    Visits (m >>= f) qs := h.bind hf

theorem visits_pure (a : α) : Visits (pure a : Cmd α) [] := fun _ _ _ e => by cases e; exact ⟨[], rfl, rfl⟩

theorem visits_modify (g : State → State) (l : State → List Action) (h : ∀ s, (g s).acts = l s ++ s.acts)
    (hl : ∀ s, phasesOf (l s).reverse = []) : Visits (modify g : Cmd Unit) [] :=
  fun s _ _ e => by cases e; exact ⟨l s, h s, hl s⟩

theorem visits_work (w : State → Work) : Visits (modify fun s => s.setWork (w s) : Cmd Unit) [] :=
  visits_modify _ (fun _ => []) (fun _ => rfl) fun _ => rfl

theorem visits_flags (w : State → DecFlags) : Visits (modify fun s => s.setFlags (w s) : Cmd Unit) [] :=
  visits_modify _ (fun _ => []) (fun _ => rfl) fun _ => rfl

theorem visits_get {f : State → Cmd β} {ps : List Phase} (h : ∀ s, Visits (f s) ps) : Visits (get >>= f) ps :=
  fun s a t e => h s s a t e

theorem visits_raise (k : Kind) (info : Word) (ps : List Phase) : Visits (raise k info : Cmd α) ps :=
  fun _ _ _ e => by cases e

theorem visits_hostSlot : Visits (hostSlot c) [] := by
  intro s a t e
  rcases hostSlot_cases (c := c) s with ⟨u, h, -, ha, -⟩ | ⟨u, h, -⟩
  · rw [h] at e; cases e; exact ⟨[], ha, rfl⟩
  · rw [h] at e; cases e

theorem visits_phase (p : Phase) : Visits (phase c p) [p] :=
  visits_hostSlot.after fun _ s _ _ e => by cases e; exact ⟨[.phase p], rfl, rfl⟩

theorem visits_memRead (a : Addr) (n : Nat) : Visits (memRead c a n) [] := by
  intro s x t e
  rw [memRead_total] at e
  split at e
  · cases e; exact ⟨[], rfl, rfl⟩
  · cases e; exact ⟨[.memRead a n], rfl, rfl⟩

theorem visits_evalTwice (site : Site) (pred : Bool) : Visits (evalTwice c site pred) [] :=
  fun _ _ _ e => by cases e; exact ⟨[], rfl, rfl⟩

theorem visits_settle (v : Verdict) : Visits (settle v) [] := by
  cases v
  · exact visits_pure _
  · exact visits_pure _
  · exact (visits_modify State.setAlarm (fun _ => []) (fun _ => rfl) fun _ => rfl).after fun _ => visits_raise _ _ _

theorem visits_ensure (b : Bool) (k : Kind) (info : Word) : Visits (ensure b k info) [] := by
  cases b
  · exact visits_raise _ _ _
  · exact visits_pure _

theorem visits_check (site : Site) (pred : Bool) (k : Kind) (info : Word) : Visits (check c site pred k info) [] :=
  ((visits_evalTwice _ _).after visits_settle).after fun _ => visits_ensure _ _ _

theorem visits_record (a : Action) (h : phasesOf [a] = []) : Visits (record a) [] :=
  visits_modify _ (fun _ => [a]) (fun _ => rfl) fun _ => h

theorem visits_resolve (sel : Word) : Visits (resolve c sel) [] := visits_pure _

theorem visits_digest (sel : Word) (x : Bytes) : Visits (digest c sel x) [] :=
  visits_get fun _ => (visits_modify _ (fun _ => [.digest c.hashInstance sel x.length]) (fun _ => rfl) fun _ => rfl).after
    fun _ => (visits_check _ _ _ _).after fun _ => visits_pure _

theorem visits_getRandom (n : Nat) : Visits (getRandom c n) [] :=
  visits_get fun _ => (visits_record (.draw n) rfl).after fun _ => (visits_check _ _ _ _).after fun _ => visits_pure _

theorem visits_mgfLoop (sel : Word) (seed : Bytes) (n fuel : Nat) : ∀ ctr acc, Visits (mgfLoop c sel seed n fuel ctr acc) [] := by
  induction fuel with
  | zero => exact fun _ _ => visits_pure _
  | succ fuel ih =>
    intro ctr acc
    unfold mgfLoop
    split
    · exact (visits_digest _ _).after fun _ => ih _ _
    · exact visits_pure _

theorem visits_mgf (sel : Word) (seed : Bytes) (n : Nat) : Visits (mgf c sel seed n) [] :=
  (visits_mgfLoop _ _ _ _ _ _).after fun _ => visits_work _

theorem visits_encodeCore : Visits (encodeCore c)
    [.encCheck, .encLhash, .encBuild, .encSeed, .encDbMask, .encSeedMask] := by
  have h1 : Visits (encodeChecks c) [.encCheck] := (visits_phase _).bind fun _ => visits_get fun s =>
    (visits_check _ _ _ _).after fun _ => (visits_resolve _).after fun d => (visits_check _ _ _ _).after fun _ =>
    visits_pure _
  have h2 : Visits (encodeLoad c) [] := visits_get fun _ => (visits_memRead _ _).after fun _ => (visits_work _).after fun _ =>
    visits_memRead _ _
  have h3 (label : Bytes) : Visits (encodeLabelHash c label) [.encLhash] := (visits_phase _).bind fun _ => visits_get fun _ =>
    (visits_digest _ _).after fun _ => visits_work _
  have h4 (h : Nat) : Visits (encodeBuild c h) [.encBuild] := (visits_phase _).bind fun _ => visits_work _
  have h5 (h : Nat) : Visits (encodeSeed c h) [.encSeed] := (visits_phase _).bind fun _ =>
    (visits_getRandom _).after fun _ => visits_work _
  have h6 (h : Nat) : Visits (encodeDbMask c h) [.encDbMask] := (visits_phase _).bind fun _ => visits_get fun _ =>
    (visits_mgf _ _ _).after fun _ => visits_work _
  have h7 (h : Nat) : Visits (encodeSeedMask c h) [.encSeedMask] := (visits_phase _).bind fun _ => visits_get fun _ =>
    (visits_mgf _ _ _).after fun _ => visits_work _
  exact h1.bind fun h => h2.after fun label => (h3 label).bind fun _ => (h4 h).bind fun _ => (h5 h).bind fun _ =>
    (h6 h).bind fun _ => (h7 h).bind fun _ => visits_pure _

theorem visits_decodeCore {load : Cmd Unit} (hload : Visits load []) : Visits (decodeCore c load)
    [.decCheck, .decY, .decLhash, .decSeedMask, .decDbMask, .decCmp, .decScan, .decLen, .decEval] := by
  have h1 : Visits (decodeChecks c) [.decCheck] := (visits_phase _).bind fun _ => visits_get fun s =>
    (visits_check _ _ _ _).after fun _ => (visits_resolve _).after fun d => visits_pure _
  have h2 : Visits (loadLabel c) [] := visits_get fun _ => visits_memRead _ _
  have h3 : Visits (decodeLeadingByte c) [.decY] := (visits_phase _).bind fun _ => visits_get fun _ => visits_check _ _ _ _
  have h4 (label : Bytes) : Visits (decodeLabelHash c label) [.decLhash] := (visits_phase _).bind fun _ => visits_get fun _ =>
    (visits_digest _ _).after fun _ => visits_work _
  have h5 (h : Nat) : Visits (decodeSplit c h) [] := visits_work _
  have h6 (h : Nat) : Visits (decodeSeedMask c h) [.decSeedMask] := (visits_phase _).bind fun _ => visits_get fun _ =>
    (visits_mgf _ _ _).after fun _ => visits_work _
  have h7 (h : Nat) : Visits (decodeDbMask c h) [.decDbMask] := (visits_phase _).bind fun _ => visits_get fun _ =>
    (visits_mgf _ _ _).after fun _ => visits_work _
  have h8 (h : Nat) : Visits (decodeCompare c h) [.decCmp] := (visits_phase _).bind fun _ => visits_flags _
  have h9 (h : Nat) : Visits (decodeScan c h) [.decScan] := (visits_phase _).bind fun _ => visits_flags _
  have h10 (h : Nat) : Visits (decodeLength c h) [.decLen] := (visits_phase _).bind fun _ => visits_flags _
  have h11 (h : Nat) : Visits (decodeEval c h) [.decEval] := (visits_phase _).bind fun _ => visits_get fun _ =>
    (visits_evalTwice _ _).after fun _ => (visits_evalTwice _ _).after fun _ => (visits_evalTwice _ _).after fun _ =>
    (visits_settle _).after fun _ => (visits_settle _).after fun _ => (visits_settle _).after fun _ =>
    (visits_ensure _ _ _).after fun _ => (visits_ensure _ _ _).after fun _ => visits_ensure _ _ _
  exact h1.bind fun h => hload.after fun _ => h2.after fun label => h3.bind fun _ => (h4 label).bind fun _ =>
    (h5 h).after fun _ => (h6 h).bind fun _ => (h7 h).bind fun _ => (h8 h).bind fun _ => (h9 h).bind fun _ =>
    (h10 h).bind fun _ => (h11 h).bind fun _ => visits_get fun _ => visits_pure _

theorem visits_expWrap (kind : ExpKind) (b : BaseOperand) (rm : Bool) : Visits (expWrap c kind b rm)
    [.expCheck, .expRelease, .expRun, .expHold, .expVerify] := by
  have hrst (v : Bool) : Visits (modify fun s => s.setEngRst v : Cmd Unit) [] :=
    visits_modify _ (fun _ => [.engRst v]) (fun _ => rfl) fun _ => rfl
  have hal : Visits (modify State.setAlarm : Cmd Unit) [] := visits_modify _ (fun _ => []) (fun _ => rfl) fun _ => rfl
  have h1 : Visits (expCheck c kind b rm) [.expCheck] := (visits_phase _).bind fun _ => visits_get fun s =>
    (visits_evalTwice _ _).after fun v => by
      cases v
      · exact visits_pure _
      · intro s a t e
        obtain ⟨x, u, e'⟩ : ∃ x u, (hold c >>= fun _ => raise .exponentInvalidParam 0 : Cmd Unit) s = .error x u := by
          cases hh : hold c s with
          | ok a w => exact ⟨_, _, bind_ok hh⟩
          | error x w => exact ⟨_, _, bind_error hh⟩
        exact absurd (e.symm.trans e') (by intro h; cases h)
      · intro s a t e
        obtain ⟨x, u, e'⟩ : ∃ x u, (modify State.setAlarm >>= fun _ => hold c >>= fun _ => raise .glitchError 0 : Cmd Unit) s
            = .error x u := by
          cases hh : hold c s.setAlarm with
          | ok a w => exact ⟨_, _, bind_ok (s := s.setAlarm) hh⟩
          | error x w => exact ⟨_, _, bind_error (s := s.setAlarm) hh⟩
        exact absurd (e.symm.trans e') (by intro h; cases h)
  have h2 : Visits (readBase c b) [] := by
    cases b with
    | pointer a => exact visits_memRead _ _
    | internal => exact visits_get fun _ => visits_pure _
  have h3 (l : List (Ptr × Nat)) : Visits (readOperands c l) [] := by
    induction l with
    | nil => exact visits_pure _
    | cons e l ih => exact visits_get fun _ => (visits_memRead _ _).after fun _ => ih.after fun _ => visits_pure _
  have h4 (l : List (Ptr × Nat)) : Visits (readOptionals c l) [] := by
    induction l with
    | nil => exact visits_pure _
    | cons e l ih =>
      refine Visits.after (visits_get fun s => ?_) fun _ => ih.after fun _ => visits_pure _
      show Visits (if s.regs.ptr e.1 = 0 then pure none else _) []
      split
      · exact visits_pure _
      · exact (visits_memRead _ _).after fun _ => visits_pure _
  have h5 (bs : Bytes) (mand : List Bytes) (opt : List (Option Bytes)) : Visits (engineCall c kind bs mand opt) [] :=
    (visits_record _ rfl).after fun _ => visits_get fun _ => (visits_work _).after fun _ => visits_pure _
  have h6 : Visits (hold c) [.expHold] := (visits_phase _).bind fun _ => hrst true
  have h7 : Visits (expHeldCheck c) [] := visits_get fun _ => (visits_evalTwice _ _).after fun v => by
    cases v
    · exact visits_pure _
    · exact hal.after fun _ => visits_raise _ _ _
    · exact hal.after fun _ => visits_raise _ _ _
  exact h1.bind fun _ => h2.after fun _ => (h3 _).after fun _ => (h4 _).after fun _ => (visits_phase _).bind fun _ =>
    (hrst false).after fun _ => (visits_phase _).bind fun _ => (h5 _ _ _).after fun _ => h6.bind fun _ =>
    (visits_phase _).bind fun _ => h7.after fun _ => visits_check _ _ _ _

theorem visits_encryptFront : Visits (encryptFront c) [.encCheck, .encLhash, .encBuild, .encSeed, .encDbMask,
    .encSeedMask, .expCheck, .expRelease, .expRun, .expHold, .expVerify] :=
  visits_encodeCore.bind fun _ => Visits.after (visits_work _) fun _ => visits_expWrap _ _ _

theorem visits_expFront (kind : ExpKind) : Visits (expFront c kind)
    [.expCheck, .expRelease, .expRun, .expHold, .expVerify] := visits_get fun _ => visits_expWrap _ _ _

theorem visits_loadEmFromMemory : Visits (loadEmFromMemory c) [] :=
  visits_get fun _ => (visits_memRead _ _).after fun _ => visits_work _

theorem visits_decryptFront : Visits (decryptFront c) [.expCheck, .expRelease, .expRun, .expHold, .expVerify, .rev,
    .decCheck, .decY, .decLhash, .decSeedMask, .decDbMask, .decCmp, .decScan, .decLen, .decEval] :=
  visits_get fun _ => (visits_expWrap _ _ _).bind fun _ =>
    (show Visits (reverseResult c) [.rev] from (visits_phase _).bind fun _ => visits_work _).bind fun _ =>
      visits_decodeCore (visits_pure _)

/-- A piece that visits phases enters as many. -/
theorem Visits.length {m : Cmd α} {ps : List Phase} (h : Visits m ps) {a : α} {t : State} (e : m s = .ok a t) :
    t.trail.length = s.trail.length + ps.length := by
  obtain ⟨l, ha, hp⟩ := h s a t e
  have hl : (phasesOf l).length = ps.length := by
    rw [← hp, ← List.length_reverse, phasesOf, phasesOf, List.filterMap_reverse]
  rw [State.trail, State.trail, ha, phasesOf_append, List.length_append, hl]
  omega

end Sys2Proof.Machine
end

