-- ==== Sys2Proof/Laws/Body.lean ====
section
/-! SUPPORT. Whole commands: a body is a piece followed by one emission (R220); what the host does while a command runs
changes only what the host sees (R290), short of a reset. -/

namespace Sys2Proof.Machine

variable {c : Cfg} {ks : List Kind} {col : Bool} {ok : Action → Bool} {α β : Type}

/-! ### Emission -/

/-- R220: the one emitting phase of a command: `g` prepares the buffers, `v` goes to `a`, and DEC_COPY also sets
OUT_LEN. -/
def emit (c : Cfg) (p : Phase) (g : State → State) (a : Regs → Addr) (v : State → Bytes) (len : Bool) : Cmd Unit := do
  phase c p
  modify g
  let s ← get
  memWrite c (a s.regs) (v s)
  modify fun t => if len then t.setOutLen (BitVec.ofNat 32 (v s).length) else t

/-- The emission of ENCODE. -/
def encodeEmit (c : Cfg) (h : Nat) : Cmd Unit :=
  emit c .encEmit
    (fun s => s.setWork { s.work with em := put s.work.em 0 ([0x00] ++ s.work.seed.take h ++ s.work.db.take (dbLen c h)) })
    Regs.out (fun s => s.work.em.take c.K) false

/-- The emission of DECODE and DECRYPT. -/
def copyEmit (c : Cfg) (m : Bytes) : Cmd Unit := emit c .decCopy id Regs.out (fun _ => m) true

/-- The emission of EXP_PLAIN, EXP_CRT and ENCRYPT. -/
def resEmit (c : Cfg) (a : Regs → Addr) : Cmd Unit := emit c .expEmit id a (fun s => s.work.res.take c.K) false

theorem bind_congr_run {m : Cmd α} {f g : α → Cmd β} (h : ∀ a s, f a s = g a s) : m >>= f = m >>= g := by
  have : f = g := funext fun a => funext fun s => h a s
  rw [this]

/-- What an emission leaves that put `w` into data memory for the bytes `v` at `a`. -/
def State.wrote (s : State) (a : Addr) (v : Bytes) (len : Bool) (w : Bytes) : State :=
  let u := if v.length = 0 then s else (s.setMem (s.mem.writeBytes a.toNat w)).record (.memWrite a v.length)
  if len then u.setOutLen (BitVec.ofNat 32 v.length) else u

theorem wrote_mem (s : State) (a : Addr) (v : Bytes) (len : Bool) (w : Bytes) :
    (s.wrote a v len w).mem = if v.length = 0 then s.mem else s.mem.writeBytes a.toNat w := by
  unfold State.wrote
  by_cases h : v.length = 0 <;> cases len <;> simp [h]

theorem wrote_rest (s : State) (a : Addr) (v : Bytes) (len : Bool) (w : Bytes) :
    (s.wrote a v len w).busy = s.busy ∧ (s.wrote a v len w).script = s.script ∧
    (s.wrote a v len w).commands = s.commands ∧ (s.wrote a v len w).live = s.live ∧
    (s.wrote a v len w).ph = s.ph ∧ (s.wrote a v len w).trail = s.trail := by
  unfold State.wrote
  by_cases h : v.length = 0 <;> cases len <;> simp only [h, if_true, if_false] <;> and_intros <;> rfl

theorem wrote_served (s : State) (a : Addr) (v : Bytes) (len : Bool) (w : Bytes) (l r) :
    (s.served l r).wrote a v len w = (s.wrote a v len w).served l r := by
  unfold State.wrote
  by_cases h : v.length = 0 <;> cases len <;> simp [h] <;> rfl

/-- Everything an emission can answer once its phase is entered (R64, U6). -/
theorem emit_run {p : Phase} {g : State → State} {a : Regs → Addr} {v : State → Bytes} {len : Bool} {s t : State}
    (h : phase c p s = .ok () t) :
    emit c p g a v len s = .ok () ((g t).wrote (a (g t).regs) (v (g t)) len
      (emitted c (g t) (a (g t).regs) ((v (g t)).take (roomAbove (a (g t).regs))))) := by
  rw [emit, bind_ok h, modify_bind_run, get_bind_run, bind_ok (memWrite_total _ _), State.wrote]
  cases len <;> rfl

theorem map_ok_eq (m : Cmd Unit) (s : State) : (m >>= fun _ => modify fun t => t) s = m s := by
  cases h : m s with
  | ok a t => rw [bind_ok h]; rfl
  | error e t => rw [bind_error h]

theorem phase_bind_congr {p : Phase} {f g : Unit → Cmd β} (h : ∀ s, f () s = g () s) :
    (phase c p >>= f) = (phase c p >>= g) := bind_congr_run fun _ s => h s

theorem encodeBody_eq : encodeBody c = encodeCore c >>= encodeEmit c := by
  refine bind_congr_run fun h s => ?_
  refine congrFun (phase_bind_congr fun s => ?_) s
  exact (map_ok_eq (memWrite c _ _) _).symm

theorem decodeBody_eq : decodeBody c = decodeCore c (loadEmFromMemory c) >>= copyEmit c := rfl

theorem expCommand_eq (kind : ExpKind) : expCommand c kind = expFront c kind >>= fun _ => resEmit c Regs.opRes := by
  refine funext fun s => ?_
  show (expWrap c kind (.pointer s.regs.opBase) true >>= _) s = (expWrap c kind (.pointer s.regs.opBase) true >>= _) s
  refine congrFun (bind_congr_run fun _ s => ?_) s
  refine congrFun (phase_bind_congr fun s => ?_) s
  exact (map_ok_eq (memWrite c _ _) _).symm

theorem bind_assoc_cmd {γ : Type} (m : Cmd α) (f : α → Cmd β) (g : β → Cmd γ) :
    (m >>= f) >>= g = m >>= fun a => f a >>= g := by
  funext s
  cases h : m s with
  | ok a t => rw [bind_ok h]; show EStateM.bind (m >>= f) g s = _; simp only [EStateM.bind, bind_ok h]; rfl
  | error e t => rw [bind_error h, bind_error (bind_error h)]

theorem encryptBody_eq : encryptBody c = encryptFront c >>= fun _ => resEmit c Regs.out := by
  rw [encryptFront, bind_assoc_cmd]
  refine bind_congr_run fun h s => ?_
  rw [bind_assoc_cmd]
  refine congrFun (bind_congr_run fun _ s => ?_) s
  refine congrFun (bind_congr_run fun _ s => ?_) s
  refine congrFun (phase_bind_congr fun s => ?_) s
  exact (map_ok_eq (memWrite c _ _) _).symm

theorem decryptBody_eq : decryptBody c = decryptFront c >>= copyEmit c := by
  funext s
  show (expWrap c .crt (.pointer s.regs.inp) false >>= _) s =
    ((expWrap c .crt (.pointer s.regs.inp) false >>= fun _ => reverseResult c >>= fun _ => decodeCore c (pure ()))
      >>= copyEmit c) s
  rw [bind_assoc_cmd]
  refine congrFun (bind_congr_run fun _ s => ?_) s
  rw [bind_assoc_cmd]
  rfl

/-! ### The shape of a body -/

/-- A body: a piece, then one emission of the bytes the piece left. -/
structure Shape (c : Cfg) (ks : List Kind) (col : Bool) (body : Cmd Unit) (α : Type) where
  front : Cmd α
  front' : Cmd α
  piece : Piece c ks col Action.isQuiet front front'
  phase : Phase
  prepare : α → State → State
  target : Regs → Addr
  value : α → State → Bytes
  len : Bool
  eq : body = front >>= fun a => emit c phase (prepare a) target (value a) len
  tame : ∀ a, Tame Action.isQuiet (prepare a)
  valueAlone : ∀ a s l r, value a (s.served l r) = value a s
  phases : List Phase
  visits : Visits front phases

def encodeShape (c : Cfg) (col : Bool) : Shape c encodeKinds col (encodeBody c) Nat where
  front := encodeCore c
  front' := encodeCore c.glitchFree
  piece := piece_encodeCore.mono (fun _ h => h) quiet_of_apart
  phase := .encEmit
  prepare h s := s.setWork { s.work with em := put s.work.em 0 ([0x00] ++ s.work.seed.take h ++ s.work.db.take (dbLen c h)) }
  target := Regs.out
  value _ s := s.work.em.take c.K
  len := false
  eq := encodeBody_eq
  tame _ := tame_setWork _ fun _ _ _ => rfl
  valueAlone _ _ _ _ := rfl
  phases := _
  visits := visits_encodeCore

theorem tame_id : Tame ok id where
  framed s := .refl s
  alarm _ := rfl
  trail _ := rfl
  phase _ := rfl
  served _ _ _ := rfl

def decodeShape (c : Cfg) (col : Bool) : Shape c (decodeKinds col) col (decodeBody c) Bytes where
  front := decodeCore c (loadEmFromMemory c)
  front' := decodeCore c.glitchFree (loadEmFromMemory c.glitchFree)
  piece := (piece_decodeCore piece_loadEmFromMemory).mono (fun _ h => h) quiet_of_apart
  phase := .decCopy
  prepare _ := id
  target := Regs.out
  value m _ := m
  len := true
  eq := decodeBody_eq
  tame _ := tame_id
  valueAlone _ _ _ _ := rfl
  phases := _
  visits := visits_decodeCore visits_loadEmFromMemory

def expShape (c : Cfg) (col : Bool) (kind : ExpKind) : Shape c wrapKinds col (expCommand c kind) Unit where
  front := expFront c kind
  front' := expFront c.glitchFree kind
  piece := piece_expFront kind
  phase := .expEmit
  prepare _ := id
  target := Regs.opRes
  value _ s := s.work.res.take c.K
  len := false
  eq := expCommand_eq kind
  tame _ := tame_id
  valueAlone _ _ _ _ := rfl
  phases := _
  visits := visits_expFront kind

def encryptShape (c : Cfg) (col : Bool) : Shape c (encodeKinds ++ wrapKinds) col (encryptBody c) Unit where
  front := encryptFront c
  front' := encryptFront c.glitchFree
  piece := piece_encryptFront
  phase := .expEmit
  prepare _ := id
  target := Regs.out
  value _ s := s.work.res.take c.K
  len := false
  eq := encryptBody_eq
  tame _ := tame_id
  valueAlone _ _ _ _ := rfl
  phases := _
  visits := visits_encryptFront

def decryptShape (c : Cfg) (col : Bool) : Shape c (decodeKinds col ++ wrapKinds) col (decryptBody c) Bytes where
  front := decryptFront c
  front' := decryptFront c.glitchFree
  piece := piece_decryptFront
  phase := .decCopy
  prepare _ := id
  target := Regs.out
  value m _ := m
  len := true
  eq := decryptBody_eq
  tame _ := tame_id
  valueAlone _ _ _ _ := rfl
  phases := _
  visits := visits_decryptFront

/-! ### The exit point -/

/-- The state the exit point leaves, as a function of the one it is entered in (R222). -/
def State.left (c : Cfg) (s : State) (k : Kind) (info : Word) : State :=
  (((s.setPhase .exitScrub).scrub c).setPhase .exitStatus).complete k info

@[simp] theorem State.left_fields (c : Cfg) (s : State) (k : Kind) (info : Word) :
    (s.left c k info).regs = s.regs ∧ (s.left c k info).collapse = s.collapse ∧
    (s.left c k info).code = k.code ∧ (s.left c k info).codeN = k.codeN ∧
    (s.left c k info).extStatus = info ∧ (s.left c k info).busy = false ∧
    (s.left c k info).alarm = s.alarm ∧ (s.left c k info).engRst = s.engRst ∧
    (s.left c k info).st = k.code ∧ (s.left c k info).stN = k.codeN ∧
    (s.left c k info).flags = {} ∧ (s.left c k info).work = Work.zero c ∧
    (s.left c k info).ph = (if s.alarm then .locked else .idle) ∧
    (s.left c k info).hashCalls = s.hashCalls ∧ (s.left c k info).mem = s.mem ∧
    (s.left c k info).commands = s.commands ∧ (s.left c k info).evals = s.evals ∧
    (s.left c k info).acts = .phase (if s.alarm then .locked else .idle) :: .phase .exitStatus :: .phase .exitScrub
      :: s.acts ∧
    (s.left c k info).script = s.script ∧ (s.left c k info).live = s.live ∧ (s.left c k info).log = s.log := by
  and_intros <;> rfl

/-- The exit point, whatever the host does (R222, R282, R290). -/
theorem exitPoint_hosted (k : Kind) (info : Word) {s : State} (hb : s.busy = true) :
    (∃ l r, Serves [s.ph, .exitScrub] s.live s.log l r ∧ exitPoint c k info s = .ok () ((s.left c k info).served l r)) ∨
    (∃ u n, (1 ≤ n ∧ n ≤ 2) ∧ exitPoint c k info s = .error .resetHit u ∧ ResetIn n s.live s.log u.live u.log ∧ Gone c s u ∧
      u.mem = s.mem) := by
  rcases phase_hosted (c := c) .exitScrub hb with ⟨l1, r1, h1, e1⟩ | ⟨l1, r1, h1, e1⟩
  · let w := State.scrub c ((s.setPhase .exitScrub).served l1 r1)
    rcases phase_hosted (c := c) (s := w) .exitStatus hb with ⟨l2, r2, h2, e2⟩ | ⟨l2, r2, h2, e2⟩
    · exact .inl ⟨l2, r2, h1.trans h2, by rw [exitPoint, bind_ok e1, modify_bind_run, bind_ok e2]; rfl⟩
    · have e : exitPoint c k info s = .error .resetHit (State.hardReset c (w.served l2 r2)) := by
        rw [exitPoint, bind_ok e1, modify_bind_run, bind_error e2]
      exact .inr ⟨_, 2, by decide, e, h1.reset h2, rfl, rfl⟩
  · have e : exitPoint c k info s = .error .resetHit (State.hardReset c (s.served l1 r1)) := by
      rw [exitPoint, bind_error e1]
    exact .inr ⟨_, 1, by decide, e, h1, rfl, rfl⟩

/-! ### Emission and exit -/

/-- What an emission stores, with no reset falling into it. -/
def State.stored (s : State) (a : Addr) (v : Bytes) (len : Bool) : State := s.wrote a v len (v.take (roomAbove a))

/-- The state an emission leaves when it ends, seen from the state `s` its phase is entered in. -/
def State.emission (s : State) (p : Phase) (g : State → State) (a : Regs → Addr) (v : State → Bytes) (len : Bool) :
    State :=
  (g (s.setPhase p)).stored (a (g (s.setPhase p)).regs) (v (g (s.setPhase p))) len

theorem alone_of_live {s : State} (h : s.alone = s) : s.live = [] := by rw [← h]; rfl

/-- A body ended with a state: the exit point, entered from it, is passed. -/
theorem runBody_ok {body : Cmd Unit} {s t : State} (h : body s = .ok () t) (ht : t.alone = t) :
    runBody c body s = t.left c .success 0 := by
  simp only [runBody, h]
  rw [exitPoint_run .success 0 (alone_of_live ht)]; rfl

theorem runBody_raised {body : Cmd Unit} {k : Kind} {info : Word} {s t : State}
    (h : body s = .error (.raised k info) t) (ht : t.alone = t) : runBody c body s = t.left c k info := by
  simp only [runBody, h]
  rw [exitPoint_run k info (alone_of_live ht)]; rfl

/-- Everything a body can do with nothing of the host to come: the front ends and the emission follows, or the front
raises. -/
theorem Shape.run {body : Cmd Unit} (sh : Shape c ks col body α) {s : State} (hb : s.busy = true)
    (hc : s.collapse = col) (hs : s.alone = s) :
    (∃ a u, sh.front s = .ok a u ∧ u.alone = u ∧ Framed Action.isQuiet s u ∧ u.alarm = s.alarm ∧
      runBody c body s = (u.emission sh.phase (sh.prepare a) sh.target (sh.value a) sh.len).left c .success 0) ∨
    (∃ k info u, sh.front s = .error (.raised k info) u ∧ u.alone = u ∧ Framed Action.isQuiet s u ∧
      ((k = .glitchError ∧ info = 0 ∧ u.alarm = true) ∨
        (k ∈ ks ∧ k ≠ .glitchError ∧ (info = 0 ∨ k.fromProvider = true) ∧ u.alarm = s.alarm)) ∧
      runBody c body s = u.left c k info) := by
  have hl : noReset s.live = true := by rw [alone_of_live hs]; rfl
  have hg := sh.piece.goodEnd hb hl hc
  have hh := (sh.piece.hosted hb hc).1
  rw [hs] at hh
  revert hg hh
  cases hm : sh.front s with
  | ok a u =>
    intro hg hh
    left
    refine ⟨a, u, rfl, hh, hg.1, hg.2, ?_⟩
    change u.alone = u at hh
    have hal : (sh.prepare a (u.setPhase sh.phase)).alone = sh.prepare a (u.setPhase sh.phase) := by
      rw [State.alone, ← (sh.tame a).served, ← show ((u.setPhase sh.phase).served [] {}) = u.setPhase sh.phase from
        congrArg (fun x => State.setPhase x sh.phase) hh]
      rfl
    have e1 : body s = .ok () (u.emission sh.phase (sh.prepare a) sh.target (sh.value a) sh.len) := by
      rw [show body s = (sh.front >>= _) s from congrFun sh.eq s, bind_ok hm,
        emit_run (phase_run _ (alone_of_live hh)), emitted_calm _ _ (by rw [alone_of_live hal]; rfl)]
      rfl
    refine runBody_ok e1 ?_
    rw [State.emission, State.stored, State.alone, ← wrote_served]
    exact congrArg (fun x : State => x.wrote _ _ _ _) hal
  | error e u =>
    intro hg hh
    have e1 : body s = .error e u := by
      rw [show body s = (sh.front >>= _) s from congrFun sh.eq s, bind_error hm]
    right
    cases e with
    | raised k info => exact ⟨k, info, u, rfl, hh, hg.1, hg.2, runBody_raised e1 hh⟩
    | resetHit => exact hg.elim

/-! ### The host, while a command runs -/

theorem torn_length (c : Cfg) (k : Nat) {old new : Bytes} (h : old.length = new.length) :
    (tornBytes c k old new).length = new.length := by
  simp [tornBytes, h]

/-- Each byte of a torn region is the old one or the new one (U6). -/
theorem torn_byte (c : Cfg) (k : Nat) {old new : Bytes} {i : Nat} (h1 : i < old.length) (h2 : i < new.length)
    (h : i < (tornBytes c k old new).length) :
    (tornBytes c k old new)[i] = old[i] ∨ (tornBytes c k old new)[i] = new[i] := by
  simp only [tornBytes, List.getElem_mapIdx, List.getElem_zip]
  split <;> simp

theorem framed_phase {s : State} {p : Phase} (h : ok (.phase p) = true) : Framed ok s (s.setPhase p) := by
  constructor
  case live => exact id
  case engRst => exact fun _ => rfl
  case acts => exact ⟨[.phase p], rfl, by simpa using h⟩
  all_goals rfl

theorem torn_read {c : Cfg} {m : Memory} (hm : m.wf = true) {a : Nat} {v : Bytes} (h : a + v.length ≤ 2 ^ 64) (k x : Nat) :
    (m.writeBytes a (tornBytes c k (m.readBytes a v.length) v)).read x = m.read x ∨
    (m.writeBytes a (tornBytes c k (m.readBytes a v.length) v)).read x = (m.writeBytes a v).read x := by
  have hlen : (tornBytes c k (m.readBytes a v.length) v).length = v.length := torn_length c k (by simp)
  by_cases hx : a ≤ x ∧ x < a + v.length
  · obtain ⟨i, rfl⟩ : ∃ i, x = a + i := ⟨x - a, by omega⟩
    have hi : i < v.length := by omega
    rw [Memory.read_writeBytes_inside hm (by omega) (by omega), Memory.read_writeBytes_inside hm h hi]
    have ho := Memory.getElem?_readBytes m a v.length i hi
    rcases torn_byte c k (old := m.readBytes a v.length) (new := v) (by simpa using hi) hi (by omega) with e | e
    · left
      rw [e]
      rw [List.getElem?_eq_getElem (by simpa using hi)] at ho
      exact Option.some.inj ho
    · exact .inr e
  · left
    exact Memory.read_writeBytes_outside hm (by omega) (by omega)

/-- What a reset in the `k`-th slot leaves of data memory, when the command passes `d` phases before it emits: the old
bytes before the emitting phase, the new ones after it, and within it each byte the old one or the new one (U6, R282). -/
structure Torn (d k : Nat) (s u t : State) : Prop where
  before : k ≤ d → t.mem = s.mem
  after : d + 1 < k → t.mem = u.mem
  mixed : ∀ x, t.mem.read x = s.mem.read x ∨ t.mem.read x = u.mem.read x

theorem Torn.old {d k : Nat} {s u t : State} (h : t.mem = s.mem) (hk : k ≤ d + 1 ∨ u.mem = s.mem) : Torn d k s u t where
  before _ := h
  after hlt := by
    rcases hk with hk | hk
    · omega
    · exact h.trans hk.symm
  mixed x := .inl (by rw [h])

theorem Torn.new {d k : Nat} {s u t : State} (h : t.mem = u.mem) (hk : d < k) : Torn d k s u t where
  before hle := by omega
  after _ := h
  mixed x := .inr (by rw [h])

/-- A body stopped by a reset. -/
theorem runBody_reset {body : Cmd Unit} {s u : State} (h : body s = .error .resetHit u) : runBody c body s = u := by
  simp only [runBody, h]

/-- The phases of a command that began in `s`, was in its first phase then, and passed `ps` before its exit point. -/
theorem left_trail {s w : State} {ps : List Phase} (k : Kind) (info : Word) (hp : Passed s w ps) (ht : s.trail = [s.ph]) :
    (w.left c k info).trail =
      (if w.alarm then Phase.locked else .idle) :: .exitStatus :: (ps ++ [w.ph, .exitScrub]).reverse := by
  obtain ⟨qs, h1, h2⟩ := hp
  have h3 : w.trail = (ps ++ [w.ph]).reverse := by rw [h1, ht, ← h2, List.reverse_cons]
  show (if w.alarm then Phase.locked else .idle) :: .exitStatus :: .exitScrub :: w.trail = _
  rw [h3]
  simp

/-- The exit point of a command the host was served the slots of the phases `ps` of. -/
theorem exits_hosted {s w : State} {ps : List Phase} {l : List LiveSlot} {r : HostLog} (k : Kind) (info : Word)
    (hw : w.busy = true) (hs : Serves ps s.live s.log l r) (hp : Passed s w ps) (ht : s.trail = [s.ph])
    (h1 : w.script = s.script) (h2 : w.commands = s.commands) :
    (∃ qs l' r', Serves qs s.live s.log l' r' ∧ (∃ p, (w.left c k info).trail = p :: .exitStatus :: qs.reverse) ∧
      stateOf (exitPoint c k info (w.served l r)) = (w.left c k info).served l' r') ∨
    (∃ j, ps.length < j ∧ j + 2 ≤ (w.left c k info).trail.length ∧ ResetIn j s.live s.log (stateOf (exitPoint c k info (w.served l r))).live
        (stateOf (exitPoint c k info (w.served l r))).log ∧
      Gone c s (stateOf (exitPoint c k info (w.served l r))) ∧
      (stateOf (exitPoint c k info (w.served l r))).mem = w.mem) := by
  have htr := left_trail (c := c) k info hp ht
  rcases exitPoint_hosted (c := c) k info (s := w.served l r) hw with ⟨l', r', hs', e⟩ | ⟨u, j, ⟨hj, hj2⟩, e, hr, g, gm⟩
  · exact .inl ⟨_, l', r', hs.trans hs', ⟨_, htr⟩, by rw [e]; rfl⟩
  · rw [e]
    refine .inr ⟨ps.length + j, by omega, by rw [htr]; simp; omega, hs.reset hr, ?_, gm⟩
    rw [Gone] at g
    rw [Gone, ← h1, ← h2]
    exact g

/-- Everything the host can do to a whole command: it sees values, in one slot for each phase but the last two, or a
reset abandons the command (R282, R290). -/
theorem Shape.hosted {body : Cmd Unit} (sh : Shape c ks col body α) {s : State} (hb : s.busy = true)
    (hc : s.collapse = col) (ht : s.trail = [s.ph]) (hm : noReset s.live = false → s.mem.wf = true) :
    (∃ ps l r, Serves ps s.live s.log l r ∧ (∃ p, (runBody c body s.alone).trail = p :: .exitStatus :: ps.reverse) ∧
      runBody c body s = (runBody c body s.alone).served l r) ∨
    (∃ k, k + 2 ≤ (runBody c body s.alone).trail.length ∧
      ResetIn k s.live s.log (runBody c body s).live (runBody c body s).log ∧ Gone c s (runBody c body s) ∧
      Torn (sh.phases.length + 1) k s (runBody c body s.alone) (runBody c body s)) := by
  obtain ⟨-, hb0, ps, hn, h⟩ := sh.piece.hosted hb hc
  rcases sh.run (s := s.alone) hb hc rfl with ⟨a, w, ef, -, fr, -, hrun⟩ | ⟨k, info, w, ef, -, fr, -, hrun⟩
  · rw [ef] at hb0 hn h
    change w.busy = true at hb0
    change Passed s w ps at hn
    have hn' : ps.length = sh.phases.length := by
      have h1 : w.trail.length = s.trail.length + sh.phases.length := sh.visits.length (s := s.alone) ef
      have h2 := hn.length
      omega
    have hv : Passed s (w.emission sh.phase (sh.prepare a) sh.target (sh.value a) sh.len) (ps ++ [w.ph]) := by
      obtain ⟨-, -, -, -, q5, q6⟩ := wrote_rest (sh.prepare a (w.setPhase sh.phase))
        (sh.target (sh.prepare a (w.setPhase sh.phase)).regs) (sh.value a (sh.prepare a (w.setPhase sh.phase))) sh.len
        ((sh.value a (sh.prepare a (w.setPhase sh.phase))).take
          (roomAbove (sh.target (sh.prepare a (w.setPhase sh.phase)).regs)))
      have := (hn.trans (passed_setPhase w sh.phase)).trans (.refl (q6.trans ((sh.tame a).trail _))
        (q5.trans ((sh.tame a).phase _)))
      rw [List.append_nil] at this
      exact this
    have hlen : (runBody c body s.alone).trail.length = ps.length + 5 := by
      rw [hrun, left_trail _ _ hv ht]; simp
    rcases h with ⟨l, r, hs, e⟩ | ⟨u, k, hk, e, hr, g, gm⟩
    · have e1 : body s = emit c sh.phase (sh.prepare a) sh.target (sh.value a) sh.len (w.served l r) := by
        rw [show body s = (sh.front >>= _) s from congrFun sh.eq s, bind_ok (show sh.front s = .ok a (w.served l r) from e)]
      rcases phase_hosted (c := c) (s := w.served l r) sh.phase hb0 with ⟨l2, r2, hs2, e2⟩ | ⟨l2, r2, hs2, e2⟩
      · let v := sh.prepare a (w.setPhase sh.phase)
        have frv : Framed Action.isQuiet s.alone v := fr.trans ((framed_phase rfl).trans ((sh.tame a).framed _))
        have hpre : sh.prepare a (((w.served l r).setPhase sh.phase).served l2 r2) = v.served l2 r2 :=
          (sh.tame a).served (w.setPhase sh.phase) l2 r2
        rw [emit_run e2, hpre, sh.valueAlone, wrote_served] at e1
        have e3 : runBody c body s = stateOf (exitPoint c .success 0
            ((v.wrote (sh.target v.regs) (sh.value a v) sh.len (emitted c (v.served l2 r2) (sh.target v.regs)
              ((sh.value a v).take (roomAbove (sh.target v.regs))))).served l2 r2)) := by
          simp only [runBody, e1]; rfl
        obtain ⟨q1, q2, q3, -⟩ := wrote_rest v (sh.target v.regs) (sh.value a v) sh.len (emitted c (v.served l2 r2)
          (sh.target v.regs) ((sh.value a v).take (roomAbove (sh.target v.regs))))
        have hum : (runBody c body s.alone).mem = if (sh.value a v).length = 0 then s.mem
            else s.mem.writeBytes (sh.target v.regs).toNat ((sh.value a v).take (roomAbove (sh.target v.regs))) := by
          rw [hrun]; simp only [State.left_fields, State.emission, State.stored, wrote_mem]
          rw [show (sh.prepare a (w.setPhase sh.phase)).mem = s.mem from frv.mem]
        rw [e3]
        have hl1 : (ps ++ [(w.served l r).ph]).length = ps.length + 1 := by simp
        by_cases hrn : resetNow l2 = true
        · right
          obtain ⟨l3, r3, hr3, e4⟩ := phase_resets (c := c) (s := (v.wrote (sh.target v.regs) (sh.value a v) sh.len
            (emitted c (v.served l2 r2) (sh.target v.regs)
              ((sh.value a v).take (roomAbove (sh.target v.regs))))).served l2 r2) .exitScrub (q1.trans frv.busy |>.trans hb) hrn
          rw [exitPoint, bind_error e4]
          refine ⟨_, by omega, (hs.trans hs2).reset hr3, ?_, ⟨fun _ => by omega, fun _ => by omega, fun x => ?_⟩⟩
          · show Gone c s (State.hardReset c _)
            rw [Gone, ← show v.script = s.script from frv.script, ← show v.commands = s.commands from frv.commands,
              ← q2, ← q3]
            rfl
          · show Memory.read (State.mem (State.wrote ..)) x = _ ∨ Memory.read (State.mem (State.wrote ..)) x = _
            rw [hum, wrote_mem]
            split
            · left; rw [show v.mem = s.mem from frv.mem]
            · rw [emitted, if_pos (show resetNow (v.served l2 r2).live = true from hrn), show (v.served l2 r2).mem = s.mem from frv.mem, show v.mem = s.mem from frv.mem]
              refine torn_read (hm ((hs.trans hs2).reset hr3).noReset) ?_ _ x
              have := (sh.target v.regs).isLt
              rw [List.length_take]
              unfold roomAbove
              omega
        · rw [emitted_calm (s := v.served l2 r2) _ _ (by simpa using hrn)] at q1 q2 q3 ⊢
          rcases exits_hosted (c := c) .success 0 (q1.trans frv.busy |>.trans hb) (hs.trans hs2) hv ht (q2.trans frv.script)
            (q3.trans frv.commands) with ⟨qs, l', r', hs', htr, e'⟩ | ⟨j, hj, hj2, hr', g, gm⟩
          · exact .inl ⟨qs, l', r', hs', by rw [hrun]; exact htr, by rw [e', hrun]; rfl⟩
          · refine .inr ⟨j, by rw [hrun]; exact hj2, hr', g, .new ?_ (by omega)⟩
            rw [gm, hum, wrote_mem, show v.mem = s.mem from frv.mem]
      · right
        have e3 : body s = .error .resetHit (State.hardReset c (w.served l2 r2)) := by
          rw [e1, emit, bind_error e2]; rfl
        rw [runBody_reset e3]
        refine ⟨_, by omega, hs.reset hs2, ?_, .old fr.mem (.inl (by omega))⟩
        rw [Gone, ← show w.script = s.script from fr.script, ← show w.commands = s.commands from fr.commands]
        rfl
    · rw [runBody_reset (show body s = .error .resetHit u by
        rw [show body s = (sh.front >>= _) s from congrFun sh.eq s, bind_error e])]
      exact .inr ⟨k, by omega, hr, g, .old gm (.inl (by omega))⟩
  · rw [ef] at hb0 hn h
    change Passed s w ps at hn
    have hum : (runBody c body s.alone).mem = s.mem := by rw [hrun]; exact fr.mem
    have hlen : (runBody c body s.alone).trail.length = ps.length + 4 := by rw [hrun, left_trail _ _ hn ht]; simp
    rcases h with ⟨l, r, hs, e⟩ | ⟨u, j, hj, e, hr, g, gm⟩
    · have e1 : body s = .error (.raised k info) (w.served l r) := by
        rw [show body s = (sh.front >>= _) s from congrFun sh.eq s]
        exact bind_error e
      have e2 : runBody c body s = stateOf (exitPoint c k info (w.served l r)) := by simp only [runBody, e1]
      rw [e2]
      rcases exits_hosted (c := c) (w := w) k info hb0 hs hn ht fr.script fr.commands with
        ⟨qs, l', r', hs', htr, e'⟩ | ⟨j, -, hj2, hr', g, gm⟩
      · exact .inl ⟨qs, l', r', hs', by rw [hrun]; exact htr, by rw [e', hrun]⟩
      · exact .inr ⟨j, by rw [hrun]; exact hj2, hr', g, .old (gm.trans fr.mem) (.inr hum)⟩
    · rw [runBody_reset (show body s = .error .resetHit u by
        rw [show body s = (sh.front >>= _) s from congrFun sh.eq s, bind_error e])]
      exact .inr ⟨j, by omega, hr, g, .old gm (.inr hum)⟩

end Sys2Proof.Machine
end

