-- ==== Sys2Proof/Laws/Mask.lean ====
section
/-! SUPPORT. What the operations of a command answer on the fault-free machine with nothing of the host to come: phase
steps, reads, checks, and the mask generator (R102, R103, R106). -/

namespace Sys2Proof.Machine

variable {α β : Type} {c : Cfg} {s t : State}

/-- How a state looks after a stretch of a command: the phase, the buffers, the flags, how many evaluations and Digest
calls more, and the actions made, newest first. -/
def State.ran (s : State) (p : Phase) (w : Work) (f : DecFlags) (e h : Nat) (l : List Action) : State :=
  { s with ph := p, work := w, flags := f, evals := s.evals + e, hashCalls := s.hashCalls + h, acts := l ++ s.acts }

@[simp] theorem State.ran_fields (s : State) (p : Phase) (w : Work) (f : DecFlags) (e h : Nat) (l : List Action) :
    (s.ran p w f e h l).regs = s.regs ∧ (s.ran p w f e h l).collapse = s.collapse ∧
    (s.ran p w f e h l).code = s.code ∧ (s.ran p w f e h l).codeN = s.codeN ∧
    (s.ran p w f e h l).extStatus = s.extStatus ∧ (s.ran p w f e h l).busy = s.busy ∧
    (s.ran p w f e h l).alarm = s.alarm ∧ (s.ran p w f e h l).engRst = s.engRst ∧
    (s.ran p w f e h l).st = s.st ∧ (s.ran p w f e h l).stN = s.stN ∧ (s.ran p w f e h l).flags = f ∧
    (s.ran p w f e h l).work = w ∧ (s.ran p w f e h l).ph = p ∧ (s.ran p w f e h l).hashCalls = s.hashCalls + h ∧
    (s.ran p w f e h l).mem = s.mem ∧ (s.ran p w f e h l).commands = s.commands ∧
    (s.ran p w f e h l).evals = s.evals + e ∧ (s.ran p w f e h l).acts = l ++ s.acts ∧
    (s.ran p w f e h l).script = s.script ∧ (s.ran p w f e h l).live = s.live ∧
    (s.ran p w f e h l).log = s.log := by
  and_intros <;> rfl

@[simp] theorem State.ran_ran (s : State) (p p' : Phase) (w w' : Work) (f f' : DecFlags) (e e' h h' : Nat)
    (l l' : List Action) :
    (s.ran p w f e h l).ran p' w' f' e' h' l' = s.ran p' w' f' (e + e') (h + h') (l' ++ l) := by
  simp [State.ran, Nat.add_assoc]

theorem State.ran_self (s : State) : s.ran s.ph s.work s.flags 0 0 [] = s := by simp [State.ran]

@[simp] theorem State.ran_setPhase (s : State) (p p' : Phase) (w : Work) (f : DecFlags) (e h : Nat) (l : List Action) :
    (s.ran p w f e h l).setPhase p' = s.ran p' w f e h (.phase p' :: l) := rfl

@[simp] theorem State.ran_setWork (s : State) (p : Phase) (w w' : Work) (f : DecFlags) (e h : Nat) (l : List Action) :
    (s.ran p w f e h l).setWork w' = s.ran p w' f e h l := rfl

@[simp] theorem State.ran_setFlags (s : State) (p : Phase) (w : Work) (f f' : DecFlags) (e h : Nat) (l : List Action) :
    (s.ran p w f e h l).setFlags f' = s.ran p w f' e h l := rfl

@[simp] theorem State.ran_record (s : State) (p : Phase) (w : Work) (f : DecFlags) (e h : Nat) (l : List Action)
    (a : Action) : (s.ran p w f e h l).record a = s.ran p w f e h (a :: l) := rfl

@[simp] theorem State.ran_bumpEvals (s : State) (p : Phase) (w : Work) (f : DecFlags) (e h : Nat) (l : List Action) :
    (s.ran p w f e h l).bumpEvals = s.ran p w f (e + 1) h l := rfl

@[simp] theorem State.ran_bumpHashCalls (s : State) (p : Phase) (w : Work) (f : DecFlags) (e h : Nat)
    (l : List Action) : (s.ran p w f e h l).bumpHashCalls = s.ran p w f e (h + 1) l := rfl

/-! ### The mask generator -/

theorem ceilDiv_zero {h : Nat} (hh : 1 ≤ h) : ceilDiv 0 h = 0 := by
  unfold ceilDiv; exact Nat.div_eq_of_lt (by omega)

theorem ceilDiv_pos {n h : Nat} (hh : 1 ≤ h) (hn : 0 < n) : ceilDiv n h = ceilDiv (n - h) h + 1 := by
  unfold ceilDiv
  by_cases hle : h ≤ n
  · rw [show n + h - 1 = (n - h + h - 1) + h by omega, Nat.add_div_right _ (by omega)]
  · have e1 : (n + h - 1) / h = 1 := Nat.div_eq_of_lt_le (by omega) (by omega)
    have e2 : (n - h + h - 1) / h = 0 := Nat.div_eq_of_lt (by omega)
    omega

theorem ceilDiv_le {n h : Nat} (hh : 1 ≤ h) : ceilDiv n h ≤ n := by
  unfold ceilDiv
  rcases Nat.eq_zero_or_pos n with rfl | hn
  · rw [Nat.div_eq_of_lt (by omega)]
  · obtain ⟨k, rfl⟩ : ∃ k, h = k + 1 := ⟨h - 1, by omega⟩
    apply Nat.div_le_of_le_mul
    have := Nat.le_mul_of_pos_right k hn
    rw [Nat.add_mul, Nat.one_mul]
    omega

/-- The bytes covered by the calls. -/
theorem le_ceilDiv_mul {n h : Nat} (hh : 1 ≤ h) : n ≤ ceilDiv n h * h := by
  unfold ceilDiv
  have := Nat.div_add_mod (n + h - 1) h
  have hm := Nat.mod_lt (n + h - 1) (show 0 < h by omega)
  rw [Nat.mul_comm] at this
  omega

/-- The digests the counter loop concatenates, from counter `ctr` on. -/
def mgfBlocks (c : Cfg) (sel : Word) (seed : Bytes) (ctr k : Nat) : Bytes :=
  (List.range k).flatMap fun i => hashOf c sel (seed ++ be32 (ctr + i))

theorem mgfBlocks_succ (sel : Word) (seed : Bytes) (ctr k : Nat) :
    mgfBlocks c sel seed ctr (k + 1) = hashOf c sel (seed ++ be32 ctr) ++ mgfBlocks c sel seed (ctr + 1) k := by
  simp only [mgfBlocks, List.range_succ_eq_map, List.flatMap_cons, List.flatMap_map, Nat.add_zero]
  congr 2
  funext i
  rw [Nat.succ_eq_add_one, show ctr + (i + 1) = ctr + 1 + i by omega]

theorem length_mgfBlocks {sel : Word} {d : Nat} (hd : ∀ x, (hashOf c sel x).length = d) (seed : Bytes) (ctr k : Nat) :
    (mgfBlocks c sel seed ctr k).length = k * d := by
  induction k generalizing ctr with
  | zero => simp [mgfBlocks]
  | succ k ih => rw [mgfBlocks_succ, List.length_append, hd, ih]; ring

theorem length_mgfMask {sel : Word} {h : Nat} (hh : 1 ≤ h) (hd : ∀ x, (hashOf c sel x).length = h) (seed : Bytes)
    (n : Nat) : (mgfMask c sel h seed n).length = n := by
  have e : mgfMask c sel h seed n = (mgfBlocks c sel seed 0 (ceilDiv n h)).take n := by
    simp [mgfMask, mgfBlocks]
  rw [e, List.length_take, length_mgfBlocks hd]
  exact Nat.min_eq_left (le_ceilDiv_mul hh)

/-- The digest action of one call of the loop. -/
def mgfAction (c : Cfg) (sel : Word) (seed : Bytes) : Action := .digest c.hashInstance sel (seed.length + 4)

/-- The counter loop when every call it needs succeeds (R102, R103). -/
theorem mgfLoop_run {sel : Word} {seed : Bytes} {n d : Nat} (hd1 : 1 ≤ d) (hd : ∀ x, (hashOf c sel x).length = d)
    (fuel : Nat) : ∀ (ctr : Nat) (acc : Bytes) (s : State), FaultFree c s.commands → ceilDiv (n - acc.length) d ≤ fuel →
      (∀ j, j < ceilDiv (n - acc.length) d → c.hashFail s.commands (s.hashCalls + j) = 0) →
      mgfLoop c sel seed n fuel ctr acc s =
        .ok (acc ++ mgfBlocks c sel seed ctr (ceilDiv (n - acc.length) d))
          (s.ran s.ph s.work s.flags (ceilDiv (n - acc.length) d) (ceilDiv (n - acc.length) d)
            (List.replicate (ceilDiv (n - acc.length) d) (mgfAction c sel seed))) := by
  induction fuel with
  | zero =>
    intro ctr acc s hff hk hs
    have h0 : ceilDiv (n - acc.length) d = 0 := by omega
    rw [h0]
    simp [mgfLoop, mgfBlocks, State.ran_self]
  | succ fuel ih =>
    intro ctr acc s hff hk hs
    unfold mgfLoop
    split
    · rename_i hlt
      have hpos := ceilDiv_pos (n := n - acc.length) hd1 (by omega)
      have hlen : (acc ++ hashOf c sel (seed ++ be32 ctr)).length = acc.length + d := by simp [hd]
      have hnext : n - (acc ++ hashOf c sel (seed ++ be32 ctr)).length = n - acc.length - d := by rw [hlen]; omega
      have hd0 := digest_faultFree (s := s) sel (seed ++ be32 ctr) hff
      rw [if_pos (by have := hs 0 (by omega); simpa using this)] at hd0
      rw [bind_ok hd0]
      have := ih (ctr + 1) (acc ++ hashOf c sel (seed ++ be32 ctr))
        ((s.bumpHashCalls.record (.digest c.hashInstance sel (seed ++ be32 ctr).length)).bumpEvals)
        (by simpa using hff) (by rw [hnext]; omega)
        (by
          intro j hj
          rw [hnext] at hj
          have := hs (j + 1) (by omega)
          simpa [Nat.add_assoc, Nat.add_comm 1 j] using this)
      rw [this, hnext, hpos]
      rw [mgfBlocks_succ, List.append_assoc]
      congr 1
      simp only [State.ran, State.bumpEvals_fields, State.record_fields, State.bumpHashCalls_fields]
      have hrep : List.replicate (ceilDiv (n - acc.length - d) d) (mgfAction c sel seed) ++
          Action.digest c.hashInstance sel (List.length (seed ++ be32 ctr)) :: s.acts =
          List.replicate (ceilDiv (n - acc.length - d) d + 1) (mgfAction c sel seed) ++ s.acts := by
        rw [List.replicate_succ', List.append_assoc]
        simp [mgfAction]
      rw [hrep]
      simp
      omega
    · rename_i hlt
      have h0 : ceilDiv (n - acc.length) d = 0 := by rw [show n - acc.length = 0 by omega, ceilDiv_zero hd1]
      rw [h0]
      simp [mgfBlocks, State.ran_self]

/-- The counter loop when the j-th call it needs is the first to fail (R100, R124). -/
theorem mgfLoop_fail {sel : Word} {seed : Bytes} {n d : Nat} (hd1 : 1 ≤ d) (hd : ∀ x, (hashOf c sel x).length = d)
    (fuel : Nat) : ∀ (ctr : Nat) (acc : Bytes) (s : State) (j : Nat), FaultFree c s.commands →
      ceilDiv (n - acc.length) d ≤ fuel → j < ceilDiv (n - acc.length) d →
      (∀ i, i < j → c.hashFail s.commands (s.hashCalls + i) = 0) → c.hashFail s.commands (s.hashCalls + j) ≠ 0 →
      mgfLoop c sel seed n fuel ctr acc s =
        .error (.raised .hashFailure (c.hashFail s.commands (s.hashCalls + j)))
          (s.ran s.ph s.work s.flags (j + 1) (j + 1) (List.replicate (j + 1) (mgfAction c sel seed))) := by
  induction fuel with
  | zero => intro ctr acc s j hff hk hj; omega
  | succ fuel ih =>
    intro ctr acc s j hff hk hj hs hf
    have hlt : acc.length < n := by
      rcases Nat.lt_or_ge acc.length n with h | h
      · exact h
      · rw [show n - acc.length = 0 by omega, ceilDiv_zero hd1] at hj; omega
    unfold mgfLoop
    rw [if_pos hlt]
    have hd0 := digest_faultFree (s := s) sel (seed ++ be32 ctr) hff
    cases j with
    | zero =>
      rw [if_neg (by simpa using hf)] at hd0
      rw [bind_error hd0]
      congr 1
      simp [State.ran, State.bumpEvals, State.record, State.bumpHashCalls, mgfAction]
    | succ j =>
      have hpos := ceilDiv_pos (n := n - acc.length) hd1 (by omega)
      have hlen : (acc ++ hashOf c sel (seed ++ be32 ctr)).length = acc.length + d := by simp [hd]
      have hnext : n - (acc ++ hashOf c sel (seed ++ be32 ctr)).length = n - acc.length - d := by rw [hlen]; omega
      rw [if_pos (by have := hs 0 (by omega); simpa using this)] at hd0
      rw [bind_ok hd0]
      have := ih (ctr + 1) (acc ++ hashOf c sel (seed ++ be32 ctr))
        ((s.bumpHashCalls.record (.digest c.hashInstance sel (seed ++ be32 ctr).length)).bumpEvals) j
        (by simpa using hff) (by rw [hnext]; omega) (by rw [hnext]; omega)
        (by
          intro i hi
          have := hs (i + 1) (by omega)
          simpa [Nat.add_assoc, Nat.add_comm 1 i] using this)
        (by simpa [Nat.add_assoc, Nat.add_comm 1 j] using hf)
      rw [this]
      simp only [State.ran, State.bumpEvals_fields, State.record_fields, State.bumpHashCalls_fields]
      have hrep : List.replicate (j + 1) (mgfAction c sel seed) ++
          Action.digest c.hashInstance sel (List.length (seed ++ be32 ctr)) :: s.acts =
          List.replicate (j + 1 + 1) (mgfAction c sel seed) ++ s.acts := by
        rw [List.replicate_succ' (n := j + 1), List.append_assoc]
        simp [mgfAction]
      rw [hrep]
      simp [Nat.add_comm, Nat.add_left_comm]

/-- MGF when every call it needs succeeds: the mask, and one Digest call for each `d` bytes of it (R102, R103). -/
theorem mgf_run {sel : Word} {seed : Bytes} {n d : Nat} (hd1 : 1 ≤ d) (hd : ∀ x, (hashOf c sel x).length = d)
    (hff : FaultFree c s.commands)
    (hs : ∀ j, j < ceilDiv n d → c.hashFail s.commands (s.hashCalls + j) = 0) :
    mgf c sel seed n s = .ok () (s.ran s.ph { s.work with mask := put s.work.mask 0 (mgfMask c sel d seed n) } s.flags
      (ceilDiv n d) (ceilDiv n d) (List.replicate (ceilDiv n d) (mgfAction c sel seed))) := by
  have := mgfLoop_run (c := c) (seed := seed) (n := n) hd1 hd n 0 [] s hff (by simpa using ceilDiv_le hd1) (by simpa using hs)
  rw [mgf, bind_ok this]
  have e : mgfMask c sel d seed n = (mgfBlocks c sel seed 0 (ceilDiv n d)).take n := by simp [mgfMask, mgfBlocks]
  simp [e]

/-- MGF when one of its calls fails first (R100). -/
theorem mgf_fail {sel : Word} {seed : Bytes} {n d j : Nat} (hd1 : 1 ≤ d) (hd : ∀ x, (hashOf c sel x).length = d)
    (hff : FaultFree c s.commands) (hj : j < ceilDiv n d)
    (hs : ∀ i, i < j → c.hashFail s.commands (s.hashCalls + i) = 0) (hf : c.hashFail s.commands (s.hashCalls + j) ≠ 0) :
    mgf c sel seed n s = .error (.raised .hashFailure (c.hashFail s.commands (s.hashCalls + j)))
      (s.ran s.ph s.work s.flags (j + 1) (j + 1) (List.replicate (j + 1) (mgfAction c sel seed))) := by
  have := mgfLoop_fail (c := c) (seed := seed) (n := n) hd1 hd n 0 [] s j hff (by simpa using ceilDiv_le hd1) (by simpa using hj)
    hs hf
  rw [mgf, bind_error this]

end Sys2Proof.Machine
end

