-- ==== Sys2Proof/Laws/Wrap.lean ====
section
/-! SUPPORT. The wrapper on the fault-free machine with nothing of the host to come (R172 to R179), and its bracket on
every oracle. -/

namespace Sys2Proof.Machine

variable {c : Cfg} {s : State}

/-- The read actions of a list of regions, oldest first; an empty region leaves none (log 13). -/
def readActs (l : List (Addr × Nat)) : List Action :=
  (l.filter fun e => decide (e.2 ≠ 0)).map fun e => .memRead e.1 e.2

theorem readActs_append (l l' : List (Addr × Nat)) : readActs (l ++ l') = readActs l ++ readActs l' := by
  simp [readActs]

/-- More actions, newest first. -/
def State.acted (s : State) (l : List Action) : State := { s with acts := l ++ s.acts }

theorem State.acted_acted (s : State) (l l' : List Action) : (s.acted l).acted l' = s.acted (l' ++ l) := by
  simp [State.acted]

@[simp] theorem State.acted_regs (s : State) (l : List Action) : (s.acted l).regs = s.regs := rfl
@[simp] theorem State.acted_mem (s : State) (l : List Action) : (s.acted l).mem = s.mem := rfl
@[simp] theorem State.acted_work (s : State) (l : List Action) : (s.acted l).work = s.work := rfl
@[simp] theorem State.acted_live (s : State) (l : List Action) : (s.acted l).live = s.live := rfl
@[simp] theorem State.acted_commands (s : State) (l : List Action) : (s.acted l).commands = s.commands := rfl

theorem memRead_acted {a : Addr} {n : Nat} (h : a.toNat + n ≤ 2 ^ 64) :
    memRead c a n s = .ok (s.mem.readBytes a.toNat n) (s.acted (readActs [(a, n)]).reverse) := by
  rw [memRead_run h]
  by_cases h0 : n = 0 <;> simp [h0, readActs, State.acted, State.record]

/-- The regions of a list of operands. -/
def regionsOf (r : Regs) (l : List (Ptr × Nat)) : List (Addr × Nat) := l.map fun e => (r.ptr e.1, e.2)

/-- The regions of the optional operands that are present. -/
def presentOf (r : Regs) (l : List (Ptr × Nat)) : List (Addr × Nat) :=
  regionsOf r (l.filter fun e => decide (r.ptr e.1 ≠ 0))

theorem readOperands_run (l : List (Ptr × Nat)) : ∀ s : State,
    (∀ e ∈ l, (s.regs.ptr e.1).toNat + e.2 ≤ 2 ^ 64) →
    readOperands c l s = .ok (l.map fun e => s.mem.readBytes (s.regs.ptr e.1).toNat e.2)
      (s.acted (readActs (regionsOf s.regs l)).reverse) := by
  induction l with
  | nil => intro s _; rfl
  | cons e l ih =>
    intro s h
    obtain ⟨p, n⟩ := e
    rw [readOperands, get_bind_run]
    rw [bind_ok (memRead_acted (h (p, n) (by simp)))]
    have := ih (s.acted (readActs [(s.regs.ptr p, n)]).reverse) (fun e he => h e (by simp [he]))
    rw [bind_ok this]
    simp only [pure_run, State.acted_acted, State.acted_mem, State.acted_regs, List.map_cons]
    congr 2
    have : readActs (regionsOf s.regs ((p, n) :: l)) = readActs [(s.regs.ptr p, n)] ++ readActs (regionsOf s.regs l) := by
      rw [← readActs_append]; rfl
    rw [this, List.reverse_append]

theorem readOptionals_run (l : List (Ptr × Nat)) : ∀ s : State,
    (∀ e ∈ l, s.regs.ptr e.1 = 0 ∨ (s.regs.ptr e.1).toNat + e.2 ≤ 2 ^ 64) →
    readOptionals c l s =
      .ok (l.map fun e => if s.regs.ptr e.1 = 0 then none else some (s.mem.readBytes (s.regs.ptr e.1).toNat e.2))
        (s.acted (readActs (presentOf s.regs l)).reverse) := by
  induction l with
  | nil => intro s _; rfl
  | cons e l ih =>
    intro s h
    obtain ⟨p, n⟩ := e
    rw [readOptionals]
    by_cases h0 : s.regs.ptr p = 0
    · have e1 : readOptional c p n s = .ok none s := by
        rw [readOptional, get_bind_run, if_pos h0]; rfl
      rw [bind_ok e1, bind_ok (ih s fun e he => h e (by simp [he]))]
      simp [h0, presentOf]
    · have e1 : readOptional c p n s = .ok (some (s.mem.readBytes (s.regs.ptr p).toNat n))
          (s.acted (readActs [(s.regs.ptr p, n)]).reverse) := by
        rw [readOptional, get_bind_run, if_neg h0]
        rw [bind_ok (memRead_acted ((h (p, n) (by simp)).resolve_left h0))]
        rfl
      rw [bind_ok e1, bind_ok (ih (s.acted _) fun e he => h e (by simp [he]))]
      simp only [pure_run, State.acted_acted, State.acted_mem, State.acted_regs, List.map_cons, if_neg h0]
      congr 2
      have : readActs (presentOf s.regs ((p, n) :: l)) =
          readActs [(s.regs.ptr p, n)] ++ readActs (presentOf s.regs l) := by
        rw [← readActs_append, presentOf, List.filter_cons_of_pos (by simpa using h0)]
        rfl
      rw [this, List.reverse_append]

/-- The bytes of the base (R176). -/
def baseBytes (c : Cfg) (s : State) : BaseOperand → Bytes
  | .pointer a => s.mem.readBytes a.toNat c.K
  | .internal => s.work.em.take c.K

/-- The region of the base, if it is in memory. -/
def baseRegion (c : Cfg) : BaseOperand → List (Addr × Nat)
  | .pointer a => [(a, c.K)]
  | .internal => []

theorem readBase_run (b : BaseOperand) (h : baseOk c b = true) :
    readBase c b s = .ok (baseBytes c s b) (s.acted (readActs (baseRegion c b)).reverse) := by
  cases b with
  | pointer a =>
    simp only [baseOk, regionOk, Bool.and_eq_true, decide_eq_true_eq] at h
    exact memRead_acted h.2
  | internal => rfl

/-- The regions the wrapper reads, in its order. -/
def wrapRegions (c : Cfg) (kind : ExpKind) (b : BaseOperand) (r : Regs) : List (Addr × Nat) :=
  baseRegion c b ++ regionsOf r (mandatoryOps c kind) ++ presentOf r (optionalOps c kind)

/-- What the wrapper's engine call answers. -/
def wrapAnswer (c : Cfg) (kind : ExpKind) (b : BaseOperand) (s : State) : Word × Bytes :=
  engineAnswer c s.commands kind (baseBytes c s b)
    ((mandatoryOps c kind).map fun e => s.mem.readBytes (s.regs.ptr e.1).toNat e.2)
    ((optionalOps c kind).map fun e =>
      if s.regs.ptr e.1 = 0 then none else some (s.mem.readBytes (s.regs.ptr e.1).toNat e.2))

/-- The state the wrapper leaves after a call. -/
def State.wrapped (c : Cfg) (s : State) (kind : ExpKind) (b : BaseOperand) : State :=
  s.ran .expVerify { s.work with res := put s.work.res 0 (wrapAnswer c kind b s).2 } s.flags 3 0
    ([.phase .expVerify, .engRst true, .phase .expHold, .engCall kind, .phase .expRun, .engRst false,
      .phase .expRelease] ++ (readActs (wrapRegions c kind b s.regs)).reverse ++ [.phase .expCheck])

theorem expParamsOk_iff (kind : ExpKind) (b : BaseOperand) (rm : Bool) (r : Regs) :
    expParamsOk c kind b rm r = true ↔
      (∀ e ∈ mandatoryOps c kind, regionOk (r.ptr e.1) e.2 = true) ∧ baseOk c b = true ∧
      (rm = true → regionOk r.opRes c.K = true) ∧
      (∀ e ∈ optionalOps c kind, r.ptr e.1 = 0 ∨ regionOk (r.ptr e.1) e.2 = true) := by
  cases rm <;> simp [expParamsOk, List.all_eq_true, and_assoc]

theorem regionOk_bound {a : Addr} {n : Nat} (h : regionOk a n = true) : a.toNat + n ≤ 2 ^ 64 := by
  simp only [regionOk, Bool.and_eq_true, decide_eq_true_eq] at h
  exact h.2

/-- The wrapper on bad pointers: HOLD, then ExponentInvalidParam (R175, R177). -/
theorem expWrap_badParams (kind : ExpKind) (b : BaseOperand) (rm : Bool) (hl : s.live = [])
    (hff : FaultFree c s.commands) (hp : expParamsOk c kind b rm s.regs = false) :
    expWrap c kind b rm s = .error (.raised .exponentInvalidParam 0)
      (((((s.setPhase .expCheck).bumpEvals).setPhase .expHold).setEngRst true)) := by
  have e1 : expCheck c kind b rm s = .error (.raised .exponentInvalidParam 0)
      (((((s.setPhase .expCheck).bumpEvals).setPhase .expHold).setEngRst true)) := by
    rw [expCheck, bind_ok (phase_run _ hl), get_bind_run]
    have := evalTwice_faultFree (c := c) (s := s.setPhase .expCheck) .expPtr
      (expParamsOk c kind b rm (s.setPhase .expCheck).regs) (by simpa using hff)
    rw [bind_ok this]
    simp only [State.setPhase_fields, hp]
    show (hold c >>= fun _ => raise .exponentInvalidParam 0) _ = _
    rw [bind_ok (hold_run (by simpa using hl))]
    rfl
  rw [expWrap, bind_error e1]

/-- The wrapper on good pointers: it ends as the engine's status says, with the result in RES (R172 to R179). -/
theorem expWrap_run (kind : ExpKind) (b : BaseOperand) (rm : Bool) (hl : s.live = []) (he : s.engRst = true)
    (hff : FaultFree c s.commands) (hp : expParamsOk c kind b rm s.regs = true) :
    expWrap c kind b rm s =
      if (wrapAnswer c kind b s).1 = 0 then .ok () (s.wrapped c kind b)
      else .error (.raised .engineFailure (wrapAnswer c kind b s).1) (s.wrapped c kind b) := by
  obtain ⟨h1, h2, -, h4⟩ := (expParamsOk_iff kind b rm s.regs).mp hp
  have e1 : expCheck c kind b rm s = .ok () ((s.setPhase .expCheck).bumpEvals) := by
    rw [expCheck, bind_ok (phase_run _ hl), get_bind_run]
    have := evalTwice_faultFree (c := c) (s := s.setPhase .expCheck) .expPtr
      (expParamsOk c kind b rm (s.setPhase .expCheck).regs) (by simpa using hff)
    rw [bind_ok this]
    simp only [State.setPhase_fields, hp]
    rfl
  rw [expWrap, bind_ok e1]
  rw [bind_ok (readBase_run b h2)]
  rw [bind_ok (readOperands_run (mandatoryOps c kind)
    ((s.setPhase .expCheck).bumpEvals.acted (readActs (baseRegion c b)).reverse)
    fun e he => regionOk_bound (h1 e he))]
  rw [bind_ok (readOptionals_run (optionalOps c kind) (((s.setPhase .expCheck).bumpEvals.acted
    (readActs (baseRegion c b)).reverse).acted _) fun e he => (h4 e he).imp_right regionOk_bound)]
  rw [bind_ok (phase_run _ (by simpa using hl)), modify_bind_run, bind_ok (phase_run _ (by simpa using hl))]
  simp only [State.acted_acted, State.acted_mem, State.acted_regs, State.bumpEvals_fields, State.setPhase_fields]
  have e2 : ∀ (bs : Bytes) (mand : List Bytes) (opt : List (Option Bytes)) (t : State),
      engineCall c kind bs mand opt t = .ok (engineAnswer c t.commands kind bs mand opt).1
        ((t.record (.engCall kind)).setWork
          { t.work with res := put t.work.res 0 (engineAnswer c t.commands kind bs mand opt).2 }) := fun _ _ _ _ => rfl
  rw [bind_ok (e2 _ _ _ _), bind_ok (hold_run (by simpa using hl)), bind_ok (phase_run _ (by simpa using hl))]
  have e3 : ∀ t : State, t.engRst = true → FaultFree c t.commands → expHeldCheck c t = .ok () t.bumpEvals := by
    intro t ht hft
    rw [expHeldCheck, get_bind_run, bind_ok (evalTwice_faultFree .expHeld t.engRst hft), ht]
    rfl
  rw [bind_ok (e3 _ rfl (by simpa using hff)), check_faultFree _ _ _ _ (by simpa using hff)]
  have hbase : baseBytes c (s.setPhase .expCheck).bumpEvals b = baseBytes c s b := by cases b <;> rfl
  have hans : engineAnswer c s.commands kind (baseBytes c s b)
      ((mandatoryOps c kind).map fun e => s.mem.readBytes (s.regs.ptr e.1).toNat e.2)
      ((optionalOps c kind).map fun e =>
        if s.regs.ptr e.1 = 0 then none else some (s.mem.readBytes (s.regs.ptr e.1).toNat e.2)) =
      wrapAnswer c kind b s := rfl
  have hacts : (readActs (presentOf s.regs (optionalOps c kind))).reverse ++
      ((readActs (regionsOf s.regs (mandatoryOps c kind))).reverse ++ (readActs (baseRegion c b)).reverse) =
      (readActs (wrapRegions c kind b s.regs)).reverse := by
    simp [wrapRegions, readActs_append]
  simp only [State.setEngRst_fields, State.setPhase_fields]
  simp only [State.acted, State.bumpEvals_fields, State.setPhase_fields]
  rw [hbase, hans, hacts]
  have hstate : ∀ (x : Work) (l : List Action), (((((((({ s with ph := .expCheck, evals := s.evals + 1, acts := l } : State).setPhase
      .expRelease).setEngRst false).setPhase .expRun).record (.engCall kind)).setWork x).setPhase .expHold).setEngRst
        true |>.setPhase .expVerify).bumpEvals.bumpEvals =
      { s with ph := .expVerify, work := x, evals := s.evals + 3, acts := [.phase .expVerify, .engRst true,
        .phase .expHold, .engCall kind, .phase .expRun, .engRst false, .phase .expRelease] ++ l } := by
    intro x l
    simp only [State.bumpEvals, State.setPhase, State.setEngRst, State.setWork, State.record, he]
    rfl
  rw [hstate]
  have hw : (State.mk s.regs s.collapse s.code s.codeN s.extStatus s.busy s.alarm s.engRst s.st s.stN s.flags
      { s.work with res := put s.work.res 0 (wrapAnswer c kind b s).2 } .expVerify s.hashCalls s.mem s.commands
      (s.evals + 3) ([.phase .expVerify, .engRst true, .phase .expHold, .engCall kind, .phase .expRun,
        .engRst false, .phase .expRelease] ++ ((readActs (wrapRegions c kind b s.regs)).reverse ++
          .phase .expCheck :: s.acts)) s.script s.live s.log) = s.wrapped c kind b := by
    simp [State.wrapped, State.ran]
  rw [hw]
  by_cases h0 : (wrapAnswer c kind b s).1 = 0
  · simp only [h0, beq_self_eq_true, if_true]
  · simp only [beq_iff_eq, h0, if_false]

/-! ### The bracket, on every oracle (R176, R177) -/

variable {α : Type} {ks : List Kind} {col : Bool} {ok : Action → Bool}

theorem bracketOf_append (l l' : List Action) : bracketOf (l ++ l') = bracketOf l ++ bracketOf l' := List.filter_append ..

theorem bracketOf_silent {l : List Action} (h : ∀ a ∈ l, a.isLine = false) : bracketOf l.reverse = [] := by
  rw [bracketOf, List.filter_eq_nil_iff]
  intro a ha
  have := h a (List.mem_reverse.mp ha)
  cases a <;> simp_all [Action.isLine]

/-- Off the engine's line: the line and the record of its writes are as before. -/
structure OffLine (s t : State) : Prop where
  engRst : t.engRst = s.engRst
  acts : ∃ l, t.acts = l ++ s.acts ∧ bracketOf l.reverse = []

theorem Framed.offLine {s t : State} (h : Framed ok s t) (ho : ∀ a, ok a = true → a.isLine = false) : OffLine s t := by
  obtain ⟨l, e, hl⟩ := h.acts
  exact ⟨h.engRst ho, l, e, bracketOf_silent fun a ha => ho a (hl a ha)⟩

theorem OffLine.refl (s : State) : OffLine s s := ⟨rfl, [], rfl, rfl⟩

theorem OffLine.trans {s t u : State} (h : OffLine s t) (g : OffLine t u) : OffLine s u := by
  obtain ⟨l1, e1, b1⟩ := h.acts
  obtain ⟨l2, e2, b2⟩ := g.acts
  exact ⟨g.engRst.trans h.engRst, l2 ++ l1, by rw [e2, e1, List.append_assoc],
    by rw [List.reverse_append, bracketOf_append, b1, b2]; rfl⟩

/-- The writes of the engine's line between two states, oldest first. -/
def Between (s t : State) (b : List Action) : Prop := ∃ l, t.acts = l ++ s.acts ∧ bracketOf l.reverse = b

theorem OffLine.between {s t u : State} {b : List Action} (h : OffLine s t) (g : Between t u b) : Between s u b := by
  obtain ⟨l1, e1, b1⟩ := h.acts
  obtain ⟨l2, e2, b2⟩ := g
  exact ⟨l2 ++ l1, by rw [e2, e1, List.append_assoc], by rw [List.reverse_append, bracketOf_append, b1, b2]; rfl⟩

theorem Between.offLine {s t u : State} {b : List Action} (g : Between s t b) (h : OffLine t u) : Between s u b := by
  obtain ⟨l1, e1, b1⟩ := g
  obtain ⟨l2, e2, b2⟩ := h.acts
  exact ⟨l2 ++ l1, by rw [e2, e1, List.append_assoc],
    by rw [List.reverse_append, bracketOf_append, b1, b2, List.append_nil]⟩

/-- The state a result holds is off the line of `s`. -/
theorem Piece.offLine {m m' : Cmd α} (h : Piece c ks col ok m m') (ho : ∀ a, ok a = true → a.isLine = false)
    (hb : s.busy = true) (hc : s.collapse = col) (hs : s.alone = s) :
    OffLine s (stateOf (m s)) ∧ (stateOf (m s)).alone = stateOf (m s) ∧ (stateOf (m s)).busy = true ∧
    (stateOf (m s)).collapse = col := by
  have hl : s.live = [] := by rw [← hs]; rfl
  have hg := h.goodEnd hb (by rw [hl]; rfl) hc
  have hh := h.hosted hb hc
  rw [HostedAt, hs] at hh
  refine ⟨?_, hh.1, hh.2.1, ?_⟩
  · revert hg
    cases m s with
    | ok a t => exact fun hg => hg.1.offLine ho
    | error e t =>
      cases e with
      | raised k info => exact fun hg => hg.1.offLine ho
      | resetHit => exact fun hg => hg.elim
  · revert hg
    cases m s with
    | ok a t => exact fun hg => hg.1.collapse.trans hc
    | error e t =>
      cases e with
      | raised k info => exact fun hg => hg.1.collapse.trans hc
      | resetHit => exact fun hg => hg.elim

/-- How the wrapper ends, on the engine's line: held again whatever happened. -/
def HeldAgain (kind : ExpKind) (s : State) : EStateM.Result Stop State α → Prop
  | .ok _ t => t.engRst = true ∧ Between s t (fullBracket kind)
  | .error (.raised _ _) t => t.engRst = true ∧ (Between s t [.engRst true] ∨ Between s t (fullBracket kind))
  | .error .resetHit _ => False

def isReadOrPhase : Action → Bool
  | .memRead _ _ => true
  | .phase _ => true
  | .memWrite _ _ => false
  | .digest _ _ _ => false
  | .draw _ => false
  | .engRst _ => false
  | .engCall _ => false
  | .outLen _ => false

theorem isReadOrPhase_offLine (a : Action) (h : isReadOrPhase a = true) : a.isLine = false := by
  cases a <;> simp_all [isReadOrPhase, Action.isLine]

theorem HeldAgain.before {s1 : State} {kind : ExpKind} (h : OffLine s s1) {r : EStateM.Result Stop State α}
    (g : HeldAgain kind s1 r) : HeldAgain kind s r := by
  cases r with
  | ok b u => exact ⟨g.1, h.between g.2⟩
  | error e u =>
    cases e with
    | raised k info => exact ⟨g.1, g.2.imp h.between h.between⟩
    | resetHit => exact g

/-- One off-line part of the wrapper, and what follows it. -/
theorem offLine_bind {β : Type} {m m' : Cmd α} {f : α → Cmd β} {kind : ExpKind}
    (h : Piece c ks s.collapse isReadOrPhase m m')
    (hb : s.busy = true) (hs : s.alone = s)
    (hraise : ∀ k info t, m s ≠ .error (.raised k info) t)
    (hf : ∀ a t, m s = .ok a t → t.alone = t → t.busy = true → HeldAgain kind t (f a t)) :
    HeldAgain kind s ((m >>= f) s) := by
  have ho := h.offLine isReadOrPhase_offLine hb rfl hs
  have hg := h.goodEnd hb (by rw [← hs]; rfl) rfl
  revert ho hg hraise hf
  cases hm : m s with
  | ok a t =>
    intro hraise hf ho hg
    rw [bind_ok hm]
    exact HeldAgain.before ho.1 (hf a t rfl ho.2.1 ho.2.2.1)
  | error e t =>
    intro hraise hf ho hg
    rw [bind_error hm]
    cases e with
    | raised k info => exact absurd rfl (hraise k info t)
    | resetHit => exact hg

/-- A command that raises nothing. -/
def RaisesNot (m : Cmd α) : Prop := ∀ s k info t, m s ≠ .error (.raised k info) t

theorem RaisesNot.bind {β : Type} {m : Cmd α} {f : α → Cmd β} (h : RaisesNot m) (hf : ∀ a, RaisesNot (f a)) :
    RaisesNot (m >>= f) := by
  intro s k info t
  cases hm : m s with
  | ok a u => rw [bind_ok hm]; exact hf a u k info t
  | error e u =>
    rw [bind_error hm]
    intro h'
    cases h'
    exact h s k info t hm

theorem raisesNot_memRead (a : Addr) (n : Nat) : RaisesNot (memRead c a n) := by
  intro s k info t
  rw [memRead_total]
  exact nofun

theorem raisesNot_pure (a : α) : RaisesNot (pure a : Cmd α) := fun _ _ _ _ h => by cases h

theorem raisesNot_get {β : Type} {f : State → Cmd β} (h : ∀ s, RaisesNot (f s)) : RaisesNot (get >>= f) :=
  fun s k info t => h s s k info t

theorem raisesNot_readBase (b : BaseOperand) : RaisesNot (readBase c b) := by
  cases b with
  | pointer a => exact raisesNot_memRead _ _
  | internal => exact raisesNot_get fun _ => raisesNot_pure _

theorem raisesNot_readOperands (l : List (Ptr × Nat)) : RaisesNot (readOperands c l) := by
  induction l with
  | nil => exact raisesNot_pure _
  | cons e l ih =>
    exact raisesNot_get fun s => (raisesNot_memRead _ _).bind fun _ => ih.bind fun _ => raisesNot_pure _

theorem raisesNot_readOptionals (l : List (Ptr × Nat)) : RaisesNot (readOptionals c l) := by
  induction l with
  | nil => exact raisesNot_pure _
  | cons e l ih =>
    refine RaisesNot.bind (raisesNot_get fun s => ?_) fun _ => ih.bind fun _ => raisesNot_pure _
    show RaisesNot (if s.regs.ptr e.1 = 0 then pure none else _)
    split
    · exact raisesNot_pure _
    · exact (raisesNot_memRead _ _).bind fun _ => raisesNot_pure _

/-- The wrapper's tail behind HOLD is off the line. -/
theorem wrapTail_offLine (status : Word) :
    Piece c wrapKinds col isReadOrPhase
      (phase c .expVerify >>= fun _ => expHeldCheck c >>= fun _ => check c .expStatus (status == 0) .engineFailure status)
      (phase c.glitchFree .expVerify >>= fun _ => expHeldCheck c.glitchFree >>= fun _ =>
        check c.glitchFree .expStatus (status == 0) .engineFailure status) :=
  .bind (.phase _ rfl) fun _ => .bind piece_expHeldCheck fun _ => piece_check _ _ (by decide) (by decide) (.inr rfl)

/-- The wrapper's tail behind HOLD, entered with the engine held and a full bracket made since `s`. -/
theorem wrapTail_heldAgain {kind : ExpKind} {t : State} (status : Word) (hb : t.busy = true) (ht : t.alone = t)
    (he : t.engRst = true) (h : Between s t (fullBracket kind)) :
    HeldAgain kind s ((phase c .expVerify >>= fun _ => expHeldCheck c >>= fun _ =>
      check c .expStatus (status == 0) .engineFailure status) t) := by
  have hp := wrapTail_offLine (c := c) (col := t.collapse) status
  have o := hp.offLine isReadOrPhase_offLine hb rfl ht
  have g := hp.goodEnd hb (by rw [← ht]; rfl) rfl
  revert o g
  cases (phase c .expVerify >>= fun _ => expHeldCheck c >>= fun _ =>
      check c .expStatus (status == 0) .engineFailure status) t with
  | ok a u => exact fun o _ => ⟨o.1.engRst.trans he, h.offLine o.1⟩
  | error x u =>
    cases x with
    | raised k info => exact fun o _ => ⟨o.1.engRst.trans he, .inr (h.offLine o.1)⟩
    | resetHit => exact fun _ g => g.elim

/-- The wrapper from EXP_RELEASE on. -/
theorem wrapCall_heldAgain (kind : ExpKind) (bs : Bytes) (mand : List Bytes) (opt : List (Option Bytes))
    (hb : s.busy = true) (hs : s.alone = s) :
    HeldAgain kind s ((phase c .expRelease >>= fun _ =>
      modify (fun s => s.setEngRst false) >>= fun _ => phase c .expRun >>= fun _ =>
      engineCall c kind bs mand opt >>= fun status => hold c >>= fun _ => phase c .expVerify >>= fun _ =>
      expHeldCheck c >>= fun _ => check c .expStatus (status == 0) .engineFailure status) s) := by
  have hl : s.live = [] := by rw [← hs]; rfl
  obtain ⟨w, x, e5⟩ : ∃ w x, engineCall c kind bs mand opt (((s.setPhase .expRelease).setEngRst false).setPhase .expRun) =
      .ok x (((((s.setPhase .expRelease).setEngRst false).setPhase .expRun).record (.engCall kind)).setWork w) :=
    ⟨_, _, rfl⟩
  have e6 := hold_run (c := c)
    (s := ((((s.setPhase .expRelease).setEngRst false).setPhase .expRun).record (.engCall kind)).setWork w) hl
  rw [bind_ok (phase_run _ hl), modify_bind_run,
    bind_ok (phase_run _ (s := (s.setPhase .expRelease).setEngRst false) hl), bind_ok e5, bind_ok e6]
  refine wrapTail_heldAgain (t := ((((((s.setPhase .expRelease).setEngRst false).setPhase .expRun).record
      (.engCall kind)).setWork w).setPhase .expHold).setEngRst true) x (by simpa using hb) ?_ (by simp)
    ⟨[.engRst true, .phase .expHold, .engCall kind, .phase .expRun, .engRst false, .phase .expRelease], by simp,
      by cases kind <;> rfl⟩
  exact congrArg (fun x : State => (((((((x.setPhase .expRelease).setEngRst false).setPhase .expRun).record
    (.engCall kind)).setWork w).setPhase .expHold).setEngRst true)) hs

/-- The wrapper leaves the engine held on every path and brackets its one call (R176, R177). -/
theorem expWrap_heldAgain (kind : ExpKind) (b : BaseOperand) (rm : Bool) (hb : s.busy = true) (hs : s.alone = s) :
    HeldAgain kind s (expWrap c kind b rm s) := by
  have hl : s.live = [] := by rw [← hs]; rfl
  let s1 := (s.setPhase .expCheck).bumpEvals
  have hl1 : s1.live = [] := hl
  have hcheck : ∃ v : Verdict, expCheck c kind b rm s = (match v with
      | .pass => pure ()
      | .fail => do
        hold c
        raise .exponentInvalidParam 0
      | .split => do
        modify fun s => s.setAlarm
        hold c
        raise .glitchError 0 : Cmd Unit) s1 := by
    refine ⟨verdict (expParamsOk c kind b rm s.regs ^^ c.glitch s.commands s.evals .expPtr .A)
      (expParamsOk c kind b rm s.regs ^^ c.glitch s.commands s.evals .expPtr .B), ?_⟩
    rw [expCheck, bind_ok (phase_run _ hl), get_bind_run]
    rfl
  obtain ⟨v, hcheck⟩ := hcheck
  cases v with
  | fail =>
    have e : expCheck c kind b rm s = .error (.raised .exponentInvalidParam 0) ((s1.setPhase .expHold).setEngRst true) := by
      rw [hcheck]
      show (hold c >>= fun _ => raise .exponentInvalidParam 0) s1 = _
      rw [bind_ok (hold_run hl1)]; rfl
    rw [expWrap, bind_error e]
    exact ⟨rfl, .inl ⟨[.engRst true, .phase .expHold, .phase .expCheck], rfl, rfl⟩⟩
  | split =>
    have e : expCheck c kind b rm s = .error (.raised .glitchError 0)
        ((s1.setAlarm.setPhase .expHold).setEngRst true) := by
      rw [hcheck]
      show (modify State.setAlarm >>= fun _ => hold c >>= fun _ => raise .glitchError 0) s1 = _
      rw [modify_bind_run, bind_ok (hold_run (s := s1.setAlarm) hl1)]; rfl
    rw [expWrap, bind_error e]
    exact ⟨rfl, .inl ⟨[.engRst true, .phase .expHold, .phase .expCheck], rfl, rfl⟩⟩
  | pass =>
    have e : expCheck c kind b rm s = .ok () s1 := hcheck
    have o1 : OffLine s s1 := ⟨rfl, [.phase .expCheck], rfl, rfl⟩
    have hs1 : s1.alone = s1 := congrArg (fun x : State => (x.setPhase .expCheck).bumpEvals) hs
    rw [expWrap, bind_ok e]
    refine HeldAgain.before o1 ?_
    refine offLine_bind (piece_readBase (ks := []) (fun _ _ => rfl) b) hb hs1 (raisesNot_readBase b s1)
      fun bs t1 _ ht1 hb1 => ?_
    refine offLine_bind (piece_readOperands (c := c) (ks := []) (fun _ _ => rfl) _) hb1 ht1
      (raisesNot_readOperands _ t1) fun mand t2 _ ht2 hb2 => ?_
    refine offLine_bind (piece_readOptionals (c := c) (ks := []) (fun _ _ => rfl) _) hb2 ht2
      (raisesNot_readOptionals _ t2) fun opt t3 _ ht3 hb3 => ?_
    exact wrapCall_heldAgain kind bs mand opt hb3 ht3

end Sys2Proof.Machine
end

