-- ==== Sys2Proof/Laws/Command.lean ====
section
/-! SUPPORT. Whole commands by name: the shape of each body, and everything a command can do to a state, on every oracle
and whatever the host does meanwhile (R222, R241, R243, R282, R290). -/

namespace Sys2Proof.Machine

variable {c : Cfg} {i : Instr} {s t : State}

/-! ### The shape of each command -/

/-- The body of a command. -/
def bodyOf (c : Cfg) : Instr → Cmd Unit
  | .encode => encodeBody c
  | .decode => decodeBody c
  | .expPlain => expPlainBody c
  | .expCrt => expCrtBody c
  | .encrypt => encryptBody c
  | .decrypt => decryptBody c

theorem runOn_eq (c : Cfg) (i : Instr) (s : State) : runOn c i s = issue c (bodyOf c i) (namedRegions c i s.regs) s := by
  cases i <;> rfl

/-- The error kinds a command raises by rule, beside GlitchError (R241). -/
def ownKinds (col : Bool) : Instr → List Kind
  | .encode => encodeKinds
  | .decode => decodeKinds col
  | .expPlain => wrapKinds
  | .expCrt => wrapKinds
  | .encrypt => encodeKinds ++ wrapKinds
  | .decrypt => decodeKinds col ++ wrapKinds

/-- What a command's front part ends with. -/
abbrev FrontType : Instr → Type
  | .encode => Nat
  | .decode => Bytes
  | .expPlain => Unit
  | .expCrt => Unit
  | .encrypt => Unit
  | .decrypt => Bytes

/-- The shape of a command's body. -/
def shapeOf (c : Cfg) (col : Bool) : (i : Instr) → Shape c (ownKinds col i) col (bodyOf c i) (FrontType i)
  | .encode => encodeShape c col
  | .decode => decodeShape c col
  | .expPlain => expShape c col .plain
  | .expCrt => expShape c col .crt
  | .encrypt => encryptShape c col
  | .decrypt => decryptShape c col

/-- Where a command writes (R64). -/
def targetOf (r : Regs) : Instr → Addr
  | .encode => r.out
  | .decode => r.out
  | .expPlain => r.opRes
  | .expCrt => r.opRes
  | .encrypt => r.out
  | .decrypt => r.out

theorem shapeOf_target (col : Bool) (r : Regs) : (shapeOf c col i).target r = targetOf r i := by cases i <;> rfl

/-- Whether a command writes OUT_LEN (R25). -/
def writesLen : Instr → Bool
  | .encode => false
  | .decode => true
  | .expPlain => false
  | .expCrt => false
  | .encrypt => false
  | .decrypt => true

theorem shapeOf_len (col : Bool) : (shapeOf c col i).len = writesLen i := by cases i <;> rfl

/-! ### Acceptance -/

/-- The state a command starts from, without the host's side. -/
def State.begun (c : Cfg) (s : State) : State := (s.accept c {}).alone

@[simp] theorem State.begun_fields (c : Cfg) (s : State) :
    (s.begun c).regs = s.regs ∧ (s.begun c).collapse = s.collapse ∧ (s.begun c).code = 0x01 ∧
    (s.begun c).codeN = 0xFE ∧ (s.begun c).extStatus = 0 ∧ (s.begun c).busy = true ∧
    (s.begun c).alarm = s.alarm ∧ (s.begun c).engRst = s.engRst ∧ (s.begun c).st = 0x01 ∧
    (s.begun c).stN = 0xFE ∧ (s.begun c).flags = {} ∧ (s.begun c).work = Work.zero c ∧
    (s.begun c).ph = .dispatch ∧ (s.begun c).hashCalls = 0 ∧ (s.begun c).mem = s.mem ∧
    (s.begun c).commands = s.commands + 1 ∧ (s.begun c).evals = 0 ∧ (s.begun c).acts = [.phase .dispatch] ∧
    (s.begun c).script = s.script ∧ (s.begun c).live = [] ∧ (s.begun c).log = {} := by
  and_intros <;> rfl

/-- The state a command starts from. -/
def State.taken (c : Cfg) (i : Instr) (s : State) : State := s.accept c (namedRegions c i s.regs)

/-- The state an accepted command ends in, before what the host did to data memory meanwhile is joined to it. -/
def ranOn (c : Cfg) (i : Instr) (s : State) : State := runBody c (bodyOf c i) (s.taken c i)

/-- The state an accepted command ends in with no host at all. -/
def ranAlone (c : Cfg) (i : Instr) (s : State) : State := runBody c (bodyOf c i) (s.begun c)

theorem runOn_ready (h : s.Ready) : runOn c i s = (ranOn c i s).conclude (namedRegions c i s.regs) s.live := by
  rw [runOn_eq, issue, if_neg (by simp [h.1]), if_neg (by simp [h.2.1])]; rfl

/-- The phases an accepted command has entered, in the order it entered them. -/
theorem phasesOf_actions (s : State) : phasesOf (actions s) = s.trail.reverse := by
  rw [actions, phasesOf, List.filterMap_reverse]; rfl

/-- Everything the host can do while a command runs: it sees values, in one slot for each phase but the last two, and does
to data memory what is joined to it at the end; or a reset abandons the command (R282, R290). -/
theorem ranOn_hosted (hm : noReset s.live = false → s.mem.wf = true) :
    (∃ ps l r, Serves ps s.live (s.taken c i).log l r ∧
      (∃ p, phasesOf (actions (ranAlone c i s)) = ps ++ [.exitStatus, p]) ∧ ranOn c i s = (ranAlone c i s).served l r) ∨
    (∃ k, k + 2 ≤ (phasesOf (actions (ranAlone c i s))).length ∧
      ResetIn k s.live (s.taken c i).log (ranOn c i s).live (ranOn c i s).log ∧
      Gone c (s.taken c i) (ranOn c i s) ∧
      Torn ((shapeOf c s.collapse i).phases.length + 1) k s (ranAlone c i s) (ranOn c i s)) := by
  rw [phasesOf_actions]
  rcases (shapeOf c s.collapse i).hosted (s := s.taken c i) rfl rfl rfl hm with
    ⟨ps, l, r, h, ⟨p, hp⟩, e⟩ | ⟨k, hk, hr, g, ht⟩
  · refine .inl ⟨ps, l, r, h, ⟨p, ?_⟩, e⟩
    rw [show (ranAlone c i s).trail = _ from hp]; simp
  · exact .inr ⟨k, by rw [List.length_reverse]; exact hk, hr, g, ht.before, ht.after, ht.mixed⟩

/-- The phase after those of the front part is the one that emits (R219, R220). -/
theorem shapeOf_emits (c : Cfg) (col : Bool) (i : Instr) : (shapeOf c col i).phases.length + 1 = phasesBeforeEmit i := by
  cases i <;> rfl

/-- A command that is not disturbed ends as it does alone. -/
theorem ranOn_undisturbed (h : s.Undisturbed) :
    ∃ l r, noReset l = true ∧ r.posted = [] ∧ ranOn c i s = (ranAlone c i s).served l r ∧
      r.awaited = s.log.awaited ++ (namedRegions c i s.regs).outputs := by
  rcases ranOn_hosted (c := c) (i := i) (fun hn => by rw [h.2.1] at hn; cases hn) with
    ⟨ps, l, r, hn, -, e⟩ | ⟨k, -, hn, -⟩
  · obtain ⟨made, hl, -, hp, -, ha, -⟩ := id hn
    refine ⟨l, r, hn.noReset h.2.1, ?_, e, ha⟩
    have hq := h.2.2
    rw [hl, memAccesses_append] at hq
    exact hp.trans (List.append_eq_nil_iff.mp hq).1
  · have := hn.noReset; rw [h.2.1] at this; cases this

theorem runOn_undisturbed (h : s.Undisturbed) : runOn c i s = .next (ranOn c i s) := by
  obtain ⟨l, r, -, hp, e, -⟩ := ranOn_undisturbed (c := c) (i := i) h
  rw [runOn_ready h.1]
  exact State.conclude_self (by rw [e]; exact hp) _

theorem undisturbed_alone (h : s.Ready) : s.alone.Undisturbed := ⟨h, rfl, rfl⟩

/-! ### The two ways a command goes -/

/-- A command with nothing of the host to come: it emits and leaves, or it raises and leaves. -/
theorem ranOn_cases (h : s.Ready) :
    (∃ a u, (shapeOf c s.collapse i).front (s.begun c) = .ok a u ∧ Framed Action.isQuiet (s.begun c) u ∧ u.alarm = false ∧
      ranAlone c i s = (u.emission (shapeOf c s.collapse i).phase ((shapeOf c s.collapse i).prepare a)
        (shapeOf c s.collapse i).target ((shapeOf c s.collapse i).value a) (shapeOf c s.collapse i).len).left c .success 0) ∨
    (∃ k info u, (shapeOf c s.collapse i).front (s.begun c) = .error (.raised k info) u ∧
      Framed Action.isQuiet (s.begun c) u ∧
      ((k = .glitchError ∧ info = 0 ∧ u.alarm = true) ∨
        (k ∈ ownKinds s.collapse i ∧ k ≠ .glitchError ∧ (info = 0 ∨ k.fromProvider = true) ∧ u.alarm = false)) ∧
      ranAlone c i s = u.left c k info) := by
  rw [ranAlone]
  have ha : (s.begun c).alarm = false := h.2.1
  rcases (shapeOf c s.collapse i).run (s := s.begun c) rfl rfl rfl with
    ⟨a, u, e, -, fr, al, hx⟩ | ⟨k, info, u, e, -, fr, hk, hx⟩
  · exact .inl ⟨a, u, e, fr, al.trans ha, hx⟩
  · rw [ha] at hk
    exact .inr ⟨k, info, u, e, fr, hk, hx⟩

end Sys2Proof.Machine
end

