-- ==== Sys2Proof/Laws/Encode.lean ====
section
/-! SUPPORT. EncodeCore on the fault-free machine with nothing of the host to come (R120 to R134). -/

namespace Sys2Proof.Machine

variable {c : Cfg} {s : State}

/-! ### Lengths (R8, R9) -/

theorem wf_iff : c.wf = true ↔ c.K % 2 = 0 ∧ 4 ≤ c.K ∧ c.K < 2 ^ 31 ∧ 1 ≤ c.lenE ∧
    ∀ e ∈ c.hashTable, 1 ≤ e.2.hashLen ∧ 2 * e.2.hashLen + 2 ≤ c.K := by
  simp [Cfg.wf, Cfg.descriptorOk, List.all_eq_true, and_assoc]

theorem lookup_mem {sel : Word} {d : HashDescriptor} {l : List (Word × HashDescriptor)}
    (h : l.lookup sel = some d) : (sel, d) ∈ l := by
  induction l with
  | nil => simp at h
  | cons e l ih =>
    obtain ⟨k, v⟩ := e
    rw [List.lookup_cons] at h
    split at h
    · rename_i hk
      rw [beq_iff_eq] at hk
      subst hk
      cases h
      simp
    · exact List.mem_cons_of_mem _ (ih h)

/-- R9: what well-formedness says of a resolved descriptor. -/
theorem wf_lookup (hw : c.wf = true) {sel : Word} {d : HashDescriptor} (h : c.lookup sel = some d) :
    1 ≤ d.hashLen ∧ 2 * d.hashLen + 2 ≤ c.K := (wf_iff.mp hw).2.2.2.2 _ (lookup_mem h)

/-- R122, R134: the bound derived from the reference hash is `K - 2h - 2`, whatever the reference. -/
theorem actualMaxMsgLen_eq {h : Nat} (hk : 2 * h + 2 ≤ c.K) :
    actualMaxMsgLen c h = (maxMessageLen c h : Int) := by
  simp only [actualMaxMsgLen, maxMessageLen]
  split <;> omega

theorem inLen_le_iff {h n : Nat} (hk : 2 * h + 2 ≤ c.K) :
    ((n : Int) ≤ actualMaxMsgLen c h) ↔ n ≤ maxMessageLen c h := by
  rw [actualMaxMsgLen_eq hk]; omega

/-- R122: a message fits the bound of its selector. -/
theorem messageFits_iff {h : Nat} {r : Regs} (hk : 2 * h + 2 ≤ c.K) :
    messageFits c h r = true ↔ r.inLen.toNat ≤ maxMessageLen c h := by
  rw [messageFits, decide_eq_true_eq]
  exact inLen_le_iff hk

/-! ### Checks -/

/-- The state after the checks of step 1 and 2. -/
def State.checked (s : State) (p : Phase) (e : Nat) : State := s.ran p s.work s.flags e 0 [.phase p]

theorem encodeChecks_badParams (hl : s.live = []) (hff : FaultFree c s.commands)
    (hp : encodeParamsOk c s.regs = false) :
    encodeChecks c s = .error (.raised .invalidParam 0) (s.checked .encCheck 1) := by
  rw [encodeChecks, bind_ok (phase_run _ hl), get_bind_run]
  have := check_faultFree (c := c) (s := s.setPhase .encCheck) .param (encodeParamsOk c (s.setPhase .encCheck).regs)
    .invalidParam 0 (by simpa using hff)
  rw [if_neg (by simpa using hp)] at this
  rw [bind_error this]
  rfl

theorem resolve_run {sel : Word} {d : HashDescriptor} (h : c.lookup sel = some d) : resolve c sel s = .ok d s := by
  rw [resolve, Cfg.descriptor, h]; rfl

theorem encodeChecks_run (hw : c.wf = true) (hl : s.live = []) (hff : FaultFree c s.commands)
    (hp : encodeParamsOk c s.regs = true) {d : HashDescriptor} (hd : c.lookup s.regs.hashSel = some d) :
    encodeChecks c s = if s.regs.inLen.toNat ≤ maxMessageLen c d.hashLen then .ok d.hashLen (s.checked .encCheck 2)
      else .error (.raised .invalidMessageLength 0) (s.checked .encCheck 2) := by
  rw [encodeChecks, bind_ok (phase_run _ hl), get_bind_run]
  have h1 := check_faultFree (c := c) (s := s.setPhase .encCheck) .param (encodeParamsOk c (s.setPhase .encCheck).regs)
    .invalidParam 0 (by simpa using hff)
  rw [if_pos (by simpa using hp)] at h1
  rw [bind_ok h1, bind_ok (resolve_run (by simpa using hd))]
  have h2 := check_faultFree (c := c) (s := (s.setPhase .encCheck).bumpEvals) .encLen
    (messageFits c d.hashLen (s.setPhase .encCheck).regs) .invalidMessageLength 0 (by simpa using hff)
  have hiff := messageFits_iff (r := s.regs) (wf_lookup hw hd).2
  by_cases hle : s.regs.inLen.toNat ≤ maxMessageLen c d.hashLen
  · rw [if_pos (by simpa using hiff.mpr hle)] at h2
    rw [bind_ok h2, if_pos hle]
    rfl
  · rw [if_neg (by simpa using fun h => hle (hiff.mp h))] at h2
    rw [bind_error h2, if_neg hle]
    rfl

theorem labelOk_bound {r : Regs} (h : labelOk r = true) : r.label.toNat + r.labelLen.toNat ≤ 2 ^ 64 := by
  simp only [labelOk, Bool.or_eq_true, beq_iff_eq] at h
  rcases h with h | h
  · rw [h]
    have := r.label.isLt
    simp; omega
  · exact regionOk_bound h

theorem encodeParamsOk_iff {r : Regs} : encodeParamsOk c r = true ↔
    (c.lookup r.hashSel).isSome = true ∧ regionOk r.inp r.inLen.toNat = true ∧ regionOk r.out c.K = true ∧
      labelOk r = true := by
  simp [encodeParamsOk, and_assoc]

/-- EncodeCore on bad parameters (R121). -/
theorem encodeCore_badParams (hl : s.live = []) (hff : FaultFree c s.commands)
    (hp : encodeParamsOk c s.regs = false) : ∃ u, encodeCore c s = .error (.raised .invalidParam 0) u ∧
      u.acts = .phase .encCheck :: s.acts :=
  ⟨_, by rw [encodeCore, bind_error (encodeChecks_badParams hl hff hp)], rfl⟩

/-- EncodeCore on a message that is too long (R122). -/
theorem encodeCore_tooLong (hw : c.wf = true) (hl : s.live = []) (hff : FaultFree c s.commands)
    (hp : encodeParamsOk c s.regs = true) {d : HashDescriptor} (hd : c.lookup s.regs.hashSel = some d)
    (hlong : maxMessageLen c d.hashLen < s.regs.inLen.toNat) :
    ∃ u, encodeCore c s = .error (.raised .invalidMessageLength 0) u ∧ u.acts = .phase .encCheck :: s.acts :=
  ⟨_, by rw [encodeCore, bind_error ((encodeChecks_run hw hl hff hp hd).trans (if_neg (by omega)))], rfl⟩

/-! ### Steps -/

/-- The reads of ENCODE. -/
def encodeReads (r : Regs) : List Action := readActs [(r.inp, r.inLen.toNat), (r.label, r.labelLen.toNat)]

theorem encodeLoad_run (hin : s.regs.inp.toNat + s.regs.inLen.toNat ≤ 2 ^ 64)
    (hlab : s.regs.label.toNat + s.regs.labelLen.toNat ≤ 2 ^ 64) :
    encodeLoad c s = .ok (labelBytes s)
      (s.ran s.ph { s.work with msg := put s.work.msg 0 (messageBytes s) } s.flags 0 0 (encodeReads s.regs).reverse) := by
  rw [encodeLoad, get_bind_run, bind_ok (memRead_acted hin), modify_bind_run]
  rw [memRead_acted hlab]
  simp only [State.setWork_fields, State.acted_mem]
  congr 1
  have : encodeReads s.regs = readActs [(s.regs.inp, s.regs.inLen.toNat)] ++
      readActs [(s.regs.label, s.regs.labelLen.toNat)] := by rw [← readActs_append]; rfl
  simp [State.acted, State.setWork, State.ran, this, messageBytes]

theorem encodeLabelHash_run (label : Bytes) (hl : s.live = []) (hff : FaultFree c s.commands) :
    encodeLabelHash c label s =
      if c.hashFail s.commands s.hashCalls = 0 then
        .ok () (s.ran .encLhash { s.work with db := put s.work.db 0 (hashOf c s.regs.hashSel label) } s.flags 1 1
          [.digest c.hashInstance s.regs.hashSel label.length, .phase .encLhash])
      else .error (.raised .hashFailure (c.hashFail s.commands s.hashCalls))
        (s.ran .encLhash s.work s.flags 1 1 [.digest c.hashInstance s.regs.hashSel label.length, .phase .encLhash]) := by
  rw [encodeLabelHash, bind_ok (phase_run _ hl), get_bind_run]
  have := digest_faultFree (c := c) (s := s.setPhase .encLhash) (s.setPhase .encLhash).regs.hashSel label (by simpa using hff)
  simp only [State.setPhase_fields] at this
  by_cases h0 : c.hashFail s.commands s.hashCalls = 0
  · rw [if_pos h0] at this ⊢
    simp only [State.setPhase_fields]
    rw [bind_ok this]
    rfl
  · rw [if_neg h0] at this ⊢
    simp only [State.setPhase_fields]
    rw [bind_error this]
    rfl

/-- The data block built from a DB buffer that starts with the label hash. -/
def builtDb (c : Cfg) (h m : Nat) (db msg : Bytes) : Bytes :=
  filledDb c h m { Work.zero c with db := db, msg := msg }

theorem encodeBuild_run (h : Nat) (hl : s.live = []) (hf : messageFits c h s.regs = true) :
    encodeBuild c h s = .ok ()
      (s.ran .encBuild { s.work with db := builtDb c h s.regs.inLen.toNat s.work.db s.work.msg } s.flags 0 0
        [.phase .encBuild]) := by
  rw [encodeBuild, bind_ok (phase_run _ hl), modify_run, State.setPhase_fields .. |>.1, if_pos hf]; rfl

theorem encodeSeed_run (h : Nat) (hl : s.live = []) (hff : FaultFree c s.commands) :
    encodeSeed c h s =
      if (c.entropy s.commands h).1 = 0 then
        .ok () (s.ran .encSeed { s.work with seed := put s.work.seed 0 (c.entropy s.commands h).2 } s.flags 1 0
          [.draw h, .phase .encSeed])
      else .error (.raised .entropyFailure (c.entropy s.commands h).1)
        (s.ran .encSeed s.work s.flags 1 0 [.draw h, .phase .encSeed]) := by
  rw [encodeSeed, bind_ok (phase_run _ hl)]
  have := getRandom_faultFree (c := c) (s := s.setPhase .encSeed) h (by simpa using hff)
  simp only [State.setPhase_fields] at this
  by_cases h0 : (c.entropy s.commands h).1 = 0
  · rw [if_pos h0] at this ⊢
    rw [bind_ok this]
    rfl
  · rw [if_neg h0] at this ⊢
    rw [bind_error this]
    rfl

theorem maskDb_run (n : Nat) : maskDb n s = .ok () (s.ran s.ph
    { s.work with db := put s.work.db 0 (xorBytes (s.work.db.take n) (s.work.mask.take n)) } s.flags 0 0 []) := rfl

theorem maskSeed_run (n : Nat) : maskSeed n s = .ok () (s.ran s.ph
    { s.work with seed := put s.work.seed 0 (xorBytes (s.work.seed.take n) (s.work.mask.take n)) } s.flags 0 0 []) := rfl

/-- The buffers after `MASK <- MGF(seed); DB <- DB ^ MASK`. -/
def Work.dbMasked (c : Cfg) (w : Work) (sel : Word) (h : Nat) : Work :=
  let mask := put w.mask 0 (mgfMask c sel h (w.seed.take h) (dbLen c h))
  { w with mask := mask, db := put w.db 0 (xorBytes (w.db.take (dbLen c h)) (mask.take (dbLen c h))) }

/-- The buffers after `MASK <- MGF(db); SEED <- SEED ^ MASK`. -/
def Work.seedMasked (c : Cfg) (w : Work) (sel : Word) (h : Nat) : Work :=
  let mask := put w.mask 0 (mgfMask c sel h (w.db.take (dbLen c h)) h)
  { w with mask := mask, seed := put w.seed 0 (xorBytes (w.seed.take h) (mask.take h)) }

/-- A phase that masks: the phase step, MGF, the exclusive-or. Both orders of use have it (R127, R128, R146). -/
theorem dbMaskPhase_run (p : Phase) {h : Nat} (hh : 1 ≤ h) (hd : ∀ x, (hashOf c s.regs.hashSel x).length = h)
    (hl : s.live = []) (hff : FaultFree c s.commands) :
    let n := ceilDiv (dbLen c h) h
    let a := mgfAction c s.regs.hashSel (s.work.seed.take h)
    let m : Cmd Unit := (do
      phase c p
      let s ← get
      mgf c s.regs.hashSel (s.work.seed.take h) (dbLen c h)
      maskDb (dbLen c h))
    ((∀ j, j < n → c.hashFail s.commands (s.hashCalls + j) = 0) →
      m s = .ok () (s.ran p (s.work.dbMasked c s.regs.hashSel h) s.flags n n (List.replicate n a ++ [.phase p]))) ∧
    (∀ j, j < n → (∀ i, i < j → c.hashFail s.commands (s.hashCalls + i) = 0) →
      c.hashFail s.commands (s.hashCalls + j) ≠ 0 →
      m s = .error (.raised .hashFailure (c.hashFail s.commands (s.hashCalls + j)))
        (s.ran p s.work s.flags (j + 1) (j + 1) (List.replicate (j + 1) a ++ [.phase p]))) := by
  refine ⟨fun hs => ?_, fun j hj hs hf => ?_⟩
  · rw [bind_ok (phase_run _ hl), get_bind_run]
    have := mgf_run (c := c) (s := s.setPhase p) (sel := s.regs.hashSel) (seed := s.work.seed.take h) (n := dbLen c h)
      hh hd (by simpa using hff) (by simpa using hs)
    simp only [State.setPhase_fields]
    rw [bind_ok this, maskDb_run]
    simp [State.ran, State.setPhase, Work.dbMasked]
  · rw [bind_ok (phase_run _ hl), get_bind_run]
    have := mgf_fail (c := c) (s := s.setPhase p) (sel := s.regs.hashSel) (seed := s.work.seed.take h) (n := dbLen c h)
      hh hd (by simpa using hff) hj (by simpa using hs) (by simpa using hf)
    simp only [State.setPhase_fields]
    rw [bind_error this]
    simp [State.ran, State.setPhase]

theorem seedMaskPhase_run (p : Phase) {h : Nat} (hh : 1 ≤ h) (hd : ∀ x, (hashOf c s.regs.hashSel x).length = h)
    (hl : s.live = []) (hff : FaultFree c s.commands) :
    let n := ceilDiv h h
    let a := mgfAction c s.regs.hashSel (s.work.db.take (dbLen c h))
    let m : Cmd Unit := (do
      phase c p
      let s ← get
      mgf c s.regs.hashSel (s.work.db.take (dbLen c h)) h
      maskSeed h)
    ((∀ j, j < n → c.hashFail s.commands (s.hashCalls + j) = 0) →
      m s = .ok () (s.ran p (s.work.seedMasked c s.regs.hashSel h) s.flags n n (List.replicate n a ++ [.phase p]))) ∧
    (∀ j, j < n → (∀ i, i < j → c.hashFail s.commands (s.hashCalls + i) = 0) →
      c.hashFail s.commands (s.hashCalls + j) ≠ 0 →
      m s = .error (.raised .hashFailure (c.hashFail s.commands (s.hashCalls + j)))
        (s.ran p s.work s.flags (j + 1) (j + 1) (List.replicate (j + 1) a ++ [.phase p]))) := by
  refine ⟨fun hs => ?_, fun j hj hs hf => ?_⟩
  · rw [bind_ok (phase_run _ hl), get_bind_run]
    have := mgf_run (c := c) (s := s.setPhase p) (sel := s.regs.hashSel) (seed := s.work.db.take (dbLen c h)) (n := h)
      hh hd (by simpa using hff) (by simpa using hs)
    simp only [State.setPhase_fields]
    rw [bind_ok this, maskSeed_run]
    simp [State.ran, State.setPhase, Work.seedMasked]
  · rw [bind_ok (phase_run _ hl), get_bind_run]
    have := mgf_fail (c := c) (s := s.setPhase p) (sel := s.regs.hashSel) (seed := s.work.db.take (dbLen c h)) (n := h)
      hh hd (by simpa using hff) hj (by simpa using hs) (by simpa using hf)
    simp only [State.setPhase_fields]
    rw [bind_error this]
    simp [State.ran, State.setPhase]

section
variable {h : Nat}

theorem ceilDiv_self {h : Nat} (hh : 1 ≤ h) : ceilDiv h h = 1 := by
  unfold ceilDiv
  exact Nat.div_eq_of_lt_le (by omega) (by omega)

theorem encodeDbMask_ok (hh : 1 ≤ h) (hd : ∀ x, (hashOf c s.regs.hashSel x).length = h) (hl : s.live = [])
    (hff : FaultFree c s.commands)
    (hs : ∀ j, j < ceilDiv (dbLen c h) h → c.hashFail s.commands (s.hashCalls + j) = 0) :
    encodeDbMask c h s = .ok () (s.ran .encDbMask (s.work.dbMasked c s.regs.hashSel h) s.flags
      (ceilDiv (dbLen c h) h) (ceilDiv (dbLen c h) h)
      (List.replicate (ceilDiv (dbLen c h) h) (mgfAction c s.regs.hashSel (s.work.seed.take h)) ++ [.phase .encDbMask])) :=
  (dbMaskPhase_run .encDbMask hh hd hl hff).1 hs

theorem encodeDbMask_fail (hh : 1 ≤ h) (hd : ∀ x, (hashOf c s.regs.hashSel x).length = h) (hl : s.live = [])
    (hff : FaultFree c s.commands) {j : Nat} (hj : j < ceilDiv (dbLen c h) h)
    (hs : ∀ i, i < j → c.hashFail s.commands (s.hashCalls + i) = 0) (hf : c.hashFail s.commands (s.hashCalls + j) ≠ 0) :
    ∃ u, encodeDbMask c h s = .error (.raised .hashFailure (c.hashFail s.commands (s.hashCalls + j))) u :=
  ⟨_, (dbMaskPhase_run .encDbMask hh hd hl hff).2 j hj hs hf⟩

theorem encodeSeedMask_ok (hh : 1 ≤ h) (hd : ∀ x, (hashOf c s.regs.hashSel x).length = h) (hl : s.live = [])
    (hff : FaultFree c s.commands) (hs : c.hashFail s.commands s.hashCalls = 0) :
    encodeSeedMask c h s = .ok () (s.ran .encSeedMask (s.work.seedMasked c s.regs.hashSel h) s.flags 1 1
      [mgfAction c s.regs.hashSel (s.work.db.take (dbLen c h)), .phase .encSeedMask]) := by
  have := (seedMaskPhase_run .encSeedMask hh hd hl hff).1
  simp only [ceilDiv_self hh] at this
  exact this fun j hj => by rw [show j = 0 by omega]; simpa using hs

theorem encodeSeedMask_fail (hh : 1 ≤ h) (hd : ∀ x, (hashOf c s.regs.hashSel x).length = h) (hl : s.live = [])
    (hff : FaultFree c s.commands) (hf : c.hashFail s.commands s.hashCalls ≠ 0) :
    ∃ u, encodeSeedMask c h s = .error (.raised .hashFailure (c.hashFail s.commands s.hashCalls)) u :=
  ⟨_, (seedMaskPhase_run .encSeedMask hh hd hl hff).2 0 (by rw [ceilDiv_self hh]; omega) (fun i hi => by omega) hf⟩

end

/-! ### The buffers -/

/-- The buffers after step 5 of EncodeCore, from all-zero ones. -/
def builtWork (c : Cfg) (sel : Word) (h : Nat) (label m seed : Bytes) : Work :=
  { Work.zero c with
    msg := put (Work.zero c).msg 0 m
    db := builtDb c h m.length (put (Work.zero c).db 0 (hashOf c sel label)) (put (Work.zero c).msg 0 m)
    seed := put (Work.zero c).seed 0 seed }

/-- The buffers after step 7 of EncodeCore. -/
def encodedWork (c : Cfg) (sel : Word) (h : Nat) (label m seed : Bytes) : Work :=
  ((builtWork c sel h label m seed).dbMasked c sel h).seedMasked c sel h

section
variable {sel : Word} {h : Nat} {label m seed : Bytes}

theorem length_dataBlock (hk : 2 * h + 2 ≤ c.K) (hd : ∀ x, (hashOf c sel x).length = h)
    (hm : m.length ≤ maxMessageLen c h) : (dataBlock c sel h label m).length = dbLen c h := by
  simp only [dataBlock, List.length_append, hd, length_zeros, List.length_singleton]
  unfold maxMessageLen at *
  unfold dbLen
  omega

theorem builtDb_take (hk : 2 * h + 2 ≤ c.K) (hh : 1 ≤ h) (hd : ∀ x, (hashOf c sel x).length = h)
    (hm : m.length ≤ maxMessageLen c h) :
    (builtWork c sel h label m seed).db.take (dbLen c h) = dataBlock c sel h label m := by
  have hm' : m.length ≤ c.K - 2 * h - 2 := hm
  have hz := Work.zero_sized c
  have e0 : (put (Work.zero c).db 0 (hashOf c sel label)).length = c.K - 2 := (length_put _ _ _).trans hz.db
  have e1 : (put (put (Work.zero c).db 0 (hashOf c sel label)) h (zeros (maxMessageLen c h - m.length))).length = c.K - 2 :=
    (length_put _ _ _).trans e0
  have e2 : (put (put (put (Work.zero c).db 0 (hashOf c sel label)) h (zeros (maxMessageLen c h - m.length)))
      (dbLen c h - m.length - 1) [0x01]).length = c.K - 2 := (length_put _ _ _).trans e1
  have em : (put (Work.zero c).msg 0 m).take m.length = m := take_put_zero (by rw [hz.msg]; omega)
  have f0 : (put (Work.zero c).db 0 (hashOf c sel label)).take h = hashOf c sel label :=
    take_put_zero_of_length (hd label) (by rw [hz.db]; omega)
  have f1 : (put (put (Work.zero c).db 0 (hashOf c sel label)) h (zeros (maxMessageLen c h - m.length))).take
      (dbLen c h - m.length - 1) = hashOf c sel label ++ zeros (maxMessageLen c h - m.length) := by
    have := take_put_end (buf := put (Work.zero c).db 0 (hashOf c sel label)) (off := h)
      (x := zeros (maxMessageLen c h - m.length)) (by rw [e0, length_zeros]; unfold maxMessageLen; omega)
    rw [length_zeros, f0] at this
    rw [← this]
    congr 1
    unfold dbLen maxMessageLen
    omega
  have f2 : (put (put (put (Work.zero c).db 0 (hashOf c sel label)) h (zeros (maxMessageLen c h - m.length)))
      (dbLen c h - m.length - 1) [0x01]).take (dbLen c h - m.length) =
      hashOf c sel label ++ zeros (maxMessageLen c h - m.length) ++ [0x01] := by
    have := take_put_end (buf := put (put (Work.zero c).db 0 (hashOf c sel label)) h
      (zeros (maxMessageLen c h - m.length))) (off := dbLen c h - m.length - 1) (x := [0x01])
      (by rw [e1, List.length_singleton]; unfold dbLen; omega)
    rw [f1] at this
    rw [← this]
    congr 1
    simp only [List.length_singleton]
    unfold dbLen
    omega
  show (put (put (put (put (Work.zero c).db 0 (hashOf c sel label)) h (zeros (maxMessageLen c h - m.length)))
    (dbLen c h - m.length - 1) [0x01]) (dbLen c h - m.length) ((put (Work.zero c).msg 0 m).take m.length)).take
    (dbLen c h) = _
  rw [em]
  have := take_put_end (buf := put (put (put (Work.zero c).db 0 (hashOf c sel label)) h
    (zeros (maxMessageLen c h - m.length))) (dbLen c h - m.length - 1) [0x01]) (off := dbLen c h - m.length)
    (x := m) (by rw [e2]; unfold dbLen; omega)
  rw [f2] at this
  rw [dataBlock, ← this]
  congr 1
  unfold dbLen
  omega

/-- Masking keeps every buffer's capacity. -/
theorem Work.Sized.dbMasked {w : Work} (hw : w.Sized c) : (w.dbMasked c sel h).Sized c where
  em := hw.em
  db := (length_put _ _ _).trans hw.db
  seed := hw.seed
  lhash := hw.lhash
  mask := (length_put _ _ _).trans hw.mask
  msg := hw.msg
  res := hw.res

theorem Work.Sized.seedMasked {w : Work} (hw : w.Sized c) : (w.seedMasked c sel h).Sized c where
  em := hw.em
  db := hw.db
  seed := (length_put _ _ _).trans hw.seed
  lhash := hw.lhash
  mask := (length_put _ _ _).trans hw.mask
  msg := hw.msg
  res := hw.res

/-- Masking the data block in the buffers (R127). -/
theorem dbMasked_take {w : Work} (hk : 2 * h + 2 ≤ c.K) (hh : 1 ≤ h) (hd : ∀ x, (hashOf c sel x).length = h)
    (hw : w.Sized c) :
    (w.dbMasked c sel h).db.take (dbLen c h) =
      xorBytes (w.db.take (dbLen c h)) (mgfMask c sel h (w.seed.take h) (dbLen c h)) := by
  have hle : dbLen c h ≤ c.K - 2 := by unfold dbLen; omega
  have hmask : (put w.mask 0 (mgfMask c sel h (w.seed.take h) (dbLen c h))).take (dbLen c h) =
      mgfMask c sel h (w.seed.take h) (dbLen c h) :=
    take_put_zero_of_length (length_mgfMask hh hd _ _) (by rw [hw.mask]; exact hle)
  simp only [Work.dbMasked, hmask]
  refine take_put_zero_of_length ?_ (by rw [hw.db]; exact hle)
  rw [length_xorBytes, length_mgfMask hh hd, List.length_take, hw.db]
  omega

/-- Masking the seed in the buffers (R128). -/
theorem seedMasked_take {w : Work} (hk : 2 * h + 2 ≤ c.K) (hh : 1 ≤ h) (hd : ∀ x, (hashOf c sel x).length = h)
    (hw : w.Sized c) :
    (w.seedMasked c sel h).seed.take h = xorBytes (w.seed.take h) (mgfMask c sel h (w.db.take (dbLen c h)) h) := by
  have hmask : (put w.mask 0 (mgfMask c sel h (w.db.take (dbLen c h)) h)).take h =
      mgfMask c sel h (w.db.take (dbLen c h)) h :=
    take_put_zero_of_length (length_mgfMask hh hd _ _) (by rw [hw.mask]; omega)
  simp only [Work.seedMasked, hmask]
  refine take_put_zero_of_length ?_ (by rw [hw.seed]; omega)
  rw [length_xorBytes, length_mgfMask hh hd, List.length_take, hw.seed]
  omega

theorem builtWork_sized : (builtWork c sel h label m seed).Sized c where
  em := (Work.zero_sized c).em
  db := by simp [builtWork, builtDb, filledDb, (Work.zero_sized c).db]
  seed := (length_put _ _ _).trans (Work.zero_sized c).seed
  lhash := (Work.zero_sized c).lhash
  mask := (Work.zero_sized c).mask
  msg := (length_put _ _ _).trans (Work.zero_sized c).msg
  res := (Work.zero_sized c).res

theorem encodedWork_spec (hk : 2 * h + 2 ≤ c.K) (hh : 1 ≤ h) (hd : ∀ x, (hashOf c sel x).length = h)
    (hm : m.length ≤ maxMessageLen c h) (hs : seed.length = h) :
    (encodedWork c sel h label m seed).db.take (dbLen c h) = maskedDb c sel h label m seed ∧
    (encodedWork c sel h label m seed).seed.take h = maskedSeed c sel h label m seed := by
  have hb : (builtWork c sel h label m seed).Sized c := builtWork_sized
  have hseed : (builtWork c sel h label m seed).seed.take h = seed :=
    take_put_zero_of_length hs (by rw [(Work.zero_sized c).seed]; omega)
  have d1 := dbMasked_take hk hh hd hb
  rw [builtDb_take hk hh hd hm, hseed] at d1
  refine ⟨d1, ?_⟩
  rw [encodedWork, seedMasked_take hk hh hd hb.dbMasked, d1]
  show xorBytes ((builtWork c sel h label m seed).seed.take h) _ = _
  rw [hseed]
  rfl

theorem length_maskedDb (hk : 2 * h + 2 ≤ c.K) (hh : 1 ≤ h) (hd : ∀ x, (hashOf c sel x).length = h)
    (hm : m.length ≤ maxMessageLen c h) : (maskedDb c sel h label m seed).length = dbLen c h := by
  rw [maskedDb, length_xorBytes, length_dataBlock hk hd hm, length_mgfMask hh hd]; omega

theorem length_maskedSeed (hh : 1 ≤ h) (hd : ∀ x, (hashOf c sel x).length = h) (hs : seed.length = h) :
    (maskedSeed c sel h label m seed).length = h := by
  rw [maskedSeed, length_xorBytes, length_mgfMask hh hd]; omega

theorem length_paddedBlock (hk : 2 * h + 2 ≤ c.K) (hh : 1 ≤ h) (hd : ∀ x, (hashOf c sel x).length = h)
    (hm : m.length ≤ maxMessageLen c h) (hs : seed.length = h) :
    (paddedBlock c sel h label m seed).length = c.K := by
  simp only [paddedBlock, List.length_append, List.length_singleton, length_maskedSeed hh hd hs, length_maskedDb hk hh hd hm]
  unfold dbLen
  omega

end

/-! ### EncodeCore -/

/-- The number of Digest calls of an encode (R103, R106). -/
def encodeDigests (c : Cfg) (h : Nat) : Nat := 2 + ceilDiv (dbLen c h) h

/-- The actions of EncodeCore on its success path, newest first (R219, R70). -/
def encodeActs (c : Cfg) (r : Regs) (h : Nat) : List Action :=
  [.digest c.hashInstance r.hashSel (dbLen c h + 4), .phase .encSeedMask] ++
  List.replicate (ceilDiv (dbLen c h) h) (.digest c.hashInstance r.hashSel (h + 4)) ++ [.phase .encDbMask] ++
  [.draw h, .phase .encSeed, .phase .encBuild, .digest c.hashInstance r.hashSel r.labelLen.toNat, .phase .encLhash] ++
  (encodeReads r).reverse ++ [.phase .encCheck]

/-- What EncodeCore needs to reach its steps (R121, R122). -/
structure EncodeReady (c : Cfg) (s : State) (d : HashDescriptor) : Prop where
  wf : c.wf = true
  live : s.live = []
  faultFree : FaultFree c s.commands
  work : s.work = Work.zero c
  params : encodeParamsOk c s.regs = true
  lookup : c.lookup s.regs.hashSel = some d
  fits : s.regs.inLen.toNat ≤ maxMessageLen c d.hashLen
  hash : ∀ x, (hashOf c s.regs.hashSel x).length = d.hashLen
  draw : ∀ n, (c.entropy s.commands n).2.length = n

section
variable {d : HashDescriptor}

theorem EncodeReady.messageFits (hr : EncodeReady c s d) : messageFits c d.hashLen s.regs = true :=
  (messageFits_iff (wf_lookup hr.wf hr.lookup).2).mpr hr.fits

/-- The state EncodeCore is in after step 2 and the input copy. -/
def State.loaded (s : State) : State :=
  s.ran .encCheck { s.work with msg := put s.work.msg 0 (messageBytes s) } s.flags 2 0
    ((encodeReads s.regs).reverse ++ [.phase .encCheck])

theorem encodeCore_loaded (hr : EncodeReady c s d) :
    encodeCore c s = (encodeLabelHash c (labelBytes s) >>= fun _ => encodeBuild c d.hashLen >>= fun _ =>
      encodeSeed c d.hashLen >>= fun _ => encodeDbMask c d.hashLen >>= fun _ => encodeSeedMask c d.hashLen >>= fun _ =>
      pure d.hashLen) (s.loaded) := by
  have h1 := encodeChecks_run hr.wf hr.live hr.faultFree hr.params hr.lookup
  rw [if_pos hr.fits] at h1
  obtain ⟨_, hin, _, hlab⟩ := encodeParamsOk_iff.mp hr.params
  have h2 := encodeLoad_run (c := c) (s := s.checked .encCheck 2) (regionOk_bound hin) (labelOk_bound hlab)
  rw [encodeCore, bind_ok h1, bind_ok h2]
  simp only [State.checked, State.ran_fields, State.ran_ran]
  rfl

/-- Steps 3 to 7 on the success path. -/
theorem encodeCore_run (hr : EncodeReady c s d)
    (hhash : ∀ j, j < encodeDigests c d.hashLen → c.hashFail s.commands (s.hashCalls + j) = 0)
    (hent : (c.entropy s.commands d.hashLen).1 = 0) :
    encodeCore c s = .ok d.hashLen (s.ran .encSeedMask
      (encodedWork c s.regs.hashSel d.hashLen (labelBytes s) (messageBytes s) (c.entropy s.commands d.hashLen).2) s.flags
      (2 + encodeDigests c d.hashLen + 1) (encodeDigests c d.hashLen) (encodeActs c s.regs d.hashLen)) := by
  obtain ⟨hh, hk⟩ := wf_lookup hr.wf hr.lookup
  have hl := hr.live
  have hff := hr.faultFree
  have hd := hr.hash
  have hmlen : (messageBytes s).length = s.regs.inLen.toNat := by simp [messageBytes]
  have hllen : (labelBytes s).length = s.regs.labelLen.toNat := by simp [labelBytes]
  have hj : ∀ j, j < encodeDigests c d.hashLen → c.hashFail s.commands (s.hashCalls + j) = 0 := hhash
  unfold encodeDigests at hj
  rw [encodeCore_loaded hr]
  rw [bind_ok ((encodeLabelHash_run _ (by simpa [State.loaded] using hl) (by simpa [State.loaded] using hff)).trans
    (if_pos (by simpa [State.loaded] using hj 0 (by omega))))]
  simp only [State.loaded, State.ran_fields, State.ran_ran]
  rw [bind_ok (encodeBuild_run _ (by simpa using hl) (by simpa using hr.messageFits))]
  simp only [State.ran_fields, State.ran_ran]
  rw [bind_ok ((encodeSeed_run _ (by simpa using hl) (by simpa using hff)).trans (if_pos (by simpa using hent)))]
  simp only [State.ran_fields, State.ran_ran]
  rw [bind_ok (encodeDbMask_ok hh (by simpa using hd) (by simpa using hl) (by simpa using hff) (by
    intro j hlt
    have := hj (1 + j) (by omega)
    simpa [Nat.add_assoc] using this))]
  simp only [State.ran_fields, State.ran_ran]
  rw [bind_ok (encodeSeedMask_ok hh (by simpa using hd) (by simpa using hl) (by simpa using hff) (by
    have := hj (1 + ceilDiv (dbLen c d.hashLen) d.hashLen) (by omega)
    simpa [Nat.add_assoc] using this))]
  simp only [State.ran_fields, State.ran_ran, pure_run]
  have hw : ∀ (w w' : Work) (e e' n n' : Nat) (l l' : List Action), w = w' → e = e' → n = n' → l = l' →
      (EStateM.Result.ok d.hashLen (s.ran .encSeedMask w s.flags e n l) : EStateM.Result Stop State Nat) =
        .ok d.hashLen (s.ran .encSeedMask w' s.flags e' n' l') := by
    rintro w w' e e' n n' l l' rfl rfl rfl rfl; rfl
  have hseed : ∀ x : Bytes, x.length = d.hashLen → ((put (Work.zero c).seed 0 x).take d.hashLen).length = d.hashLen := by
    intro x hx
    rw [take_put_zero_of_length hx (by rw [(Work.zero_sized c).seed]; omega), hx]
  apply hw
  · rw [hr.work, ← hmlen]
    rfl
  · unfold encodeDigests; omega
  · unfold encodeDigests; omega
  · have e1 : mgfAction c s.regs.hashSel (List.take d.hashLen (put s.work.seed 0 (c.entropy s.commands d.hashLen).2)) =
        .digest c.hashInstance s.regs.hashSel (d.hashLen + 4) := by
      rw [mgfAction, hr.work, hseed _ (hr.draw _)]
    have e2 : mgfAction c s.regs.hashSel (List.take (dbLen c d.hashLen) (Work.dbMasked c
        (builtWork c s.regs.hashSel d.hashLen (labelBytes s) (messageBytes s) (c.entropy s.commands d.hashLen).2)
        s.regs.hashSel d.hashLen).db) = .digest c.hashInstance s.regs.hashSel (dbLen c d.hashLen + 4) := by
      rw [mgfAction, List.length_take, builtWork_sized.dbMasked.db, Nat.min_eq_left (by unfold dbLen; omega)]
    have e3 : ∀ w : Work, w = builtWork c s.regs.hashSel d.hashLen (labelBytes s) (messageBytes s)
        (c.entropy s.commands d.hashLen).2 → mgfAction c s.regs.hashSel (List.take (dbLen c d.hashLen) (Work.dbMasked c w
        s.regs.hashSel d.hashLen).db) = .digest c.hashInstance s.regs.hashSel (dbLen c d.hashLen + 4) := by
      rintro w rfl; exact e2
    rw [e1, e3 _ (by rw [hr.work, ← hmlen]; rfl), hllen]
    simp [encodeActs]

/-- The first failing Digest call of an encode ends it (R100, R124, R127, R128). The entropy draw is made after the
first call. -/
theorem encodeCore_hashFail (hr : EncodeReady c s d) {j : Nat} (hlt : j < encodeDigests c d.hashLen)
    (hs : ∀ i, i < j → c.hashFail s.commands (s.hashCalls + i) = 0)
    (hf : c.hashFail s.commands (s.hashCalls + j) ≠ 0)
    (hent : 0 < j → (c.entropy s.commands d.hashLen).1 = 0) :
    ∃ u, encodeCore c s = .error (.raised .hashFailure (c.hashFail s.commands (s.hashCalls + j))) u := by
  obtain ⟨hh, hk⟩ := wf_lookup hr.wf hr.lookup
  have hl := hr.live
  have hff := hr.faultFree
  have hd := hr.hash
  rw [encodeCore_loaded hr]
  unfold encodeDigests at hlt
  by_cases h0 : j = 0
  · subst h0
    exact ⟨_, bind_error ((encodeLabelHash_run (s := s.loaded) _ (by simpa [State.loaded] using hl)
      (by simpa [State.loaded] using hff)).trans (if_neg (by simpa [State.loaded] using hf)))⟩
  · rw [bind_ok ((encodeLabelHash_run _ (by simpa [State.loaded] using hl) (by simpa [State.loaded] using hff)).trans
      (if_pos (by simpa [State.loaded] using hs 0 (by omega))))]
    simp only [State.loaded, State.ran_fields, State.ran_ran]
    rw [bind_ok (encodeBuild_run _ (by simpa using hl) (by simpa using hr.messageFits))]
    simp only [State.ran_fields, State.ran_ran]
    rw [bind_ok ((encodeSeed_run _ (by simpa using hl) (by simpa using hff)).trans
      (if_pos (by simpa using hent (by omega))))]
    simp only [State.ran_fields, State.ran_ran]
    have key : ∀ (u : State) (g : Unit → Cmd Nat), u.commands = s.commands → u.regs = s.regs → u.live = [] →
        u.hashCalls = s.hashCalls + 1 → (∀ t : State, t.commands = s.commands → t.regs = s.regs → t.live = [] →
          t.hashCalls = s.hashCalls + (1 + ceilDiv (dbLen c d.hashLen) d.hashLen) →
          j = 1 + ceilDiv (dbLen c d.hashLen) d.hashLen →
          ∃ v, g () t = .error (.raised .hashFailure (c.hashFail s.commands (s.hashCalls + j))) v) →
        ∃ v, (encodeDbMask c d.hashLen >>= g) u =
          .error (.raised .hashFailure (c.hashFail s.commands (s.hashCalls + j))) v := by
      intro u g hu1 hu2 hu3 hu4 hg
      by_cases hj : j - 1 < ceilDiv (dbLen c d.hashLen) d.hashLen
      · obtain ⟨v, e⟩ := encodeDbMask_fail (c := c) (s := u) hh (by rw [hu2]; exact hd) hu3 (by rw [hu1]; exact hff) hj
          (by intro i hi; rw [hu1, hu4]; have := hs (1 + i) (by omega); simpa [Nat.add_assoc] using this)
          (by rw [hu1, hu4]; simpa [Nat.add_assoc, show 1 + (j - 1) = j by omega] using hf)
        refine ⟨v, (bind_error e).trans ?_⟩
        rw [hu1, hu4, Nat.add_assoc, show 1 + (j - 1) = j by omega]
      · have e := encodeDbMask_ok (c := c) (s := u) hh (by rw [hu2]; exact hd) hu3 (by rw [hu1]; exact hff)
          (by intro i hi; rw [hu1, hu4]; have := hs (1 + i) (by omega); simpa [Nat.add_assoc] using this)
        rw [bind_ok e]
        exact hg _ (by simpa using hu1) (by simpa using hu2) (by simpa using hu3)
          (by simp only [State.ran_fields]; omega) (by omega)
    refine key _ _ (by simp) (by simp) (by simpa using hl) (by simp) fun t ht1 ht2 ht3 ht4 hj => ?_
    obtain ⟨v, e⟩ := encodeSeedMask_fail (c := c) (s := t) hh (by rw [ht2]; exact hd) ht3 (by rw [ht1]; exact hff)
      (by rw [ht1, ht4, ← hj]; exact hf)
    exact ⟨v, (bind_error e).trans (by rw [ht1, ht4, ← hj])⟩

/-- A failing entropy draw ends an encode (R101, R126). -/
theorem encodeCore_entropyFail (hr : EncodeReady c s d) (hs : c.hashFail s.commands s.hashCalls = 0)
    (hent : (c.entropy s.commands d.hashLen).1 ≠ 0) :
    ∃ u, encodeCore c s = .error (.raised .entropyFailure (c.entropy s.commands d.hashLen).1) u := by
  have hl := hr.live
  have hff := hr.faultFree
  rw [encodeCore_loaded hr]
  rw [bind_ok ((encodeLabelHash_run _ (by simpa [State.loaded] using hl) (by simpa [State.loaded] using hff)).trans
    (if_pos (by simpa [State.loaded] using hs)))]
  simp only [State.loaded, State.ran_fields, State.ran_ran]
  rw [bind_ok (encodeBuild_run _ (by simpa using hl) (by simpa using hr.messageFits))]
  simp only [State.ran_fields, State.ran_ran]
  exact ⟨_, bind_error ((encodeSeed_run (s := s.ran _ _ _ _ _ _) _ (by simpa using hl) (by simpa using hff)).trans
    (if_neg (by simpa using hent)))⟩

end

end Sys2Proof.Machine
end

