-- ==== Sys2Proof/Laws/Decode.lean ====
section
/-! SUPPORT. DecodeCore on the fault-free machine with nothing of the host to come (R140 to R158). -/

namespace Sys2Proof.Machine

variable {c : Cfg} {s : State} {h : Nat}

/-! ### Steps -/

theorem decodeParamsOk_iff {r : Regs} {d : HashDescriptor} (hd : c.lookup r.hashSel = some d) :
    decodeParamsOk c r = true ↔ regionOk r.inp c.K = true ∧ regionOk r.out (maxMessageLen c d.hashLen) = true ∧
      labelOk r = true := by
  simp [decodeParamsOk, hd, and_assoc]

theorem decodeChecks_badParams (hl : s.live = []) (hff : FaultFree c s.commands)
    (hp : decodeParamsOk c s.regs = false) :
    decodeChecks c s = .error (.raised .invalidParam 0) (s.checked .decCheck 1) := by
  rw [decodeChecks, bind_ok (phase_run _ hl), get_bind_run]
  have := check_faultFree (c := c) (s := s.setPhase .decCheck) .param (decodeParamsOk c (s.setPhase .decCheck).regs)
    .invalidParam 0 (by simpa using hff)
  rw [if_neg (by simpa using hp)] at this
  rw [bind_error this]
  rfl

theorem decodeChecks_run (hl : s.live = []) (hff : FaultFree c s.commands) (hp : decodeParamsOk c s.regs = true)
    {d : HashDescriptor} (hd : c.lookup s.regs.hashSel = some d) :
    decodeChecks c s = .ok d.hashLen (s.checked .decCheck 1) := by
  rw [decodeChecks, bind_ok (phase_run _ hl), get_bind_run]
  have := check_faultFree (c := c) (s := s.setPhase .decCheck) .param (decodeParamsOk c (s.setPhase .decCheck).regs)
    .invalidParam 0 (by simpa using hff)
  rw [if_pos (by simpa using hp)] at this
  rw [bind_ok this, bind_ok (resolve_run (by simpa using hd))]
  rfl

theorem loadLabel_run (hlab : s.regs.label.toNat + s.regs.labelLen.toNat ≤ 2 ^ 64) :
    loadLabel c s = .ok (labelBytes s)
      (s.ran s.ph s.work s.flags 0 0 (readActs [(s.regs.label, s.regs.labelLen.toNat)]).reverse) := by
  rw [loadLabel, get_bind_run, memRead_acted hlab]; rfl

theorem decodeLeadingByte_run (hl : s.live = []) (hff : FaultFree c s.commands) :
    decodeLeadingByte c s = if s.work.em.take 1 = [0x00] then .ok () (s.checked .decY 1)
      else .error (.raised .byteMismatchError 0) (s.checked .decY 1) := by
  rw [decodeLeadingByte, bind_ok (phase_run _ hl), get_bind_run]
  have := check_faultFree (c := c) (s := s.setPhase .decY) .decY ((s.setPhase .decY).work.em.take 1 == [0x00])
    .byteMismatchError 0 (by simpa using hff)
  rw [this]
  by_cases h0 : s.work.em.take 1 = [0x00]
  · rw [if_pos (by simpa using h0), if_pos h0]; rfl
  · rw [if_neg (by simpa using h0), if_neg h0]; rfl

theorem decodeLabelHash_run (label : Bytes) (hl : s.live = []) (hff : FaultFree c s.commands) :
    decodeLabelHash c label s =
      if c.hashFail s.commands s.hashCalls = 0 then
        .ok () (s.ran .decLhash { s.work with lhash := put s.work.lhash 0 (hashOf c s.regs.hashSel label) } s.flags 1 1
          [.digest c.hashInstance s.regs.hashSel label.length, .phase .decLhash])
      else .error (.raised .hashFailure (c.hashFail s.commands s.hashCalls))
        (s.ran .decLhash s.work s.flags 1 1 [.digest c.hashInstance s.regs.hashSel label.length, .phase .decLhash]) := by
  rw [decodeLabelHash, bind_ok (phase_run _ hl), get_bind_run]
  have := digest_faultFree (c := c) (s := s.setPhase .decLhash) (s.setPhase .decLhash).regs.hashSel label (by simpa using hff)
  simp only [State.setPhase_fields] at this
  by_cases h0 : c.hashFail s.commands s.hashCalls = 0
  · rw [if_pos h0] at this ⊢
    simp only [State.setPhase_fields]
    rw [bind_ok this]
    rfl
  · rw [if_neg h0] at this ⊢
    simp only [State.setPhase_fields]
    rw [bind_error this]
    rfl

/-- The buffers after step 4 (R145). -/
def Work.splitEm (c : Cfg) (w : Work) (h : Nat) : Work :=
  { w with seed := put w.seed 0 (slice w.em 1 (1 + h)), db := put w.db 0 (slice w.em (1 + h) c.K) }

theorem decodeSplit_run (h : Nat) :
    decodeSplit c h s = .ok () (s.ran s.ph (s.work.splitEm c h) s.flags 0 0 []) := rfl

theorem decodeSeedMask_ok (hh : 1 ≤ h) (hd : ∀ x, (hashOf c s.regs.hashSel x).length = h) (hl : s.live = [])
    (hff : FaultFree c s.commands) (hs : c.hashFail s.commands s.hashCalls = 0) :
    decodeSeedMask c h s = .ok () (s.ran .decSeedMask (s.work.seedMasked c s.regs.hashSel h) s.flags 1 1
      [mgfAction c s.regs.hashSel (s.work.db.take (dbLen c h)), .phase .decSeedMask]) := by
  have := (seedMaskPhase_run .decSeedMask hh hd hl hff).1
  simp only [ceilDiv_self hh] at this
  exact this fun j hj => by rw [show j = 0 by omega]; simpa using hs

theorem decodeSeedMask_fail (hh : 1 ≤ h) (hd : ∀ x, (hashOf c s.regs.hashSel x).length = h) (hl : s.live = [])
    (hff : FaultFree c s.commands) (hf : c.hashFail s.commands s.hashCalls ≠ 0) :
    ∃ u, decodeSeedMask c h s = .error (.raised .hashFailure (c.hashFail s.commands s.hashCalls)) u :=
  ⟨_, (seedMaskPhase_run .decSeedMask hh hd hl hff).2 0 (by rw [ceilDiv_self hh]; omega) (fun i hi => by omega) hf⟩

theorem decodeDbMask_ok (hh : 1 ≤ h) (hd : ∀ x, (hashOf c s.regs.hashSel x).length = h) (hl : s.live = [])
    (hff : FaultFree c s.commands)
    (hs : ∀ j, j < ceilDiv (dbLen c h) h → c.hashFail s.commands (s.hashCalls + j) = 0) :
    decodeDbMask c h s = .ok () (s.ran .decDbMask (s.work.dbMasked c s.regs.hashSel h) s.flags
      (ceilDiv (dbLen c h) h) (ceilDiv (dbLen c h) h)
      (List.replicate (ceilDiv (dbLen c h) h) (mgfAction c s.regs.hashSel (s.work.seed.take h)) ++ [.phase .decDbMask])) :=
  (dbMaskPhase_run .decDbMask hh hd hl hff).1 hs

theorem decodeDbMask_fail (hh : 1 ≤ h) (hd : ∀ x, (hashOf c s.regs.hashSel x).length = h) (hl : s.live = [])
    (hff : FaultFree c s.commands) {j : Nat} (hj : j < ceilDiv (dbLen c h) h)
    (hs : ∀ i, i < j → c.hashFail s.commands (s.hashCalls + i) = 0) (hf : c.hashFail s.commands (s.hashCalls + j) ≠ 0) :
    ∃ u, decodeDbMask c h s = .error (.raised .hashFailure (c.hashFail s.commands (s.hashCalls + j))) u :=
  ⟨_, (dbMaskPhase_run .decDbMask hh hd hl hff).2 j hj hs hf⟩

theorem decodeCompare_run (h : Nat) (hl : s.live = []) :
    decodeCompare c h s = .ok () (s.ran .decCmp s.work
      { s.flags with acc := compareAcc (s.work.db.take h) (s.work.lhash.take h) } 0 0 [.phase .decCmp]) := by
  rw [decodeCompare, bind_ok (phase_run _ hl)]; rfl

theorem decodeScan_run (h : Nat) (hl : s.live = []) :
    decodeScan c h s = .ok () (s.ran .decScan s.work
      { s.flags with
        found := (scanPadding h (slice s.work.db h (dbLen c h))).found
        viol := (scanPadding h (slice s.work.db h (dbLen c h))).viol
        sep := (scanPadding h (slice s.work.db h (dbLen c h))).sep } 0 0 [.phase .decScan]) := by
  rw [decodeScan, bind_ok (phase_run _ hl)]; rfl

theorem decodeLength_run (h : Nat) (hl : s.live = []) :
    decodeLength c h s = .ok () (s.ran .decLen s.work
      { s.flags with mLen := messageLength (dbLen c h) s.flags.sep } 0 0 [.phase .decLen]) := by
  rw [decodeLength, bind_ok (phase_run _ hl)]; rfl

/-- R152, R154: the kind the evaluation point reports, if any: the first failing site in step order. -/
def evalKind (c : Cfg) (h : Nat) (collapse : Bool) (f : DecFlags) : Option Kind :=
  if f.acc == 0 then
    if f.found && !f.viol then
      if decide (f.mLen ≤ maxMessageLen c h) then none else some (structuralKind collapse .invalidMessageLength)
    else some (structuralKind collapse .dbMismatchError)
  else some (structuralKind collapse .dataCompareError)

/-- The evaluation point in the fault-free machine (R152). -/
theorem decodeEval_run (h : Nat) (hl : s.live = []) (hff : FaultFree c s.commands) :
    decodeEval c h s = match evalKind c h s.collapse s.flags with
      | some k => EStateM.Result.error (.raised k 0) (s.checked .decEval 3)
      | none => EStateM.Result.ok () (s.checked .decEval 3) := by
  rw [decodeEval, bind_ok (phase_run _ hl), get_bind_run]
  rw [bind_ok (evalTwice_faultFree _ _ (by simpa using hff)), bind_ok (evalTwice_faultFree _ _ (by simpa using hff)),
    bind_ok (evalTwice_faultFree _ _ (by simpa using hff))]
  simp only [State.setPhase_fields]
  have e : ((s.setPhase .decEval).bumpEvals.bumpEvals.bumpEvals) = s.checked .decEval 3 := rfl
  rw [e]
  unfold evalKind
  generalize (s.flags.acc == 0) = x6
  generalize (s.flags.found && !s.flags.viol) = x7
  generalize decide (s.flags.mLen ≤ maxMessageLen c h) = x8
  cases x6 <;> cases x7 <;> cases x8 <;> rfl

/-! ### The way to the evaluation point -/

/-- The number of Digest calls of a decode that reaches the evaluation point (R103, R155). -/
def decodeDigests (c : Cfg) (h : Nat) : Nat := 2 + ceilDiv (dbLen c h) h

/-- The actions of DecodeCore from step 3 to step 8, newest first: they depend on lengths only (R155). -/
def decodeActs (c : Cfg) (r : Regs) (h : Nat) : List Action :=
  [.phase .decLen, .phase .decScan, .phase .decCmp] ++
  List.replicate (ceilDiv (dbLen c h) h) (.digest c.hashInstance r.hashSel (h + 4)) ++ [.phase .decDbMask] ++
  [.digest c.hashInstance r.hashSel (dbLen c h + 4), .phase .decSeedMask] ++
  [.digest c.hashInstance r.hashSel r.labelLen.toNat, .phase .decLhash, .phase .decY]

/-- The reads of the label, newest first. -/
def labelActs (r : Regs) : List Action := (readActs [(r.label, r.labelLen.toNat)]).reverse

/-- The buffers after step 5. -/
def recoveredWork (c : Cfg) (sel : Word) (h : Nat) (label : Bytes) (w : Work) : Work :=
  ((({ w with lhash := put w.lhash 0 (hashOf c sel label) } : Work).splitEm c h).seedMasked c sel h).dbMasked c sel h

/-- The flags after step 8. -/
def evalFlags (c : Cfg) (h : Nat) (w : Work) : DecFlags :=
  let f := scanPadding h (slice w.db h (dbLen c h))
  { acc := compareAcc (w.db.take h) (w.lhash.take h), found := f.found, viol := f.viol, sep := f.sep
    mLen := messageLength (dbLen c h) f.sep }

/-- What DecodeCore needs to reach step 2, and the buffers `w` it finds there (R141, R142). -/
structure DecodeReady (c : Cfg) (s : State) (d : HashDescriptor) (load : Cmd Unit) (w : Work) (la : List Action) :
    Prop where
  wf : c.wf = true
  live : s.live = []
  faultFree : FaultFree c s.commands
  params : decodeParamsOk c s.regs = true
  lookup : c.lookup s.regs.hashSel = some d
  hash : ∀ x, (hashOf c s.regs.hashSel x).length = d.hashLen
  load : load (s.checked .decCheck 1) = .ok () (s.ran .decCheck w s.flags 1 0 (la ++ [.phase .decCheck]))
  sized : w.Sized c

section
variable {d : HashDescriptor} {load : Cmd Unit} {w : Work} {la : List Action}

/-- The actions of DecodeCore before step 2, newest first. -/
def frontActs (r : Regs) (la : List Action) : List Action := labelActs r ++ la ++ [.phase .decCheck]

/-- The rest of DecodeCore from step 2 on. -/
def decodeRest (c : Cfg) (h : Nat) (label : Bytes) : Cmd Bytes := do
  decodeLeadingByte c
  decodeLabelHash c label
  decodeSplit c h
  decodeSeedMask c h
  decodeDbMask c h
  decodeCompare c h
  decodeScan c h
  decodeLength c h
  decodeEval c h
  let s ← get
  pure (slice s.work.db (s.flags.sep + 1) (dbLen c h))

theorem decodeCore_badParams (hl : s.live = []) (hff : FaultFree c s.commands)
    (hp : decodeParamsOk c s.regs = false) : ∃ u, decodeCore c load s = .error (.raised .invalidParam 0) u ∧
      u.acts = .phase .decCheck :: s.acts :=
  ⟨_, by rw [decodeCore, bind_error (decodeChecks_badParams hl hff hp)], rfl⟩

theorem decodeCore_front (hr : DecodeReady c s d load w la) :
    decodeCore c load s =
      decodeRest c d.hashLen (labelBytes s) (s.ran .decCheck w s.flags 1 0 (frontActs s.regs la)) := by
  have hlab := ((decodeParamsOk_iff hr.lookup).mp hr.params).2.2
  rw [decodeCore, bind_ok (decodeChecks_run hr.live hr.faultFree hr.params hr.lookup), bind_ok hr.load]
  rw [bind_ok (loadLabel_run (by simpa using labelOk_bound hlab))]
  simp only [State.ran_fields, State.ran_ran, Nat.add_zero]
  rw [frontActs, labelActs, List.append_assoc]
  rfl

/-- A block that does not start with 0x00 makes no Digest call (R143, R157). -/
theorem decodeCore_byteMismatch (hr : DecodeReady c s d load w la) (hy : w.em.take 1 ≠ [0x00]) :
    decodeCore c load s = .error (.raised .byteMismatchError 0)
      (s.ran .decY w s.flags 2 0 (.phase .decY :: frontActs s.regs la)) := by
  rw [decodeCore_front hr, decodeRest]
  rw [bind_error ((decodeLeadingByte_run (by simpa using hr.live) (by simpa using hr.faultFree)).trans
    (if_neg (by simpa using hy)))]
  rfl

theorem Work.Sized.splitEm (hw : w.Sized c) : (w.splitEm c h).Sized c where
  em := hw.em
  db := (length_put _ _ _).trans hw.db
  seed := (length_put _ _ _).trans hw.seed
  lhash := hw.lhash
  mask := hw.mask
  msg := hw.msg
  res := hw.res

theorem Work.Sized.putLhash (hw : w.Sized c) (x : Bytes) : ({ w with lhash := put w.lhash 0 x } : Work).Sized c where
  em := hw.em
  db := hw.db
  seed := hw.seed
  lhash := (length_put _ _ _).trans hw.lhash
  mask := hw.mask
  msg := hw.msg
  res := hw.res

theorem splitEm_spec (hh : 1 ≤ h) (hk : 2 * h + 2 ≤ c.K) (hw : w.Sized c) :
    (w.splitEm c h).seed.take h = slice w.em 1 (1 + h) ∧
    (w.splitEm c h).db.take (dbLen c h) = slice w.em (1 + h) c.K := by
  refine ⟨take_put_zero_of_length ?_ (by rw [hw.seed]; omega), take_put_zero_of_length ?_ (by rw [hw.db]; unfold dbLen; omega)⟩
  · rw [length_slice, hw.em]; omega
  · rw [length_slice, hw.em]; unfold dbLen; omega

/-- The data block that stands in DB after step 5 (R146). -/
theorem recoveredWork_spec {sel : Word} (hk : 2 * h + 2 ≤ c.K) (hh : 1 ≤ h) (hd : ∀ x, (hashOf c sel x).length = h)
    (label : Bytes) (hw : w.Sized c) :
    (recoveredWork c sel h label w).db.take (dbLen c h) = recoveredDb c sel h w.em ∧
    (recoveredWork c sel h label w).lhash.take h = hashOf c sel label := by
  have hw1 := hw.putLhash (hashOf c sel label)
  obtain ⟨s1, s2⟩ := splitEm_spec hh hk hw1
  refine ⟨?_, take_put_zero_of_length (hd label) (by rw [hw.lhash]; omega)⟩
  rw [recoveredWork, dbMasked_take hk hh hd hw1.splitEm.seedMasked, seedMasked_take hk hh hd hw1.splitEm, s1]
  show xorBytes (((({ w with lhash := put w.lhash 0 (hashOf c sel label) } : Work).splitEm c h)).db.take (dbLen c h)) _ = _
  rw [s2]
  rfl

theorem length_recoveredDb {sel : Word} {em : Bytes} (hk : 2 * h + 2 ≤ c.K) (hh : 1 ≤ h)
    (hd : ∀ x, (hashOf c sel x).length = h) (he : em.length = c.K) : (recoveredDb c sel h em).length = dbLen c h := by
  rw [recoveredDb, length_xorBytes, length_slice, he, length_mgfMask hh hd]
  unfold dbLen
  omega

/-- DecodeCore up to the evaluation point, when the block starts with 0x00 and no hash call fails. -/
theorem decodeCore_toEval (hr : DecodeReady c s d load w la) (hy : w.em.take 1 = [0x00])
    (hhash : ∀ j, j < decodeDigests c d.hashLen → c.hashFail s.commands (s.hashCalls + j) = 0) :
    decodeCore c load s = (decodeEval c d.hashLen >>= fun _ => get >>= fun s =>
      pure (slice s.work.db (s.flags.sep + 1) (dbLen c d.hashLen)))
      (s.ran .decLen (recoveredWork c s.regs.hashSel d.hashLen (labelBytes s) w)
        (evalFlags c d.hashLen (recoveredWork c s.regs.hashSel d.hashLen (labelBytes s) w))
        (2 + decodeDigests c d.hashLen) (decodeDigests c d.hashLen)
        (decodeActs c s.regs d.hashLen ++ frontActs s.regs la)) := by
  obtain ⟨hh, hk⟩ := wf_lookup hr.wf hr.lookup
  have hl := hr.live
  have hff := hr.faultFree
  have hd := hr.hash
  have hllen : (labelBytes s).length = s.regs.labelLen.toNat := by simp [labelBytes]
  have hj := hhash
  unfold decodeDigests at hj
  have hw1 := hr.sized.putLhash (hashOf c s.regs.hashSel (labelBytes s))
  obtain ⟨s1, s2⟩ := splitEm_spec hh hk hw1
  rw [decodeCore_front hr, decodeRest]
  rw [bind_ok ((decodeLeadingByte_run (by simpa using hl) (by simpa using hff)).trans (if_pos (by simpa using hy)))]
  simp only [State.checked, State.ran_fields, State.ran_ran]
  rw [bind_ok ((decodeLabelHash_run _ (by simpa using hl) (by simpa using hff)).trans
    (if_pos (by simpa using hj 0 (by omega))))]
  simp only [State.ran_fields, State.ran_ran]
  rw [bind_ok (decodeSplit_run _)]
  simp only [State.ran_fields, State.ran_ran]
  rw [bind_ok (decodeSeedMask_ok hh (by simpa using hd) (by simpa using hl) (by simpa using hff)
    (by simpa using hj 1 (by omega)))]
  simp only [State.ran_fields, State.ran_ran]
  rw [bind_ok (decodeDbMask_ok hh (by simpa using hd) (by simpa using hl) (by simpa using hff) (by
    intro j hlt
    have := hj (2 + j) (by omega)
    simpa [Nat.add_assoc] using this))]
  simp only [State.ran_fields, State.ran_ran]
  rw [bind_ok (decodeCompare_run _ (by simpa using hl))]
  simp only [State.ran_fields, State.ran_ran]
  rw [bind_ok (decodeScan_run _ (by simpa using hl))]
  simp only [State.ran_fields, State.ran_ran]
  rw [bind_ok (decodeLength_run _ (by simpa using hl))]
  simp only [State.ran_fields, State.ran_ran]
  have hw : ∀ (m : Cmd Bytes) (w w' : Work) (f f' : DecFlags) (e e' n n' : Nat) (l l' : List Action), w = w' → f = f' →
      e = e' → n = n' → l = l' → m (s.ran .decLen w f e n l) = m (s.ran .decLen w' f' e' n' l') := by
    rintro m w w' f f' e e' n n' l l' rfl rfl rfl rfl rfl; rfl
  have q1 : ∀ w2 : Work, w2.db = (({ w with lhash := put w.lhash 0 (hashOf c s.regs.hashSel (labelBytes s)) } : Work).splitEm
      c d.hashLen).db → mgfAction c s.regs.hashSel (List.take (dbLen c d.hashLen) w2.db) =
      .digest c.hashInstance s.regs.hashSel (dbLen c d.hashLen + 4) := by
    intro w2 hw2
    rw [mgfAction, hw2, s2, length_slice, hr.sized.em]
    congr 2
    unfold dbLen
    omega
  have q2 : ∀ w2 : Work, w2.Sized c → mgfAction c s.regs.hashSel (List.take d.hashLen
      (w2.seedMasked c s.regs.hashSel d.hashLen).seed) = .digest c.hashInstance s.regs.hashSel (d.hashLen + 4) := by
    intro w2 hw2
    rw [mgfAction, List.length_take, hw2.seedMasked.seed, Nat.min_eq_left (by omega)]
  apply hw
  · rfl
  · rfl
  · unfold decodeDigests; omega
  · unfold decodeDigests; omega
  · rw [q1 _ rfl, q2 _ hw1.splitEm, hllen]
    simp [decodeActs]

/-! ### The evaluation point and the verdict (R156) -/

theorem slice_eq (x : Bytes) (a b : Nat) : slice x a b = (x.take b).drop a := by
  rw [slice, List.drop_take]

/-- What the evaluation point reports is the verdict of the rules on the recovered data block. -/
theorem evalKind_verdict {sel : Word} {label em : Bytes} {v : Work} (col : Bool) (hk : 2 * h + 2 ≤ c.K)
    (hy : em.take 1 = [0x00]) (hdb : v.db.take (dbLen c h) = recoveredDb c sel h em)
    (hlen : (recoveredDb c sel h em).length = dbLen c h)
    (hlh : v.lhash.take h = hashOf c sel label) (hlhl : (hashOf c sel label).length = h) :
    match decodeVerdict c sel h label col em with
    | .ok m => evalKind c h col (evalFlags c h v) = none ∧ slice v.db ((evalFlags c h v).sep + 1) (dbLen c h) = m
    | .error k => evalKind c h col (evalFlags c h v) = some k := by
  have hle : h ≤ dbLen c h := by unfold dbLen; omega
  have h1 : v.db.take h = (recoveredDb c sel h em).take h := by
    rw [← hdb, List.take_take, Nat.min_eq_left hle]
  have h2 : slice v.db h (dbLen c h) = (recoveredDb c sel h em).drop h := by rw [slice_eq, hdb]
  have hacc : (evalFlags c h v).acc = compareAcc ((recoveredDb c sel h em).take h) (hashOf c sel label) := by
    simp only [evalFlags, h1, hlh]
  have hz := compareAcc_eq_zero (x := (recoveredDb c sel h em).take h) (y := hashOf c sel label)
    (by rw [List.length_take, hlen, hlhl]; omega)
  have hscan := scanFrom_spec h ((recoveredDb c sel h em).drop h) 0
  have hsc : scanPadding h ((recoveredDb c sel h em).drop h) =
      scanFrom h ((recoveredDb c sel h em).drop h) ⟨false, false, 0⟩ := rfl
  unfold decodeVerdict
  rw [if_neg (by simpa using hy)]
  by_cases hc : (recoveredDb c sel h em).take h = hashOf c sel label
  · rw [if_neg (by simpa using hc)]
    have hacc0 : ((evalFlags c h v).acc == 0) = true := by rw [hacc, hz.mpr hc]; rfl
    cases ha : afterSeparator ((recoveredDb c sel h em).drop h) with
    | none =>
      rw [ha] at hscan
      simp only at hscan ⊢
      unfold evalKind
      rw [hacc0]
      simp only [evalFlags, h2, hsc, hscan]
      rfl
    | some m =>
      rw [ha] at hscan
      obtain ⟨f1, f2, f3, f4, f5⟩ := hscan
      have hsep : (evalFlags c h v).sep = (scanFrom h ((recoveredDb c sel h em).drop h) ⟨false, false, 0⟩).sep := by
        simp only [evalFlags, h2, hsc]
      constructor
      · unfold evalKind
        rw [hacc0]
        simp only [evalFlags, h2, hsc, f1, f2, messageLength]
        have : dbLen c h - (scanFrom h ((recoveredDb c sel h em).drop h) ⟨false, false, 0⟩).sep - 1 ≤ maxMessageLen c h := by
          unfold dbLen maxMessageLen; omega
        simp [this]
      · rw [slice_eq, hdb, hsep, ← f5, List.drop_drop]
        congr 1
        omega
  · rw [if_pos (by simpa using hc)]
    have hacc0 : ((evalFlags c h v).acc == 0) = false := by
      rw [hacc]
      exact beq_eq_false_iff_ne.mpr fun e => hc (hz.mp e)
    unfold evalKind
    rw [hacc0]
    rfl

/-- DecodeCore on a block that starts with 0x00, when no hash call fails: it answers the verdict of the rules. -/
theorem decodeCore_run (hr : DecodeReady c s d load w la) (hy : w.em.take 1 = [0x00])
    (hhash : ∀ j, j < decodeDigests c d.hashLen → c.hashFail s.commands (s.hashCalls + j) = 0) :
    decodeCore c load s = match decodeVerdict c s.regs.hashSel d.hashLen (labelBytes s) s.collapse w.em with
      | .ok m => EStateM.Result.ok m (s.ran .decEval
          (recoveredWork c s.regs.hashSel d.hashLen (labelBytes s) w)
          (evalFlags c d.hashLen (recoveredWork c s.regs.hashSel d.hashLen (labelBytes s) w))
          (2 + decodeDigests c d.hashLen + 3) (decodeDigests c d.hashLen)
          (.phase .decEval :: decodeActs c s.regs d.hashLen ++ frontActs s.regs la))
      | .error k => EStateM.Result.error (.raised k 0) (s.ran .decEval
          (recoveredWork c s.regs.hashSel d.hashLen (labelBytes s) w)
          (evalFlags c d.hashLen (recoveredWork c s.regs.hashSel d.hashLen (labelBytes s) w))
          (2 + decodeDigests c d.hashLen + 3) (decodeDigests c d.hashLen)
          (.phase .decEval :: decodeActs c s.regs d.hashLen ++ frontActs s.regs la)) := by
  obtain ⟨hh, hk⟩ := wf_lookup hr.wf hr.lookup
  have hd := hr.hash
  obtain ⟨r1, r2⟩ := recoveredWork_spec (c := c) (w := w) hk hh hd (labelBytes s) hr.sized
  have hv := evalKind_verdict (c := c) (label := labelBytes s) s.collapse hk hy r1 (length_recoveredDb hk hh hd hr.sized.em) r2
    (hd _)
  rw [decodeCore_toEval hr hy hhash]
  have he := decodeEval_run (c := c) (s := s.ran .decLen (recoveredWork c s.regs.hashSel d.hashLen (labelBytes s) w)
    (evalFlags c d.hashLen (recoveredWork c s.regs.hashSel d.hashLen (labelBytes s) w))
    (2 + decodeDigests c d.hashLen) (decodeDigests c d.hashLen)
    (decodeActs c s.regs d.hashLen ++ frontActs s.regs la)) d.hashLen (by simpa using hr.live) (by simpa using hr.faultFree)
  simp only [State.checked, State.ran_fields, State.ran_ran, Nat.add_zero] at he
  cases hd2 : decodeVerdict c s.regs.hashSel d.hashLen (labelBytes s) s.collapse w.em with
  | ok m =>
    rw [hd2] at hv
    rw [hv.1] at he
    rw [bind_ok he]
    simp only [get_bind_run, pure_run, State.ran_fields, hv.2]
    rfl
  | error k =>
    rw [hd2] at hv
    simp only at hv
    rw [hv] at he
    rw [bind_error he]
    rfl

/-- The first failing Digest call of a decode ends it (R100, R144, R146). -/
theorem decodeCore_hashFail (hr : DecodeReady c s d load w la) (hy : w.em.take 1 = [0x00]) {j : Nat}
    (hlt : j < decodeDigests c d.hashLen) (hs : ∀ i, i < j → c.hashFail s.commands (s.hashCalls + i) = 0)
    (hf : c.hashFail s.commands (s.hashCalls + j) ≠ 0) :
    ∃ u, decodeCore c load s = .error (.raised .hashFailure (c.hashFail s.commands (s.hashCalls + j))) u := by
  obtain ⟨hh, hk⟩ := wf_lookup hr.wf hr.lookup
  have hl := hr.live
  have hff := hr.faultFree
  have hd := hr.hash
  rw [decodeCore_front hr, decodeRest]
  unfold decodeDigests at hlt
  rw [bind_ok ((decodeLeadingByte_run (by simpa using hl) (by simpa using hff)).trans (if_pos (by simpa using hy)))]
  simp only [State.checked, State.ran_fields, State.ran_ran]
  by_cases h0 : j = 0
  · subst h0
    exact ⟨_, bind_error ((decodeLabelHash_run (s := s.ran _ _ _ _ _ _) _ (by simpa using hl)
      (by simpa using hff)).trans (if_neg (by simpa using hf)))⟩
  · rw [bind_ok ((decodeLabelHash_run _ (by simpa using hl) (by simpa using hff)).trans
      (if_pos (by simpa using hs 0 (by omega))))]
    simp only [State.ran_fields, State.ran_ran]
    rw [bind_ok (decodeSplit_run _)]
    simp only [State.ran_fields, State.ran_ran]
    have key : ∀ (u : State) (g : Unit → Cmd Bytes), u.commands = s.commands → u.regs = s.regs → u.live = [] →
        u.hashCalls = s.hashCalls + 1 → (∀ t : State, t.commands = s.commands → t.regs = s.regs → t.live = [] →
          t.hashCalls = s.hashCalls + 2 → 2 ≤ j →
          ∃ v, g () t = .error (.raised .hashFailure (c.hashFail s.commands (s.hashCalls + j))) v) →
        ∃ v, (decodeSeedMask c d.hashLen >>= g) u =
          .error (.raised .hashFailure (c.hashFail s.commands (s.hashCalls + j))) v := by
      intro u g hu1 hu2 hu3 hu4 hg
      by_cases hj : j = 1
      · subst hj
        obtain ⟨v, e⟩ := decodeSeedMask_fail (c := c) (s := u) hh (by rw [hu2]; exact hd) hu3 (by rw [hu1]; exact hff)
          (by rw [hu1, hu4]; exact hf)
        exact ⟨v, (bind_error e).trans (by rw [hu1, hu4])⟩
      · have e := decodeSeedMask_ok (c := c) (s := u) hh (by rw [hu2]; exact hd) hu3 (by rw [hu1]; exact hff)
          (by rw [hu1, hu4]; exact hs 1 (by omega))
        rw [bind_ok e]
        exact hg _ (by simpa using hu1) (by simpa using hu2) (by simpa using hu3)
          (by simp only [State.ran_fields]; omega) (by omega)
    refine key _ _ (by simp) (by simp) (by simpa using hl) (by simp) fun t ht1 ht2 ht3 ht4 hj => ?_
    obtain ⟨v, e⟩ := decodeDbMask_fail (c := c) (s := t) (j := j - 2) hh (by rw [ht2]; exact hd) ht3
      (by rw [ht1]; exact hff) (by omega)
      (by intro i hi; rw [ht1, ht4]; have := hs (2 + i) (by omega); simpa [Nat.add_assoc] using this)
      (by rw [ht1, ht4]; simpa [Nat.add_assoc, show 2 + (j - 2) = j by omega] using hf)
    exact ⟨v, (bind_error e).trans (by rw [ht1, ht4, Nat.add_assoc, show 2 + (j - 2) = j by omega])⟩

end

end Sys2Proof.Machine
end

