-- ==== Sys2Proof/Laws/Trace.lean ====
section
/-! SUPPORT. What a command records on the engine's line (R176 to R178), on every oracle. -/

namespace Sys2Proof.Machine

variable {c : Cfg} {i : Instr} {s : State} {α β : Type} {ks : List Kind} {col : Bool}

/-! ### The engine's line -/

/-- How a front part ends on the engine's line: held, and its writes as `P` says of success and failure. -/
def LineEnd (P : Bool → List Action → Prop) (s : State) : EStateM.Result Stop State α → Prop
  | .ok _ t => t.engRst = true ∧ ∃ b, Between s t b ∧ P true b
  | .error (.raised _ _) t => t.engRst = true ∧ ∃ b, Between s t b ∧ P false b
  | .error .resetHit _ => False

theorem isApart_offLine (a : Action) (h : a.isApart = true) : a.isLine = false := by
  cases a <;> first | rfl | cases h

theorem OffLine.between_nil {s t : State} (h : OffLine s t) : Between s t [] := h.acts

theorem lineEnd_apart {P : Bool → List Action → Prop} {m m' : Cmd α} (h : Piece c ks s.collapse Action.isApart m m')
    (hb : s.busy = true) (hs : s.alone = s) (he : s.engRst = true) (hP : ∀ b, P b []) : LineEnd P s (m s) := by
  have ho := (h.offLine isApart_offLine hb rfl hs).1
  have hg := h.goodEnd hb (by rw [← hs]; rfl) rfl
  revert ho hg
  cases m s with
  | ok a t => exact fun ho _ => ⟨ho.engRst.trans he, [], ho.between_nil, hP _⟩
  | error e t =>
    cases e with
    | raised k info => exact fun ho _ => ⟨ho.engRst.trans he, [], ho.between_nil, hP _⟩
    | resetHit => exact fun _ hg => hg.elim

/-- What follows a piece that is off the line. -/
theorem lineEnd_bind {P : Bool → List Action → Prop} {m m' : Cmd α} {f : α → Cmd β}
    (h : Piece c ks s.collapse Action.isApart m m') (hb : s.busy = true) (hs : s.alone = s) (he : s.engRst = true)
    (hP : P false []) (hf : ∀ a t, t.alone = t → t.busy = true → t.engRst = true → t.collapse = s.collapse →
      LineEnd P t (f a t)) : LineEnd P s ((m >>= f) s) := by
  have ho := h.offLine isApart_offLine hb rfl hs
  have hg := h.goodEnd hb (by rw [← hs]; rfl) rfl
  revert ho hg
  cases hm : m s with
  | ok a t =>
    intro ho _
    rw [bind_ok hm]
    have g := hf a t ho.2.1 ho.2.2.1 (ho.1.engRst.trans he) ho.2.2.2
    revert g
    cases f a t with
    | ok b u => exact fun ⟨g1, b, g2, g3⟩ => ⟨g1, b, ho.1.between g2, g3⟩
    | error e u =>
      cases e with
      | raised k info => exact fun ⟨g1, b, g2, g3⟩ => ⟨g1, b, ho.1.between g2, g3⟩
      | resetHit => exact fun g => g.elim
  | error e t =>
    intro ho hg
    rw [bind_error hm]
    cases e with
    | raised k info => exact ⟨ho.1.engRst.trans he, [], ho.1.between_nil, hP⟩
    | resetHit => exact hg.elim

theorem lineEnd_expWrap {P : Bool → List Action → Prop} (kind : ExpKind) (b : BaseOperand) (rm : Bool)
    (hb : s.busy = true) (hs : s.alone = s) (h1 : P true (fullBracket kind)) (h2 : P false (fullBracket kind))
    (h3 : P false [.engRst true]) : LineEnd P s (expWrap c kind b rm s) := by
  have h := expWrap_heldAgain (c := c) kind b rm hb hs
  revert h
  cases expWrap c kind b rm s with
  | ok a t => exact fun h => ⟨h.1, _, h.2, h1⟩
  | error e t =>
    cases e with
    | raised k info => exact fun h => ⟨h.1, h.2.elim (fun g => ⟨_, g, h3⟩) fun g => ⟨_, g, h2⟩⟩
    | resetHit => exact fun h => h

theorem lineEnd_decryptFront (hb : s.busy = true) (hs : s.alone = s) :
    LineEnd (bracketAllowed .decrypt) s (decryptFront c s) := by
  have hw := lineEnd_expWrap (c := c) (P := bracketAllowed .decrypt) .crt (.pointer s.regs.inp) false hb hs (.inl rfl)
    (.inl rfl) (.inr ⟨rfl, rfl⟩)
  have hp := piece_expWrap (c := c) (col := s.collapse) .crt (.pointer s.regs.inp) false
  have hg := hp.goodEnd hb (by rw [← hs]; rfl) rfl
  have hh := (hp.hosted hb rfl)
  rw [HostedAt, hs] at hh
  have h2 := expWrap_heldAgain (c := c) .crt (.pointer s.regs.inp) false hb hs
  show LineEnd _ s ((expWrap c .crt (.pointer s.regs.inp) false >>= fun _ => reverseResult c >>= fun _ =>
    decodeCore c (pure ())) s)
  revert hw hg hh h2
  cases hm : expWrap c .crt (.pointer s.regs.inp) false s with
  | ok a t =>
    intro _ hg hh h2
    have hta : t.alone = t := hh.1
    rw [bind_ok hm]
    have hrev : reverseResult c t = .ok () ((t.setPhase .rev).setWork
        { t.work with em := put t.work.em 0 (revBytes (t.work.res.take c.K)) }) := by
      rw [reverseResult, bind_ok (phase_run _ (alone_of_live hta))]; rfl
    rw [bind_ok hrev]
    generalize { t.work with em := put t.work.em 0 (revBytes (t.work.res.take c.K)) } = w
    have hpd := (piece_decodeCore (c := c) (col := ((t.setPhase .rev).setWork w).collapse) (.ret ()))
    have hl := lineEnd_apart (P := fun _ b => b = []) hpd (by simpa using hg.1.busy.trans hb)
      (congrArg (fun x : State => (x.setPhase .rev).setWork w) hta) (by simpa using h2.1) fun _ => rfl
    have o : OffLine t ((t.setPhase .rev).setWork w) := ⟨rfl, [.phase .rev], rfl, rfl⟩
    have key : ∀ {u : State} {b : List Action}, Between ((t.setPhase .rev).setWork w) u b → b = [] →
        Between s u (fullBracket .crt) := by
      rintro u b g rfl
      obtain ⟨l1, e1, b1⟩ := h2.2
      obtain ⟨l2, e2, b2⟩ := o.between g
      exact ⟨l2 ++ l1, by rw [e2, e1, List.append_assoc],
        by rw [List.reverse_append, bracketOf_append, b1, b2, List.append_nil]⟩
    revert hl
    cases decodeCore c (pure ()) ((t.setPhase .rev).setWork w) with
    | ok b u => exact fun ⟨g1, b, g2, g3⟩ => ⟨g1, _, key g2 g3, .inl rfl⟩
    | error e u =>
      cases e with
      | raised k info => exact fun ⟨g1, b, g2, g3⟩ => ⟨g1, _, key g2 g3, .inl rfl⟩
      | resetHit => exact fun g => g.elim
  | error e t =>
    intro hw hg hh h2
    rw [bind_error hm]
    cases e <;> exact hw

/-- The front part of every command leaves the engine held and does on the line what the rules allow (R176 to R178). -/
theorem front_lineEnd (c : Cfg) (i : Instr) (hb : s.busy = true) (hs : s.alone = s) (he : s.engRst = true) :
    LineEnd (bracketAllowed i) s ((shapeOf c s.collapse i).front s) := by
  cases i with
  | encode => exact lineEnd_apart (piece_encodeCore (c := c)) hb hs he fun _ => rfl
  | decode => exact lineEnd_apart (piece_decodeCore (c := c) piece_loadEmFromMemory) hb hs he fun _ => rfl
  | expPlain => exact lineEnd_expWrap (c := c) .plain (.pointer s.regs.opBase) true hb hs (.inl rfl) (.inl rfl) (.inr ⟨rfl, rfl⟩)
  | expCrt => exact lineEnd_expWrap (c := c) .crt (.pointer s.regs.opBase) true hb hs (.inl rfl) (.inl rfl) (.inr ⟨rfl, rfl⟩)
  | encrypt =>
    refine lineEnd_bind (piece_encodeCore (c := c)) hb hs he (.inr ⟨rfl, .inl rfl⟩) fun h t ht hbt het hct => ?_
    refine lineEnd_bind (m := assembleEm c h) (piece_assembleEm (c := c) (ks := []) h) hbt ht het (.inr ⟨rfl, .inl rfl⟩)
      fun _ u hu hbu _ _ => ?_
    exact lineEnd_expWrap (c := c) .plain .internal false hbu hu (.inl rfl) (.inl rfl) (.inr ⟨rfl, .inr rfl⟩)
  | decrypt => exact lineEnd_decryptFront hb hs

end Sys2Proof.Machine
end

