-- ==== Sys2Proof/Laws/Ends.lean ====
section
/-! SUPPORT. How a command ends, on every oracle (R222, R241, R243, R252): the state it leaves, what it wrote, what it
recorded. -/

namespace Sys2Proof.Machine

variable {c : Cfg} {i : Instr} {s t u : State}

/-! ### What an emission leaves -/

theorem stored_mem (s : State) (a : Addr) (v : Bytes) (len : Bool) :
    (s.stored a v len).mem = s.mem.writeBytes a.toNat (v.take (roomAbove a)) := by
  rw [State.stored, wrote_mem]
  cases v <;> simp [Memory.writeBytes]

theorem stored_regs (s : State) (a : Addr) (v : Bytes) (len : Bool) :
    (s.stored a v len).regs = if len then { s.regs with outLen := BitVec.ofNat 32 v.length } else s.regs := by
  unfold State.stored State.wrote
  cases v <;> cases len <;> rfl

theorem stored_acts (s : State) (a : Addr) (v : Bytes) (len : Bool) :
    (s.stored a v len).acts = (if len then [.outLen (BitVec.ofNat 32 v.length)] else []) ++
      (if v.length = 0 then [] else [.memWrite a v.length]) ++ s.acts := by
  unfold State.stored State.wrote
  cases v <;> cases len <;> rfl

theorem stored_rest (s : State) (a : Addr) (v : Bytes) (len : Bool) :
    (s.stored a v len).collapse = s.collapse ∧ (s.stored a v len).alarm = s.alarm ∧
    (s.stored a v len).engRst = s.engRst ∧ (s.stored a v len).commands = s.commands ∧
    (s.stored a v len).script = s.script ∧ (s.stored a v len).hashCalls = s.hashCalls := by
  unfold State.stored State.wrote
  cases v <;> cases len <;> and_intros <;> rfl

/-- What the preparation of an emission leaves as it was. -/
theorem prepare_fields (c : Cfg) (col : Bool) (i : Instr) (a : FrontType i) (s : State) :
    ((shapeOf c col i).prepare a s).regs = s.regs ∧ ((shapeOf c col i).prepare a s).collapse = s.collapse ∧
    ((shapeOf c col i).prepare a s).alarm = s.alarm ∧ ((shapeOf c col i).prepare a s).engRst = s.engRst ∧
    ((shapeOf c col i).prepare a s).mem = s.mem ∧ ((shapeOf c col i).prepare a s).commands = s.commands ∧
    ((shapeOf c col i).prepare a s).script = s.script ∧
    ((shapeOf c col i).prepare a s).acts = s.acts ∧ ((shapeOf c col i).prepare a s).hashCalls = s.hashCalls := by
  cases i <;> and_intros <;> rfl

/-- The bytes a command emits after its front part left `a` and `u`. -/
def outputOf (c : Cfg) (col : Bool) (i : Instr) (a : FrontType i) (u : State) : Bytes :=
  (shapeOf c col i).value a ((shapeOf c col i).prepare a (u.setPhase (shapeOf c col i).phase))

/-- The state a command leaves that emitted. -/
def State.emitted (c : Cfg) (col : Bool) (i : Instr) (a : FrontType i) (u : State) : State :=
  (u.emission (shapeOf c col i).phase ((shapeOf c col i).prepare a) (shapeOf c col i).target
    ((shapeOf c col i).value a) (shapeOf c col i).len).left c .success 0

theorem emitted_mem (col : Bool) (a : FrontType i) (u : State) :
    (u.emitted c col i a).mem =
      u.mem.writeBytes (targetOf u.regs i).toNat ((outputOf c col i a u).take (roomAbove (targetOf u.regs i))) := by
  simp only [State.emitted, State.left_fields, State.emission, stored_mem, outputOf, shapeOf_target,
    (prepare_fields c col i a _).1, (prepare_fields c col i a _).2.2.2.2.1, State.setPhase_fields]

theorem emitted_mem_fits (col : Bool) (a : FrontType i) (u : State)
    (h : (targetOf u.regs i).toNat + (outputOf c col i a u).length ≤ 2 ^ 64) :
    (u.emitted c col i a).mem = u.mem.writeBytes (targetOf u.regs i).toNat (outputOf c col i a u) := by
  rw [emitted_mem, List.take_of_length_le (roomAbove_ge h)]

theorem emitted_regs (col : Bool) (a : FrontType i) (u : State) :
    (u.emitted c col i a).regs = if writesLen i then
      { u.regs with outLen := BitVec.ofNat 32 (outputOf c col i a u).length } else u.regs := by
  simp only [State.emitted, State.left_fields, State.emission, stored_regs, outputOf, shapeOf_len,
    (prepare_fields c col i a _).1, State.setPhase_fields]

theorem emitted_acts (col : Bool) (a : FrontType i) (u : State) :
    (u.emitted c col i a).acts = [.phase (if u.alarm then .locked else .idle), .phase .exitStatus, .phase .exitScrub] ++
      ((if writesLen i then [.outLen (BitVec.ofNat 32 (outputOf c col i a u).length)] else []) ++
      (if (outputOf c col i a u).length = 0 then [] else [.memWrite (targetOf u.regs i) (outputOf c col i a u).length]) ++
      (.phase (shapeOf c col i).phase :: u.acts)) := by
  simp only [State.emitted, State.left_fields, State.emission, stored_acts, outputOf, shapeOf_target, shapeOf_len,
    (stored_rest _ _ _ _).2.1, (prepare_fields c col i a _).1, (prepare_fields c col i a _).2.2.1,
    (prepare_fields c col i a _).2.2.2.2.2.2.2.1, State.setPhase_fields]
  rfl

theorem emitted_rest (col : Bool) (a : FrontType i) (u : State) :
    (u.emitted c col i a).collapse = u.collapse ∧ (u.emitted c col i a).alarm = u.alarm ∧
    (u.emitted c col i a).engRst = u.engRst ∧ (u.emitted c col i a).commands = u.commands ∧
    (u.emitted c col i a).script = u.script ∧
    (u.emitted c col i a).hashCalls = u.hashCalls := by
  obtain ⟨r1, r2, r3, r4, r5, r6⟩ := stored_rest ((shapeOf c col i).prepare a (u.setPhase (shapeOf c col i).phase))
    ((shapeOf c col i).target ((shapeOf c col i).prepare a (u.setPhase (shapeOf c col i).phase)).regs)
    ((shapeOf c col i).value a ((shapeOf c col i).prepare a (u.setPhase (shapeOf c col i).phase))) (shapeOf c col i).len
  obtain ⟨-, p2, p3, p4, -, p6, p7, -, p9⟩ := prepare_fields c col i a (u.setPhase (shapeOf c col i).phase)
  simp only [State.setPhase_fields] at p2 p3 p4 p6 p7 p9
  simp only [State.emitted, State.left_fields, State.emission, r1, r2, r3, r4, r5, r6, p2, p3, p4, p6, p7, p9,
    and_self]

/-- The end state of a command that emitted, or raised, in the terms of claims. -/
theorem emitted_ended (col : Bool) (a : FrontType i) {l r} (fr : Framed Action.isQuiet (s.begun c) u)
    (he : u.engRst = true) : Ended c s ((u.emitted c col i a).served l r) .success 0 := by
  obtain ⟨r1, -, r3, r4, r5, -⟩ := emitted_rest (c := c) col a u
  constructor
  case engRst => exact r3.trans he
  case collapse => exact r1.trans fr.collapse
  case commands => exact r4.trans fr.commands
  case script => exact r5.trans fr.script
  all_goals rfl

theorem left_ended {k : Kind} {info : Word} {l r} (fr : Framed Action.isQuiet (s.begun c) u)
    (he : u.engRst = true) : Ended c s ((u.left c k info).served l r) k info := by
  constructor
  case engRst => exact he
  case collapse => exact fr.collapse
  case commands => exact fr.commands
  case script => exact fr.script
  all_goals rfl

/-! ### Running a command whose front part is known -/

theorem ranOn_of_ok {a : FrontType i} (e : (shapeOf c s.collapse i).front (s.begun c) = .ok a u) :
    ranAlone c i s = u.emitted c s.collapse i a := by
  rw [ranAlone]
  rcases (shapeOf c s.collapse i).run (s := s.begun c) rfl rfl rfl with ⟨a', u', e', -, -, -, hx⟩ | ⟨_, _, _, e', _⟩
  · rw [e] at e'
    cases e'
    exact hx
  · rw [e] at e'; cases e'

theorem ranOn_of_raised {k : Kind} {info : Word}
    (e : (shapeOf c s.collapse i).front (s.begun c) = .error (.raised k info) u) :
    ranAlone c i s = u.left c k info := by
  rw [ranAlone]
  rcases (shapeOf c s.collapse i).run (s := s.begun c) rfl rfl rfl with ⟨_, _, e', _⟩ | ⟨_, _, _, e', -, -, -, hx⟩
  · rw [e] at e'; cases e'
  · rw [e] at e'; cases e'; exact hx

/-- What a front part that ended leaves: its frame, no alarm, the engine held. -/
theorem front_ok (h : s.Ready) {a : FrontType i} (e : (shapeOf c s.collapse i).front (s.begun c) = .ok a u) :
    Framed Action.isQuiet (s.begun c) u ∧ u.alarm = false ∧ u.engRst = true ∧
      ∃ b, Between (s.begun c) u b ∧ bracketAllowed i true b := by
  have g := (shapeOf c s.collapse i).piece.goodEnd (s := s.begun c) rfl rfl rfl
  have l := front_lineEnd (s := s.begun c) c i rfl rfl h.2.2
  change LineEnd _ _ ((shapeOf c s.collapse i).front (s.begun c)) at l
  rw [e] at g l
  exact ⟨g.1, g.2.trans h.2.1, l.1, l.2⟩

theorem front_raised (h : s.Ready) {k : Kind} {info : Word}
    (e : (shapeOf c s.collapse i).front (s.begun c) = .error (.raised k info) u) :
    Framed Action.isQuiet (s.begun c) u ∧
      ((k = .glitchError ∧ info = 0 ∧ u.alarm = true) ∨
        (k ∈ ownKinds s.collapse i ∧ k ≠ .glitchError ∧ (info = 0 ∨ k.fromProvider = true) ∧ u.alarm = false)) ∧
      u.engRst = true ∧ ∃ b, Between (s.begun c) u b ∧ bracketAllowed i false b := by
  have g := (shapeOf c s.collapse i).piece.goodEnd (s := s.begun c) rfl rfl rfl
  have l := front_lineEnd (s := s.begun c) c i rfl rfl h.2.2
  change LineEnd _ _ ((shapeOf c s.collapse i).front (s.begun c)) at l
  rw [e] at g l
  refine ⟨g.1, ?_, l.1, l.2⟩
  have ha : (s.begun c).alarm = false := h.2.1
  have := g.2
  rw [ha] at this
  exact this

/-- R241: the kinds a command raises by rule are among those it can end with. -/
theorem ownKinds_allowed {col : Bool} {k : Kind} (h : k ∈ ownKinds col i) : k ∈ allowedKinds col i := by
  revert h
  cases i <;> cases col <;> cases k <;> decide

theorem success_allowed (col : Bool) (i : Instr) : Kind.success ∈ allowedKinds col i := by
  cases i <;> cases col <;> decide

theorem glitchError_allowed (col : Bool) (i : Instr) : Kind.glitchError ∈ allowedKinds col i := by
  cases i <;> cases col <;> decide

/-! ### Storing -/

theorem stored_of_mem {a : Addr} {v : Bytes} (hm : s.mem.wf = true) (ha : a.toNat + v.length ≤ 2 ^ 64)
    (h : t.mem = s.mem.writeBytes a.toNat v) : Stored s t a v :=
  ⟨by rw [h]; exact Memory.readBytes_writeBytes hm ha, fun x hx => by
    rw [h]; exact Memory.read_writeBytes_outside hm ha hx⟩

end Sys2Proof.Machine
end

