-- ==== Sys2Proof/Laws/Results.lean ====
section
/-! SUPPORT. What each command answers on the fault-free machine (R120 to R136, R140 to R158, R170 to R189, R200 to
R208). -/

namespace Sys2Proof.Machine

variable {c : Cfg} {s u : State} {d : HashDescriptor}

theorem hash_length (hL : c.Lawful) {sel : Word} (hd : c.lookup sel = some d) (x : Bytes) :
    (hashOf c sel x).length = d.hashLen := by
  rw [hashOf, hL.hashLength, Cfg.descriptor, hd]; rfl

/-! ### ENCODE -/

theorem encodeReady_begun (hw : c.wf = true) (hL : c.Lawful) (hff : FaultFree c s.nextCommand)
    (hp : encodeParamsOk c s.regs = true) (hd : c.lookup s.regs.hashSel = some d)
    (hle : s.regs.inLen.toNat ≤ maxMessageLen c d.hashLen) : EncodeReady c (s.begun c) d where
  wf := hw
  live := rfl
  faultFree := hff
  work := rfl
  params := hp
  lookup := hd
  fits := hle
  hash := hash_length hL hd
  draw := hL.entropyLength _

/-- EncodeCore of an accepted command, when the providers succeed: the block is in the buffers, and EM will be it. -/
theorem encodeCore_begun (hr : EncodeReady c (s.begun c) d) (hL : c.Lawful)
    (hh : ∀ j, j < encodeDigests c d.hashLen → c.hashFail s.nextCommand j = 0)
    (he : (c.entropy s.nextCommand d.hashLen).1 = 0) :
    ∃ u, encodeCore c (s.begun c) = .ok d.hashLen u ∧ u.engRst = s.engRst ∧ u.regs = s.regs ∧ u.live = [] ∧
      u.commands = s.nextCommand ∧ u.mem = s.mem ∧
      u.acts = encodeActs c s.regs d.hashLen ++ [.phase .dispatch] ∧
      [0x00] ++ u.work.seed.take d.hashLen ++ u.work.db.take (dbLen c d.hashLen) =
        paddedBlock c s.regs.hashSel d.hashLen (labelBytes s) (messageBytes s) (seedDrawn c s d.hashLen) ∧
      u.work.em.length = c.K ∧ u.work.res.length = c.K := by
  obtain ⟨h1, hk⟩ := wf_lookup hr.wf hr.lookup
  refine ⟨_, encodeCore_run hr (fun j hj => (congrArg (c.hashFail s.nextCommand) (Nat.zero_add j)).trans (hh j hj)) he, rfl, rfl, rfl, rfl, rfl, rfl, ?_, ?_, ?_⟩
  · obtain ⟨e1, e2⟩ := encodedWork_spec (c := c) (sel := s.regs.hashSel) (label := labelBytes s) (m := messageBytes s)
      (seed := seedDrawn c s d.hashLen) hk h1 hr.hash (by
        have : (messageBytes s).length = s.regs.inLen.toNat := by simp [messageBytes]
        rw [this]; exact hr.fits) (hL.entropyLength _ _)
    rw [paddedBlock, ← e1, ← e2]
    rfl
  · exact length_zeros _
  · exact length_zeros _

theorem paddedBlock_length (hw : c.wf = true) (hL : c.Lawful) (hd : c.lookup s.regs.hashSel = some d)
    (hle : s.regs.inLen.toNat ≤ maxMessageLen c d.hashLen) :
    (paddedBlock c s.regs.hashSel d.hashLen (labelBytes s) (messageBytes s) (seedDrawn c s d.hashLen)).length = c.K := by
  obtain ⟨h1, hk⟩ := wf_lookup hw hd
  exact length_paddedBlock hk h1 (hash_length hL hd) (by
    have : (messageBytes s).length = s.regs.inLen.toNat := by simp [messageBytes]
    rw [this]; exact hle) (hL.entropyLength _ _)

/-- What fills a buffer is all that is left of it. -/
theorem take_put_self {buf x : Bytes} {n : Nat} (hx : x.length = n) (hb : buf.length = n) : (put buf 0 x).take n = x :=
  take_put_zero_of_length hx hb.ge

/-- ENCODE of an admissible message when the providers succeed (R120, R129). -/
theorem encode_success (hw : c.wf = true) (hL : c.Lawful) (hu : s.Undisturbed) (hm : s.mem.wf = true)
    (hff : FaultFree c s.nextCommand) (hp : encodeParamsOk c s.regs = true) (hd : c.lookup s.regs.hashSel = some d)
    (hle : s.regs.inLen.toNat ≤ maxMessageLen c d.hashLen)
    (hh : ∀ j, j < encodeDigests c d.hashLen → c.hashFail s.nextCommand j = 0)
    (he : (c.entropy s.nextCommand d.hashLen).1 = 0) :
    Ended c s (ranOn c .encode s) .success 0 ∧ (ranOn c .encode s).alarm = false ∧ (ranOn c .encode s).regs = s.regs ∧
      Stored s (ranOn c .encode s) s.regs.out
        (paddedBlock c s.regs.hashSel d.hashLen (labelBytes s) (messageBytes s) (seedDrawn c s d.hashLen)) ∧
      actions (ranOn c .encode s) = ([.phase .dispatch] ++ (encodeActs c s.regs d.hashLen).reverse ++
        [.phase .encEmit, .memWrite s.regs.out c.K, .phase .exitScrub, .phase .exitStatus, .phase .idle]) := by
  have hr := encodeReady_begun hw hL hff hp hd hle
  have hk4 : 4 ≤ c.K := (wf_iff.mp hw).2.1
  obtain ⟨u, e, _, g2, _, _, g5, g6, g7, g8, _⟩ := encodeCore_begun hr hL hh he
  have hlen := paddedBlock_length hw hL hd hle
  have hout : outputOf c s.collapse .encode d.hashLen u =
      paddedBlock c s.regs.hashSel d.hashLen (labelBytes s) (messageBytes s) (seedDrawn c s d.hashLen) := by
    show (put u.work.em 0 ([0x00] ++ u.work.seed.take d.hashLen ++ u.work.db.take (dbLen c d.hashLen))).take c.K = _
    rw [g7, take_put_self hlen g8]
  have hreg := (encodeParamsOk_iff.mp hp).2.2.1
  have hbound : s.regs.out.toNat + c.K ≤ 2 ^ 64 := regionOk_bound hreg
  have e' : (shapeOf c s.collapse .encode).front (s.begun c) = .ok d.hashLen u := e
  obtain ⟨f1, f2, f3, -⟩ := front_ok hu.1 e'
  have hx := ranOn_of_ok e'
  obtain ⟨l, r, -, -, hs, -⟩ := ranOn_undisturbed (c := c) (i := .encode) hu
  rw [hs, hx]
  refine ⟨emitted_ended _ _ f1 f3, (emitted_rest _ _ _).2.1.trans f2, (emitted_regs _ _ _).trans g2, ?_, ?_⟩
  · have hmem : (u.emitted c s.collapse .encode d.hashLen).mem = s.mem.writeBytes s.regs.out.toNat
        (paddedBlock c s.regs.hashSel d.hashLen (labelBytes s) (messageBytes s) (seedDrawn c s d.hashLen)) := by
      rw [emitted_mem_fits _ _ _ (by rw [hout, hlen, g2]; exact hbound), hout, g5, g2]; rfl
    exact stored_of_mem hm (by rw [hlen]; exact hbound) hmem
  · show (u.emitted c s.collapse .encode d.hashLen).acts.reverse = _
    rw [emitted_acts, hout, hlen, f2, g6, g2]
    simp [targetOf, writesLen, shapeOf, encodeShape, show c.K ≠ 0 by omega]

/-! ### A command that fails -/

/-- A front part that raises by rule: the command fails with that kind and no output, and records no more than the exit
point. -/
theorem fails_of_raised {i : Instr} {k : Kind} {info : Word} (hu : s.Undisturbed)
    (e : (shapeOf c s.collapse i).front (s.begun c) = .error (.raised k info) u) (hk : k ≠ .glitchError) :
    FailsWith c s (ranOn c i s) k info ∧
      actions (ranOn c i s) = u.acts.reverse ++ [.phase .exitScrub, .phase .exitStatus, .phase .idle] := by
  obtain ⟨f1, f2, f3, -⟩ := front_raised hu.1 e
  have ha : u.alarm = false := by
    rcases f2 with ⟨h, -, -⟩ | ⟨-, -, -, h⟩
    · exact absurd h hk
    · exact h
  obtain ⟨l, r, -, -, hs, -⟩ := ranOn_undisturbed (c := c) (i := i) hu
  rw [hs, ranOn_of_raised e]
  refine ⟨⟨left_ended f1 f3, ⟨f1.mem, f1.regs⟩, ha⟩, ?_⟩
  show (u.left c k info).acts.reverse = _
  simp [ha]

/-- An encode that fails in EncodeCore fails so in ENCODE (R132). -/
theorem encode_fails {k : Kind} {info : Word} (hu : s.Undisturbed) (hk : k ≠ .glitchError)
    (e : ∃ u, encodeCore c (s.begun c) = .error (.raised k info) u) : FailsWith c s (ranOn c .encode s) k info := by
  obtain ⟨u, e⟩ := e
  exact (fails_of_raised (i := .encode) hu e hk).1

/-! ### DECODE -/

theorem decodeReady_memory (hw : c.wf = true) (hL : c.Lawful) (hff : FaultFree c s.nextCommand)
    (hp : decodeParamsOk c s.regs = true) (hd : c.lookup s.regs.hashSel = some d) :
    DecodeReady c (s.begun c) d (loadEmFromMemory c)
      { Work.zero c with em := put (Work.zero c).em 0 (blockAt c s s.regs.inp) }
      (readActs [(s.regs.inp, c.K)]).reverse where
  wf := hw
  live := rfl
  faultFree := hff
  params := hp
  lookup := hd
  hash := hash_length hL hd
  load := by
    have hb : s.regs.inp.toNat + c.K ≤ 2 ^ 64 := regionOk_bound ((decodeParamsOk_iff hd).mp hp).1
    rw [loadEmFromMemory, get_bind_run,
      bind_ok (memRead_acted (s := (s.begun c).checked .decCheck 1) (a := ((s.begun c).checked .decCheck 1).regs.inp) hb),
      modify_run]
    simp [State.acted, State.checked, State.ran, State.setWork, blockAt]
  sized := { Work.zero_sized c with em := (length_put _ _ _).trans (Work.zero_sized c).em }

theorem put_zeros_block (hw : (blockAt c s s.regs.inp).length = c.K) :
    put (Work.zero c).em 0 (blockAt c s s.regs.inp) = blockAt c s s.regs.inp := by
  simp [put, Work.zero, hw]

/-- The verdict's message fits the space of the output. -/
theorem afterSeparator_length {l m : Bytes} (h : afterSeparator l = some m) : m.length + 1 ≤ l.length := by
  induction l with
  | nil => simp [afterSeparator] at h
  | cons b l ih =>
    unfold afterSeparator at h
    split at h
    · have := ih h; simp; omega
    · split at h
      · cases h; simp
      · cases h

theorem verdict_length {sel : Word} {h : Nat} {label em m : Bytes} {col : Bool}
    (hlen : (recoveredDb c sel h em).length = dbLen c h) (hv : decodeVerdict c sel h label col em = .ok m) :
    m.length ≤ maxMessageLen c h := by
  unfold decodeVerdict at hv
  split at hv
  · cases hv
  · split at hv
    · cases hv
    · split at hv
      · cases hv
      · rename_i m' ha
        cases hv
        have := afterSeparator_length ha
        rw [List.length_drop, hlen] at this
        unfold dbLen at this
        unfold maxMessageLen
        omega

theorem verdict_ne_glitch {sel : Word} {h : Nat} {label em : Bytes} {col : Bool} {k : Kind}
    (hv : decodeVerdict c sel h label col em = .error k) : k ≠ .glitchError := by
  unfold decodeVerdict at hv
  split at hv
  · cases hv; decide
  · split at hv
    · cases hv; cases col <;> decide
    · split at hv
      · cases hv; cases col <;> decide
      · cases hv

/-- What DECODE and DECRYPT leave once DecodeCore has answered the verdict. -/
theorem decodeAnswer_of_core {i : Instr} (hu : s.Undisturbed) (hm : s.mem.wf = true) {sel : Word} {h : Nat}
    {label em : Bytes} (hi : i = .decode ∨ i = .decrypt)
    (hlen : (recoveredDb c sel h em).length = dbLen c h) (hout : s.regs.out.toNat + maxMessageLen c h ≤ 2 ^ 64)
    (hcore : match decodeVerdict c sel h label s.collapse em with
      | .ok m => ∃ a u, (shapeOf c s.collapse i).front (s.begun c) = .ok a u ∧ outputOf c s.collapse i a u = m
      | .error k => ∃ u, (shapeOf c s.collapse i).front (s.begun c) = .error (.raised k 0) u) :
    DecodeAnswer c s (ranOn c i s) (decodeVerdict c sel h label s.collapse em) := by
  cases hv : decodeVerdict c sel h label s.collapse em with
  | error k =>
    rw [hv] at hcore
    obtain ⟨u, e⟩ := hcore
    exact (fails_of_raised hu e (verdict_ne_glitch hv)).1
  | ok m =>
    rw [hv] at hcore
    obtain ⟨a, u, e, ho⟩ := hcore
    obtain ⟨f1, f2, f3, -⟩ := front_ok hu.1 e
    have ht : targetOf s.regs i = s.regs.out := by rcases hi with rfl | rfl <;> rfl
    have hwl : writesLen i = true := by rcases hi with rfl | rfl <;> rfl
    have hml := verdict_length hlen hv
    have hx := ranOn_of_ok e
    obtain ⟨l, r, -, -, hs, -⟩ := ranOn_undisturbed (c := c) (i := i) hu
    have hr : u.regs = s.regs := f1.regs
    have hmem : u.mem = s.mem := f1.mem
    rw [hs, hx]
    refine ⟨emitted_ended _ _ f1 f3, (emitted_rest _ _ _).2.1.trans f2, ?_, ?_⟩
    · refine stored_of_mem hm (by omega) ?_
      show (u.emitted c s.collapse i a).mem = _
      rw [emitted_mem_fits _ _ _ (by rw [ho, hr, ht]; omega), ho, hr, hmem, ht]
    · show (u.emitted c s.collapse i a).regs = _
      rw [emitted_regs, ho, hwl, if_pos rfl, hr]

/-- DECODE when no hash call fails: the verdict of the rules (R140, R156). -/
theorem decode_answers (hw : c.wf = true) (hL : c.Lawful) (hu : s.Undisturbed) (hm : s.mem.wf = true)
    (hff : FaultFree c s.nextCommand) (hp : decodeParamsOk c s.regs = true) (hd : c.lookup s.regs.hashSel = some d)
    (hh : HashSucceeds c s.nextCommand) :
    DecodeAnswer c s (ranOn c .decode s) (decodeVerdict c s.regs.hashSel d.hashLen (labelBytes s) s.collapse
      (blockAt c s s.regs.inp)) := by
  have hr := decodeReady_memory hw hL hff hp hd
  obtain ⟨h1, hk⟩ := wf_lookup hw hd
  have hbl : (blockAt c s s.regs.inp).length = c.K := by simp [blockAt]
  have hem : ({ Work.zero c with em := put (Work.zero c).em 0 (blockAt c s s.regs.inp) } : Work).em =
      blockAt c s s.regs.inp := put_zeros_block hbl
  refine decodeAnswer_of_core hu hm (.inl rfl) (length_recoveredDb hk h1 (hash_length hL hd) hbl)
    (regionOk_bound ((decodeParamsOk_iff hd).mp hp).2.1) ?_
  by_cases hy : (blockAt c s s.regs.inp).take 1 = [0x00]
  · have hx := decodeCore_run hr (by rw [hem]; exact hy) (fun j _ => hh _)
    rw [hem] at hx
    change decodeCore c (loadEmFromMemory c) (s.begun c) = match decodeVerdict c s.regs.hashSel d.hashLen (labelBytes s)
      s.collapse (blockAt c s s.regs.inp) with | .ok m => _ | .error k => _ at hx
    cases hv : decodeVerdict c s.regs.hashSel d.hashLen (labelBytes s) s.collapse (blockAt c s s.regs.inp) with
    | ok m => rw [hv] at hx; exact ⟨m, _, hx, rfl⟩
    | error k => rw [hv] at hx; exact ⟨_, hx⟩
  · have hx := decodeCore_byteMismatch hr (by rw [hem]; exact hy)
    have hv : decodeVerdict c s.regs.hashSel d.hashLen (labelBytes s) s.collapse (blockAt c s s.regs.inp) =
        .error .byteMismatchError := by unfold decodeVerdict; rw [if_pos hy]
    rw [hv]
    exact ⟨_, hx⟩

/-- A decode that fails in DecodeCore fails so in DECODE (R157). -/
theorem decode_fails {k : Kind} {info : Word} (hu : s.Undisturbed) (hk : k ≠ .glitchError)
    (e : ∃ u, decodeCore c (loadEmFromMemory c) (s.begun c) = .error (.raised k info) u) :
    FailsWith c s (ranOn c .decode s) k info := by
  obtain ⟨u, e⟩ := e
  exact (fails_of_raised (i := .decode) hu e hk).1

/-! ### EXP_PLAIN and EXP_CRT -/

theorem engineResultOf_length (hL : c.Lawful) (kind : ExpKind) (b : Bytes) (mand : List Bytes)
    (opt : List (Option Bytes)) : (engineResultOf c kind b mand opt).2.length = c.K := by
  cases kind
  · exact hL.plainLength _
  · exact hL.crtLength _

theorem engineAnswer_length (hL : c.Lawful) (k : Nat) (kind : ExpKind) (b : Bytes) (mand : List Bytes)
    (opt : List (Option Bytes)) : (engineAnswer c k kind b mand opt).2.length = c.K := by
  rw [engineAnswer]
  dsimp only
  split_ifs
  · exact engineResultOf_length hL ..
  · exact hL.failedLength _
  · exact hL.failedLength _

/-- A call succeeds exactly if no failure is drawn and the engine's function succeeds (R174 a). -/
theorem engineAnswer_status_eq_zero (k : Nat) (kind : ExpKind) (b : Bytes) (mand : List Bytes)
    (opt : List (Option Bytes)) : (engineAnswer c k kind b mand opt).1 = 0 ↔
      c.engineFail k = 0 ∧ (engineResultOf c kind b mand opt).1 = 0 := by
  simp only [engineAnswer]
  split <;> simp_all

/-- A call that succeeds hands over what the engine's function gives (R172). -/
theorem engineAnswer_of_success {k : Nat} {kind : ExpKind} {b : Bytes} {mand : List Bytes} {opt : List (Option Bytes)}
    (h : (engineAnswer c k kind b mand opt).1 = 0) :
    engineAnswer c k kind b mand opt = engineResultOf c kind b mand opt := by
  obtain ⟨hd, hs⟩ := (engineAnswer_status_eq_zero ..).mp h
  ext1 <;> simp [engineAnswer, hd, hs]

theorem exp_raised (k : ExpKind) {kd : Kind} {info : Word} (hu : s.Undisturbed)
    (e : expWrap c k (.pointer s.regs.opBase) true (s.begun c) = .error (.raised kd info) u) (hk : kd ≠ .glitchError) :
    FailsWith c s (ranOn c (expInstr k) s) kd info ∧
      actions (ranOn c (expInstr k) s) = u.acts.reverse ++ [.phase .exitScrub, .phase .exitStatus, .phase .idle] := by
  cases k
  · exact fails_of_raised (i := .expPlain) hu e hk
  · exact fails_of_raised (i := .expCrt) hu e hk

/-- EXP_PLAIN and EXP_CRT on good pointers (R170, R171, R176 to R182). -/
theorem exp_answers (k : ExpKind) (hL : c.Lawful) (hu : s.Undisturbed) (hm : s.mem.wf = true)
    (hff : FaultFree c s.nextCommand) (hp : expPointersOk c k s.regs = true) :
    let r := engineResult c k s (blockAt c s s.regs.opBase)
    let t := ranOn c (expInstr k) s
    (r.1 = 0 → Ended c s t .success 0 ∧ t.alarm = false ∧ t.regs = s.regs ∧ Stored s t s.regs.opRes r.2) ∧
    (r.1 ≠ 0 → FailsWith c s t .engineFailure r.1) := by
  have hx := expWrap_run (c := c) (s := s.begun c) k (.pointer s.regs.opBase) true rfl hu.1.2.2 hff hp
  have hans : wrapAnswer c k (.pointer s.regs.opBase) (s.begun c) = engineResult c k s (blockAt c s s.regs.opBase) := rfl
  rw [hans] at hx
  have hlen : (engineResult c k s (blockAt c s s.regs.opBase)).2.length = c.K := engineAnswer_length hL _ _ _ _ _
  have hreg : s.regs.opRes.toNat + c.K ≤ 2 ^ 64 := regionOk_bound (((expParamsOk_iff _ _ _ _).mp hp).2.2.1 rfl)
  refine ⟨fun h0 => ?_, fun h0 => ?_⟩
  · rw [if_pos h0] at hx
    obtain ⟨a, e⟩ : ∃ a : FrontType (expInstr k), (shapeOf c s.collapse (expInstr k)).front (s.begun c) =
        .ok a ((s.begun c).wrapped c k (.pointer s.regs.opBase)) := by cases k <;> exact ⟨(), hx⟩
    have hout : outputOf c s.collapse (expInstr k) a ((s.begun c).wrapped c k (.pointer s.regs.opBase)) =
        (engineResult c k s (blockAt c s s.regs.opBase)).2 := by
      cases k <;> exact take_put_self hlen (length_zeros _)
    obtain ⟨f1, f2, f3, -⟩ := front_ok hu.1 e
    have ht : targetOf s.regs (expInstr k) = s.regs.opRes := by cases k <;> rfl
    have hwl : writesLen (expInstr k) = false := by cases k <;> rfl
    have hx2 := ranOn_of_ok e
    obtain ⟨l, r, -, -, hs, -⟩ := ranOn_undisturbed (c := c) (i := expInstr k) hu
    have hr : ((s.begun c).wrapped c k (.pointer s.regs.opBase)).regs = s.regs := f1.regs
    have hmem : ((s.begun c).wrapped c k (.pointer s.regs.opBase)).mem = s.mem := f1.mem
    rw [hs, hx2]
    refine ⟨emitted_ended _ _ f1 f3, (emitted_rest _ _ _).2.1.trans f2, ?_, ?_⟩
    · show (State.emitted c s.collapse (expInstr k) a _).regs = _
      rw [emitted_regs, hwl, if_neg (by simp), hr]
    · refine stored_of_mem hm (by rw [hlen]; exact hreg) ?_
      show (State.emitted c s.collapse (expInstr k) a _).mem = _
      rw [emitted_mem_fits _ _ _ (by rw [hout, hlen, hr, ht]; exact hreg), hout, hr, hmem, ht]
  · rw [if_neg h0] at hx
    exact (exp_raised k hu hx (by decide)).1

/-- EXP_PLAIN and EXP_CRT on bad pointers (R175, R187). -/
theorem exp_badPointers (k : ExpKind) (hu : s.Undisturbed) (hff : FaultFree c s.nextCommand)
    (hp : expPointersOk c k s.regs = false) :
    FailsWith c s (ranOn c (expInstr k) s) .exponentInvalidParam 0 ∧
      actions (ranOn c (expInstr k) s) =
        [.phase .dispatch, .phase .expCheck, .phase .expHold, .engRst true, .phase .exitScrub, .phase .exitStatus,
          .phase .idle] := by
  have hx := expWrap_badParams (c := c) (s := s.begun c) k (.pointer s.regs.opBase) true rfl hff hp
  have := exp_raised k hu hx (by decide)
  refine ⟨this.1, this.2.trans ?_⟩
  simp

/-! ### ENCRYPT -/

/-- The state ENCRYPT enters the wrapper in, from the one EncodeCore left. -/
def State.assembled (c : Cfg) (u : State) (h : Nat) : State :=
  u.setWork { u.work with em := put u.work.em 0 ([0x00] ++ u.work.seed.take h ++ u.work.db.take (dbLen c h)) }

theorem encryptFront_of_core {h : Nat} {u : State} (e : encodeCore c s = .ok h u) :
    encryptFront c s = expWrap c .plain .internal false (u.assembled c h) := by
  rw [encryptFront, bind_ok e]; rfl

/-- ENCRYPT of an admissible message when the hash and entropy providers succeed (R200, R203). -/
theorem encrypt_answers (hw : c.wf = true) (hL : c.Lawful) (hu : s.Undisturbed) (hm : s.mem.wf = true)
    (hff : FaultFree c s.nextCommand) (hp : encodeParamsOk c s.regs = true) (hd : c.lookup s.regs.hashSel = some d)
    (hle : s.regs.inLen.toNat ≤ maxMessageLen c d.hashLen)
    (hh : ∀ j, j < encodeDigests c d.hashLen → c.hashFail s.nextCommand j = 0)
    (he : (c.entropy s.nextCommand d.hashLen).1 = 0) :
    let em := paddedBlock c s.regs.hashSel d.hashLen (labelBytes s) (messageBytes s) (seedDrawn c s d.hashLen)
    let r := engineResult c .plain s em
    let t := ranOn c .encrypt s
    (encryptPointersOk c s.regs = true → r.1 = 0 →
      Ended c s t .success 0 ∧ t.alarm = false ∧ t.regs = s.regs ∧ Stored s t s.regs.out r.2) ∧
    (encryptPointersOk c s.regs = true → r.1 ≠ 0 → FailsWith c s t .engineFailure r.1) ∧
    (encryptPointersOk c s.regs = false → FailsWith c s t .exponentInvalidParam 0 ∧
      actions t = [.phase .dispatch] ++ (encodeActs c s.regs d.hashLen).reverse ++
        [.phase .expCheck, .phase .expHold, .engRst true, .phase .exitScrub, .phase .exitStatus, .phase .idle]) := by
  have hr := encodeReady_begun hw hL hff hp hd hle
  obtain ⟨u, e, g1, g2, g3, g4, g5, g6, g7, g8, g9⟩ := encodeCore_begun hr hL hh he
  have hlen := paddedBlock_length hw hL hd hle
  have hfront := encryptFront_of_core e
  have hbound : s.regs.out.toNat + c.K ≤ 2 ^ 64 := regionOk_bound (encodeParamsOk_iff.mp hp).2.2.1
  have hff' : FaultFree c (u.assembled c d.hashLen).commands := by
    show FaultFree c u.commands; rw [g4]; exact hff
  have hbase : baseBytes c (u.assembled c d.hashLen) .internal =
      paddedBlock c s.regs.hashSel d.hashLen (labelBytes s) (messageBytes s) (seedDrawn c s d.hashLen) := by
    show (put u.work.em 0 ([0x00] ++ u.work.seed.take d.hashLen ++ u.work.db.take (dbLen c d.hashLen))).take c.K = _
    rw [g7, take_put_self hlen g8]
  have hans : wrapAnswer c .plain .internal (u.assembled c d.hashLen) = engineResult c .plain s
      (paddedBlock c s.regs.hashSel d.hashLen (labelBytes s) (messageBytes s) (seedDrawn c s d.hashLen)) := by
    rw [wrapAnswer, hbase]
    show engineAnswer c u.commands .plain _ ((mandatoryOps c .plain).map fun e => u.mem.readBytes (u.regs.ptr e.1).toNat e.2)
      ((optionalOps c .plain).map fun e => if u.regs.ptr e.1 = 0 then none
        else some (u.mem.readBytes (u.regs.ptr e.1).toNat e.2)) = _
    rw [g4, g5, g2]
    rfl
  have hregs : (u.assembled c d.hashLen).regs = s.regs := g2
  have hx := fun hp2 => expWrap_run (c := c) (s := u.assembled c d.hashLen) .plain .internal false g3
    (g1.trans hu.1.2.2) hff' (by rw [hregs]; exact hp2)
  rw [hans] at hx
  refine ⟨fun hp2 h0 => ?_, fun hp2 h0 => ?_, fun hp2 => ?_⟩
  · have hx := hx hp2
    rw [if_pos h0] at hx
    have e' : (shapeOf c s.collapse .encrypt).front (s.begun c) =
      .ok () ((u.assembled c d.hashLen).wrapped c .plain .internal) := hfront.trans hx
    have hrl : (engineResult c .plain s (paddedBlock c s.regs.hashSel d.hashLen (labelBytes s) (messageBytes s)
      (seedDrawn c s d.hashLen))).2.length = c.K := engineAnswer_length hL _ _ _ _ _
    have hout : outputOf c s.collapse .encrypt () ((u.assembled c d.hashLen).wrapped c .plain .internal) =
        (engineResult c .plain s (paddedBlock c s.regs.hashSel d.hashLen (labelBytes s) (messageBytes s)
          (seedDrawn c s d.hashLen))).2 := by
      show (put _ 0 (wrapAnswer c .plain .internal (u.assembled c d.hashLen)).2).take c.K = _
      rw [hans]
      exact take_put_self hrl g9
    obtain ⟨f1, f2, f3, -⟩ := front_ok hu.1 e'
    have hx2 := ranOn_of_ok e'
    obtain ⟨l, r, -, -, hs, -⟩ := ranOn_undisturbed (c := c) (i := .encrypt) hu
    rw [hs, hx2]
    refine ⟨emitted_ended _ _ f1 f3, (emitted_rest _ _ _).2.1.trans f2, ?_, ?_⟩
    · exact (emitted_regs _ _ _).trans f1.regs
    · refine stored_of_mem hm (by rw [hrl]; exact hbound) ?_
      show (State.emitted c s.collapse .encrypt () _).mem = _
      rw [emitted_mem_fits _ _ _ (by rw [hout, hrl, f1.regs]; exact hbound), hout, f1.mem, f1.regs]
      rfl
  · have hx := hx hp2
    rw [if_neg h0] at hx
    exact (fails_of_raised (i := .encrypt) hu (hfront.trans hx) (by decide)).1
  · have hb := expWrap_badParams (c := c) (s := u.assembled c d.hashLen) .plain .internal false g3 hff'
      (by rw [hregs]; exact hp2)
    have := fails_of_raised (i := .encrypt) hu (hfront.trans hb) (by decide)
    refine ⟨this.1, this.2.trans ?_⟩
    have ha : (u.assembled c d.hashLen).acts = encodeActs c s.regs d.hashLen ++ [.phase .dispatch] := g6
    simp [ha]

/-- An encrypt that fails in EncodeCore fails so in ENCRYPT, and never enters the wrapper (R200, R203 a). -/
theorem encrypt_fails {k : Kind} {info : Word} (hu : s.Undisturbed) (hk : k ≠ .glitchError)
    (e : encodeCore c (s.begun c) = .error (.raised k info) u) :
    FailsWith c s (ranOn c .encrypt s) k info ∧
      actions (ranOn c .encrypt s) = u.acts.reverse ++ [.phase .exitScrub, .phase .exitStatus, .phase .idle] := by
  have e' : encryptFront c (s.begun c) = .error (.raised k info) u := by rw [encryptFront, bind_error e]
  exact fails_of_raised (i := .encrypt) hu e' hk

/-! ### DECRYPT -/

/-- The state DECRYPT enters DecodeCore in. -/
def State.reversed (c : Cfg) (s : State) : State :=
  (((s.begun c).wrapped c .crt (.pointer s.regs.inp)).setPhase .rev).setWork
    { ((s.begun c).wrapped c .crt (.pointer s.regs.inp)).work with
      em := put (Work.zero c).em 0 (revBytes ((put (Work.zero c).res 0
        (wrapAnswer c .crt (.pointer s.regs.inp) (s.begun c)).2).take c.K)) }

theorem decryptFront_run (he : s.engRst = true) (hff : FaultFree c s.nextCommand)
    (hp : decryptPointersOk c s.regs = true) :
    let r := engineResult c .crt s (blockAt c s s.regs.inp)
    (r.1 = 0 → decryptFront c (s.begun c) = decodeCore c (pure ()) (s.reversed c)) ∧
    (r.1 ≠ 0 → decryptFront c (s.begun c) =
      .error (.raised .engineFailure r.1) ((s.begun c).wrapped c .crt (.pointer s.regs.inp))) := by
  have hx := expWrap_run (c := c) (s := s.begun c) .crt (.pointer s.regs.inp) false rfl he hff hp
  have hans : wrapAnswer c .crt (.pointer s.regs.inp) (s.begun c) = engineResult c .crt s (blockAt c s s.regs.inp) := rfl
  rw [hans] at hx
  refine ⟨fun h0 => ?_, fun h0 => ?_⟩
  · rw [if_pos h0] at hx
    show (expWrap c .crt (.pointer s.regs.inp) false >>= fun _ => reverseResult c >>= fun _ =>
      decodeCore c (pure ())) (s.begun c) = _
    have hrev : reverseResult c ((s.begun c).wrapped c .crt (.pointer s.regs.inp)) = .ok () (s.reversed c) := by
      rw [reverseResult, bind_ok (phase_run _ rfl)]; rfl
    rw [bind_ok hx, bind_ok hrev]
  · rw [if_neg h0] at hx
    show (expWrap c .crt (.pointer s.regs.inp) false >>= fun _ => reverseResult c >>= fun _ =>
      decodeCore c (pure ())) (s.begun c) = _
    rw [bind_error hx]

/-- The block DECRYPT decodes: the engine's result reversed (R202). -/
theorem reversed_em (hL : c.Lawful) : (s.reversed c).work.em =
    revBytes (engineResult c .crt s (blockAt c s s.regs.inp)).2 ∧ (s.reversed c).work.em.length = c.K := by
  have hlen : (engineResult c .crt s (blockAt c s s.regs.inp)).2.length = c.K := engineAnswer_length hL _ _ _ _ _
  have e : (s.reversed c).work.em = put (Work.zero c).em 0 (revBytes (engineResult c .crt s (blockAt c s s.regs.inp)).2) := by
    show put (Work.zero c).em 0 (revBytes ((put (Work.zero c).res 0
      (engineResult c .crt s (blockAt c s s.regs.inp)).2).take c.K)) = _
    rw [take_put_self hlen (Work.zero_sized c).res]
  have h2 : put (Work.zero c).em 0 (revBytes (engineResult c .crt s (blockAt c s s.regs.inp)).2) =
      revBytes (engineResult c .crt s (blockAt c s s.regs.inp)).2 := by
    simp [put, Work.zero, revBytes, hlen]
  rw [e, h2]
  exact ⟨rfl, by simp [revBytes, hlen]⟩

theorem decodeReady_reversed (hw : c.wf = true) (hL : c.Lawful) (hff : FaultFree c s.nextCommand)
    (hp : decodeParamsOk c s.regs = true) (hd : c.lookup s.regs.hashSel = some d) :
    DecodeReady c (s.reversed c) d (pure ()) (s.reversed c).work [] where
  wf := hw
  live := rfl
  faultFree := hff
  params := hp
  lookup := hd
  hash := hash_length hL hd
  load := rfl
  sized := { Work.zero_sized c with
    em := (length_put _ _ _).trans (Work.zero_sized c).em
    res := (length_put _ _ _).trans (Work.zero_sized c).res }

/-- DECRYPT when the engine succeeds and no hash call fails (R201, R202). -/
theorem decrypt_answers (hw : c.wf = true) (hL : c.Lawful) (hu : s.Undisturbed) (hm : s.mem.wf = true)
    (hff : FaultFree c s.nextCommand) (hk : decryptPointersOk c s.regs = true)
    (h0 : (engineResult c .crt s (blockAt c s s.regs.inp)).1 = 0)
    (hp : decodeParamsOk c s.regs = true) (hd : c.lookup s.regs.hashSel = some d) (hh : HashSucceeds c s.nextCommand) :
    DecodeAnswer c s (ranOn c .decrypt s) (decodeVerdict c s.regs.hashSel d.hashLen (labelBytes s) s.collapse
      (revBytes (engineResult c .crt s (blockAt c s s.regs.inp)).2)) := by
  have hr := decodeReady_reversed hw hL hff hp hd
  obtain ⟨h1, hk2⟩ := wf_lookup hw hd
  obtain ⟨hem, heml⟩ := reversed_em (s := s) hL
  have hfront : (shapeOf c s.collapse .decrypt).front (s.begun c) = decodeCore c (pure ()) (s.reversed c) :=
    (decryptFront_run hu.1.2.2 hff hk).1 h0
  rw [← hem]
  refine decodeAnswer_of_core hu hm (.inr rfl) (length_recoveredDb hk2 h1 (hash_length hL hd) heml)
    (regionOk_bound ((decodeParamsOk_iff hd).mp hp).2.1) ?_
  by_cases hy : (s.reversed c).work.em.take 1 = [0x00]
  · have hx := decodeCore_run hr hy (fun j _ => hh _)
    rw [← hfront] at hx
    change (shapeOf c s.collapse .decrypt).front (s.begun c) = match decodeVerdict c s.regs.hashSel d.hashLen (labelBytes s)
      s.collapse (s.reversed c).work.em with | .ok m => _ | .error k => _ at hx
    cases hv : decodeVerdict c s.regs.hashSel d.hashLen (labelBytes s) s.collapse (s.reversed c).work.em with
    | ok m => rw [hv] at hx; exact ⟨m, _, hx, rfl⟩
    | error k => rw [hv] at hx; exact ⟨_, hx⟩
  · have hx := decodeCore_byteMismatch hr hy
    have hv : decodeVerdict c s.regs.hashSel d.hashLen (labelBytes s) s.collapse (s.reversed c).work.em =
        .error .byteMismatchError := by unfold decodeVerdict; rw [if_pos hy]
    rw [hv]
    exact ⟨_, hfront.trans hx⟩

/-- What DecodeCore raises in DECRYPT, DECRYPT fails with (R201). -/
theorem decrypt_fails {k : Kind} {info : Word} (hu : s.Undisturbed) (hff : FaultFree c s.nextCommand)
    (hk : decryptPointersOk c s.regs = true) (h0 : (engineResult c .crt s (blockAt c s s.regs.inp)).1 = 0)
    (hne : k ≠ .glitchError) (e : decodeCore c (pure ()) (s.reversed c) = .error (.raised k info) u) :
    FailsWith c s (ranOn c .decrypt s) k info ∧
      actions (ranOn c .decrypt s) = u.acts.reverse ++ [.phase .exitScrub, .phase .exitStatus, .phase .idle] :=
  fails_of_raised (i := .decrypt) hu (((decryptFront_run hu.1.2.2 hff hk).1 h0).trans e) hne

/-- DECRYPT when the engine fails (R180, R201). -/
theorem decrypt_engineFailure (hu : s.Undisturbed) (hff : FaultFree c s.nextCommand)
    (hk : decryptPointersOk c s.regs = true) (h0 : (engineResult c .crt s (blockAt c s s.regs.inp)).1 ≠ 0) :
    FailsWith c s (ranOn c .decrypt s) .engineFailure (engineResult c .crt s (blockAt c s s.regs.inp)).1 :=
  (fails_of_raised (i := .decrypt) hu ((decryptFront_run hu.1.2.2 hff hk).2 h0) (by decide)).1

/-- DECRYPT on bad pointers (R175, R203 d). -/
theorem decrypt_badPointers (hu : s.Undisturbed) (hff : FaultFree c s.nextCommand)
    (hp : decryptPointersOk c s.regs = false) :
    FailsWith c s (ranOn c .decrypt s) .exponentInvalidParam 0 ∧
      actions (ranOn c .decrypt s) =
        [.phase .dispatch, .phase .expCheck, .phase .expHold, .engRst true, .phase .exitScrub, .phase .exitStatus,
          .phase .idle] := by
  have hx := expWrap_badParams (c := c) (s := s.begun c) .crt (.pointer s.regs.inp) false rfl hff hp
  have e : decryptFront c (s.begun c) = .error (.raised .exponentInvalidParam 0)
      (((((s.begun c).setPhase .expCheck).bumpEvals).setPhase .expHold).setEngRst true) := by
    show (expWrap c .crt (.pointer s.regs.inp) false >>= fun _ => reverseResult c >>= fun _ =>
      decodeCore c (pure ())) (s.begun c) = _
    rw [bind_error hx]
  have := fails_of_raised (i := .decrypt) hu e (by decide)
  refine ⟨this.1, this.2.trans ?_⟩
  simp

end Sys2Proof.Machine
end

