-- ==== Sys2Proof/Laws/Total.lean ====
section
/-! SUPPORT. On the fault-free machine the front part of every command ends or raises; what one glitch can do (R255), and
where a command's output lies without a double inversion (U8). -/

namespace Sys2Proof.Machine

variable {c : Cfg} {i : Instr} {s u : State} {d : HashDescriptor}

/-! ### The fault-free machine always goes on -/

/-- Of the first `n` draws, all succeed or one is the first to fail. -/
theorem first_failure (f : Nat → Word) (n : Nat) :
    (∀ j, j < n → f j = 0) ∨ ∃ j, j < n ∧ f j ≠ 0 ∧ ∀ i, i < j → f i = 0 := by
  induction n with
  | zero => exact .inl fun j hj => by omega
  | succ n ih =>
    rcases ih with h | ⟨j, h1, h2, h3⟩
    · by_cases h0 : f n = 0
      · refine .inl fun j hj => ?_
        rcases Nat.lt_or_ge j n with hj' | hj'
        · exact h j hj'
        · rw [show j = n by omega]; exact h0
      · exact .inr ⟨n, by omega, h0, h⟩
    · exact .inr ⟨j, by omega, h2, h3⟩

/-- A piece of a command raised a kind by rule. -/
def Raises {α : Type} (r : EStateM.Result Stop State α) : Prop :=
  ∃ k info u, r = .error (.raised k info) u ∧ k ≠ .glitchError

theorem encodeCore_total (hw : c.wf = true) (hL : c.Lawful) (hff : FaultFree c s.nextCommand) :
    (∃ d, EncodeReady c (s.begun c) d ∧ (∀ j, j < encodeDigests c d.hashLen → c.hashFail s.nextCommand j = 0) ∧
      (c.entropy s.nextCommand d.hashLen).1 = 0) ∨ Raises (encodeCore c (s.begun c)) := by
  by_cases hp : encodeParamsOk c s.regs = true
  · obtain ⟨d, hd⟩ := Option.isSome_iff_exists.mp (encodeParamsOk_iff.mp hp).1
    by_cases hle : s.regs.inLen.toNat ≤ maxMessageLen c d.hashLen
    · have hr := encodeReady_begun hw hL hff hp hd hle
      have hpos : 0 < encodeDigests c d.hashLen := by unfold encodeDigests; omega
      rcases first_failure (c.hashFail s.nextCommand) (encodeDigests c d.hashLen) with h | ⟨j, h1, h2, h3⟩
      · by_cases he : (c.entropy s.nextCommand d.hashLen).1 = 0
        · exact .inl ⟨d, hr, h, he⟩
        · obtain ⟨u, e⟩ := encodeCore_entropyFail hr (h 0 hpos) he
          exact .inr ⟨_, _, u, e, by decide⟩
      · have h2' : c.hashFail (s.begun c).commands ((s.begun c).hashCalls + j) ≠ 0 := by
          show c.hashFail s.nextCommand (0 + j) ≠ 0
          rw [Nat.zero_add]; exact h2
        have h3' : ∀ i, i < j → c.hashFail (s.begun c).commands ((s.begun c).hashCalls + i) = 0 := fun i hi => by
          show c.hashFail s.nextCommand (0 + i) = 0
          rw [Nat.zero_add]; exact h3 i hi
        by_cases he : (c.entropy s.nextCommand d.hashLen).1 = 0
        · obtain ⟨u, e⟩ := encodeCore_hashFail hr h1 h3' h2' fun _ => he
          exact .inr ⟨_, _, u, e, by decide⟩
        · rcases Nat.eq_zero_or_pos j with rfl | hj
          · obtain ⟨u, e⟩ := encodeCore_hashFail hr h1 h3' h2' (by omega)
            exact .inr ⟨_, _, u, e, by decide⟩
          · obtain ⟨u, e⟩ := encodeCore_entropyFail hr (h3 0 hj) he
            exact .inr ⟨_, _, u, e, by decide⟩
    · obtain ⟨u, e, -⟩ := encodeCore_tooLong (s := s.begun c) hw rfl hff hp hd (Nat.not_le.mp hle)
      exact .inr ⟨_, _, u, e, by decide⟩
  · obtain ⟨u, e, -⟩ := encodeCore_badParams (c := c) (s := s.begun c) rfl hff (by simpa using hp)
    exact .inr ⟨_, _, u, e, by decide⟩

/-- DecodeCore on a state it is ready in. -/
theorem decodeCore_total {load : Cmd Unit} {w : Work} {la : List Action} (hr : DecodeReady c s d load w la) :
    (∃ m u, decodeCore c load s = .ok m u ∧ m.length ≤ maxMessageLen c d.hashLen) ∨ Raises (decodeCore c load s) := by
  obtain ⟨h1, hk⟩ := wf_lookup hr.wf hr.lookup
  by_cases hy : w.em.take 1 = [0x00]
  · rcases first_failure (fun j => c.hashFail s.commands (s.hashCalls + j)) (decodeDigests c d.hashLen) with
      h | ⟨j, hj, h2, h3⟩
    · have hx := decodeCore_run hr hy h
      cases hv : decodeVerdict c s.regs.hashSel d.hashLen (labelBytes s) s.collapse w.em with
      | ok m =>
        rw [hv] at hx
        exact .inl ⟨m, _, hx, verdict_length (length_recoveredDb hk h1 hr.hash hr.sized.em) hv⟩
      | error k => rw [hv] at hx; exact .inr ⟨k, 0, _, hx, verdict_ne_glitch hv⟩
    · obtain ⟨u, e⟩ := decodeCore_hashFail hr hy hj h3 h2
      exact .inr ⟨_, _, u, e, by decide⟩
  · exact .inr ⟨_, _, _, decodeCore_byteMismatch hr hy, by decide⟩

theorem decodeParamsOk_lookup {r : Regs} (h : decodeParamsOk c r = true) : ∃ d, c.lookup r.hashSel = some d := by
  unfold decodeParamsOk at h
  split at h
  · cases h
  · rename_i d hd; exact ⟨d, hd⟩

/-- On the fault-free machine the front part of every command ends, with an output that fits its region, or raises. -/
theorem front_total (hw : c.wf = true) (hL : c.Lawful) (hff : FaultFree c s.nextCommand) (he : s.engRst = true) (i : Instr) :
    (∃ a u, (shapeOf c s.collapse i).front (s.begun c) = .ok a u ∧
      (targetOf s.regs i).toNat + (outputOf c s.collapse i a u).length ≤ 2 ^ 64) ∨
    Raises ((shapeOf c s.collapse i).front (s.begun c)) := by
  have exp (k : ExpKind) : (∃ u, expWrap c k (.pointer s.regs.opBase) true (s.begun c) = .ok () u ∧
      s.regs.opRes.toNat + c.K ≤ 2 ^ 64) ∨ Raises (expWrap c k (.pointer s.regs.opBase) true (s.begun c)) := by
    by_cases hp : expPointersOk c k s.regs = true
    · have hx := expWrap_run (c := c) (s := s.begun c) k (.pointer s.regs.opBase) true rfl he hff hp
      by_cases h0 : (wrapAnswer c k (.pointer s.regs.opBase) (s.begun c)).1 = 0
      · rw [if_pos h0] at hx
        exact .inl ⟨_, hx, regionOk_bound (((expParamsOk_iff _ _ _ _).mp hp).2.2.1 rfl)⟩
      · rw [if_neg h0] at hx
        exact .inr ⟨_, _, _, hx, by decide⟩
    · exact .inr ⟨_, _, _, expWrap_badParams (c := c) (s := s.begun c) k (.pointer s.regs.opBase) true rfl hff
        (by simpa [expPointersOk] using hp), by decide⟩
  have len (x : Bytes) : (x.take c.K).length ≤ c.K := List.length_take_le _ _
  cases i with
  | encode =>
    rcases encodeCore_total hw hL hff with ⟨d, hr, h1, h2⟩ | h
    · obtain ⟨u, e, -⟩ := encodeCore_begun hr hL h1 h2
      refine .inl ⟨d.hashLen, u, e, ?_⟩
      have hb : s.regs.out.toNat + c.K ≤ 2 ^ 64 := regionOk_bound (encodeParamsOk_iff.mp hr.params).2.2.1
      exact Nat.le_trans (Nat.add_le_add_left (len _) _) hb
    · exact .inr h
  | decode =>
    by_cases hp : decodeParamsOk c s.regs = true
    · obtain ⟨d, hd⟩ := decodeParamsOk_lookup hp
      rcases decodeCore_total (decodeReady_memory hw hL hff hp hd) with ⟨m, u, e, hl⟩ | h
      · refine .inl ⟨m, u, e, ?_⟩
        have hb : s.regs.out.toNat + maxMessageLen c d.hashLen ≤ 2 ^ 64 :=
          regionOk_bound ((decodeParamsOk_iff hd).mp hp).2.1
        exact Nat.le_trans (Nat.add_le_add_left hl _) hb
      · exact .inr h
    · obtain ⟨u, e, -⟩ := decodeCore_badParams (c := c) (s := s.begun c) (load := loadEmFromMemory c) rfl hff (by simpa using hp)
      exact .inr ⟨_, _, u, e, by decide⟩
  | expPlain =>
    rcases exp .plain with ⟨u, e, hb⟩ | h
    · exact .inl ⟨(), u, e, Nat.le_trans (Nat.add_le_add_left (len _) _) hb⟩
    · exact .inr h
  | expCrt =>
    rcases exp .crt with ⟨u, e, hb⟩ | h
    · exact .inl ⟨(), u, e, Nat.le_trans (Nat.add_le_add_left (len _) _) hb⟩
    · exact .inr h
  | encrypt =>
    rcases encodeCore_total hw hL hff with ⟨d, hr, h1, h2⟩ | ⟨k, info, u, e, hk⟩
    · obtain ⟨u, e, g1, g2, g3, g4, -⟩ := encodeCore_begun hr hL h1 h2
      have hfront := encryptFront_of_core e
      have hff' : FaultFree c (u.assembled c d.hashLen).commands := by
        show FaultFree c u.commands; rw [g4]; exact hff
      by_cases hp2 : expParamsOk c .plain .internal false (u.assembled c d.hashLen).regs = true
      · have hx := expWrap_run (c := c) (s := u.assembled c d.hashLen) .plain .internal false g3 (g1.trans he) hff' hp2
        by_cases h0 : (wrapAnswer c .plain .internal (u.assembled c d.hashLen)).1 = 0
        · rw [if_pos h0] at hx
          have hb : s.regs.out.toNat + c.K ≤ 2 ^ 64 := regionOk_bound (encodeParamsOk_iff.mp hr.params).2.2.1
          exact .inl ⟨(), _, hfront.trans hx, Nat.le_trans (Nat.add_le_add_left (len _) _) hb⟩
        · rw [if_neg h0] at hx
          exact .inr ⟨_, _, _, hfront.trans hx, by decide⟩
      · exact .inr ⟨_, _, _, hfront.trans (expWrap_badParams (c := c) (s := u.assembled c d.hashLen) .plain .internal false
          g3 hff' (by simpa using hp2)), by decide⟩
    · exact .inr ⟨k, info, u, by
        show encryptFront c (s.begun c) = _
        rw [encryptFront, bind_error e], hk⟩
  | decrypt =>
    have bind_raises {f : Unit → Cmd Bytes} {k info v} (e : expWrap c .crt (.pointer s.regs.inp) false (s.begun c) =
        .error (.raised k info) v) : (expWrap c .crt (.pointer s.regs.inp) false >>= f) (s.begun c) =
        .error (.raised k info) v := bind_error e
    by_cases hp : decryptPointersOk c s.regs = true
    · obtain ⟨r1, r2⟩ := decryptFront_run he hff hp
      by_cases h0 : (engineResult c .crt s (blockAt c s s.regs.inp)).1 = 0
      · by_cases hp2 : decodeParamsOk c s.regs = true
        · obtain ⟨d, hd⟩ := decodeParamsOk_lookup hp2
          rcases decodeCore_total (decodeReady_reversed hw hL hff hp2 hd) with ⟨m, u, e, hl⟩ | ⟨k, info, u, e, hk⟩
          · refine .inl ⟨m, u, (r1 h0).trans e, ?_⟩
            have hb : s.regs.out.toNat + maxMessageLen c d.hashLen ≤ 2 ^ 64 :=
              regionOk_bound ((decodeParamsOk_iff hd).mp hp2).2.1
            exact Nat.le_trans (Nat.add_le_add_left hl _) hb
          · exact .inr ⟨k, info, u, (r1 h0).trans e, hk⟩
        · obtain ⟨u, e, -⟩ := decodeCore_badParams (c := c) (s := s.reversed c) (load := pure ()) rfl hff
            (show decodeParamsOk c s.regs = false by simpa using hp2)
          exact .inr ⟨_, _, u, (r1 h0).trans e, by decide⟩
      · exact .inr ⟨_, _, _, r2 h0, by decide⟩
    · exact .inr ⟨_, _, _, bind_raises (expWrap_badParams (c := c) (s := s.begun c) .crt (.pointer s.regs.inp) false rfl hff
        (by simpa [decryptPointersOk] using hp)), by decide⟩

/-! ### One glitch (R255) -/

theorem glitchFree_faultFree (c : Cfg) (k : Nat) : FaultFree c.glitchFree k := fun _ _ _ => rfl

theorem shapeOf_glitchFree (c : Cfg) (col : Bool) (i : Instr) :
    (shapeOf c col i).front' = (shapeOf c.glitchFree col i).front := by cases i <;> rfl

/-- With no double inversion the front part of a command is the one of the glitch-free machine, or ends with
GlitchError (R255). -/
theorem front_orGlitch (n : Named) (hl : noReset s.live = true) (hd : NoDoubleInversion c s.nextCommand) :
    (shapeOf c s.collapse i).front (s.accept c n) = (shapeOf c.glitchFree s.collapse i).front (s.accept c n) ∨
    ∃ t, (shapeOf c s.collapse i).front (s.accept c n) = .error (.raised .glitchError 0) t := by
  rw [← shapeOf_glitchFree]
  exact (shapeOf c s.collapse i).piece.orGlitch (s := s.accept c n) hd rfl hl rfl

/-- With no double inversion a command is the one of the glitch-free machine, or ends GlitchError with the alarm raised
and no output (R255). -/
theorem ranOn_orGlitch (hu : s.Undisturbed) (hd : NoDoubleInversion c s.nextCommand) :
    ranOn c i s = ranOn c.glitchFree i s ∨
    (Ended c s (ranOn c i s) .glitchError 0 ∧ NoOutput s (ranOn c i s) ∧ (ranOn c i s).alarm = true) := by
  rcases front_orGlitch (i := i) (namedRegions c i s.regs) hu.2.1 hd with e | ⟨t, e⟩
  · left
    change (shapeOf c s.collapse i).front (s.taken c i) = (shapeOf c.glitchFree s.collapse i).front (s.taken c i) at e
    have hb : bodyOf c i (s.taken c i) = bodyOf c.glitchFree i (s.taken c i) := by
      rw [show bodyOf c i (s.taken c i) = ((shapeOf c s.collapse i).front >>= _) (s.taken c i) from
        congrFun (shapeOf c s.collapse i).eq _,
        show bodyOf c.glitchFree i (s.taken c i) = ((shapeOf c.glitchFree s.collapse i).front >>= _) (s.taken c i) from
        congrFun (shapeOf c.glitchFree s.collapse i).eq _]
      cases hf : (shapeOf c s.collapse i).front (s.taken c i) with
      | ok a t => rw [bind_ok hf, bind_ok (e.symm.trans hf)]; cases i <;> rfl
      | error x t => rw [bind_error hf, bind_error (e.symm.trans hf)]
    have ha : s.taken c.glitchFree i = s.taken c i := by cases i <;> rfl
    rw [ranOn, ranOn, ha]
    unfold runBody
    rw [hb]
    cases bodyOf c.glitchFree i (s.taken c i) with
    | ok a t => rfl
    | error x t => cases x <;> rfl
  · right
    change (shapeOf c s.collapse i).front (s.taken c i) = .error (.raised .glitchError 0) t at e
    obtain ⟨-, -, n, -, hh⟩ := (shapeOf c s.collapse i).piece.hosted (s := s.taken c i) rfl rfl
    have e0 : ∃ v, (shapeOf c s.collapse i).front (s.begun c) = .error (.raised .glitchError 0) v := by
      rcases hh with ⟨l, r, -, h⟩ | ⟨_, _, -, -, hn, -⟩
      · rw [e] at h
        change _ = onState _ ((shapeOf c s.collapse i).front (s.begun c)) at h
        cases hf : (shapeOf c s.collapse i).front (s.begun c) with
        | ok a v => rw [hf] at h; cases h
        | error x v => rw [hf] at h; cases h; exact ⟨v, rfl⟩
      · have hn' : noReset s.live = false := hn.noReset
        rw [hu.2.1] at hn'; cases hn'
    obtain ⟨v, e0⟩ := e0
    obtain ⟨f1, f2, f3, -⟩ := front_raised hu.1 e0
    have ha : v.alarm = true := by
      rcases f2 with ⟨-, -, h⟩ | ⟨-, h, -⟩
      · exact h
      · exact absurd rfl h
    obtain ⟨l, r, -, -, hs, -⟩ := ranOn_undisturbed (c := c) (i := i) hu
    rw [hs, ranOn_of_raised e0]
    exact ⟨left_ended f1 f3, ⟨f1.mem, f1.regs⟩, ha⟩

/-- Without a double inversion the output of a command that emits lies inside the address space (U8). -/
theorem output_fits (hw : c.wf = true) (hL : c.Lawful) (h : s.Ready) (hd : NoDoubleInversion c s.nextCommand)
    {a : FrontType i} (e : (shapeOf c s.collapse i).front (s.begun c) = .ok a u) :
    (targetOf s.regs i).toNat + (outputOf c s.collapse i a u).length ≤ 2 ^ 64 := by
  rcases front_orGlitch (c := c) (s := s.alone) (i := i) {} rfl hd with hg | ⟨t, hg⟩
  · have hg' : (shapeOf c.glitchFree s.collapse i).front (s.begun c.glitchFree) = .ok a u := hg.symm.trans e
    rcases front_total (c := c.glitchFree) hw ⟨hL.strayOk, hL.hashLength, hL.entropyLength, hL.plainLength, hL.crtLength, hL.failedLength⟩
      (glitchFree_faultFree c _) h.2.2 i with ⟨a', u', e', hr⟩ | ⟨_, _, _, e', _⟩
    · rw [hg'] at e'
      cases e'
      cases i <;> exact hr
    · rw [hg'] at e'; cases e'
  · have := hg.symm.trans e
    cases this

end Sys2Proof.Machine
end

