-- ==== Sys2Proof/Laws/Keeps.lean ====
section
/-! SUPPORT. What every command keeps: the canonical form of memory and the resting invariant (R41, R45, R224); and
everything one step can do. -/

namespace Sys2Proof.Machine

variable {c : Cfg} {i : Instr} {s t u : State} {α β : Type}

/-! ### Memory keeps its canonical form -/

theorem writeReg_rest (s : State) (v : Word) (r : Reg) : (writeReg s v r).mem = s.mem ∧
    (writeReg s v r).busy = s.busy ∧ (writeReg s v r).engRst = s.engRst ∧ (writeReg s v r).code = s.code ∧
    (writeReg s v r).codeN = s.codeN ∧ (writeReg s v r).alarm = s.alarm ∧ (writeReg s v r).ph = s.ph ∧
    (writeReg s v r).work = s.work ∧ (writeReg s v r).flags = s.flags := by
  cases r <;> and_intros <;> rfl

theorem hostWrite_rest (s : State) (v : Word) (r : Reg) : (hostWrite s v r).mem = s.mem ∧
    (hostWrite s v r).busy = s.busy ∧ (hostWrite s v r).engRst = s.engRst ∧ (hostWrite s v r).code = s.code ∧
    (hostWrite s v r).codeN = s.codeN ∧ (hostWrite s v r).alarm = s.alarm ∧ (hostWrite s v r).ph = s.ph ∧
    (hostWrite s v r).work = s.work ∧ (hostWrite s v r).flags = s.flags := by
  unfold hostWrite
  split
  · and_intros <;> rfl
  · exact writeReg_rest s v r

theorem phase_mem (p : Phase) (s : State) : (stateOf (phase c p s)).mem = s.mem := by
  rcases hostSlot_cases (c := c) s with ⟨u, h, hm, -⟩ | ⟨u, h, hm, -⟩
  · rw [phase, bind_ok h]; exact hm
  · rw [phase, bind_error h]; exact hm

theorem exitPoint_mem (k : Kind) (info : Word) (s : State) : (stateOf (exitPoint c k info s)).mem = s.mem := by
  have h := phase_mem (c := c) .exitScrub s
  unfold exitPoint
  revert h
  cases e : phase c .exitScrub s with
  | ok a t =>
    intro h
    rw [bind_ok e, modify_bind_run]
    have h2 := phase_mem (c := c) .exitStatus (t.scrub c)
    revert h2
    cases e2 : phase c .exitStatus (t.scrub c) with
    | ok b v => intro h2; rw [bind_ok e2]; exact h2.trans h
    | error x v => intro h2; rw [bind_error e2]; cases x <;> exact h2.trans h
  | error x t => intro h; rw [bind_error e]; cases x <;> exact h

theorem emitted_length (a : Addr) (v : Bytes) : (emitted c s a v).length = v.length := by
  unfold emitted
  split
  · exact torn_length c _ (by simp)
  · rfl

/-- An emission keeps the canonical form, whatever the host does. -/
theorem emit_wf {p : Phase} {g : State → State} {a : Regs → Addr} {v : State → Bytes} {len : Bool}
    (hg : ∀ u, (g u).mem = u.mem) (hm : s.mem.wf = true) : (stateOf (emit c p g a v len s)).mem.wf = true := by
  have hp := phase_mem (c := c) p s
  revert hp
  cases e : phase c p s with
  | error x u =>
    intro hp
    rw [emit, bind_error e]
    exact (congrArg Memory.wf hp).trans hm
  | ok b u =>
    intro hp
    rw [emit_run e]
    show (State.mem (State.wrote ..)).wf = true
    have hu : (g u).mem.wf = true := by rw [hg, show u.mem = s.mem from hp]; exact hm
    rw [wrote_mem]
    split
    · exact hu
    · refine Memory.wf_writeBytes hu ?_
      have := (a (g u).regs).isLt
      rw [emitted_length, List.length_take]
      unfold roomAbove
      omega

/-- A command body keeps the canonical form of memory, whatever the host does. -/
theorem runBody_wf {ks : List Kind} {body : Cmd Unit} (sh : Shape c ks s.collapse body α) (hb : s.busy = true)
    (hm : s.mem.wf = true) : (runBody c body s).mem.wf = true := by
  have key : (stateOf (body s)).mem.wf = true := by
    rw [show body s = (sh.front >>= _) s from congrFun sh.eq s]
    have hg := sh.piece.goodEnd (s := s.alone) hb rfl rfl
    obtain ⟨-, -, n, -, hh⟩ := sh.piece.hosted (s := s) hb rfl
    have hf : (stateOf (sh.front s)).mem = s.mem := by
      rcases hh with ⟨l, r, -, e⟩ | ⟨u, k, -, e, -, -, g⟩
      · rw [e]
        revert hg
        cases sh.front s.alone with
        | ok a t => exact fun hg => hg.1.mem
        | error x t =>
          cases x with
          | raised k info => exact fun hg => hg.1.mem
          | resetHit => exact fun hg => hg.elim
      · rw [e]; exact g
    have hf' : (stateOf (sh.front s)).mem.wf = true := by rw [hf]; exact hm
    revert hf'
    cases e : sh.front s with
    | error x t => intro hf'; rw [bind_error e]; exact hf'
    | ok a t => intro hf'; rw [bind_ok e]; exact emit_wf (fun u => ((sh.tame a).framed u).mem) hf'
  unfold runBody
  revert key
  cases body s with
  | ok a t => intro key; show (stateOf (exitPoint c .success 0 t)).mem.wf = true; rw [exitPoint_mem]; exact key
  | error x t =>
    cases x with
    | raised k info =>
      intro key
      show (stateOf (exitPoint c k info t)).mem.wf = true
      rw [exitPoint_mem]; exact key
    | resetHit => exact id

/-! ### The resting invariant -/

theorem resting_emitted {a : FrontType i} {l r} (he : u.engRst = true) :
    Resting c ((u.emitted c s.collapse i a).served l r) := by
  have he' : (u.emitted c s.collapse i a).engRst = true := (emitted_rest (c := c) s.collapse a u).2.2.1.trans he
  exact ⟨rfl, he', rfl, rfl, rfl, rfl⟩

theorem resting_left {k : Kind} {info : Word} {l r} (he : u.engRst = true) : Resting c ((u.left c k info).served l r) :=
  ⟨rfl, he, rfl, rfl, rfl, rfl⟩

theorem resting_reset (c : Cfg) (s : State) : Resting c (State.hardReset c s) :=
  ⟨rfl, rfl, by show (0xFE : Byte) = 0x01 ^^^ 0xFF; decide, rfl, rfl, rfl⟩

theorem resting_gone {w : State} (g : Gone c w u) : Resting c u := by
  rw [g]; exact ⟨rfl, rfl, by show (0xFE : Byte) = 0x01 ^^^ 0xFF; decide, rfl, rfl, rfl⟩

theorem apply_wf {m : Memory} (hm : m.wf = true) (x : MemAccess) : (MemAccess.apply m x).wf = true := by
  cases x with
  | store a bytes =>
    simp only [MemAccess.apply]
    split
    · rename_i h; exact Memory.wf_writeBytes hm (by simpa [inSpace] using h)
    · exact hm
  | look a n => exact hm

/-- What the host did to data memory keeps its canonical form. -/
theorem joined_wf (l : List MemAccess) : ∀ {m : Memory}, m.wf = true → (m.joined l).wf = true := by
  induction l with
  | nil => exact fun hm => hm
  | cons x l ih => exact fun hm => ih (apply_wf hm x)

/-- A store that is allowed leaves every byte of a region the command names (R296 P2, P3). -/
theorem apply_named {n : Named} {e : Addr × Nat} {x : Nat} (he : e ∈ n.inputs ++ n.outputs) (h0 : e.1 ≠ 0)
    (h1 : e.1.toNat ≤ x) (h2 : x < e.1.toNat + e.2) {m : Memory} (hm : m.wf = true) {y : MemAccess}
    {o : List (Addr × Nat)} (hy : y.allowed n o = true) : (MemAccess.apply m y).read x = m.read x := by
  cases y with
  | look a k => rfl
  | store a bytes =>
    simp only [MemAccess.allowed, clearOf, Bool.and_eq_true, List.all_eq_true] at hy
    have hin : a.toNat + bytes.length ≤ 2 ^ 64 := by simpa [inSpace] using hy.1
    have hd := hy.2 e he
    simp only [meets, h0, Bool.not_eq_true', Bool.and_eq_false_iff, decide_eq_false_iff_not, ne_eq, not_true,
      not_false_eq_true, false_or] at hd
    simp only [MemAccess.apply, hy.1, if_true]
    exact Memory.read_writeBytes_outside hm hin (by omega)

/-- What an allowed host stored while a command ran left every byte of the regions the command names. -/
theorem joined_named {n : Named} {e : Addr × Nat} {x : Nat} (he : e ∈ n.inputs ++ n.outputs) (h0 : e.1 ≠ 0)
    (h1 : e.1.toNat ≤ x) (h2 : x < e.1.toNat + e.2) (l : List MemAccess)
    {o : List (Addr × Nat)} : ∀ {m : Memory}, m.wf = true → l.all (MemAccess.allowed n o) = true → (m.joined l).read x = m.read x := by
  induction l with
  | nil => exact fun _ _ => rfl
  | cons y l ih =>
    intro m hm hl
    rw [List.all_cons, Bool.and_eq_true] at hl
    exact (ih (apply_wf hm y) hl.2).trans (apply_named he h0 h1 h2 hm hl.1)

/-- What the end of a command keeps (R41, R45, R224). -/
theorem conclude_inv {n : Named} {u : State} (hm : u.mem.wf = true) (r : Resting c u) {l : List LiveSlot}
    (h : u.conclude n l = .next t) : Inv c t := by
  rw [State.conclude_next h]
  exact ⟨joined_wf _ hm, r.busy, r.engRst, r.codeN, r.phase, r.work, r.flags⟩

/-- A command written to a locked block keeps the invariant (R221). -/
theorem answerLocked_inv (hi : Inv c s) : Inv c s.answerLocked :=
  ⟨hi.mem, hi.resting.busy, hi.resting.engRst, rfl, hi.resting.phase, hi.resting.work, hi.resting.flags⟩

/-- An accepted command of any word keeps the invariant when its body does. -/
theorem issue_inv {body : Cmd Unit} {n : Named} (hi : Inv c s)
    (hb : s.Ready → (runBody c body (s.accept c n)).mem.wf = true ∧ Resting c (runBody c body (s.accept c n)))
    (h : issue c body n s = .next t) : Inv c t := by
  rw [issue, if_neg (by simp [hi.resting.busy])] at h
  cases ha : s.alarm with
  | true => rw [if_pos ha] at h; cases h; exact answerLocked_inv hi
  | false =>
    rw [if_neg (by simp [ha])] at h
    obtain ⟨h1, h2⟩ := hb ⟨hi.resting.busy, ha, hi.resting.engRst⟩
    exact conclude_inv h1 h2 h

theorem ranOn_resting (hr : s.Ready) (hm : s.mem.wf = true) : Resting c (ranOn c i s) := by
  rcases ranOn_hosted (c := c) (i := i) (fun _ => hm) with ⟨_, l, r, -, -, e⟩ | ⟨_, -, -, g, -⟩
  · rw [e]
    rcases ranOn_cases (c := c) (i := i) hr with ⟨a, u, ef, -, -, ex⟩ | ⟨k, info, u, ef, -, -, ex⟩
    · rw [ex]; exact resting_emitted (s := s) (front_ok hr ef).2.2.1
    · rw [ex]; exact resting_left (front_raised hr ef).2.2.1
  · exact resting_gone g

/-- Every command keeps the invariant, on every oracle and whatever the host does (R41, R45, R224). -/
theorem runOn_inv (hi : Inv c s) (h : runOn c i s = .next t) : Inv c t := by
  rw [runOn_eq] at h
  exact issue_inv hi (fun hr => ⟨runBody_wf (shapeOf c s.collapse i) rfl hi.mem, ranOn_resting hr hi.mem⟩) h

theorem illegal_front (hu : s.Ready) : issueIllegal c s = (runBody c illegalBody (s.accept c {})).conclude {} s.live := by
  rw [issueIllegal, issue, if_neg (by simp [hu.1]), if_neg (by simp [hu.2.1])]

/-- Everything an illegal command can do, whatever the host does in its two phases (R83, R282, R290). -/
theorem illegal_hosted :
    (∃ l r, Serves [.dispatch, .exitScrub] s.live (s.accept c {}).log l r ∧
      runBody c illegalBody (s.accept c {}) = ((s.accept c {}).left c .illegalCommand 0).served l r) ∨
    (∃ u n, n ≤ 2 ∧ ResetIn n s.live (s.accept c {}).log u.live u.log ∧ Gone c (s.accept c {}) u ∧ u.mem = s.mem ∧
      runBody c illegalBody (s.accept c {}) = u) := by
  have e : runBody c illegalBody (s.accept c {}) = stateOf (exitPoint c .illegalCommand 0 (s.accept c {})) := rfl
  rw [e]
  rcases exitPoint_hosted (c := c) .illegalCommand 0 (s := s.accept c {}) rfl with ⟨l, r, hn, e⟩ | ⟨u, n, ⟨-, h2⟩, e, hn, g, gm⟩
  · exact .inl ⟨l, r, hn, by rw [e]; rfl⟩
  · exact .inr ⟨u, n, h2, hn, g, gm, by rw [e]; rfl⟩

theorem issueIllegal_inv (hi : Inv c s) (h : issueIllegal c s = .next t) : Inv c t := by
  refine issue_inv hi (fun hr => ?_) h
  rcases illegal_hosted (c := c) (s := s) with ⟨l, r, -, e⟩ | ⟨u, n, -, -, g, gm, e⟩
  · rw [e]; exact ⟨hi.mem, resting_left hr.2.2⟩
  · rw [e, gm]; exact ⟨hi.mem, resting_gone g⟩

theorem exec_eq (i : Instr) (s : State) : exec i s = runOn Config.cfg i s := by cases i <;> rfl

theorem regAt_cmd : ∀ j : Fin 64, regAt j = .cmd → j.val = 0 := by decide

theorem regIndex_some {off : Nat} {j : Fin 64} (h : regIndex off = some j) : off = 4 * j.val := by
  unfold regIndex at h
  split at h
  · rename_i hh
    cases h
    show off = 4 * (off / 4)
    omega
  · cases h

/-- Everything one access of the host can do. -/
inductive HostDid (s : State) : HostEvent → State → Prop
  | command (i : Instr) (v : Word) {t : State} : decodeWord v = .instr i → runOn Config.cfg i s = .next t →
      HostDid s (.wr 0 v) t
  | illegal (v : Word) (w : IllegalWord) {t : State} : decodeWord v = .illegal w →
      issueIllegal Config.cfg s = .next t → HostDid s (.wr 0 v) t
  | write (v : Word) (j : Fin 64) : regAt j ≠ .cmd → HostDid s (.wr (4 * j.val) v) (hostWrite s v (regAt j))
  | read (j : Fin 64) : HostDid s (.rd (4 * j.val)) (hostRead Config.cfg j s)
  | mem (a : Addr) (b : Bytes) : inSpace a b.length = true → HostDid s (.mem a b) (s.setMem (s.mem.writeBytes a.toNat b))
  | look (a : Addr) (n : Nat) : inSpace a n = true → clearOf s.log.awaited a n = true → HostDid s (.look a n) (s.note (.mem a (s.mem.readBytes a.toNat n)))
  | reset : HostDid s .reset (State.hardReset Config.cfg s)

theorem hostEvent_cases {e : HostEvent} (h : hostEvent e s = .next t) : HostDid s e t := by
  cases e with
  | wr off v =>
    simp only [hostEvent, busWrite] at h
    cases hj : regIndex off with
    | none => rw [hj] at h; cases h
    | some j =>
      have ho := regIndex_some hj
      subst ho
      rw [hj] at h
      simp only at h
      by_cases hc : regAt j = .cmd
      · have hj0 : j.val = 0 := regAt_cmd j hc
        rw [hc] at h
        simp only [commandWrite] at h
        rw [hj0]
        cases hd : decodeWord v with
        | instr i => rw [hd] at h; simp only [exec_eq] at h; exact .command i v hd h
        | illegal w => rw [hd] at h; exact .illegal v w hd h
      · have hw : t = hostWrite s v (regAt j) := by
          cases hr : regAt j
          · exact absurd hr hc
          all_goals (rw [hr] at h; cases h; rfl)
        rw [hw]
        exact .write v j hc
  | rd off =>
    simp only [hostEvent, busRead] at h
    cases hj : regIndex off with
    | none => rw [hj] at h; cases h
    | some j =>
      rw [hj] at h
      cases h
      rw [regIndex_some hj]
      exact .read j
  | mem a b =>
    simp only [hostEvent, hostMemWrite] at h
    split at h
    · rename_i hin; cases h; exact .mem a b hin
    · cases h
  | look a n =>
    simp only [hostEvent, hostMemRead] at h
    split at h
    · rename_i hin
      split at h
      · rename_i hc; cases h; exact .look a n hin hc
      · cases h
    · cases h
  | reset => cases h; exact .reset

/-- Everything one step can do: nothing with no access to come, or the next access of the host. -/
theorem step_cases (h : step s = .next t) :
    (s.script = [] ∧ t = s) ∨ ∃ e rest, s.script = e :: rest ∧ HostDid { s with script := rest } e t := by
  unfold step at h
  split at h
  · rename_i hsc; cases h; exact .inl ⟨hsc, rfl⟩
  · rename_i e rest hsc; exact .inr ⟨e, rest, hsc, hostEvent_cases h⟩

theorem inv_script {l : List HostEvent} (hi : Inv c s) : Inv c { s with script := l } :=
  ⟨hi.mem, hi.resting.busy, hi.resting.engRst, hi.resting.codeN, hi.resting.phase, hi.resting.work, hi.resting.flags⟩

end Sys2Proof.Machine
end

