-- ==== Sys2Proof/Laws/Sizes.lean ====
section
/-! SUPPORT. Every piece of a command keeps the work buffers at their capacities (R10, R40), on every oracle, whatever
the host does and however the piece ends; so ENCODE, EXP_PLAIN, EXP_CRT and ENCRYPT write exactly K bytes (R64). -/

namespace Sys2Proof.Machine

variable {c : Cfg} {α β : Type}

/-- A piece that keeps the buffers' sizes, however it ends. -/
def KeepsSizes (c : Cfg) (m : Cmd α) : Prop := ∀ s : State, s.work.Sized c → (stateOf (m s)).work.Sized c

theorem KeepsSizes.ok {m : Cmd α} (h : KeepsSizes c m) {s t : State} {a : α} (e : m s = .ok a t) (hs : s.work.Sized c) :
    t.work.Sized c := by
  have := h s hs
  rwa [e] at this

theorem KeepsSizes.bind {m : Cmd α} {f : α → Cmd β} (h : KeepsSizes c m) (hf : ∀ a, KeepsSizes c (f a)) :
    KeepsSizes c (m >>= f) := by
  intro s hs
  have := h s hs
  cases e : m s with
  | ok a t => rw [bind_ok e]; exact hf a t (h.ok e hs)
  | error x t => rw [bind_error e]; rwa [e] at this

theorem keepsSizes_pure (a : α) : KeepsSizes c (pure a : Cmd α) := fun _ => id

theorem keepsSizes_stop (x : Stop) : KeepsSizes c (throw x : Cmd α) := fun _ => id

theorem keepsSizes_modify (g : State → State) (h : ∀ s, s.work.Sized c → (g s).work.Sized c) :
    KeepsSizes c (modify g : Cmd Unit) := h

/-- A piece that leaves the buffers alone. -/
theorem keepsSizes_quiet (g : State → State) (h : ∀ s, (g s).work = s.work) : KeepsSizes c (modify g : Cmd Unit) :=
  keepsSizes_modify g fun s hs => (h s).symm ▸ hs

theorem keepsSizes_get {f : State → Cmd β} (h : ∀ s, KeepsSizes c (f s)) : KeepsSizes c (get >>= f) :=
  fun s hs => h s s hs

/-- A write into a buffer: the seven cases. -/
theorem Work.Sized.put {w : Work} (hw : w.Sized c) (off : Nat) (x : Bytes) :
    ({ w with em := put w.em off x } : Work).Sized c ∧ ({ w with db := put w.db off x } : Work).Sized c ∧
    ({ w with seed := put w.seed off x } : Work).Sized c ∧ ({ w with lhash := put w.lhash off x } : Work).Sized c ∧
    ({ w with mask := put w.mask off x } : Work).Sized c ∧ ({ w with msg := put w.msg off x } : Work).Sized c ∧
    ({ w with res := put w.res off x } : Work).Sized c := by
  obtain ⟨h1, h2, h3, h4, h5, h6, h7⟩ := hw
  and_intros <;> constructor <;> first | assumption | exact (length_put _ _ _).trans (by assumption)

theorem keepsSizes_hostSlot : KeepsSizes c (hostSlot c) := by
  intro s hs
  rcases hostSlot_cases (c := c) s with ⟨u, h, -, -, hw⟩ | ⟨u, h, -, hw⟩
  · rw [h]; exact hw.symm ▸ hs
  · rw [h]; exact hw.symm ▸ Work.zero_sized c

theorem keepsSizes_phase (p : Phase) : KeepsSizes c (phase c p) :=
  keepsSizes_hostSlot.bind fun _ => keepsSizes_quiet _ (by exact fun _ => rfl)

theorem keepsSizes_memRead (a : Addr) (n : Nat) : KeepsSizes c (memRead c a n) := by
  intro s
  rw [memRead_total]
  split <;> exact id

theorem keepsSizes_memWrite (a : Addr) (v : Bytes) : KeepsSizes c (memWrite c a v) := by
  intro s
  rw [memWrite_total]
  split <;> exact id

theorem keepsSizes_evalTwice (site : Site) (pred : Bool) : KeepsSizes c (evalTwice c site pred) := fun _ => id

theorem keepsSizes_settle (v : Verdict) : KeepsSizes c (settle v) := by
  cases v
  · exact keepsSizes_pure _
  · exact keepsSizes_pure _
  · exact (keepsSizes_quiet _ (by exact fun _ => rfl)).bind fun _ => keepsSizes_stop _

theorem keepsSizes_ensure (b : Bool) (k : Kind) (info : Word) : KeepsSizes c (ensure b k info) := by
  cases b
  · exact keepsSizes_stop _
  · exact keepsSizes_pure _

theorem keepsSizes_check (site : Site) (pred : Bool) (k : Kind) (info : Word) :
    KeepsSizes c (check c site pred k info) :=
  ((keepsSizes_evalTwice _ _).bind keepsSizes_settle).bind fun _ => keepsSizes_ensure _ _ _

theorem keepsSizes_digest (sel : Word) (x : Bytes) : KeepsSizes c (digest c sel x) :=
  keepsSizes_get fun _ => (keepsSizes_quiet _ (by exact fun _ => rfl)).bind fun _ => (keepsSizes_check _ _ _ _).bind fun _ =>
    keepsSizes_pure _

theorem keepsSizes_mgf (sel : Word) (seed : Bytes) (n : Nat) : KeepsSizes c (mgf c sel seed n) := by
  refine KeepsSizes.bind (f := fun t => modify fun s => _) ?_ fun _ =>
    keepsSizes_modify _ (by exact fun _ hs => (hs.put 0 _).2.2.2.2.1)
  generalize ([] : Bytes) = acc
  generalize 0 = ctr
  suffices ∀ fuel ctr acc, KeepsSizes c (mgfLoop c sel seed n fuel ctr acc) from this _ _ _
  intro fuel
  induction fuel with
  | zero => exact fun _ _ => keepsSizes_pure _
  | succ fuel ih =>
    intro ctr acc
    unfold mgfLoop
    split
    · exact (keepsSizes_digest _ _).bind fun _ => ih _ _
    · exact keepsSizes_pure _

theorem keepsSizes_maskDb (n : Nat) : KeepsSizes c (maskDb n) :=
  keepsSizes_modify _ (by exact fun _ hs => (hs.put 0 _).2.1)

theorem keepsSizes_maskSeed (n : Nat) : KeepsSizes c (maskSeed n) :=
  keepsSizes_modify _ (by exact fun _ hs => (hs.put 0 _).2.2.1)

/-- A phase that masks, in either order of use. -/
theorem keepsSizes_maskPhase (p : Phase) (sel : State → Word) (seed : State → Bytes) (n : Nat) {m : Cmd Unit}
    (hm : KeepsSizes c m) : KeepsSizes c (do
      phase c p
      let s ← get
      mgf c (sel s) (seed s) n
      m) :=
  (keepsSizes_phase _).bind fun _ => keepsSizes_get fun _ => (keepsSizes_mgf _ _ _).bind fun _ => hm

theorem keepsSizes_encodeCore : KeepsSizes c (encodeCore c) := by
  have h1 : KeepsSizes c (encodeChecks c) := (keepsSizes_phase _).bind fun _ => keepsSizes_get fun _ =>
    (keepsSizes_check _ _ _ _).bind fun _ => (keepsSizes_pure _).bind fun _ => (keepsSizes_check _ _ _ _).bind fun _ =>
      keepsSizes_pure _
  have h2 : KeepsSizes c (encodeLoad c) := keepsSizes_get fun _ => (keepsSizes_memRead _ _).bind fun _ =>
    (keepsSizes_modify _ (by exact fun _ hs => (hs.put 0 _).2.2.2.2.2.1)).bind fun _ => keepsSizes_memRead _ _
  have h3 (label : Bytes) : KeepsSizes c (encodeLabelHash c label) := (keepsSizes_phase _).bind fun _ =>
    keepsSizes_get fun _ => (keepsSizes_digest _ _).bind fun _ => keepsSizes_modify _ (by exact fun _ hs => (hs.put 0 _).2.1)
  have h4 (h : Nat) : KeepsSizes c (encodeBuild c h) := (keepsSizes_phase _).bind fun _ =>
    keepsSizes_modify _ fun s hs => by
      obtain ⟨w1, w2, w3, w4, w5, w6, w7⟩ := hs
      refine ⟨w1, ?_, w3, w4, w5, w6, w7⟩
      simp only [State.setWork_fields]
      split <;> simpa [filledDb] using w2
  have h5 (h : Nat) : KeepsSizes c (encodeSeed c h) := (keepsSizes_phase _).bind fun _ =>
    KeepsSizes.bind (keepsSizes_get fun _ => (keepsSizes_quiet _ (by exact fun _ => rfl)).bind fun _ =>
      (keepsSizes_check _ _ _ _).bind fun _ => keepsSizes_pure _) fun _ =>
        keepsSizes_modify _ (by exact fun _ hs => (hs.put 0 _).2.2.1)
  exact h1.bind fun h => h2.bind fun label => (h3 label).bind fun _ => (h4 h).bind fun _ => (h5 h).bind fun _ =>
    KeepsSizes.bind (keepsSizes_maskPhase _ _ _ _ (keepsSizes_maskDb _)) fun _ =>
      KeepsSizes.bind (keepsSizes_maskPhase _ _ _ _ (keepsSizes_maskSeed _)) fun _ => keepsSizes_pure _

theorem keepsSizes_assembleEm (h : Nat) : KeepsSizes c (assembleEm c h) :=
  keepsSizes_modify _ (by exact fun _ hs => (hs.put 0 _).1)

theorem keepsSizes_loadEmFromMemory : KeepsSizes c (loadEmFromMemory c) :=
  keepsSizes_get fun _ => (keepsSizes_memRead _ _).bind fun _ => keepsSizes_modify _ (by exact fun _ hs => (hs.put 0 _).1)

theorem keepsSizes_decodeCore {load : Cmd Unit} (hl : KeepsSizes c load) : KeepsSizes c (decodeCore c load) := by
  have h1 : KeepsSizes c (decodeChecks c) := (keepsSizes_phase _).bind fun _ => keepsSizes_get fun _ =>
    (keepsSizes_check _ _ _ _).bind fun _ => (keepsSizes_pure _).bind fun _ => keepsSizes_pure _
  have h2 : KeepsSizes c (loadLabel c) := keepsSizes_get fun _ => keepsSizes_memRead _ _
  have h3 : KeepsSizes c (decodeLeadingByte c) := (keepsSizes_phase _).bind fun _ => keepsSizes_get fun _ =>
    keepsSizes_check _ _ _ _
  have h4 (label : Bytes) : KeepsSizes c (decodeLabelHash c label) := (keepsSizes_phase _).bind fun _ =>
    keepsSizes_get fun _ => (keepsSizes_digest _ _).bind fun _ => keepsSizes_modify _ (by exact fun _ hs => (hs.put 0 _).2.2.2.1)
  have h5 (h : Nat) : KeepsSizes c (decodeSplit c h) :=
    keepsSizes_modify _ (by exact fun _ hs => ((hs.put 0 _).2.2.1.put 0 _).2.1)
  have hq (p : Phase) (g : State → State) (h : ∀ s, (g s).work = s.work) :
      KeepsSizes c (do phase c p; modify g) := (keepsSizes_phase _).bind fun _ => keepsSizes_quiet _ h
  have h6 (h : Nat) : KeepsSizes c (decodeEval c h) := (keepsSizes_phase _).bind fun _ => keepsSizes_get fun _ =>
    (keepsSizes_evalTwice _ _).bind fun _ => (keepsSizes_evalTwice _ _).bind fun _ => (keepsSizes_evalTwice _ _).bind
      fun _ => (keepsSizes_settle _).bind fun _ => (keepsSizes_settle _).bind fun _ => (keepsSizes_settle _).bind fun _ =>
        (keepsSizes_ensure _ _ _).bind fun _ => (keepsSizes_ensure _ _ _).bind fun _ => keepsSizes_ensure _ _ _
  refine h1.bind fun h => hl.bind fun _ => h2.bind fun label => h3.bind fun _ => (h4 label).bind fun _ => (h5 h).bind
    fun _ => KeepsSizes.bind (keepsSizes_maskPhase _ _ _ _ (keepsSizes_maskSeed _)) fun _ =>
      KeepsSizes.bind (keepsSizes_maskPhase _ _ _ _ (keepsSizes_maskDb _)) fun _ => ?_
  iterate 3 refine KeepsSizes.bind (hq _ _ fun _ => rfl) fun _ => ?_
  exact (h6 h).bind fun _ => keepsSizes_get fun _ => keepsSizes_pure _

theorem keepsSizes_decodeCopy (m : Bytes) : KeepsSizes c (decodeCopy c m) :=
  (keepsSizes_phase _).bind fun _ => keepsSizes_get fun _ => (keepsSizes_memWrite _ _).bind fun _ =>
    keepsSizes_quiet _ (by exact fun _ => rfl)

theorem keepsSizes_expWrap (kind : ExpKind) (b : BaseOperand) (rm : Bool) : KeepsSizes c (expWrap c kind b rm) := by
  have hh : KeepsSizes c (hold c) := (keepsSizes_phase _).bind fun _ => keepsSizes_quiet _ (by exact fun _ => rfl)
  have h1 : KeepsSizes c (expCheck c kind b rm) := (keepsSizes_phase _).bind fun _ => keepsSizes_get fun _ =>
    (keepsSizes_evalTwice _ _).bind fun v => by
      cases v
      · exact keepsSizes_pure _
      · exact hh.bind fun _ => keepsSizes_stop _
      · exact (keepsSizes_quiet State.setAlarm (by exact fun _ => rfl)).bind fun _ => hh.bind fun _ => keepsSizes_stop _
  have h2 : KeepsSizes c (readBase c b) := by
    cases b with
    | pointer a => exact keepsSizes_memRead _ _
    | internal => exact keepsSizes_get fun _ => keepsSizes_pure _
  have h3 (l : List (Ptr × Nat)) : KeepsSizes c (readOperands c l) := by
    induction l with
    | nil => exact keepsSizes_pure _
    | cons e l ih => exact keepsSizes_get fun _ => (keepsSizes_memRead _ _).bind fun _ => ih.bind fun _ => keepsSizes_pure _
  have h4 (l : List (Ptr × Nat)) : KeepsSizes c (readOptionals c l) := by
    induction l with
    | nil => exact keepsSizes_pure _
    | cons e l ih =>
      refine KeepsSizes.bind (keepsSizes_get fun s => ?_) fun _ => ih.bind fun _ => keepsSizes_pure _
      show KeepsSizes c (if s.regs.ptr e.1 = 0 then pure none else _)
      split
      · exact keepsSizes_pure _
      · exact (keepsSizes_memRead _ _).bind fun _ => keepsSizes_pure _
  have h5 (bs : Bytes) (mand : List Bytes) (opt : List (Option Bytes)) : KeepsSizes c (engineCall c kind bs mand opt) :=
    (keepsSizes_quiet _ (by exact fun _ => rfl)).bind fun _ => keepsSizes_get fun _ =>
      (keepsSizes_modify _ (by exact fun _ hs => (hs.put 0 _).2.2.2.2.2.2)).bind fun _ => keepsSizes_pure _
  have h6 : KeepsSizes c (expHeldCheck c) := keepsSizes_get fun _ => (keepsSizes_evalTwice _ _).bind fun v => by
    cases v
    · exact keepsSizes_pure _
    · exact (keepsSizes_quiet State.setAlarm (by exact fun _ => rfl)).bind fun _ => keepsSizes_stop _
    · exact (keepsSizes_quiet State.setAlarm (by exact fun _ => rfl)).bind fun _ => keepsSizes_stop _
  exact h1.bind fun _ => h2.bind fun _ => (h3 _).bind fun _ => (h4 _).bind fun _ => (keepsSizes_phase _).bind fun _ =>
    (keepsSizes_quiet _ (by exact fun _ => rfl)).bind fun _ => (keepsSizes_phase _).bind fun _ => (h5 _ _ _).bind fun _ => hh.bind
      fun _ => (keepsSizes_phase _).bind fun _ => h6.bind fun _ => keepsSizes_check _ _ _ _

theorem keepsSizes_reverseResult : KeepsSizes c (reverseResult c) :=
  (keepsSizes_phase _).bind fun _ => keepsSizes_modify _ (by exact fun _ hs => (hs.put 0 _).1)

/-- The bytes a command that does not decode emits are K, on every oracle (R64). -/
theorem output_length {i : Instr} {s u : State} {col : Bool} {a : FrontType i} (hi : writesLen i = false)
    (hs : s.work.Sized c) (e : (shapeOf c col i).front s = .ok a u) :
    ((shapeOf c col i).value a ((shapeOf c col i).prepare a (u.setPhase (shapeOf c col i).phase))).length = c.K := by
  have len (x : Bytes) (h : x.length = c.K) : (x.take c.K).length = c.K := by simp [h]
  cases i with
  | encode => exact len _ ((length_put _ _ _).trans (keepsSizes_encodeCore.ok e hs).em)
  | decode => cases hi
  | expPlain => exact len _ ((keepsSizes_expWrap .plain (.pointer s.regs.opBase) true).ok e hs).res
  | expCrt => exact len _ ((keepsSizes_expWrap .crt (.pointer s.regs.opBase) true).ok e hs).res
  | encrypt =>
    have h : KeepsSizes c (encryptFront c) := keepsSizes_encodeCore.bind fun _ =>
      KeepsSizes.bind (keepsSizes_assembleEm _) fun _ => keepsSizes_expWrap _ _ _
    exact len _ (h.ok e hs).res
  | decrypt => cases hi

end Sys2Proof.Machine
end

