-- ==== Sys2Proof/Laws/Endings.lean ====
section
/-! SUPPORT. Everything one command does, on every oracle, in the terms of claims (R64, R70, R176 to R178, R219, R222,
R240, R241, R243, R252). -/

namespace Sys2Proof.Machine

variable {c : Cfg} {i : Instr} {s t u : State} {α β : Type}

/-- A command that ended with a kind. -/
structure EndsAs (c : Cfg) (i : Instr) (s t : State) (k : Kind) (info : Word) : Prop where
  ended : Ended c s t k info
  kind : k ∈ allowedKinds s.collapse i
  alarm : t.alarm = true ↔ k = .glitchError
  info : info = 0 ∨ k.fromProvider = true
  bracket : bracketAllowed i (decide (k = .success)) (bracketOf (actions t))
  failed : k ≠ .success → NoOutput s t ∧ ((actions t).filter Action.isMemory).all Action.isRead = true
  emitted : k = .success → ∃ v : Bytes,
    (NoDoubleInversion c s.nextCommand → (targetOf s.regs i).toNat + v.length ≤ 2 ^ 64) ∧ v.length ≤ c.K ∧
    (writesLen i = false → v.length = c.K) ∧
    t.mem = s.mem.writeBytes (targetOf s.regs i).toNat (v.take (roomAbove (targetOf s.regs i))) ∧
    t.regs = (if writesLen i then { s.regs with outLen := BitVec.ofNat 32 v.length } else s.regs) ∧
    (∃ rs : List Action, rs.all Action.isRead = true ∧ (actions t).filter Action.isMemory =
      rs ++ (if v.length = 0 then [] else [.memWrite (targetOf s.regs i) v.length])) ∧
    phasesOf (actions t) = successPhases i

/-! ### What a front part hands over -/

/-- Whatever a piece ends with satisfies `P`. -/
def Yields (m : Cmd α) (P : α → Prop) : Prop := ∀ s a t, m s = .ok a t → P a

theorem Yields.bind {m : Cmd α} {f : α → Cmd β} {P : β → Prop} (h : ∀ a, Yields (f a) P) : Yields (m >>= f) P := by
  intro s b u e
  cases hm : m s with
  | ok a t => rw [bind_ok hm] at e; exact h a t b u e
  | error x t => rw [bind_error hm] at e; cases e

theorem decodeCore_yields (load : Cmd Unit) : Yields (decodeCore c load) fun m => m.length ≤ c.K := by
  iterate 13 refine .bind fun _ => ?_
  intro t a u e
  cases e
  rw [length_slice]
  unfold dbLen
  omega

theorem output_le {col : Bool} {a : FrontType i} (e : (shapeOf c col i).front s = .ok a u) :
    (outputOf c col i a u).length ≤ c.K := by
  have len (x : Bytes) : (x.take c.K).length ≤ c.K := List.length_take_le _ _
  cases i with
  | encode => exact len _
  | decode => exact decodeCore_yields _ _ _ _ e
  | expPlain => exact len _
  | expCrt => exact len _
  | encrypt => exact len _
  | decrypt =>
    exact (Yields.bind fun _ => Yields.bind fun _ => Yields.bind fun _ => decodeCore_yields _ :
      Yields (decryptFront c) fun m => m.length ≤ c.K) _ _ _ e

/-! ### Records -/

theorem filter_memory_quiet {l : List Action} (h : ∀ a ∈ l, a.isQuiet = true) :
    (l.filter Action.isMemory).all Action.isRead = true := by
  rw [List.all_eq_true]
  intro a ha
  obtain ⟨h1, h2⟩ := List.mem_filter.mp ha
  have := h a h1
  cases a <;> simp_all [Action.isQuiet, Action.isMemory, Action.isRead]

theorem framed_actions {ok : Action → Bool} (fr : Framed ok (s.begun c) u) :
    ∃ l, u.acts = l ++ [.phase .dispatch] ∧ ∀ a ∈ l, ok a = true := fr.acts

theorem bracketOf_emitted (col : Bool) (a : FrontType i) {b : List Action} (hb : Between (s.begun c) u b) :
    bracketOf (actions (u.emitted c col i a)) = b := by
  obtain ⟨l, e, h⟩ := hb
  have e' : u.acts = l ++ [.phase .dispatch] := e
  rw [actions, emitted_acts, e', ← h]
  cases writesLen i <;> by_cases h0 : (outputOf c col i a u).length = 0 <;>
    simp [bracketOf, h0, List.filter_append]

theorem bracketOf_left {k : Kind} {info : Word} {b : List Action} (hb : Between (s.begun c) u b) :
    bracketOf (actions (u.left c k info)) = b := by
  obtain ⟨l, e, h⟩ := hb
  have e' : u.acts = l ++ [.phase .dispatch] := e
  rw [actions, ← h]
  simp [bracketOf, e', List.filter_append]

/-- Everything one undisturbed command does, on every oracle: it ends as the rules allow. -/
theorem ranOn_ends (hw : c.wf = true) (hL : c.Lawful) (hu : s.Undisturbed) :
    ∃ k info, EndsAs c i s (ranOn c i s) k info := by
  obtain ⟨l, r, -, -, hs, -⟩ := ranOn_undisturbed (c := c) (i := i) hu
  rw [hs]
  rcases ranOn_cases (c := c) (i := i) hu.1 with ⟨a, u, e, fr, al, ex⟩ | ⟨k, info, u, e, fr, hk, ex⟩
  · obtain ⟨-, -, he, b, hb, hba⟩ := front_ok hu.1 e
    change ranAlone c i s = u.emitted c s.collapse i a at ex
    rw [ex]
    refine ⟨.success, 0, emitted_ended _ _ fr he, success_allowed _ _, ?_, .inl rfl, ?_, fun h => absurd rfl h,
      fun _ => ?_⟩
    · have : ((u.emitted c s.collapse i a).served l r).alarm = false := (emitted_rest _ _ _).2.1.trans al
      rw [this]
      decide
    · show bracketAllowed i _ (bracketOf (actions (u.emitted c s.collapse i a)))
      rw [bracketOf_emitted s.collapse a hb]
      exact hba
    · obtain ⟨lf, ef, hq⟩ := framed_actions fr
      have hregs : u.regs = s.regs := fr.regs
      refine ⟨outputOf c s.collapse i a u, fun hd => output_fits hw hL hu.1 hd e, output_le e,
        fun hw => output_length hw (Work.zero_sized c) e, ?_, ?_, ⟨(lf.reverse.filter Action.isMemory), ?_, ?_⟩, ?_⟩
      · show (u.emitted c s.collapse i a).mem = _
        rw [emitted_mem, fr.mem, fr.regs]; rfl
      · show (u.emitted c s.collapse i a).regs = _
        rw [emitted_regs, hregs]
      · exact filter_memory_quiet fun a ha => hq a (List.mem_reverse.mp ha)
      · show (actions (u.emitted c s.collapse i a)).filter Action.isMemory = _
        rw [actions, emitted_acts, ef, hregs]
        cases writesLen i <;> by_cases h0 : (outputOf c s.collapse i a u).length = 0 <;>
          simp [h0, List.filter_append, List.filter_cons, Action.isMemory]
      · show phasesOf (actions (u.emitted c s.collapse i a)) = _
        obtain ⟨lv, ev, hv⟩ := (shapeOf c s.collapse i).visits (s.begun c) a u e
        have ev' : u.acts = lv ++ [.phase .dispatch] := ev
        have e1 : phasesOf (actions (u.emitted c s.collapse i a)) =
            [.dispatch] ++ phasesOf lv.reverse ++ [(shapeOf c s.collapse i).phase, .exitScrub, .exitStatus, .idle] := by
          rw [actions, emitted_acts, ev', al]
          cases writesLen i <;> by_cases h0 : (outputOf c s.collapse i a u).length = 0 <;>
            simp [h0, phasesOf, List.filterMap_append]
        rw [e1, hv]
        cases i <;> rfl
  · obtain ⟨-, -, he, b, hb, hba⟩ := front_raised hu.1 e
    rw [ex]
    have hne : k ≠ .success := by
      rcases hk with ⟨rfl, -, -⟩ | ⟨h, -, -, -⟩
      · decide
      · rintro rfl
        revert h
        cases i <;> cases s.collapse <;> decide
    refine ⟨k, info, left_ended fr he, ?_, ?_, ?_, ?_, fun _ => ⟨⟨fr.mem, fr.regs⟩, ?_⟩, fun h => absurd h hne⟩
    · rcases hk with ⟨rfl, -, -⟩ | ⟨h, -, -, -⟩
      · exact glitchError_allowed _ _
      · exact ownKinds_allowed h
    · have : ((u.left c k info).served l r).alarm = u.alarm := rfl
      rw [this]
      rcases hk with ⟨rfl, -, h⟩ | ⟨-, h1, -, h⟩
      · simp [h]
      · simp [h, h1]
    · rcases hk with ⟨-, h, -⟩ | ⟨-, -, h, -⟩
      · exact .inl h
      · exact h
    · show bracketAllowed i _ (bracketOf (actions (u.left c k info)))
      rw [bracketOf_left hb, decide_eq_false hne]
      exact hba
    · show ((actions (u.left c k info)).filter Action.isMemory).all Action.isRead = true
      obtain ⟨lf, ef, hq⟩ := framed_actions fr
      have := filter_memory_quiet (l := lf.reverse) fun a ha => hq a (List.mem_reverse.mp ha)
      simp [actions, ef, List.filter_append, Action.isMemory] at this ⊢
      exact this

end Sys2Proof.Machine
end

