-- ==== Sys2Proof/Laws/PerInstr.lean ====
section
/-! SUPPORT. Per command: its word decodes to it, and as a table word too (R82, R218). -/

namespace Sys2Proof.Laws.DecodeEncode

/-- The command is well formed, and its word decodes to it. -/
def Statement (i : Instr) : Prop :=
  i.wf = true ∧ decodeWord (encode i) = .instr i ∧ decodeTableWord 32 (encode i).toNat = some i

theorem encode : Statement .encode := by unfold Statement; decide

theorem decode : Statement .decode := by unfold Statement; decide

theorem expPlain : Statement .expPlain := by unfold Statement; decide

theorem expCrt : Statement .expCrt := by unfold Statement; decide

theorem encrypt : Statement .encrypt := by unfold Statement; decide

theorem decrypt : Statement .decrypt := by unfold Statement; decide

end Sys2Proof.Laws.DecodeEncode
end

