-- ==== Sys2Proof/Laws/Reads.lean ====
section
/-! SUPPORT. What the host can read while a command runs (R290). -/

namespace Sys2Proof.Machine

variable {c : Cfg} {ks : List Kind} {col : Bool} {i : Instr} {s fin t u w : State} {α β : Type}

/-! ### What a phase shows -/

/-- A state inside the command that began in `s` and ends in `fin`, as the host can look at it (R290): a running command;
the engine released in EXP_RELEASE and EXP_RUN alone; the alarm not yet raised or the one it ends with; the parameter
registers as they were but OUT_LEN, which has its last value from DEC_COPY on (R153). -/
structure Glimpse (s fin w : State) : Prop where
  busy : w.busy = true
  code : w.code = 0x01
  codeN : w.codeN = 0xFE
  extStatus : w.extStatus = 0
  collapse : w.collapse = s.collapse
  line : w.engRst = false ↔ w.ph = .expRelease ∨ w.ph = .expRun
  alarm : w.alarm = true → fin.alarm = true
  scrub : w.ph = .exitScrub → w.alarm = fin.alarm
  regs : w.regs = { s.regs with
    outLen := if w.ph = .decCopy ∨ w.ph = .exitScrub then fin.regs.outLen else s.regs.outLen }

theorem Glimpse.served (h : Glimpse s fin w) (l r) : Glimpse s fin (w.served l r) :=
  ⟨h.busy, h.code, h.codeN, h.extStatus, h.collapse, h.line, h.alarm, h.scrub, h.regs⟩

/-- What the host may meet while a command runs: a running command, whatever the host has done so far. -/
structure Showing (P : State → Prop) : Prop where
  busy : ∀ w, P w → w.busy = true
  served : ∀ w l r, P w → P (w.served l r)

theorem glimpse_showing : Showing (Glimpse s fin) := ⟨fun _ h => h.busy, fun _ l r h => h.served l r⟩

/-- A value the host read in a state with `P`. -/
def Seen (c : Cfg) (P : State → Prop) : HostRead → Prop
  | .reg ph off v => ∃ (j : Fin 64) (w : State), P w ∧ ph = w.ph ∧ off = 4 * j.val ∧ v = readReg c w (regAt j)
  | .mem _ _ => True

/-- From `t` to `u` the host read only in states with `P`. -/
def Watched (c : Cfg) (P : State → Prop) (t u : State) : Prop :=
  ∃ l, u.log.reads = t.log.reads ++ l ∧ ∀ r ∈ l, Seen c P r

variable {P : State → Prop}

theorem Watched.of_eq (h : u.log.reads = t.log.reads) : Watched c P t u := ⟨[], by simp [h], by simp⟩

theorem Watched.trans (h : Watched c P t u) (g : Watched c P u w) : Watched c P t w := by
  obtain ⟨l1, e1, h1⟩ := h
  obtain ⟨l2, e2, h2⟩ := g
  refine ⟨l1 ++ l2, by rw [e2, e1, List.append_assoc], fun p hp => ?_⟩
  rcases List.mem_append.mp hp with h | h
  exacts [h1 p h, h2 p h]

theorem liveAccess_watched (hP : Showing P) (h : P t) (e : LiveEvent) : Watched c P t (liveAccess c t e) := by
  cases e with
  | rd j => exact ⟨[_], rfl, fun r hr => by rw [List.mem_singleton.mp hr]; exact ⟨j, t, h, rfl, rfl, rfl⟩⟩
  | wr j v =>
    refine .of_eq ?_
    show (hostWrite t v (regAt j)).log.reads = _
    rw [hostWrite, if_pos (hP.busy _ h)]
  | mem a b => exact .of_eq rfl
  | look a n => exact ⟨[_], rfl, fun r hr => by rw [List.mem_singleton.mp hr]; trivial⟩

theorem accesses_watched (hP : Showing P) (es : List LiveEvent) : ∀ {t : State}, P t →
    Watched c P t (es.foldl (liveAccess c) t) := by
  induction es with
  | nil => exact fun _ => .of_eq rfl
  | cons e es ih =>
    intro t h
    obtain ⟨g, hg, -⟩ := liveAccess_served (c := c) (hP.busy _ h) e
    have h1 := liveAccess_watched (c := c) hP h e
    rw [List.foldl_cons]
    refine h1.trans (ih ?_)
    rw [hg]; exact hP.served _ _ _ h

/-- One phase step: the host's slot is served, and it read only in states with `P`. -/
theorem phase_seen (hP : Showing P) (p : Phase) (h : P t) (hl : noReset t.live = true) :
    ∃ l r, noReset l = true ∧ phase c p t = .ok () ((t.setPhase p).served l r) ∧
      Watched c P t ((t.setPhase p).served l r) := by
  obtain ⟨l, r, hn, e⟩ := phase_cases (c := c) p (hP.busy _ h) hl
  refine ⟨l, r, hn, e, ?_⟩
  have key : ∃ x, hostSlot c t = .ok () x ∧ Watched c P t x := by
    cases hx : t.live with
    | nil => exact ⟨t, by simp only [hostSlot, hx], .of_eq rfl⟩
    | cons slot rest =>
      have hr : slot.reset = false := by have := resetNow_of_noReset hl; rw [hx] at this; exact this
      refine ⟨slot.accesses.foldl (liveAccess c) (t.served rest t.log), ?_,
        accesses_watched (c := c) hP _ (hP.served _ _ _ h)⟩
      simp only [hostSlot, hx, hr, Bool.false_eq_true, if_false]; rfl
  obtain ⟨x, hx, hw⟩ := key
  have e2 : phase c p t = .ok () (x.setPhase p) := bind_ok hx
  rw [e] at e2
  injection e2 with _ e3
  rw [e3]
  exact hw

/-- The same of a command that began in `s` and ends in `fin`. -/
theorem phase_watched (p : Phase) (h : Glimpse s fin t) (hl : noReset t.live = true) :
    ∃ l r, noReset l = true ∧ phase c p t = .ok () ((t.setPhase p).served l r) ∧
      Watched c (Glimpse s fin) t ((t.setPhase p).served l r) := phase_seen glimpse_showing p h hl

/-! ### Pieces -/

/-- Inside the command, before it emits. -/
structure Within (s t : State) : Prop where
  regs : t.regs = s.regs
  collapse : t.collapse = s.collapse
  code : t.code = 0x01
  codeN : t.codeN = 0xFE
  extStatus : t.extStatus = 0
  busy : t.busy = true
  live : noReset t.live = true

/-- What PH and the engine's line can be together at the end of a phase (R176). -/
def Shown (t : State) : Prop :=
  (t.ph.isInner = true ∧ t.engRst = true) ∨ ((t.ph = .expRelease ∨ t.ph = .expRun) ∧ t.engRst = false)

/-- The engine is held, outside its bracket. -/
def Held (t : State) : Prop := t.ph.isInner = true ∧ t.engRst = true

theorem Within.glimpse (h : Within s t) (hs : Shown t) (ha : t.alarm = true → fin.alarm = true) : Glimpse s fin t := by
  have key : (t.engRst = false ↔ t.ph = .expRelease ∨ t.ph = .expRun) ∧ t.ph ≠ .decCopy ∧ t.ph ≠ .exitScrub := by
    rcases hs with ⟨hp, he⟩ | ⟨hp, he⟩
    · rw [he]
      revert hp
      cases t.ph <;> decide
    · rcases hp with hp | hp <;> rw [hp, he] <;> decide
  obtain ⟨h1, h2, h3⟩ := key
  refine ⟨h.busy, h.code, h.codeN, h.extStatus, h.collapse, h1, ha, fun x => absurd x h3, ?_⟩
  rw [if_neg (by simp [h2, h3]), h.regs]

theorem Framed.within {ok : Action → Bool} (f : Framed ok t u) (h : Within s t) : Within s u :=
  ⟨f.regs.trans h.regs, f.collapse.trans h.collapse, f.code.trans h.code, f.codeN.trans h.codeN,
    f.extStatus.trans h.extStatus, f.busy.trans h.busy, f.live h.live⟩

/-- A part of the command, from states with `P` to states with `Q`: the host reads only what the command shows, the alarm
is not cleared, and if it raises the engine is held. -/
def Watches (c : Cfg) (s : State) (P Q : State → Prop) (m : Cmd α) : Prop :=
  ∀ t, Within s t → P t →
    (t.alarm = true → (stateOf (m t)).alarm = true) ∧
    (∀ fin : State, ((stateOf (m t)).alarm = true → fin.alarm = true) → Watched c (Glimpse s fin) t (stateOf (m t))) ∧
    match m t with
    | .ok _ u => Within s u ∧ Q u
    | .error (.raised _ _) u => Within s u ∧ Held u
    | .error .resetHit _ => False

theorem Watches.bind {P Q R : State → Prop} {m : Cmd α} {f : α → Cmd β} (h : Watches c s P Q m)
    (g : ∀ a, Watches c s Q R (f a)) : Watches c s P R (m >>= f) := by
  intro t hv hp
  obtain ⟨h1, h2, h3⟩ := h t hv hp
  revert h1 h2 h3
  cases hm : m t with
  | ok a u =>
    intro h1 h2 h3
    obtain ⟨g1, g2, g3⟩ := g a u h3.1 h3.2
    rw [bind_ok hm]
    exact ⟨fun x => g1 (h1 x), fun fin hf => (h2 fin fun x => hf (g1 x)).trans (g2 fin hf), g3⟩
  | error x u =>
    intro h1 h2 h3
    rw [bind_error hm]
    exact ⟨h1, h2, by cases x <;> exact h3⟩

theorem Watches.weaken {P P' Q Q' : State → Prop} {m : Cmd α} (h : Watches c s P Q m) (hp : ∀ t, P' t → P t)
    (hq : ∀ t, Q t → Q' t) : Watches c s P' Q' m := by
  intro t hv h0
  obtain ⟨h1, h2, h3⟩ := h t hv (hp t h0)
  refine ⟨h1, h2, ?_⟩
  revert h3
  cases m t with
  | ok a u => exact fun h => ⟨h.1, hq u h.2⟩
  | error x u => cases x <;> exact id

theorem watches_get {P Q : State → Prop} {f : State → Cmd β} (h : ∀ t, Watches c s P Q (f t)) :
    Watches c s P Q (get >>= f) := fun t hv hp => h t t hv hp

theorem watches_phase (p : Phase) (e : Bool) :
    Watches c s (fun t => Shown t ∧ t.engRst = e) (fun u => u.ph = p ∧ u.engRst = e) (phase c p) := by
  intro t hv hp
  have key : ∀ fin : State, (t.alarm = true → fin.alarm = true) → _ := fun fin hf =>
    phase_watched (c := c) p (hv.glimpse (fin := fin) hp.1 hf) hv.live
  obtain ⟨l, r, hn, e1, -⟩ := key t id
  refine ⟨fun x => by rw [e1]; exact x, fun fin hf => ?_, ?_⟩
  · obtain ⟨l2, r2, -, e2, hw⟩ := key fin fun x => hf (by rw [e1]; exact x)
    rw [e2]; exact hw
  · rw [e1]
    exact ⟨⟨hv.regs, hv.collapse, hv.code, hv.codeN, hv.extStatus, hv.busy, hn⟩, rfl, hp.2⟩

theorem watches_inner (p : Phase) (hp : p.isInner = true) : Watches c s Held Held (phase c p) :=
  (watches_phase p true).weaken (fun _ h => ⟨.inl h, h.2⟩) fun _ h => ⟨by rw [h.1]; exact hp, h.2⟩

/-- What a part that runs no phase and reads nothing leaves. -/
structure Still (t u : State) : Prop where
  regs : u.regs = t.regs
  collapse : u.collapse = t.collapse
  code : u.code = t.code
  codeN : u.codeN = t.codeN
  extStatus : u.extStatus = t.extStatus
  busy : u.busy = t.busy
  live : u.live = t.live
  log : u.log = t.log

theorem Still.within (f : Still t u) (h : Within s t) : Within s u :=
  ⟨f.regs.trans h.regs, f.collapse.trans h.collapse, f.code.trans h.code, f.codeN.trans h.codeN,
    f.extStatus.trans h.extStatus, f.busy.trans h.busy, by rw [f.live]; exact h.live⟩

theorem watches_modify {P Q : State → Prop} {g : State → State} (hs : ∀ t, Still t (g t))
    (ha : ∀ t : State, t.alarm = true → (g t).alarm = true) (hq : ∀ t, P t → Q (g t)) :
    Watches c s P Q (modify g) := fun t hv hp =>
  ⟨ha t, fun _ _ => .of_eq (congrArg HostLog.reads (hs t).log), (hs t).within hv, hq t hp⟩

theorem watches_raise {P Q : State → Prop} (k : Kind) (info : Word) (h : ∀ t, P t → Held t) :
    Watches c s P Q (raise k info : Cmd α) := fun t hv hp => ⟨id, fun _ _ => .of_eq rfl, hv, h t hp⟩

/-- The pieces outside the bracket. -/
theorem Piece.watches {m m' : Cmd α} (h : Piece c ks s.collapse Action.isApart m m') : Watches c s Held Held m := by
  generalize hc : s.collapse = col at h
  induction h with
  | ret a => exact fun t hv hp => ⟨id, fun _ _ => .of_eq rfl, hv, hp⟩
  | bind _ _ ih1 ih2 => exact ih1.bind ih2
  | look _ _ _ ih => exact fun t hv hp => ih t (hv.collapse.trans hc) t hv hp
  | phase p hp => exact watches_inner p hp
  | update g hg =>
    intro t hv hp
    have e : g t = (g t).served t.live t.log := by
      conv_lhs => rw [show t = t.served t.live t.log from rfl, hg.served]
    have f := hg.framed t
    have hph : (g t).ph.isInner = true := by rw [hg.phase]; exact hp.1
    refine ⟨fun x => (hg.alarm t).trans x, fun fin _ => .of_eq ?_, f.within hv, hph,
      (f.engRst isApart_offLine).trans hp.2⟩
    show (g t).log.reads = t.log.reads
    rw [e]; rfl
  | read a n hr =>
    intro t hv hp
    rw [memRead_total]
    split
    · exact ⟨id, fun _ _ => .of_eq rfl, hv, hp⟩
    · exact ⟨id, fun _ _ => .of_eq rfl, ⟨hv.regs, hv.collapse, hv.code, hv.codeN, hv.extStatus, hv.busy, hv.live⟩, hp⟩
  | eval site pred _ _ ih =>
    intro t hv hp
    exact ih _ t.bumpEvals ⟨hv.regs, hv.collapse, hv.code, hv.codeN, hv.extStatus, hv.busy, hv.live⟩ hp
  | fail k info h1 h2 h3 => exact watches_raise k info fun _ h => h
  | trip =>
    exact (watches_modify (g := State.setAlarm) (fun _ => by constructor <;> rfl)
      (fun _ _ => rfl) fun _ h => h).bind fun _ => watches_raise _ _ fun _ h => h
  | tripHold h1 h2 => cases h2

/-! ### The bracket -/

theorem watches_hold : Watches c s Shown Held (hold c) := by
  have h1 : ∀ e, Watches c s (fun t => Shown t ∧ t.engRst = e) Held (hold c) := fun e =>
    (watches_phase .expHold e).bind fun _ => watches_modify (g := fun s => s.setEngRst true)
      (fun _ => by constructor <;> rfl) (fun _ h => h)
      fun t h => ⟨by show t.ph.isInner = true; rw [h.1]; rfl, rfl⟩
  exact fun t hv hp => h1 t.engRst t hv ⟨hp, rfl⟩

theorem watches_expCheck (kind : ExpKind) (b : BaseOperand) (rm : Bool) :
    Watches c s Held Held (expCheck c kind b rm) := by
  have hh : Watches c s Held Held (hold c) := watches_hold.weaken (fun _ h => .inl h) fun _ h => h
  refine (watches_inner .expCheck rfl).bind fun _ => watches_get fun w => ?_
  refine Watches.bind (Q := Held) (fun t hv hp => ⟨id, fun _ _ => .of_eq rfl,
    ⟨hv.regs, hv.collapse, hv.code, hv.codeN, hv.extStatus, hv.busy, hv.live⟩, hp⟩) fun v => ?_
  cases v with
  | pass => exact fun t hv hp => ⟨id, fun _ _ => .of_eq rfl, hv, hp⟩
  | fail => exact hh.bind fun _ => watches_raise _ _ fun _ h => h
  | split =>
    exact (watches_modify (g := State.setAlarm) (fun _ => by constructor <;> rfl)
      (fun _ _ => rfl) fun _ h => h).bind fun _ => hh.bind fun _ => watches_raise _ _ fun _ h => h

theorem watches_engineCall (kind : ExpKind) (bs : Bytes) (mand : List Bytes) (opt : List (Option Bytes)) :
    Watches c s (fun t => t.ph = .expRun ∧ t.engRst = false) Shown (engineCall c kind bs mand opt) := by
  intro t hv hp
  exact ⟨id, fun _ _ => .of_eq rfl, ⟨hv.regs, hv.collapse, hv.code, hv.codeN, hv.extStatus, hv.busy, hv.live⟩,
    .inr ⟨.inr hp.1, hp.2⟩⟩

theorem watches_expWrap (kind : ExpKind) (b : BaseOperand) (rm : Bool) :
    Watches c s Held Held (expWrap c kind b rm) := by
  refine (watches_expCheck kind b rm).bind fun _ => ?_
  refine (Piece.watches (ks := []) (piece_readBase (fun _ _ => rfl) b)).bind fun bs => ?_
  refine (Piece.watches (c := c) (ks := []) (piece_readOperands (fun _ _ => rfl) _)).bind fun mand => ?_
  refine (Piece.watches (c := c) (ks := []) (piece_readOptionals (fun _ _ => rfl) _)).bind fun opt => ?_
  refine ((watches_phase .expRelease true).weaken (fun _ h => ⟨.inl h, h.2⟩) fun _ h => h).bind fun _ => ?_
  refine (watches_modify (g := fun s => s.setEngRst false) (Q := fun t => Shown t ∧ t.engRst = false)
    (fun _ => by constructor <;> rfl) (fun _ h => h) fun t h => ⟨.inr ⟨.inl h.1, rfl⟩, rfl⟩).bind fun _ => ?_
  refine (watches_phase .expRun false).bind fun _ => (watches_engineCall kind bs mand opt).bind fun status => ?_
  refine watches_hold.bind fun _ => (watches_inner .expVerify rfl).bind fun _ => ?_
  refine (Piece.watches (ks := []) piece_expHeldCheck).bind fun _ => ?_
  exact Piece.watches (ks := [.engineFailure]) (piece_check _ _ (by decide) (by decide) (.inr rfl))

/-- The front part of every command. -/
theorem front_watches (c : Cfg) (s : State) (i : Instr) : Watches c s Held Held (shapeOf c s.collapse i).front := by
  cases i with
  | encode => exact piece_encodeCore.watches
  | decode => exact (piece_decodeCore piece_loadEmFromMemory).watches
  | expPlain => exact watches_get fun _ => watches_expWrap _ _ _
  | expCrt => exact watches_get fun _ => watches_expWrap _ _ _
  | encrypt =>
    exact piece_encodeCore.watches.bind fun h => (Piece.watches (ks := []) (piece_assembleEm h)).bind fun _ =>
      watches_expWrap _ _ _
  | decrypt =>
    exact watches_get fun _ => (watches_expWrap _ _ _).bind fun _ => (Piece.watches (ks := []) piece_reverseResult).bind
      fun _ => (piece_decodeCore (.ret ())).watches

/-! ### The emission and the exit -/

/-- The exit point, entered from a state the host may look at, whose registers and alarm are the last ones. -/
theorem exitPoint_watched (k : Kind) (info : Word) (h : Glimpse s fin t) (hl : noReset t.live = true)
    (hp : t.engRst = true) (ha : t.alarm = fin.alarm) (ho : t.regs = { s.regs with outLen := fin.regs.outLen }) :
    Watched c (Glimpse s fin) t (stateOf (exitPoint c k info t)) := by
  obtain ⟨l, r, hn, e, hw⟩ := phase_watched (c := c) .exitScrub h hl
  have h2 : Glimpse s fin (State.scrub c ((t.setPhase .exitScrub).served l r)) :=
    ⟨h.busy, h.code, h.codeN, h.extStatus, h.collapse, by
      show t.engRst = false ↔ Phase.exitScrub = .expRelease ∨ Phase.exitScrub = .expRun
      rw [hp]; decide, h.alarm, fun _ => ha, ho⟩
  obtain ⟨l2, r2, -, e2, hw2⟩ := phase_watched (c := c) .exitStatus h2 hn
  rw [exitPoint, bind_ok e, modify_bind_run, bind_ok e2]
  exact hw.trans hw2

theorem exitPoint_end (k : Kind) (info : Word) (hb : t.busy = true) (hl : noReset t.live = true) :
    (stateOf (exitPoint c k info t)).alarm = t.alarm ∧ (stateOf (exitPoint c k info t)).regs = t.regs := by
  obtain ⟨l, r, -, e⟩ := exitPoint_cases (c := c) k info hb hl
  rw [e]; exact ⟨rfl, rfl⟩

/-- The state an emission leaves, as the exit point needs it. -/
structure Emitted (s : State) (p : Phase) (len : Bool) (t z : State) : Prop where
  within : Within { s with regs := z.regs } z
  alarm : z.alarm = t.alarm
  phase : z.ph = p
  engRst : z.engRst = true
  regs : ∃ v, z.regs = { s.regs with outLen := v }
  kept : len = false → z.regs = s.regs

theorem emit_watches {p : Phase} {g : State → State} {a : Regs → Addr} {v : State → Bytes} {len : Bool}
    (hg : Tame Action.isQuiet g) (hge : ∀ t, (g t).engRst = t.engRst) (hv : Within s t) (hh : Held t) :
    ∃ z, emit c p g a v len t = .ok () z ∧ Emitted s p len t z ∧
      ∀ fin : State, (t.alarm = true → fin.alarm = true) → Watched c (Glimpse s fin) t z := by
  obtain ⟨l, r, hn, e, -⟩ := phase_watched (c := c) p (hv.glimpse (fin := t) (.inl hh) id) hv.live
  let x := (t.setPhase p).served l r
  have hw : ∀ fin : State, (t.alarm = true → fin.alarm = true) → Watched c (Glimpse s fin) t x := fun fin hf => by
    obtain ⟨l2, r2, -, e2, hw⟩ := phase_watched (c := c) p (hv.glimpse (fin := fin) (.inl hh) hf) hv.live
    rw [e] at e2
    injection e2 with _ e3
    rw [show x = _ from e3]; exact hw
  have hx : Within s x := ⟨hv.regs, hv.collapse, hv.code, hv.codeN, hv.extStatus, hv.busy, hn⟩
  have hu : Within s (g x) := (hg.framed x).within hx
  have hr : (g x).log.reads = x.log.reads := by
    have h0 : g x = (g (t.setPhase p)).served l r := hg.served _ _ _
    rw [h0]; rfl
  have hua : (g x).alarm = t.alarm := (hg.alarm x).trans rfl
  have hup : (g x).ph = p := (hg.phase x).trans rfl
  have hue : (g x).engRst = true := (hge x).trans hh.2
  refine ⟨_, emit_run e, ?_, fun fin hf => ((hw fin hf).trans (.of_eq hr)).trans (.of_eq ?_)⟩
  · generalize emitted c (g x) (a (g x).regs) ((v (g x)).take (roomAbove (a (g x).regs))) = w
    have hz : Within { s with regs := ((g x).wrote (a (g x).regs) (v (g x)) len w).regs }
        ((g x).wrote (a (g x).regs) (v (g x)) len w) := by
      unfold State.wrote
      split <;> split <;> exact ⟨rfl, hu.collapse, hu.code, hu.codeN, hu.extStatus, hu.busy, hu.live⟩
    refine ⟨hz, ?_, ?_, ?_, ?_, ?_⟩
    · unfold State.wrote
      split <;> split <;> exact hua
    · unfold State.wrote
      split <;> split <;> exact hup
    · unfold State.wrote
      split <;> split <;> exact hue
    · cases len with
      | false => exact ⟨s.regs.outLen, by unfold State.wrote; split <;> exact hu.regs⟩
      | true =>
        refine ⟨BitVec.ofNat 32 (v (g x)).length, ?_⟩
        unfold State.wrote
        split <;> exact congrArg (fun r : Regs => { r with outLen := BitVec.ofNat 32 (v (g x)).length }) hu.regs
    · rintro rfl
      unfold State.wrote
      split <;> exact hu.regs
  · unfold State.wrote
    split <;> split <;> rfl

theorem shape_phases (col : Bool) (i : Instr) :
    ((shapeOf c col i).len = true ∧ (shapeOf c col i).phase = .decCopy) ∨
    ((shapeOf c col i).len = false ∧ ((shapeOf c col i).phase = .encEmit ∨ (shapeOf c col i).phase = .expEmit)) := by
  cases i <;> first | exact .inl ⟨rfl, rfl⟩ | exact .inr ⟨rfl, .inl rfl⟩ | exact .inr ⟨rfl, .inr rfl⟩

theorem shape_prepare_engRst (col : Bool) (i : Instr) (a : FrontType i) (t : State) :
    ((shapeOf c col i).prepare a t).engRst = t.engRst := by cases i <;> rfl

/-- What the exit point shows of the state an emission left. -/
theorem Emitted.glimpse {z : State} {len : Bool} {p : Phase} (h : Emitted s p len t z) (hc : z.collapse = s.collapse)
    (hp : (len = true ∧ p = .decCopy) ∨ (len = false ∧ (p = .encEmit ∨ p = .expEmit)))
    (ha : z.alarm = true → fin.alarm = true) (hr : z.regs.outLen = fin.regs.outLen) : Glimpse s fin z := by
  obtain ⟨x, hx⟩ := h.regs
  have hf : fin.regs.outLen = x := by rw [← hr, hx]
  refine ⟨h.within.busy, h.within.code, h.within.codeN, h.within.extStatus, hc, ?_, ha, ?_, ?_⟩
  · rw [h.phase, h.engRst]
    rcases hp with ⟨-, rfl⟩ | ⟨-, rfl | rfl⟩ <;> decide
  · rw [h.phase]
    rcases hp with ⟨-, rfl⟩ | ⟨-, rfl | rfl⟩ <;> exact fun h => by cases h
  · rw [h.phase]
    rcases hp with ⟨-, rfl⟩ | ⟨hl, rfl | rfl⟩
    · rw [if_pos (.inl rfl), hf, hx]
    · rw [if_neg (by decide)]; exact h.kept hl
    · rw [if_neg (by decide)]; exact h.kept hl

/-- Everything the host reads while a command runs (R290). -/
theorem ranOn_watched (h : s.Ready) (hl : noReset s.live = true) : Watched c (Glimpse s (ranOn c i s)) s (ranOn c i s) := by
  let sh := shapeOf c s.collapse i
  have hv : Within s (s.taken c i) := ⟨rfl, rfl, rfl, rfl, rfl, rfl, hl⟩
  obtain ⟨f1, f2, f3⟩ := front_watches c s i (s.taken c i) hv ⟨rfl, h.2.2⟩
  suffices key : ∀ fin : State, fin.alarm = (ranOn c i s).alarm → fin.regs.outLen = (ranOn c i s).regs.outLen →
      Watched c (Glimpse s fin) (s.taken c i) (ranOn c i s) by
    obtain ⟨l, h1, h2⟩ := key (ranOn c i s) rfl rfl
    exact ⟨l, h1, h2⟩
  have hbody : bodyOf c i (s.taken c i) = (sh.front >>= _) (s.taken c i) := congrFun sh.eq _
  intro fin
  revert f1 f2 f3
  cases hf : sh.front (s.taken c i) with
  | error x u =>
    intro f1 f2 f3
    have hb : bodyOf c i (s.taken c i) = .error x u := by rw [hbody, bind_error hf]
    cases x with
    | resetHit => exact f3.elim
    | raised k info =>
      obtain ⟨hu, hh⟩ := f3
      have e : ranOn c i s = stateOf (exitPoint c k info u) := by simp only [ranOn, runBody, hb]
      intro ha ho
      obtain ⟨ea, er⟩ := exitPoint_end (c := c) k info hu.busy hu.live
      rw [e] at ha ho ⊢
      rw [ea] at ha
      rw [er] at ho
      refine (f2 fin fun hx => ha.trans hx).trans ?_
      refine exitPoint_watched (c := c) k info (hu.glimpse (.inl hh) fun hx => ha.trans hx) hu.live hh.2 ha.symm ?_
      rw [ho, hu.regs]
      exact hu.regs
  | ok a u =>
    intro f1 f2 f3
    obtain ⟨hu, hh⟩ := f3
    obtain ⟨z, he, m2, m1⟩ := emit_watches (c := c) (p := sh.phase) (a := sh.target) (v := sh.value a) (len := sh.len)
      (sh.tame a) (shape_prepare_engRst s.collapse i a) hu hh
    have hb : bodyOf c i (s.taken c i) = .ok () z := by rw [hbody, bind_ok hf]; exact he
    have e : ranOn c i s = stateOf (exitPoint c .success 0 z) := by simp only [ranOn, runBody, hb]
    intro ha ho
    obtain ⟨ea, er⟩ := exitPoint_end (c := c) .success 0 m2.within.busy m2.within.live
    rw [e] at ha ho ⊢
    rw [ea] at ha
    rw [er] at ho
    have hz : fin.alarm = u.alarm := ha.trans m2.alarm
    refine ((f2 fin fun hx => hz.trans hx).trans (m1 fin fun hx => hz.trans hx)).trans ?_
    refine exitPoint_watched (c := c) .success 0 (m2.glimpse m2.within.collapse (shape_phases s.collapse i)
      (fun hx => ha.trans hx) ho.symm) m2.within.live m2.engRst ha.symm ?_
    obtain ⟨x, hx⟩ := m2.regs
    rw [ho, hx]

/-- An illegal command is looked at in DISPATCH and EXIT_SCRUB alone (R83, R290). -/
theorem illegal_watched (h : s.Ready) (hl : noReset s.live = true) :
    Watched c (fun w => Glimpse s s w ∧ (w.ph = .dispatch ∨ w.ph = .exitScrub)) s
      (runBody c illegalBody (s.accept c {})) := by
  let P : State → Prop := fun w => Glimpse s s w ∧ (w.ph = .dispatch ∨ w.ph = .exitScrub)
  have hP : Showing P := ⟨fun _ h => h.1.busy, fun _ l r h => ⟨h.1.served l r, h.2⟩⟩
  have hg (w : State) (hw : w.ph = .dispatch ∨ w.ph = .exitScrub) (h1 : w.busy = true) (h2 : w.code = 0x01)
      (h3 : w.codeN = 0xFE) (h4 : w.extStatus = 0) (h5 : w.collapse = s.collapse) (h6 : w.engRst = s.engRst)
      (h7 : w.alarm = s.alarm) (h8 : w.regs = s.regs) : P w := by
    refine ⟨⟨h1, h2, h3, h4, h5, ?_, fun x => h7.symm.trans x, fun _ => h7, by rw [h8, ite_self]⟩, hw⟩
    rw [h6, h.2.2]
    rcases hw with e | e <;> rw [e] <;> decide
  obtain ⟨l, r, hn, e, hw⟩ := phase_seen (c := c) hP .exitScrub (t := s.accept c {})
    (hg _ (.inl rfl) rfl rfl rfl rfl rfl rfl rfl rfl) hl
  obtain ⟨l2, r2, -, e2, hw2⟩ := phase_seen (c := c) hP .exitStatus
    (t := State.scrub c (((s.accept c {}).setPhase .exitScrub).served l r))
    (hg _ (.inr rfl) rfl rfl rfl rfl rfl rfl rfl rfl) hn
  show Watched c P (s.accept c {}) (stateOf (exitPoint c .illegalCommand 0 (s.accept c {})))
  rw [exitPoint, bind_ok e, modify_bind_run, bind_ok e2]
  exact hw.trans hw2

end Sys2Proof.Machine
end

