-- ==== Sys2Proof/Laws/RoundTrip.lean ====
section
/-! SUPPORT. The bytes of a padded block: recovering what was encoded (R136), what the scan accepts (R156); the actions
of a decode up to the evaluation point (R155). -/

namespace Sys2Proof.Machine

variable {c : Cfg} {s : State} {d : HashDescriptor} {sel : Word} {h : Nat} {label m seed : Bytes}

/-! ### The bytes -/

theorem slice_seed {a b : Bytes} (ha : a.length = h) : slice ([0x00] ++ a ++ b) 1 (1 + h) = a := by
  subst ha
  simp [slice]

theorem slice_db {a b : Bytes} (ha : a.length = h) (hb : b.length = dbLen c h) (hk : 2 * h + 2 ≤ c.K) :
    slice ([0x00] ++ a ++ b) (1 + h) c.K = b := by
  subst ha
  unfold dbLen at hb
  rw [slice, show ([0x00] ++ a ++ b : Bytes) = ([0x00] ++ a) ++ b from rfl, List.drop_left' (by simp; omega)]
  exact List.take_of_length_le (by omega)

/-- R146 undoes R127 and R128. -/
theorem recovered_paddedBlock (hk : 2 * h + 2 ≤ c.K) (hh : 1 ≤ h) (hd : ∀ x, (hashOf c sel x).length = h)
    (hm : m.length ≤ maxMessageLen c h) (hs : seed.length = h) :
    recoveredDb c sel h (paddedBlock c sel h label m seed) = dataBlock c sel h label m := by
  have l1 := length_maskedSeed (c := c) (label := label) (m := m) hh hd hs
  have l2 := length_maskedDb (c := c) (label := label) (seed := seed) hk hh hd hm
  have e1 : slice (paddedBlock c sel h label m seed) 1 (1 + h) = maskedSeed c sel h label m seed := slice_seed l1
  have e2 : slice (paddedBlock c sel h label m seed) (1 + h) c.K = maskedDb c sel h label m seed := slice_db l1 l2 hk
  have e3 : recoveredSeed c sel h (paddedBlock c sel h label m seed) = seed := by
    rw [recoveredSeed, e1, e2, maskedSeed]
    exact xorBytes_cancel (by rw [hs, length_mgfMask hh hd])
  rw [recoveredDb, e2, e3, maskedDb]
  exact xorBytes_cancel (by rw [length_dataBlock hk hd hm, length_mgfMask hh hd])

theorem afterSeparator_zeros (n : Nat) (m : Bytes) : afterSeparator (zeros n ++ [0x01] ++ m) = some m := by
  induction n with
  | zero => rfl
  | succ n ih => simpa [zeros, List.replicate_succ, afterSeparator] using ih

/-- R136, on byte strings: the verdict on an encoded block is its message. -/
theorem verdict_paddedBlock (col : Bool) (hk : 2 * h + 2 ≤ c.K) (hh : 1 ≤ h) (hd : ∀ x, (hashOf c sel x).length = h)
    (hm : m.length ≤ maxMessageLen c h) (hs : seed.length = h) :
    decodeVerdict c sel h label col (paddedBlock c sel h label m seed) = .ok m := by
  have e := recovered_paddedBlock (c := c) (label := label) hk hh hd hm hs
  have hy : (paddedBlock c sel h label m seed).take 1 = [0x00] := by simp [paddedBlock]
  have hl : (hashOf c sel label).length = h := hd _
  unfold decodeVerdict
  rw [e, if_neg (by simp [hy]), if_neg (by simp [dataBlock, hl])]
  have e2 : (dataBlock c sel h label m).drop h = zeros (maxMessageLen c h - m.length) ++ [0x01] ++ m := by
    rw [dataBlock, List.append_assoc, List.append_assoc, List.drop_left' hl, List.append_assoc]
  rw [e2, afterSeparator_zeros]

/-- R156: what follows the separator is the message exactly when the rest is zeros, the separator and it. -/
theorem afterSeparator_iff (t m : Bytes) : afterSeparator t = some m ↔ ∃ p, t = zeros p ++ [0x01] ++ m := by
  constructor
  · induction t with
    | nil => intro h; cases h
    | cons b t ih =>
      intro h
      unfold afterSeparator at h
      split at h
      · rename_i hb
        obtain ⟨p, e⟩ := ih h
        exact ⟨p + 1, by rw [e, hb]; rfl⟩
      · split at h
        · rename_i hb
          cases h
          exact ⟨0, by rw [hb]; rfl⟩
        · cases h
  · rintro ⟨p, rfl⟩; exact afterSeparator_zeros p m

/-! ### The actions of a decode -/

/-- No action of a list is the evaluation point. -/
def BeforeEval (l : List Action) : Prop := ∀ x ∈ l, x ≠ .phase .decEval

theorem BeforeEval.append {l l' : List Action} (h : BeforeEval l) (h' : BeforeEval l') : BeforeEval (l ++ l') := fun x hx => by
  rcases List.mem_append.mp hx with hx | hx
  exacts [h x hx, h' x hx]

theorem readActs_ne (l : List (Addr × Nat)) : BeforeEval (readActs l).reverse := by
  intro x hx
  simp only [readActs, List.mem_reverse, List.mem_map, List.mem_filter] at hx
  obtain ⟨y, -, rfl⟩ := hx
  exact Action.noConfusion

theorem frontActs_ne (r : Regs) {la : List Action} (h : BeforeEval la) : BeforeEval (frontActs r la) :=
  ((readActs_ne _).append h).append fun x hx => by rw [List.mem_singleton.mp hx]; decide

theorem decodeActs_ne (r : Regs) (h : Nat) : BeforeEval (decodeActs c r h) := by
  intro x hx
  simp only [decodeActs, List.mem_append, List.mem_cons, List.not_mem_nil, or_false, List.mem_replicate] at hx
  rcases hx with ((((rfl | rfl | rfl) | ⟨-, rfl⟩) | rfl) | (rfl | rfl)) | (rfl | rfl | rfl)
  all_goals first | decide | exact Action.noConfusion

/-- What the emission and the exit point add to the record (R222). -/
theorem ranOn_suffix {i : Instr} {u : State} (hu : s.Undisturbed) {a : FrontType i}
    (e : (shapeOf c s.collapse i).front (s.begun c) = .ok a u) :
    ∃ pre, (ranOn c i s).acts = pre ++ u.acts := by
  obtain ⟨l, r, -, -, hs, -⟩ := ranOn_undisturbed (c := c) (i := i) hu
  rw [hs, ranOn_of_ok e]
  show ∃ pre, (u.emitted c s.collapse i a).acts = pre ++ u.acts
  rw [emitted_acts]
  exact ⟨[.phase (if u.alarm then .locked else .idle), .phase .exitStatus, .phase .exitScrub] ++
    ((if writesLen i then [.outLen (BitVec.ofNat 32 (outputOf c s.collapse i a u).length)] else []) ++
    (if (outputOf c s.collapse i a u).length = 0 then []
      else [.memWrite (targetOf u.regs i) (outputOf c s.collapse i a u).length]) ++
    [.phase (shapeOf c s.collapse i).phase]), by simp [List.append_assoc]⟩

/-- What the decode has done when it reaches the evaluation point: the same actions for every content (R155). -/
def evalActs (c : Cfg) (r : Regs) (h : Nat) (la before : List Action) : List Action :=
  before.reverse ++ (frontActs r la).reverse ++ (decodeActs c r h).reverse

/-- DecodeCore, run in a state it is ready in, reaches the evaluation point. -/
theorem decodeCore_reachesEval {load : Cmd Unit} {w : Work} {la : List Action} {v : State}
    (hr : DecodeReady c v d load w la) (hy : w.em.take 1 = [0x00])
    (hh : ∀ j, j < decodeDigests c d.hashLen → c.hashFail v.commands (v.hashCalls + j) = 0) :
    ∃ u, u.acts = .phase .decEval :: decodeActs c v.regs d.hashLen ++ frontActs v.regs la ++ v.acts ∧
      ((∃ m, decodeCore c load v = .ok m u ∧ m.length ≤ maxMessageLen c d.hashLen) ∨
        ∃ k, decodeCore c load v = .error (.raised k 0) u ∧ k ≠ .glitchError) := by
  have hx := decodeCore_run hr hy hh
  obtain ⟨h1, hk⟩ := wf_lookup hr.wf hr.lookup
  cases hv : decodeVerdict c v.regs.hashSel d.hashLen (labelBytes v) v.collapse w.em with
  | ok m => rw [hv] at hx; exact ⟨_, rfl, .inl ⟨m, hx, verdict_length (length_recoveredDb hk h1 hr.hash hr.sized.em) hv⟩⟩
  | error k => rw [hv] at hx; exact ⟨_, rfl, .inr ⟨k, hx, verdict_ne_glitch hv⟩⟩

/-- A command whose front part is DecodeCore in such a state records the same actions up to the evaluation point. -/
theorem ranOn_reachesEval {load : Cmd Unit} {w : Work} {la : List Action} {v : State} {i : Instr} (hu : s.Undisturbed)
    (hr : DecodeReady c v d load w la) (hy : w.em.take 1 = [0x00])
    (hh : ∀ j, j < decodeDigests c d.hashLen → c.hashFail v.commands (v.hashCalls + j) = 0)
    (hok : ∀ m u, decodeCore c load v = .ok m u →
      ∃ pre, (ranOn c i s).acts = pre ++ u.acts)
    (hfront : ∀ k u, decodeCore c load v = .error (.raised k 0) u →
      (shapeOf c s.collapse i).front (s.begun c) = .error (.raised k 0) u) :
    ∃ l, actions (ranOn c i s) = evalActs c v.regs d.hashLen la v.acts ++ (.phase .decEval :: l) := by
  obtain ⟨u, hua, ⟨m, e, -⟩ | ⟨k, e, hk⟩⟩ := decodeCore_reachesEval hr hy hh
  · obtain ⟨pre, hpre⟩ := hok m u e
    exact ⟨pre.reverse, by rw [actions, hpre, hua, evalActs]; simp [List.append_assoc]⟩
  · rw [(fails_of_raised hu (hfront k u e) hk).2, hua]
    exact ⟨[.phase .exitScrub, .phase .exitStatus, .phase .idle], by rw [evalActs]; simp [List.append_assoc]⟩

/-- The actions of a DECODE that reaches the evaluation point. -/
theorem decode_reachesEval (hw : c.wf = true) (hL : c.Lawful) (hu : s.Undisturbed) (hff : FaultFree c s.nextCommand)
    (hp : decodeParamsOk c s.regs = true) (hd : c.lookup s.regs.hashSel = some d) (hh : HashSucceeds c s.nextCommand)
    (hy : (blockAt c s s.regs.inp).take 1 = [0x00]) :
    ∃ l, actions (ranOn c .decode s) = evalActs c s.regs d.hashLen (readActs [(s.regs.inp, c.K)]).reverse
      [.phase .dispatch] ++ (.phase .decEval :: l) := by
  have hbl : (blockAt c s s.regs.inp).length = c.K := by simp [blockAt]
  have hem : put (Work.zero c).em 0 (blockAt c s s.regs.inp) = blockAt c s s.regs.inp := put_zeros_block hbl
  exact ranOn_reachesEval (i := .decode) hu (decodeReady_memory hw hL hff hp hd) (hem.symm ▸ hy) (fun j _ => hh _)
    (fun m u e => ranOn_suffix (i := .decode) hu (a := m) e) fun k u e => e

/-- The actions of a DECRYPT that reaches the evaluation point. -/
theorem decrypt_reachesEval (hw : c.wf = true) (hL : c.Lawful) (hu : s.Undisturbed) (hff : FaultFree c s.nextCommand)
    (hp : decodeParamsOk c s.regs = true) (hd : c.lookup s.regs.hashSel = some d) (hh : HashSucceeds c s.nextCommand)
    (hk : decryptPointersOk c s.regs = true) (h0 : (engineResult c .crt s (blockAt c s s.regs.inp)).1 = 0)
    (hy : (revBytes (engineResult c .crt s (blockAt c s s.regs.inp)).2).take 1 = [0x00]) :
    ∃ l, actions (ranOn c .decrypt s) = evalActs c s.regs d.hashLen [] (s.reversed c).acts ++
      (.phase .decEval :: l) := by
  have hfront := (decryptFront_run hu.1.2.2 hff hk).1 h0
  exact ranOn_reachesEval (i := .decrypt) hu (decodeReady_reversed hw hL hff hp hd) ((reversed_em hL).1.symm ▸ hy)
    (fun j _ => hh _)
    (fun m u e => ranOn_suffix (i := .decrypt) hu (a := m) (hfront.trans e))
    fun k u e => hfront.trans e

theorem beforeEval_evalActs {r : Regs} {h : Nat} {la before l : List Action} (h1 : BeforeEval la) (h2 : BeforeEval before) :
    beforeEval (evalActs c r h la before ++ (.phase .decEval :: l)) = evalActs c r h la before := by
  rw [beforeEval, List.takeWhile_append_of_pos]
  · simp
  · intro a ha
    rw [decide_eq_true_eq]
    simp only [evalActs, List.mem_append, List.mem_reverse] at ha
    rcases ha with (ha | ha) | ha
    · exact h2 a ha
    · exact frontActs_ne r h1 a ha
    · exact decodeActs_ne r h a ha

/-- What DECRYPT has done before it decodes depends on the registers alone. -/
theorem reversed_acts (c : Cfg) (s : State) : (s.reversed c).acts = [.phase .rev, .phase .expVerify, .engRst true,
    .phase .expHold, .engCall .crt, .phase .expRun, .engRst false, .phase .expRelease] ++
    (readActs (wrapRegions c .crt (.pointer s.regs.inp) s.regs)).reverse ++ [.phase .expCheck, .phase .dispatch] := by
  show _ :: ((_ ++ _ ++ _) ++ _) = _
  simp

theorem reversed_acts_ne : BeforeEval (s.reversed c).acts := by
  rw [reversed_acts]
  refine (BeforeEval.append ?_ (readActs_ne _)).append ?_
  all_goals
    intro x hx
    simp only [List.mem_cons, List.not_mem_nil, or_false] at hx
    rcases hx with rfl | rfl | rfl | rfl | rfl | rfl | rfl | rfl <;> decide

end Sys2Proof.Machine
end

