-- ==== Sys2Proof/Tests/Slice0.lean ====
section
/-! SUPPORT. Tests whose expected values are the spec's (spec/30_encoding.md, spec/95_test_vectors.md), each on one
command, and for every statement with hypotheses a state and operands that meet them. -/

open Sys2Proof Sys2Proof.Machine

namespace Sys2Proof.Tests

set_option Elab.async false

/-! ### Set-up of the vectors (spec/95_test_vectors.md section 1.2) -/

/-- Data memory with byte strings placed in it. -/
def place (l : List (Nat × Bytes)) : Memory := l.foldr (fun e m => m.writeBytes e.1 e.2) []

/-- The state of T16 after reset and the host's register and memory writes. -/
def hostState (r : Regs) (l : List (Nat × Bytes)) : State := { State.resetOn t16Cfg with regs := r, mem := place l }

/-- `EM` of V-E1. -/
def emE1 : Bytes := [0x00, 0xF1, 0xF1, 0x3D, 0x8A, 0xFD, 0xAB, 0xBC, 0x50, 0x7B, 0xB7, 0x20, 0x03, 0x12, 0xDE, 0x3F]

/-- `EM` of V-D12. -/
def emD12 : Bytes := [0x00, 0xA2, 0xAE, 0xBA, 0x02, 0xEB, 0x93, 0x25, 0xC8, 0x69, 0x8F, 0xB4, 0x7B, 0x29, 0xCD, 0xF7]

/-- `EM` of V-D9. -/
def emD9 : Bytes := [0x01, 0xF1, 0xF1, 0x3D, 0x8A, 0xFD, 0xAB, 0xBC, 0x50, 0x7B, 0xB7, 0x20, 0x03, 0x12, 0xDE, 0x3F]

/-- The ciphertext of V-C1, the result of V-X2. -/
def cipherC1 : Bytes := [0xBA, 0x0F, 0x6B, 0x67, 0x11, 0xCF, 0x0B, 0xDC, 0x09, 0xFA, 0x67, 0x56, 0x1C, 0x31, 0xDF, 0x8A]

/-- The test key. -/
def key : List (Nat × Bytes) :=
  [(0x4000, [0xD2, 0x00, 0x00, 0x00, 0x00, 0x00, 0x00, 0x2A, 0x50, 0x00, 0x00, 0x00, 0x00, 0x00, 0x00, 0xD7]),
   (0x4010, [0x00, 0x01, 0x00, 0x01]),
   (0x4020, [0xF0, 0x00, 0x00, 0x00, 0x00, 0x00, 0x00, 0x2B]),
   (0x4028, [0xE0, 0x00, 0x00, 0x00, 0x00, 0x00, 0x00, 0x05]),
   (0x4030, [0xA9, 0x6E, 0xA6, 0x91, 0x59, 0x6E, 0xA6, 0xAF]),
   (0x4038, [0xA0, 0xD1, 0xDF, 0x2E, 0x20, 0xD1, 0xDF, 0x31]),
   (0x4040, [0x48, 0x68, 0xED, 0x0E, 0x16, 0x58, 0x68, 0xFA])]

/-- The registers of V-E1, with message length and output address. -/
def regsE (n : Word) (out : Addr) : Regs := { hashSel := 1, inp := 0x1000, inLen := n, out := out }

/-- V-E1 with message length and output address. -/
def sE (n : Word) (out : Addr) : State := hostState (regsE n out) [(0x1000, [0x68, 0x69, 0x21])]

/-- DECODE as in V-D1, of a block, with a label length (label byte 4C). -/
def sD (em : Bytes) (n : Word) : State :=
  hostState { hashSel := 1, inp := 0x3000, inLen := 16, out := 0x2800, outLen := 0xFFFFFFFF, label := 0x1100,
              labelLen := n }
    [(0x1100, [0x4C]), (0x2800, [0xEE, 0xEE, 0xEE, 0xEE]), (0x3000, em)]

/-- V-X2, with the exponent's address. -/
def sP (e : Addr) : State :=
  hostState { opBase := 0x5000, opExp := e, opMod := 0x4000, opRes := 0x5100 } ((0x5000, emE1) :: key)

/-- V-X3, with the address of dQ. -/
def sC (dq : Addr) : State :=
  hostState { opBase := 0x5100, opP := 0x4020, opQ := 0x4028, opDp := 0x4030, opDq := dq, opQinv := 0x4040,
              opRes := 0x5200 }
    ((0x5100, cipherC1) :: key)

/-- ENCRYPT as in V-C1, with the modulus' address. -/
def sEn (n : Addr) : State :=
  hostState { regsE 3 0x3000 with opExp := 0x4010, opMod := n } ((0x1000, [0x68, 0x69, 0x21]) :: key)

/-- DECRYPT as in V-C1, with a selector and the address of p. -/
def sDe (sel : Word) (p : Addr) : State :=
  hostState { hashSel := sel, inp := 0x3000, out := 0x2800, opP := p, opQ := 0x4028, opDp := 0x4030, opDq := 0x4038,
              opQinv := 0x4040 } ((0x3000, cipherC1) :: key)

/-- T16 with a hash that fails from its n-th call on. -/
def t16Hash (n : Nat) : Deployment where
  cfg := { t16Cfg with hashFail := fun _ j => if j < n then 0 else 0x55 }
  wf := t16.wf
  lawful := { t16_lawful with }

/-- T16 with the failing entropy of V-E21. -/
def t16Rng : Deployment where
  cfg := { t16Cfg with entropy := fun _ n => (0x33, zeros n) }
  wf := t16.wf
  lawful := { t16_lawful with entropyLength := fun _ _ => List.length_replicate }

/-- T16 with an engine whose failure is drawn. -/
def t16Eng : Deployment where
  cfg := { t16Cfg with engineFail := fun _ => 7 }
  wf := t16.wf
  lawful := { t16_lawful with }

/-- T16 with copy A of the command's first evaluation inverted. -/
def t16A : Deployment where
  cfg := { t16Cfg with glitch := fun _ e s c => e == 0 && s == .param && c == .A }
  wf := t16.wf
  lawful := { t16_lawful with }

/-- T16 with an engine that hands the base through, and reverses it for CRT, where it refuses every public exponent. -/
def t16Echo : Deployment where
  cfg := { t16Cfg with enginePlain := fun o => (0, (o.base ++ zeros 16).take 16)
                       engineCrt := fun o => (if o.pub.isSome then 1 else 0, ((o.base ++ zeros 16).take 16).reverse) }
  wf := t16.wf
  lawful := { t16_lawful with plainLength := fun o => by simp; rfl, crtLength := fun o => by simp; rfl }

/-- The same with a hash that always fails. -/
def t16EchoHash : Deployment where
  cfg := { t16Echo.cfg with hashFail := fun _ _ => 0x55 }
  wf := t16.wf
  lawful := { t16Echo.lawful with }

/-- T16 with the held read-back inverted in both copies. -/
def t16Held : Deployment where
  cfg := { t16Cfg with glitch := fun _ _ s _ => s == .expHeld }
  wf := t16.wf
  lawful := { t16_lawful with }

/-- T16 with an engine whose failure is drawn and both copies of its status check inverted. -/
def t16EngPassed : Deployment where
  cfg := { t16Eng.cfg with glitch := fun _ _ s _ => s == .expStatus }
  wf := t16.wf
  lawful := { t16_lawful with }

/-- T16 with both copies of the command's first evaluation inverted. -/
def t16Both : Deployment where
  cfg := { t16Cfg with glitch := fun _ e _ _ => e == 0 }
  wf := t16.wf
  lawful := { t16_lawful with }

/-- The state an outcome goes on to; none where it stops. -/
def onward : Host.Outcome State Fault Refusal → Option State
  | .next t => some t
  | .fault _ => none
  | .refused _ => none

/-- What a command that goes on leaves of a state (the state itself where it stops). -/
def ran (c : Cfg) (i : Instr) (s : State) : State := (onward (runOn c i s)).getD s

/-! ### Well-formedness refuses what is ill formed (R9, R60, R73) -/

theorem test_wf_oddModulus : { t16Cfg with K := 15 }.wf = false := by decide
theorem test_wf_smallModulus : ({ K := 2 } : Cfg).wf = false := by decide
theorem test_wf_hugeModulus : ({ K := 2 ^ 31 } : Cfg).wf = false := by decide
theorem test_wf_noExponent : { t16Cfg with lenE := 0 }.wf = false := by decide
theorem test_wf_emptyHash : { t16Cfg with hashTable := [(1, ⟨1, 0, 0⟩)] }.wf = false := by decide
theorem test_wf_hashTooLong : { t16Cfg with hashTable := [(1, ⟨1, 8, 0⟩)] }.wf = false := by decide
theorem test_wf_hashJustFits : { t16Cfg with hashTable := [(1, ⟨1, 7, 0⟩)] }.wf = true := by decide
theorem test_wf_misalignedOffset : (HostEvent.wr 0x002 0).wf = false := by decide
theorem test_wf_outsideWindow : (HostEvent.rd 0x100).wf = false := by decide
theorem test_wf_lastOffset : (HostEvent.rd 0x0FC).wf = true := by decide
theorem test_wf_placePastTop : (HostEvent.mem 0xFFFFFFFFFFFFFFFF [1, 2]).wf = false := by decide
theorem test_wf_stmtOffset : (Stmt.wr 0x3 0).wf = false ∧ (Stmt.rd 0x104).wf = false := by decide
theorem test_wf_stmtPlace : (Stmt.mem 0xFFFFFFFFFFFFFFFF [1, 2]).wf = false ∧
    (Stmt.expectMem 0xFFFFFFFFFFFFFFFF [1, 2]).wf = false := by decide

/-- R9: no deployment has an ill-formed configuration. -/
theorem test_wf_deployment (D : Deployment) : D.cfg.K ≠ 15 := by
  intro h
  have := D.wf
  simp [Cfg.wf, h] at this

/-! ### Words written out from the encoding, bits 31:4 ZERO and 3:0 OPC (R81, R82) -/

theorem test_decode_encode : decodeWord 0b00000000000000000000000000000001 = .instr .encode := by decide
theorem test_decode_decode : decodeWord 0b00000000000000000000000000000010 = .instr .decode := by decide
theorem test_decode_expPlain : decodeWord 0b00000000000000000000000000000011 = .instr .expPlain := by decide
theorem test_decode_expCrt : decodeWord 0b00000000000000000000000000000100 = .instr .expCrt := by decide
theorem test_decode_encrypt : decodeWord 0b00000000000000000000000000000101 = .instr .encrypt := by decide
theorem test_decode_decrypt : decodeWord 0b00000000000000000000000000000110 = .instr .decrypt := by decide
theorem test_decode_zeroField : decodeWord 0b00000000000000000000000000010001 = .illegal .zeroFieldSet := by decide
theorem test_decode_topBit : decodeWord 0b10000000000000000000000000000001 = .illegal .zeroFieldSet := by decide
theorem test_decode_opcZero : decodeWord 0 = .illegal .opcodeZero := by decide
theorem test_decode_opcSeven : decodeWord 0b0111 = .illegal .opcodeAboveSix := by decide

/-- Program P1's bus writes, as the spec lists them. -/
theorem test_encode_p1 : busWrites
    [.mem 0x1000 [0x68, 0x69, 0x21], .wr 0x018 1, .wr64 .inp 0x1000, .wr 0x038 3, .wr64 .out 0x2000, .cmd .encode, .wait,
     .rd 0x008, .wr64 .inp 0x2000, .wr64 .out 0x2800, .cmd .decode, .wait] =
    [(0x018, 1), (0x030, 0x1000), (0x034, 0), (0x038, 3), (0x040, 0x2000), (0x044, 0), (0x000, 1), (0x030, 0x2000),
     (0x034, 0), (0x040, 0x2800), (0x044, 0), (0x000, 2)] := by decide

/-! ### The vectors -/

/-- V-M1, V-M7. -/
theorem test_mgf : mgfMask t16Cfg 1 4 [0, 1, 2, 3] 11 =
    [0x42, 0xD5, 0xFB, 0xC1, 0x41, 0xD5, 0xFA, 0x2E, 0x40, 0xD5, 0xF8] ∧ mgfMask t16Cfg 1 4 [0, 1, 2, 3] 0 = [] := by
  decide +kernel

/-- V-E1. -/
theorem test_encode : blockAt t16Cfg (ran t16Cfg .encode (sE 3 0x2000)) 0x2000 = emE1 ∧
    statusWord (ran t16Cfg .encode (sE 3 0x2000)) = 0x0004FF00 := by decide +kernel

/-- V-E17: the block ends at the top of memory. -/
theorem test_encode_topOfMemory :
    blockAt t16Cfg (ran t16Cfg .encode (sE 3 0xFFFFFFFFFFFFFFF0)) 0xFFFFFFFFFFFFFFF0 = emE1 := by decide +kernel

/-- V-D1: the message, one byte after it untouched. -/
theorem test_decode : (ran t16Cfg .decode (sD emE1 0)).mem.readBytes 0x2800 4 = [0x68, 0x69, 0x21, 0xEE] ∧
    (ran t16Cfg .decode (sD emE1 0)).regs.outLen = 3 := by decide +kernel

/-- V-D8: a wrong label, collapsed; nothing written. -/
theorem test_decode_collapsed :
    statusWord (ran t16Cfg .decode { sD emE1 1 with collapse := true }) = 0x0004F20D ∧
      (ran t16Cfg .decode { sD emE1 1 with collapse := true }).regs.outLen = 0xFFFFFFFF := by decide +kernel

/-- V-X2. -/
theorem test_expPlain : blockAt t16Cfg (ran t16Cfg .expPlain (sP 0x4010)) 0x5100 = cipherC1 ∧
    bracketOf (actions (ran t16Cfg .expPlain (sP 0x4010))) = fullBracket .plain := by decide +kernel

/-- V-X8. -/
theorem test_expPlain_nullExponent : statusWord (ran t16Cfg .expPlain (sP 0)) = 0x0004F807 ∧
    bracketOf (actions (ran t16Cfg .expPlain (sP 0))) = [.engRst true] := by decide +kernel

/-- V-X3: the engine's own byte order. -/
theorem test_expCrt : blockAt t16Cfg (ran t16Cfg .expCrt (sC 0x4038)) 0x5200 =
    [0x3F, 0xDE, 0x12, 0x03, 0x20, 0xB7, 0x7B, 0x50, 0xBC, 0xAB, 0xFD, 0x8A, 0x3D, 0xF1, 0xF1, 0x00] := by
  decide +kernel

/-- V-G19: the line reads back released in both copies. -/
theorem test_expCrt_heldFails :
    statusWord (ran t16Held.cfg .expCrt (sC 0x4038)) = 0x0006F40B := by
  decide +kernel

/-- U8, as in V-G4: a failed call whose status passed falsely ends like a success (R172 gives its bytes no meaning). -/
theorem test_expPlain_failurePassedFalsely :
    statusWord (ran t16EngPassed.cfg .expPlain (sP 0x4010)) = 0x0004FF00 ∧
    (ran t16EngPassed.cfg .expPlain (sP 0x4010)).extStatus = 0 := by decide +kernel

/-- V-C1. -/
theorem test_encrypt : blockAt t16Cfg (ran t16Cfg .encrypt (sEn 0x4000)) 0x3000 = cipherC1 ∧
    statusWord (ran t16Cfg .encrypt (sEn 0x4000)) = 0x0004FF00 := by decide +kernel

/-- V-C10: the key pointers come last. -/
theorem test_encrypt_nullModulus : statusWord (ran t16Cfg .encrypt (sEn 0)) = 0x0004F807 ∧
    (ran t16Cfg .encrypt (sEn 0)).hashCalls = 5 := by decide +kernel

/-- V-C1: DECRYPT reverses the engine's bytes. -/
theorem test_decrypt : (ran t16Cfg .decrypt (sDe 1 0x4020)).mem.readBytes 0x2800 3 = [0x68, 0x69, 0x21] ∧
    (ran t16Cfg .decrypt (sDe 1 0x4020)).regs.outLen = 3 := by decide +kernel

/-- V-C6: the codec parameters are looked at after the whole bracket. -/
theorem test_decrypt_badSelector : statusWord (ran t16Cfg .decrypt (sDe 9 0x4020)) = 0x0004FD02 ∧
    bracketOf (actions (ran t16Cfg .decrypt (sDe 9 0x4020))) = fullBracket .crt := by decide +kernel

/-- V-I1. -/
theorem test_illegal : (onward (issueIllegal t16Cfg (State.resetOn t16Cfg))).map statusWord = some 0x0004F30C := by decide

/-- V-R1. -/
theorem test_reset_status : statusWord (State.resetOn t16Cfg) = 0x0004FE01 := by decide

/-! ### A state and operands that meet the hypotheses of each statement -/

theorem ran_next {s : State} (c : Cfg) (i : Instr) (hu : s.Undisturbed) : runOn c i s = .next (ran c i s) := by
  rw [ran, runOn_undisturbed hu]; rfl

theorem answers {s : State} (D : Deployment) (i : Instr) (hu : s.Undisturbed) : Answers D i s (ran D.cfg i s) :=
  ⟨ran_next D.cfg i hu, fun h => by subst h; rw [exec_eq]; exact ran_next _ i hu⟩

theorem calm (c : Cfg) (r : Regs) (l : List (Nat × Bytes)) (hm : (place l).wf = true := by decide +kernel)
    (hg : FaultFree c 1 := by exact fun _ _ _ => rfl) :
    (hostState r l).Calm c := ⟨⟨⟨rfl, rfl, rfl⟩, rfl, rfl⟩, hm, hg⟩

theorem quiet (k : Nat) : FaultFree t16Cfg k := fun _ _ _ => rfl

theorem oneFault (k : Nat) : AtMostOneInversion t16A.cfg k := by
  intro e1 e2 s1 s2 c1 c2 h1 h2
  simp only [t16A, Bool.and_eq_true, beq_iff_eq] at h1 h2
  obtain ⟨⟨rfl, rfl⟩, rfl⟩ := h1
  obtain ⟨⟨rfl, rfl⟩, rfl⟩ := h2
  exact ⟨rfl, rfl, rfl⟩

theorem witness_ReservedSpaceIsInert : 4 * (7 : Fin 64).val = 0x01C ∧ 4 * (11 : Fin 64).val = 0x02C ∧
    4 * (15 : Fin 64).val = 0x03C ∧ 4 * (19 : Fin 64).val = 0x04C ∧ 4 * (42 : Fin 64).val = 0x0A8 ∧
    4 * (63 : Fin 64).val = 0x0FC ∧ regAt 1 ≠ .cmd ∧ regAt 41 = .hi .opRes := by decide

theorem witness_RegisterReadBack : (State.resetOn t16Cfg).busy = false ∧ regAt 1 ≠ .cmd ∧ regAt 63 ≠ .cmd := by decide

/-- A host about to write a word to CMD. -/
def sCmd (w : Word) : State := { State.resetOn t16Cfg with script := [.wr 0x000 w, .rd 0x008] }

/-- Each clause: a command, and the illegal words next to the opcode map. -/
theorem witness_StepRunsTheCommand : (∀ w, (sCmd w).script = .wr 0x000 w :: [.rd 0x008]) ∧
    decodeWord 1 = .instr .encode ∧ decodeWord 0 = .illegal .opcodeZero ∧ decodeWord 7 = .illegal .opcodeAboveSix :=
  ⟨fun _ => rfl, by decide, by decide, by decide⟩

theorem witness_FetchedWordRuns : decodeTableWord 32 6 = some .decrypt := by decide

/-- A host with an access to come. -/
def sAccess (e : HostEvent) : State := { State.resetOn t16Cfg with script := [e] }

theorem witness_StepServesTheHost : (State.resetOn t16Cfg).script = [] ∧
    (sAccess (.wr 0x0FC 1)).script = .wr (4 * (63 : Fin 64).val) 1 :: [] ∧ regAt 63 ≠ .cmd ∧
    (sAccess (.rd 0)).script = .rd (4 * (0 : Fin 64).val) :: [] ∧
    (sAccess (.mem 0xFFFFFFFFFFFFFFFF [1])).script = .mem 0xFFFFFFFFFFFFFFFF [1] :: [] ∧
    (0xFFFFFFFFFFFFFFFF : Addr).toNat + [(1 : Byte)].length ≤ 2 ^ 64 ∧
    (sAccess (.look 0xFFFFFFFFFFFFFFFF 1)).script = .look 0xFFFFFFFFFFFFFFFF 1 :: [] ∧
    (0xFFFFFFFFFFFFFFFF : Addr).toNat + 1 ≤ 2 ^ 64 ∧ clearOf (sAccess .reset).log.awaited 0xFFFFFFFFFFFFFFFF 1 = true ∧
    clearOf [(0x2000, 16)] 0x200F 1 = false ∧ clearOf [(0x2000, 16)] 0x1FFF 2 = false ∧
    clearOf [(0x2000, 16)] 0x2010 1 = true ∧ clearOf [(0x2000, 16)] 0x1FFF 1 = true ∧
    clearOf [(0x2000, 16)] 0x2000 0 = true ∧ clearOf [(0, 16)] 8 1 = true ∧
    (sAccess .reset).script = .reset :: [] := by decide

/-- R280: a reset is served in every state. -/
theorem test_step_reset : let s : State := { sAccess .reset with busy := true, alarm := true, ph := .expRun, code := 7 }
    step s = .next State.reset := rfl

theorem witness_WritesWhileBusyAreDropped : { State.resetOn t16Cfg with busy := true }.busy = true := rfl

/-- After a later reset: memory is not empty, and commands went before. -/
theorem witness_FirstCommandAfterReset : let s := State.hardReset t16.cfg { sD emE1 0 with commands := 7, alarm := true }
    s.Calm t16.cfg ∧ (∀ p, s.regs.ptr p = 0) ∧ s.mem.read 0x1100 = 0x4C :=
  ⟨⟨⟨⟨rfl, rfl, rfl⟩, rfl, rfl⟩, by decide +kernel, quiet _⟩, fun p => by cases p <;> rfl, by decide +kernel⟩

theorem witness_AcceptanceIsAtomic : (State.resetOn t16Cfg).busy = false ∧ (State.resetOn t16Cfg).alarm = false :=
  ⟨rfl, rfl⟩

theorem witness_IllegalCommandEnds : (State.resetOn t16Cfg).Undisturbed ∧ (State.resetOn t16Cfg).live = [] ∧
    (0x10 : Word).extractLsb' 4 28 ≠ 0 ∧ (0 : Word).extractLsb' 0 4 = 0 ∧ 7 ≤ ((7 : Word).extractLsb' 0 4).toNat ∧
    7 ≤ ((15 : Word).extractLsb' 0 4).toNat :=
  ⟨⟨⟨rfl, rfl, rfl⟩, rfl, rfl⟩, rfl, by decide, by decide, by decide, by decide⟩

/-- A locked block. -/
def sLocked : State := { State.reset with code := 0x0B, codeN := 0xF4, alarm := true, ph := .locked }

theorem witness_LockedStateAnswersGlitchError : Inv Config.cfg sLocked ∧ sLocked.alarm = true ∧
    step sLocked = .next sLocked ∧ ∀ rest, sLocked.script ≠ .reset :: rest :=
  ⟨⟨rfl, by constructor <;> rfl⟩, rfl, rfl, fun _ h => by cases h⟩

theorem witness_ExitPointLeaves : { State.resetOn t16Cfg with busy := true }.busy = true ∧
    noReset { State.resetOn t16Cfg with busy := true }.live = true := ⟨rfl, rfl⟩

theorem witness_StepKeepsInvariant : Inv Config.cfg State.reset ∧ step State.reset = .next State.reset :=
  ⟨⟨rfl, by constructor <;> rfl⟩, rfl⟩

/-- A state in which the command succeeds on T16. -/
def sGood : Instr → State
  | .encode => sE 3 0x2000
  | .decode => sD emE1 0
  | .expPlain => sP 0x4010
  | .expCrt => sC 0x4038
  | .encrypt => sEn 0x4000
  | .decrypt => sDe 1 0x4020

theorem sGood_undisturbed (i : Instr) : (sGood i).Undisturbed := by cases i <;> exact ⟨⟨rfl, rfl, rfl⟩, rfl, rfl⟩

theorem sGood_memory (i : Instr) : (sGood i).mem.wf = true := by cases i <;> decide +kernel

theorem sGood_runs (i : Instr) : (ran t16Cfg i (sGood i)).code = Kind.success.code := by cases i <;> decide +kernel

/-- Also for ReadsPrecedeTheWrite, EngineLineIsBracketed, SuccessVisitsThePhases and HostAcceptsOnlySuccess. -/
theorem witness_EveryCommandEnds (i : Instr) : (sGood i).Undisturbed ∧
    (ran t16.cfg i (sGood i)).code = Kind.success.code ∧ NoDoubleInversion t16.cfg (sGood i).nextCommand :=
  ⟨sGood_undisturbed i, sGood_runs i, fun _ _ h => by cases h.1⟩

theorem witness_ErrorsArePrecise (i : Instr) : (State.resetOn t16Cfg).Undisturbed ∧
    (ran t16.cfg i (State.resetOn t16Cfg)).code ≠ Kind.success.code :=
  ⟨⟨⟨rfl, rfl, rfl⟩, rfl, rfl⟩, by cases i <;> decide⟩

theorem witness_AlarmIffGlitchError : (sGood .encode).Undisturbed ∧
    (ran t16A.cfg .encode (sGood .encode)).alarm = true :=
  ⟨sGood_undisturbed _, by decide +kernel⟩

theorem witness_ExtStatusOnlyFromProviders : (sGood .encode).Undisturbed ∧
    (ran (t16Hash 2).cfg .encode (sGood .encode)).extStatus ≠ 0 :=
  ⟨sGood_undisturbed _, by decide +kernel⟩

theorem witness_CommandFrame (i : Instr) : (sGood i).Undisturbed ∧ (sGood i).mem.wf = true ∧
    (ran t16.cfg i (sGood i)).code = Kind.success.code :=
  ⟨sGood_undisturbed i, sGood_memory i, sGood_runs i⟩

/-- The host reading some registers in a phase. -/
def rds (l : List (Fin 64)) : LiveSlot := { accesses := l.map .rd }

/-- V-E1 with the host reading STATUS twice, EXT_STATUS and HASH_SEL while it runs, two of them in one phase (V-R9). -/
def sWatched : State := { sE 3 0x2000 with live := [rds [2, 3], {}, rds [6], rds [2]] }

/-- V-X2 with STATUS read in every phase to the end: the engine is released in EXP_RELEASE and EXP_RUN (R37). -/
def sLine : State := { sP 0x4010 with live := List.replicate 8 (rds [2]) }

/-- V-D1 with OUT_LEN read in DEC_EVAL, DEC_COPY and EXIT_SCRUB (R153). -/
def sLen : State := { sD emE1 0 with live := List.replicate 9 {} ++ List.replicate 3 (rds [18]) }

/-- Each clause of OutputsAwaitBusyZero, at the last byte of the output region and the byte after it; at a STATUS read
with BUSY = 1, at one of another register, and at a reset. -/
theorem witness_OutputsAwaitBusyZero :
    let t := ran t16Cfg .encode (sE 3 0x2000)
    let next := fun (e : HostEvent) (s : State) => (onward (hostEvent e s)).getD s
    (sE 3 0x2000).Undisturbed ∧ t.log.awaited = [(0x2000, 16)] ∧
      (onward (hostEvent (.look 0x200F 1) t)).isSome = false ∧ (onward (hostEvent (.look 0x2010 1) t)).isSome = true ∧
      (next (.rd 0x00C) t).log.awaited = [(0x2000, 16)] ∧ (next .reset t).log.awaited = [(0x2000, 16)] ∧
      (next (.rd 0x008) { t with busy := true }).log.awaited = [(0x2000, 16)] ∧
      (next (.look 0x2000 16) (next (.rd 0x008) t)).log.reads = [.reg .idle 0x008 0x0004FF00, .mem 0x2000 emE1] :=
  ⟨⟨⟨rfl, rfl, rfl⟩, rfl, rfl⟩, by decide +kernel, by decide +kernel, by decide +kernel, by decide +kernel,
    by decide +kernel, by decide +kernel, by decide +kernel⟩

/-- V-E1 with its first evaluation glitched, and STATUS read in ENC_CHECK and EXIT_SCRUB. -/
def sAlarmed : State := { sE 3 0x2000 with live := [{}, rds [2], rds [2]] }

/-- Each clause, at both its values; slots for fewer, for all and for more phases than the command passes; the reads by
phase and offset. -/
theorem witness_ReadsWhileBusy : (∀ s ∈ [sWatched, sLine, sLen, sAlarmed], s.Ready ∧ noReset s.live = true ∧
      ∀ n o, (memAccesses s.live).all (MemAccess.allowed n o) = true) ∧
    (phasesOf (actions (ran t16.cfg .expPlain sLine))).length = 10 ∧ (ran t16.cfg .expPlain sLine).live = [] ∧
    (ran t16A.cfg .encode { sAlarmed with live := sAlarmed.live ++ [rds [3]] }).live = [rds [3]] ∧
    registerReads (successPhases .encode) sWatched.live =
      [(.dispatch, 0x008), (.dispatch, 0x00C), (.encLhash, 0x018), (.encBuild, 0x008)] ∧
    (ran t16.cfg .encode sWatched).log.reads = [.reg .dispatch 0x008 0x0005FE01, .reg .dispatch 0x00C 0,
      .reg .encLhash 0x018 1, .reg .encBuild 0x008 0x0005FE01] ∧
    (ran t16.cfg .expPlain sLine).log.reads = [.reg .dispatch 0x008 0x0005FE01, .reg .expCheck 0x008 0x0005FE01,
      .reg .expRelease 0x008 0x0001FE01, .reg .expRun 0x008 0x0001FE01, .reg .expHold 0x008 0x0005FE01,
      .reg .expVerify 0x008 0x0005FE01, .reg .expEmit 0x008 0x0005FE01, .reg .exitScrub 0x008 0x0005FE01] ∧
    (ran t16.cfg .decode sLen).log.reads = [.reg .decEval 0x048 0xFFFFFFFF, .reg .decCopy 0x048 3,
      .reg .exitScrub 0x048 3] ∧
    (ran t16A.cfg .encode sAlarmed).log.reads = [.reg .encCheck 0x008 0x0007FE01, .reg .exitScrub 0x008 0x0007FE01] := by
  refine ⟨fun s hs => ?_, by decide +kernel, by decide +kernel, by decide +kernel, by decide, by decide +kernel,
    by decide +kernel, by decide +kernel, by decide +kernel⟩
  simp only [List.mem_cons, List.not_mem_nil, or_false] at hs
  rcases hs with rfl | rfl | rfl | rfl <;> exact ⟨⟨rfl, rfl, rfl⟩, by decide, fun _ _ => rfl⟩

/-- V-X2 with a reset in its fourth phase (V-R11), after the host stored a byte outside every region and looked at it. -/
def sAbandoned : State :=
  { sP 0x4010 with live := [{}, {}, { accesses := [.mem 0x9000 [7], .look 0x9000 1] }, { reset := true }, rds [2]] }

/-- V-X2 with a reset after `n` whole phases. -/
def sCut (n : Nat) : State := { sP 0x4010 with live := List.replicate n {} ++ [{ reset := true }] }

/-- T16 on which a reset inside EXP_EMIT lets the first byte through alone. -/
def t16Torn : Deployment where
  cfg := { t16Cfg with torn := fun _ j => j == 0 }
  wf := t16.wf
  lawful := { t16_lawful with }

/-- V-E1 while the host stores next to the output region and looks there. -/
def sStores : State :=
  { sE 3 0x2000 with live := [{ accesses := [.mem 0x2010 [1, 2], .look 0x200F 0, .look 0x2010 3, .wr 6 9] }] }

/-- V-E1 while the host stores into the message, or looks at the output region. -/
def sBreaks (e : LiveEvent) : State := { sE 3 0x2000 with live := [{}, { accesses := [e] }] }

/-- V-E1 while the host, which awaits the byte at 0x9000 of an earlier command, reads STATUS and looks there. -/
def sEarly : State := { sE 3 0x2000 with
  live := [rds [2], { accesses := [.look 0x9000 1] }], log := { awaited := [(0x9000, 1)] } }

/-- Each clause, at the ends of the regions (the byte after the output region, the last byte in it) and on both sides of
the emitting phase (made.length = 6, 7 and 8, `phasesBeforeEmit .expPlain` = 6). -/
theorem witness_HostDuringACommand :
    (∀ s ∈ [sWatched, sStores, sAbandoned, sCut 5, sCut 6, sCut 7, sBreaks (.mem 0x1002 [0]), sBreaks (.look 0x200F 1),
      sEarly], s.Ready ∧ s.mem.wf = true) ∧
    (phasesOf (actions (ran t16.cfg .encode (sE 3 0x2000)))).length = 11 ∧ noReset (sCut 5).live = false ∧
    (ran t16.cfg .encode sStores).log.awaited = [(0x2000, 16)] ∧
    (onward (runOn t16.cfg .encode sEarly)).isSome = false ∧
    (onward (runOn t16.cfg .encode sStores)).isSome = true ∧ blockAt t16.cfg (ran t16.cfg .encode sStores) 0x2000 = emE1 ∧
    (ran t16.cfg .encode sStores).mem.readBytes 0x2010 3 = [1, 2, 0] ∧
    (ran t16.cfg .encode sStores).log.reads = [.mem 0x200F [], .mem 0x2010 [1, 2, 0]] ∧
    statusWord (ran t16.cfg .expPlain sAbandoned) = 0x0004FE01 ∧
    (ran t16.cfg .expPlain sAbandoned).work = Work.zero t16Cfg ∧
    (ran t16.cfg .expPlain sAbandoned).mem.read 0x9000 = 7 ∧
    (ran t16.cfg .expPlain sAbandoned).live = [rds [2]] ∧
    (onward (runOn t16.cfg .encode (sBreaks (.mem 0x1002 [0])))).isSome = false ∧
    (onward (runOn t16.cfg .encode (sBreaks (.look 0x200F 1)))).isSome = false := by
  refine ⟨fun s hs => ?_, ?_⟩
  case' refine_2 => and_intros <;> decide +kernel
  simp only [List.mem_cons, List.not_mem_nil, or_false] at hs
  rcases hs with rfl | rfl | rfl | rfl | rfl | rfl | rfl | rfl | rfl <;> exact ⟨⟨rfl, rfl, rfl⟩, by decide +kernel⟩

/-- R282, U6: a reset before EXP_EMIT, inside it and after it. -/
theorem witness_HostDuringACommand_reset : phasesBeforeEmit .expPlain = 6 ∧
    (∀ n ∈ [0, 3, 5], blockAt t16Torn.cfg (ran t16Torn.cfg .expPlain (sCut n)) 0x5100 = zeros 16) ∧
    blockAt t16Torn.cfg (ran t16Torn.cfg .expPlain (sCut 6)) 0x5100 = 0xBA :: zeros 15 ∧
    blockAt t16Torn.cfg (ran t16Torn.cfg .expPlain (sCut 7)) 0x5100 = cipherC1 := by decide +kernel

/-- The host inside an illegal command (V-I1): STATUS read in DISPATCH, a byte stored at the top of memory and IN_LEN read
in EXIT_SCRUB, and a slot that stays over. -/
def sBusyIllegal : State :=
  { sE 3 0x2000 with live := [rds [2], { accesses := [.mem 0xFFFFFFFFFFFFFFFF [7], .rd 14] }, rds [2]] }

/-- The same with a reset in EXIT_SCRUB; with a store past the top; and with a look at an output awaited. -/
def sIllegalReset : State := { sE 3 0x2000 with live := [rds [2], { reset := true }, rds [2]] }
def sIllegalBreaks : State := { sE 3 0x2000 with live := [{ accesses := [.mem 0xFFFFFFFFFFFFFFFF [7, 8]] }] }
def sIllegalEarly : State := { sEarly with live := [{ accesses := [.look 0x9000 1] }] }

/-- Each clause. -/
theorem witness_HostDuringAnIllegalCommand :
    (∀ s ∈ [sBusyIllegal, sIllegalReset, sIllegalBreaks, sIllegalEarly], s.Ready) ∧ noReset sBusyIllegal.live = true ∧
    (0x11 : Word).extractLsb' 4 28 ≠ 0 ∧
    (let t := (onward (issueIllegal t16Cfg sBusyIllegal)).getD sBusyIllegal;
      statusWord t = 0x0004F30C ∧ t.live = [rds [2]] ∧ t.mem.read 0xFFFFFFFFFFFFFFFF = 7 ∧
      t.log.reads = [.reg .dispatch 0x008 0x0005FE01, .reg .exitScrub 0x038 3]) ∧
    (let t := (onward (issueIllegal t16Cfg sIllegalReset)).getD sIllegalReset;
      statusWord t = 0x0004FE01 ∧ t.regs = {} ∧ t.live = [rds [2]]) ∧
    (onward (issueIllegal t16Cfg sIllegalEarly)).isSome = false ∧
    (onward (issueIllegal t16Cfg sIllegalBreaks)).isSome = false := by
  refine ⟨fun s hs => ?_, ?_⟩
  case' refine_2 => and_intros <;> decide +kernel
  simp only [List.mem_cons, List.not_mem_nil, or_false] at hs
  rcases hs with rfl | rfl | rfl | rfl <;> exact ⟨rfl, rfl, rfl⟩

/-- Log 11: a message two bytes longer than MSG and a selector without an entry, both let through: the buffers a command
ends with have their sizes. -/
theorem witness_BuffersKeepTheirCapacity :
    (let u := stateOf (encodeBody { t16Cfg with glitch := fun _ _ s _ => s == .encLen } ((sE 14 0x2000).accept t16Cfg {}));
      u.ph = .encEmit ∧ u.work.msg.length = 12 ∧ u.work.db.length = 14 ∧ u.work.em.length = 16) ∧
    (let s := hostState { regsE 3 0x2000 with hashSel := 9 } [];
      (stateOf (encodeBody t16Both.cfg (s.accept t16Cfg {}))).work.mask.length = 14) := by decide +kernel

/-- Log 6: a region that wraps counts as named up to the top (P3); without an entry of HASH_SEL DECODE names no output. -/
theorem test_namedRegions : let e (a : Addr) : List LiveSlot := [{ accesses := [.mem a [0]] }]
    (onward (runOn t16Cfg .encode { hostState { regsE 3 0x2000 with inp := 0xFFFFFFFFFFFFFFFE } [] with
      live := e 0xFFFFFFFFFFFFFFFF })).isSome = false ∧
    (onward (runOn t16Cfg .decode { sD emE1 0 with live := e 0x2800 })).isSome = false ∧
    (onward (runOn t16Cfg .decode { hostState { (sD emE1 0).regs with hashSel := 9 } [] with
      live := e 0x2800 })).isSome = true := by decide +kernel

/-- Log 11: with S_PARAM passed falsely the command reaches its exit point: a selector without an entry, and an output
region of which one byte has an address. -/
theorem test_doubleInversion_goesOn :
    (ran t16Both.cfg .encode (hostState { regsE 3 0x2000 with hashSel := 9 } [])).busy = false ∧
    (ran t16Both.cfg .encode (sE 3 0xFFFFFFFFFFFFFFFF)).mem.read 0xFFFFFFFFFFFFFFFF = 0x00 ∧
    statusWord (ran t16Both.cfg .encode (sE 3 0xFFFFFFFFFFFFFFFF)) = 0x0004FF00 := by decide +kernel

theorem witness_MemoryReadAfterWrite : Memory.wf [] = true ∧ (2 ^ 64 - 1) + [(5 : Byte)].length ≤ 2 ^ 64 := by decide

theorem witness_DoubleEvaluation : FaultFree t16Cfg (State.resetOn t16Cfg).commands ∧
    (State.resetOn t16Cfg).engRst = true ∧ ((State.resetOn t16Cfg).engRst ^^ t16Held.cfg.glitch 0 0 .expHeld .A) = false ∧
    (true ^^ t16A.cfg.glitch 0 0 .param .A) ≠ (true ^^ t16A.cfg.glitch 0 0 .param .B) ∧
    (true ^^ t16A.cfg.glitch 0 1 .param .A) = (true ^^ t16A.cfg.glitch 0 1 .param .B) :=
  ⟨quiet _, rfl, rfl, by decide, by decide⟩

/-- Each clause: a success, a success turned into GlitchError, an error turned into GlitchError. -/
theorem witness_SingleFault : (sGood .encode).Undisturbed ∧ AtMostOneInversion t16A.cfg (sGood .encode).nextCommand ∧
    (ran t16A.cfg .expPlain (sGood .expPlain)).code = Kind.success.code ∧
    (ran t16A.cfg.glitchFree .encode (sGood .encode)).code = Kind.success.code ∧
    (ran t16A.cfg .encode (sGood .encode)).code = Kind.glitchError.code ∧
    (ran t16A.cfg.glitchFree .encode (State.resetOn t16Cfg)).code = Kind.invalidParam.code :=
  ⟨sGood_undisturbed _, oneFault _, by decide +kernel, by decide +kernel, by decide +kernel, by decide⟩

theorem witness_MaskGeneration : t16.cfg.lookup 1 = some ⟨1, 4, 0⟩ ∧ FaultFree t16.cfg 0 ∧
    11 ≤ (State.resetOn t16Cfg).work.mask.length ∧
    (∀ j, j < ceilDiv 11 4 → t16.cfg.hashFail 0 (0 + j) = 0) ∧ 2 < ceilDiv 11 4 ∧
    (∀ i, i < 2 → (t16Hash 2).cfg.hashFail 0 (0 + i) = 0) ∧ (t16Hash 2).cfg.hashFail 0 (0 + 2) ≠ 0 :=
  ⟨rfl, quiet _, by decide, fun _ _ => rfl, by decide, by decide, by decide⟩

/-- V-E3's length, the largest. -/
theorem witness_EncodeResult : (sE 6 0x2000).Calm t16.cfg ∧ encodeParamsOk t16.cfg (sE 6 0x2000).regs = true ∧
    t16.cfg.lookup (sE 6 0x2000).regs.hashSel = some ⟨1, 4, 0⟩ ∧
    (sE 6 0x2000).regs.inLen.toNat ≤ maxMessageLen t16.cfg 4 ∧ HashSucceeds t16.cfg (sE 6 0x2000).nextCommand ∧
    (t16.cfg.entropy (sE 6 0x2000).nextCommand 4).1 = 0 :=
  ⟨calm _ _ _, by decide, rfl, by decide, fun _ => rfl, rfl⟩

/-- V-E11, V-E5. -/
theorem witness_EncodeStageRefuses : (sE 3 0).Calm t16.cfg ∧ encodeParamsOk t16.cfg (sE 3 0).regs = false ∧
    (sE 7 0x2000).Calm t16.cfg ∧ encodeParamsOk t16.cfg (sE 7 0x2000).regs = true ∧
    t16.cfg.lookup (sE 7 0x2000).regs.hashSel = some ⟨1, 4, 0⟩ ∧
    maxMessageLen t16.cfg 4 < (sE 7 0x2000).regs.inLen.toNat :=
  ⟨calm _ _ _, by decide, calm _ _ _, by decide, rfl, by decide⟩

/-- Each clause: the label hash, the draw, the last of the five Digest calls. -/
theorem witness_EncodeStageProviderFailures :
    (∀ D ∈ [t16Hash 0, t16Rng, t16Hash 4], (sE 3 0x2000).Calm D.cfg ∧ encodeParamsOk D.cfg (sE 3 0x2000).regs = true ∧
      D.cfg.lookup (sE 3 0x2000).regs.hashSel = some ⟨1, 4, 0⟩ ∧
      (sE 3 0x2000).regs.inLen.toNat ≤ maxMessageLen D.cfg 4) ∧
    (t16Hash 0).cfg.hashFail 1 0 ≠ 0 ∧ t16Rng.cfg.hashFail 1 0 = 0 ∧ (t16Rng.cfg.entropy 1 4).1 ≠ 0 ∧
    4 < 2 + ceilDiv (dbLen t16.cfg 4) 4 ∧ (∀ i, i < 4 → (t16Hash 4).cfg.hashFail 1 i = 0) ∧
    (t16Hash 4).cfg.hashFail 1 4 ≠ 0 ∧ ((t16Hash 4).cfg.entropy 1 4).1 = 0 := by
  refine ⟨fun D hD => ?_, by decide, rfl, by decide, by decide, by decide, by decide, rfl⟩
  simp only [List.mem_cons, List.not_mem_nil, or_false] at hD
  rcases hD with rfl | rfl | rfl <;>
    exact ⟨calm _ _ _, by decide, rfl, by decide⟩

/-- V-D1; DecodeAcceptsExactly too. -/
theorem witness_DecodeResult : (sD emE1 0).Calm t16.cfg ∧ decodeParamsOk t16.cfg (sD emE1 0).regs = true ∧
    t16.cfg.lookup (sD emE1 0).regs.hashSel = some ⟨1, 4, 0⟩ ∧ HashSucceeds t16.cfg (sD emE1 0).nextCommand :=
  ⟨calm _ _ _, by decide, rfl, fun _ => rfl⟩

/-- DECRYPT of a block, handed through by the engine of `t16Echo`. -/
def sTwo (em : Bytes) : State :=
  hostState (sDe 1 0x4020).regs ((0x3000, em) :: key)

/-- A null output pointer; V-D9; the same block through DECRYPT, with a failing hash. -/
theorem witness_DecodeEarlyFailures : (State.resetOn t16Cfg).Calm t16.cfg ∧
    decodeParamsOk t16.cfg (State.resetOn t16Cfg).regs = false ∧ (sD emD9 0).Calm t16.cfg ∧
    decodeParamsOk t16.cfg (sD emD9 0).regs = true ∧
    (blockAt t16.cfg (sD emD9 0) (sD emD9 0).regs.inp).take 1 ≠ [0x00] ∧
    (sTwo emD9).Calm t16EchoHash.cfg ∧ decryptPointersOk t16EchoHash.cfg (sTwo emD9).regs = true ∧
    decodeParamsOk t16EchoHash.cfg (sTwo emD9).regs = true ∧
    (engineResult t16EchoHash.cfg .crt (sTwo emD9) (blockAt t16EchoHash.cfg (sTwo emD9) 0x3000)).1 = 0 ∧
    (revBytes (engineResult t16EchoHash.cfg .crt (sTwo emD9) (blockAt t16EchoHash.cfg (sTwo emD9) 0x3000)).2).take 1 ≠
      [0x00] :=
  ⟨⟨⟨⟨rfl, rfl, rfl⟩, rfl, rfl⟩, rfl, quiet _⟩, by decide, calm _ _ _, by decide,
    by decide +kernel, calm _ _ _, by decide, by decide, by decide +kernel,
    by decide +kernel⟩

/-- DECRYPT of V-C1 with a usable codec side. -/
theorem witness_DecryptResult : (sDe 1 0x4020).Calm t16.cfg ∧ decryptPointersOk t16.cfg (sDe 1 0x4020).regs = true ∧
    (engineResult t16.cfg .crt (sDe 1 0x4020) (blockAt t16.cfg (sDe 1 0x4020) (sDe 1 0x4020).regs.inp)).1 = 0 ∧
    decodeParamsOk t16.cfg (sDe 1 0x4020).regs = true ∧
    t16.cfg.lookup (sDe 1 0x4020).regs.hashSel = some ⟨1, 4, 0⟩ ∧ HashSucceeds t16.cfg (sDe 1 0x4020).nextCommand :=
  ⟨calm _ _ _, by decide, by decide +kernel, by decide, rfl, fun _ => rfl⟩

/-- Each clause, at the last Digest call. -/
theorem witness_DecodeHashFailure : let D := t16Hash 4
    (∀ s ∈ [sD emE1 0, sDe 1 0x4020], s.Calm D.cfg ∧ decodeParamsOk D.cfg s.regs = true ∧
      D.cfg.lookup s.regs.hashSel = some ⟨1, 4, 0⟩) ∧
    4 < 2 + ceilDiv (dbLen D.cfg 4) 4 ∧ (∀ i, i < 4 → D.cfg.hashFail 1 i = 0) ∧ D.cfg.hashFail 1 4 ≠ 0 ∧
    (blockAt D.cfg (sD emE1 0) 0x3000).take 1 = [0x00] ∧ decryptPointersOk D.cfg (sDe 1 0x4020).regs = true ∧
    (engineResult D.cfg .crt (sDe 1 0x4020) (blockAt D.cfg (sDe 1 0x4020) 0x3000)).1 = 0 ∧
    (revBytes (engineResult D.cfg .crt (sDe 1 0x4020) (blockAt D.cfg (sDe 1 0x4020) 0x3000)).2).take 1 = [0x00] := by
  refine ⟨fun s hs => ?_, by decide, by decide, by decide, by decide +kernel, by decide, by decide +kernel,
    by decide +kernel⟩
  simp only [List.mem_cons, List.not_mem_nil, or_false] at hs
  rcases hs with rfl | rfl <;> exact ⟨calm _ _ _, by decide, rfl⟩

/-- Clause 1 and 2; clause 3 is `witness_DecodeResult`. An empty PS and an empty message are the ends of the range. -/
theorem witness_DecodeAcceptsExactly : ([1, 2] : Bytes).length = ([1, 3] : Bytes).length ∧
    ([0, 0, 1, 9] : Bytes) = zeros 2 ++ [0x01] ++ [9] ∧ ([1] : Bytes) = zeros 0 ++ [0x01] ++ [] := by decide

theorem witness_LengthCheckCannotFail : ([0, 0, 0, 1, 7, 7, 7] : Bytes).length = dbLen t16Cfg 4 - 4 ∧
    (scanPadding 4 [0, 0, 0, 1, 7, 7, 7]).found = true ∧ (scanPadding 4 [1, 7, 7, 7, 7, 7, 7]).found = true := by decide

/-- Each clause, with two contents of the block. -/
theorem witness_DecodeDataIndependence : (sD emE1 0).Calm t16.cfg ∧ (sD emD12 0).Calm t16.cfg ∧
    (sD emE1 0).regs = (sD emD12 0).regs ∧ HashSucceeds t16.cfg 1 ∧
    (blockAt t16.cfg (sD emE1 0) 0x3000).take 1 = [0x00] ∧ (blockAt t16.cfg (sD emD12 0) 0x3000).take 1 = [0x00] ∧
    blockAt t16.cfg (sD emE1 0) 0x3000 ≠ blockAt t16.cfg (sD emD12 0) 0x3000 ∧
    (sTwo emE1).regs = (sTwo emD12).regs ∧ decodeParamsOk t16Echo.cfg (sTwo emE1).regs = true ∧
    decryptPointersOk t16Echo.cfg (sTwo emE1).regs = true ∧
    ∀ em ∈ [emE1, emD12], (sTwo em).Calm t16Echo.cfg ∧ HashSucceeds t16Echo.cfg (sTwo em).nextCommand ∧
      (engineResult t16Echo.cfg .crt (sTwo em) (blockAt t16Echo.cfg (sTwo em) 0x3000)).1 = 0 ∧
      (revBytes (engineResult t16Echo.cfg .crt (sTwo em) (blockAt t16Echo.cfg (sTwo em) 0x3000)).2).take 1 = [0x00] := by
  refine ⟨calm _ _ _, calm _ _ _, rfl,
    fun _ => rfl, by decide +kernel, by decide +kernel, by decide +kernel, rfl, by decide, by decide, fun em hem => ?_⟩
  simp only [List.mem_cons, List.not_mem_nil, or_false] at hem
  rcases hem with rfl | rfl <;>
    exact ⟨calm _ _ _, fun _ => rfl, rfl, by decide +kernel⟩

/-- An engine that succeeds, and one that fails. -/
theorem witness_ExpPlainResult : (sP 0x4010).Calm t16.cfg ∧ (sP 0x4010).Calm t16Eng.cfg ∧
    expParamsOk t16.cfg .plain (.pointer (sP 0x4010).regs.opBase) true (sP 0x4010).regs = true ∧
    (engineResult t16.cfg .plain (sP 0x4010) (blockAt t16.cfg (sP 0x4010) 0x5000)).1 = 0 ∧
    (engineResult t16Eng.cfg .plain (sP 0x4010) (blockAt t16.cfg (sP 0x4010) 0x5000)).1 ≠ 0 :=
  ⟨calm _ _ _, calm _ _ _, by decide, by decide +kernel,
    by decide +kernel⟩

theorem witness_ExpCrtResult : (sC 0x4038).Calm t16.cfg ∧ (sC 0x4038).Calm t16Eng.cfg ∧
    expParamsOk t16.cfg .crt (.pointer (sC 0x4038).regs.opBase) true (sC 0x4038).regs = true ∧
    (engineResult t16.cfg .crt (sC 0x4038) (blockAt t16.cfg (sC 0x4038) 0x5100)).1 = 0 ∧
    (engineResult t16Eng.cfg .crt (sC 0x4038) (blockAt t16.cfg (sC 0x4038) 0x5100)).1 ≠ 0 :=
  ⟨calm _ _ _, calm _ _ _, by decide, by decide +kernel,
    by decide +kernel⟩

theorem witness_ExpBadPointers : (sC 0).Calm t16.cfg ∧
    expParamsOk t16.cfg .crt (.pointer (sC 0).regs.opBase) true (sC 0).regs = false ∧ (sP 0).Calm t16.cfg ∧
    expParamsOk t16.cfg .plain (.pointer (sP 0).regs.opBase) true (sP 0).regs = false :=
  ⟨calm _ _ _, by decide, calm _ _ _, by decide⟩

/-- An engine that succeeds, and one that fails. -/
theorem witness_EncryptResult : (sEn 0x4000).Calm t16.cfg ∧ (sEn 0x4000).Calm t16Eng.cfg ∧
    encodeParamsOk t16.cfg (sEn 0x4000).regs = true ∧ t16.cfg.lookup (sEn 0x4000).regs.hashSel = some ⟨1, 4, 0⟩ ∧
    (sEn 0x4000).regs.inLen.toNat ≤ maxMessageLen t16.cfg 4 ∧ HashSucceeds t16.cfg 1 ∧ (t16.cfg.entropy 1 4).1 = 0 ∧
    encryptPointersOk t16.cfg (sEn 0x4000).regs = true ∧
    (∀ em : Bytes, (engineResult t16Eng.cfg .plain (sEn 0x4000) em).1 ≠ 0) ∧
    (engineResult t16.cfg .plain (sEn 0x4000) (paddedBlock t16.cfg 1 4 (labelBytes (sEn 0x4000)) (messageBytes (sEn 0x4000))
      (seedDrawn t16.cfg (sEn 0x4000) 4))).1 = 0 :=
  ⟨calm _ _ _, calm _ _ _, by decide, rfl, by decide,
    fun _ => rfl, rfl, by decide, fun _ => by simp [engineResult, engineAnswer, t16Eng], by decide +kernel⟩

/-- V-C10. -/
theorem witness_EncryptKeyPointersComeLast : (sEn 0).Calm t16.cfg ∧ encodeParamsOk t16.cfg (sEn 0).regs = true ∧
    t16.cfg.lookup (sEn 0).regs.hashSel = some ⟨1, 4, 0⟩ ∧ (sEn 0).regs.inLen.toNat ≤ maxMessageLen t16.cfg 4 ∧
    HashSucceeds t16.cfg 1 ∧ (t16.cfg.entropy 1 4).1 = 0 ∧ encryptPointersOk t16.cfg (sEn 0).regs = false :=
  ⟨calm _ _ _, by decide, rfl, by decide, fun _ => rfl, rfl, by decide⟩

/-- Each clause of DecryptEngineComesFirst (V-C7, a failing engine, V-C6). -/
theorem witness_DecryptEngineComesFirst : (sDe 1 0).Calm t16.cfg ∧ decryptPointersOk t16.cfg (sDe 1 0).regs = false ∧
    (sDe 1 0x4020).Calm t16Eng.cfg ∧ decryptPointersOk t16Eng.cfg (sDe 1 0x4020).regs = true ∧
    (engineResult t16Eng.cfg .crt (sDe 1 0x4020) (blockAt t16.cfg (sDe 1 0x4020) 0x3000)).1 ≠ 0 ∧
    (sDe 9 0x4020).Calm t16.cfg ∧ decryptPointersOk t16.cfg (sDe 9 0x4020).regs = true ∧
    (engineResult t16.cfg .crt (sDe 9 0x4020) (blockAt t16.cfg (sDe 9 0x4020) 0x3000)).1 = 0 ∧
    decodeParamsOk t16.cfg (sDe 9 0x4020).regs = false :=
  ⟨calm _ _ _, by decide, calm _ _ _, by decide,
    by decide +kernel, calm _ _ _, by decide, by decide +kernel, by decide⟩

/-- A host that decodes what ENCODE wrote. -/
def sBack : State :=
  { State.resetOn t16Cfg with
    regs := { hashSel := 1, inp := 0x2000, out := 0x2800 }, mem := (ran t16Cfg .encode (sE 3 0x2000)).mem }

theorem witness_EncodeDecodeRoundTrip : (sE 3 0x2000).Calm t16.cfg ∧
    Answers t16 .encode (sE 3 0x2000) (ran t16.cfg .encode (sE 3 0x2000)) ∧
    (ran t16.cfg .encode (sE 3 0x2000)).code = Kind.success.code ∧ sBack.Calm t16.cfg ∧
    HashSucceeds t16.cfg sBack.nextCommand ∧ decodeParamsOk t16.cfg sBack.regs = true ∧
    sBack.regs.hashSel = (sE 3 0x2000).regs.hashSel ∧ labelBytes sBack = labelBytes (sE 3 0x2000) ∧
    blockAt t16.cfg sBack sBack.regs.inp = blockAt t16.cfg (ran t16.cfg .encode (sE 3 0x2000)) (sE 3 0x2000).regs.out :=
  ⟨calm _ _ _, answers _ _ ⟨⟨rfl, rfl, rfl⟩, rfl, rfl⟩, by decide +kernel,
    ⟨⟨⟨rfl, rfl, rfl⟩, rfl, rfl⟩, by decide +kernel, fun _ _ _ => rfl⟩, fun _ => rfl, by decide, rfl, rfl, rfl⟩

/-- A host that decrypts what ENCRYPT wrote, with an engine that has the round-trip property. -/
def sBackE : State :=
  { State.resetOn t16Cfg with
    regs := { (sDe 1 0x4020).regs with out := 0x2800 }, mem := (ran t16Echo.cfg .encrypt (sEn 0x4000)).mem }

/-- The engine has the property for the operands passed here, and not for every choice of the optional ones. -/
theorem echo_roundTrip (pub : List Bytes) (pubOpt : List (Option Bytes)) (priv : List Bytes) :
    EngineRoundTrip t16Echo.cfg pub pubOpt priv [none, none] := by
  intro em hl _ x y _
  have h : (em ++ zeros 16).take 16 = em := List.take_left' hl
  refine ⟨rfl, ?_⟩
  show (((((em ++ zeros 16).take 16) ++ zeros 16).take 16).reverse).reverse = em
  rw [h, h, List.reverse_reverse]

theorem witness_EncryptDecryptRoundTrip :
    EngineRoundTrip t16Echo.cfg (mandatoryBytes t16Echo.cfg .plain (sEn 0x4000))
      (optionalBytes t16Echo.cfg .plain (sEn 0x4000))
      (mandatoryBytes t16Echo.cfg .crt sBackE) (optionalBytes t16Echo.cfg .crt sBackE) ∧
    (sEn 0x4000).Calm t16Echo.cfg ∧ Answers t16Echo .encrypt (sEn 0x4000) (ran t16Echo.cfg .encrypt (sEn 0x4000)) ∧
    (ran t16Echo.cfg .encrypt (sEn 0x4000)).code = Kind.success.code ∧ sBackE.Calm t16Echo.cfg ∧
    HashSucceeds t16Echo.cfg sBackE.nextCommand ∧ t16Echo.cfg.engineFail sBackE.nextCommand = 0 ∧
    decryptPointersOk t16Echo.cfg sBackE.regs = true ∧ decodeParamsOk t16Echo.cfg sBackE.regs = true ∧
    sBackE.regs.hashSel = (sEn 0x4000).regs.hashSel ∧ labelBytes sBackE = labelBytes (sEn 0x4000) ∧
    blockAt t16Echo.cfg sBackE sBackE.regs.inp =
      blockAt t16Echo.cfg (ran t16Echo.cfg .encrypt (sEn 0x4000)) (sEn 0x4000).regs.out :=
  ⟨echo_roundTrip _ _ _, calm _ _ _, answers _ _ ⟨⟨rfl, rfl, rfl⟩, rfl, rfl⟩,
    by decide +kernel, ⟨⟨⟨rfl, rfl, rfl⟩, rfl, rfl⟩, by decide +kernel, fun _ _ _ => rfl⟩, fun _ => rfl, rfl, by decide,
    by decide, rfl, rfl, rfl⟩

end Sys2Proof.Tests
end

section
/-! PROOFS. Scope: every command keeps the capacities of the work buffers (R10, R40), and whatever the host does while a
command or an illegal word runs has the effects the rules leave it and no other (R16, R282, R290, R296). -/

namespace Sys2Proof.Machine

variable {D : Deployment} {c : Cfg} {i : Instr} {s u : State} {k n : Nat} {ps : List Phase}
  {live made rest : List LiveSlot} {g g' : HostLog}

/-! ### Work buffers -/

theorem keepsSizes_encodeBody : KeepsSizes c (encodeBody c) :=
  keepsSizes_encodeCore.bind fun h => (keepsSizes_phase _).bind fun _ => (keepsSizes_assembleEm h).bind fun _ =>
    keepsSizes_get fun _ => keepsSizes_memWrite _ _

theorem keepsSizes_decodeBody : KeepsSizes c (decodeBody c) :=
  (keepsSizes_decodeCore keepsSizes_loadEmFromMemory).bind keepsSizes_decodeCopy

/-- The emission of the engine's result, at a pointer register. -/
theorem keepsSizes_emitResult (a : Regs → Addr) : KeepsSizes c (do
    phase c .expEmit
    let s ← get
    memWrite c (a s.regs) (s.work.res.take c.K)) :=
  (keepsSizes_phase _).bind fun _ => keepsSizes_get fun _ => keepsSizes_memWrite _ _

theorem keepsSizes_expCommand (kind : ExpKind) : KeepsSizes c (expCommand c kind) :=
  keepsSizes_get fun _ => (keepsSizes_expWrap _ _ _).bind fun _ => keepsSizes_emitResult Regs.opRes

theorem keepsSizes_encryptBody : KeepsSizes c (encryptBody c) :=
  keepsSizes_encodeCore.bind fun h => (keepsSizes_assembleEm h).bind fun _ => (keepsSizes_expWrap _ _ _).bind fun _ =>
    keepsSizes_emitResult Regs.out

theorem keepsSizes_decryptBody : KeepsSizes c (decryptBody c) :=
  keepsSizes_get fun _ => (keepsSizes_expWrap _ _ _).bind fun _ => keepsSizes_reverseResult.bind fun _ =>
    (keepsSizes_decodeCore (keepsSizes_pure ())).bind keepsSizes_decodeCopy

/-- Settles O34: each body is built of pieces that keep the sizes. -/
theorem buffersKeepTheirCapacity : Obligations.BuffersKeepTheirCapacity := by
  refine fun c => ⟨Work.zero_sized c, ?_⟩
  simp only [List.forall_mem_cons, List.not_mem_nil, false_imp_iff, implies_true, and_true]
  exact ⟨keepsSizes_encodeBody, keepsSizes_decodeBody, keepsSizes_expCommand .plain, keepsSizes_expCommand .crt,
    keepsSizes_encryptBody, keepsSizes_decryptBody⟩

/-! ### The slots the host came to -/

/-- Of the slots `live` the host came to `made` in a command that stands `n` slots to it, and `rest` is left: all `n` as
far as there are any unless a reset is among them; `g` holds what it did to data memory in them. -/
structure Came (n : Nat) (live made rest : List LiveSlot) (g : HostLog) : Prop where
  slots : live = made ++ rest
  atMost : made.length ≤ n
  all : noReset made = true → rest = [] ∨ made.length = n
  posted : g.posted = memAccesses made

/-- Slots served with no reset among them. -/
theorem came_of_serves (h : Serves ps live g rest g') (h0 : g.posted = []) :
    ∃ made, Came ps.length live made rest g' ∧ noReset made = true ∧ g'.awaited = g.awaited ∧
      g'.reads.filterMap HostRead.register = g.reads.filterMap HostRead.register ++ registerReads ps made := by
  obtain ⟨made, rfl, hn, hp, hl, ha, hr⟩ := h
  rw [List.length_append] at hl
  refine ⟨made, ⟨rfl, by omega, fun _ => ?_, by rw [hp, h0, List.nil_append]⟩, hn, ha, hr⟩
  rcases Nat.eq_zero_or_pos rest.length with hz | hz
  · exact .inl (List.length_eq_zero_iff.mp hz)
  · exact .inr (by omega)

/-- Slots served up to one with a reset. -/
theorem came_of_resetIn (h : ResetIn k live g rest g') (hk : k ≤ n) (h0 : g.posted = []) :
    ∃ before slot, Came n live (before ++ [slot]) rest g' ∧ noReset before = true ∧ slot.reset = true ∧
      (before ++ [slot]).length = k ∧ g'.awaited = g.awaited := by
  obtain ⟨before, slot, rfl, hn, hs, hp, hl, ha⟩ := h
  have hlen : (before ++ [slot]).length = k := by simpa using hl
  refine ⟨before, slot, ⟨rfl, hlen.trans_le hk, fun hr => ?_, by rw [hp, h0, List.nil_append]⟩, hn, hs, hlen, ha⟩
  simp [noReset, hs] at hr

/-- At the end of a command the host has broken a premise in the slots it came to, and there is no next state; or it kept
them, and what it stored is joined to data memory (R16, R296). -/
theorem Came.concludes (h : Came n live made u.live u.log) (names : Named) :
    ((memAccesses made).all (MemAccess.allowed names u.log.awaited) = false →
      u.conclude names live = .fault .hostPremiseBroken) ∧
    ((memAccesses made).all (MemAccess.allowed names u.log.awaited) = true → u.conclude names live = .next u.settle) := by
  have hnone : live = [] → u.log.posted = [] := fun hl => by
    rw [h.posted, (List.append_eq_nil_iff.mp (h.slots.symm.trans hl)).1]; rfl
  rw [← h.posted]
  rcases State.conclude_cases names hnone with ⟨hok, e⟩ | ⟨hok, e⟩
  · exact ⟨fun hf => absurd (hok.symm.trans hf) nofun, fun _ => e⟩
  · exact ⟨fun _ => e, fun ht => absurd (hok.symm.trans ht) nofun⟩

/-- A reset abandons a command, and the end of the command adds what the host stored and nothing else (R282). -/
theorem Gone.abandoned {w : State} (h : Gone c w u) (hs : w.script = s.script) (hc : w.commands = s.commands + 1) :
    Abandoned c s u.settle := by
  rw [Gone, hs, hc] at h
  rw [Abandoned]
  conv_lhs => rw [h]
  conv_rhs => rw [h]
  rfl

/-! ### A command -/

/-- On the machine's own deployment `exec` is the command on that deployment. -/
theorem exec_deployment (h : D = Config.deployment) (i : Instr) (s : State) : exec i s = runOn D.cfg i s := by
  subst h
  exact exec_eq i s

theorem answers_of_runOn {t : State} (h : runOn D.cfg i s = .next t) : Answers D i s t :=
  ⟨h, fun hD => (exec_deployment hD i s).trans h⟩

/-- The command with nothing of the host to come: what it leaves of the block is `ranAlone`. -/
theorem answers_alone (h : s.Ready) :
    ∃ l r, Answers D i { s with live := [], log := {} } ((ranAlone D.cfg i s).served l r) := by
  have hu : s.alone.Undisturbed := undisturbed_alone h
  obtain ⟨l, r, -, -, e, -⟩ := ranOn_undisturbed (c := D.cfg) (i := i) hu
  refine ⟨l, r, answers_of_runOn ((runOn_undisturbed hu).trans (congrArg _ ?_))⟩
  exact e

/-- A command with a host: a broken premise leaves no next state; with the premises kept what the host stored is joined
to data memory. -/
theorem command_came (h : s.Ready) (hc : Came n s.live made (ranOn D.cfg i s).live (ranOn D.cfg i s).log)
    {awaited : List (Addr × Nat)} (ha : (ranOn D.cfg i s).log.awaited = awaited) :
    let ok := (memAccesses made).all (MemAccess.allowed (namedRegions D.cfg i s.regs) awaited)
    (ok = false → runOn D.cfg i s = .fault .hostPremiseBroken ∧
      (D = Config.deployment → exec i s = .fault .hostPremiseBroken)) ∧
    (ok = true → Answers D i s (ranOn D.cfg i s).settle) := by
  subst ha
  obtain ⟨hbad, hgood⟩ := hc.concludes (namedRegions D.cfg i s.regs)
  rw [← runOn_ready h] at hbad hgood
  exact ⟨fun hf => ⟨hbad hf, fun hD => (exec_deployment hD i s).trans (hbad hf)⟩,
    fun hok => answers_of_runOn (hgood hok)⟩

/-- Settles O32, by the two ways a command with a host goes (`ranOn_hosted`): every slot is served, or one of them holds
a reset. -/
theorem hostDuringACommand : Obligations.HostDuringACommand := by
  intro D i s hr hm names
  obtain ⟨l0, r0, h0⟩ := answers_alone (D := D) (i := i) hr
  rcases ranOn_hosted (c := D.cfg) (i := i) (fun _ => hm) with ⟨ps, l, r, hs, ⟨p, hp⟩, e⟩ | ⟨k, hk, hr', hg, ht⟩
  · have hlen : (phasesOf (actions (ranAlone D.cfg i s))).length = ps.length + 2 := by rw [hp]; simp
    obtain ⟨made, hc, hn, ha, -⟩ := came_of_serves hs rfl
    have hc' : Came ps.length s.live made (ranOn D.cfg i s).live (ranOn D.cfg i s).log := by rw [e]; exact hc
    have ha' : (ranOn D.cfg i s).log.awaited = s.log.awaited ++ names.outputs := by rw [e]; exact ha
    obtain ⟨hbad, hgood⟩ := command_came hr hc' ha'
    refine ⟨made, l, _, hc.slots, h0, hlen ▸ Nat.add_le_add_right hc.atMost 2, fun hn => ?_, hbad, fun hok => ?_⟩
    · exact (hc.all hn).imp_right fun h => by rw [h]; exact hlen.symm
    · refine ⟨fun _ _ _ hw he hn h1 h2 => joined_named he hn h1 h2 _ hw hok, _, hgood hok, by rw [e]; rfl, ha',
        .inl ⟨hn, { r with posted := [] }, ?_⟩⟩
      rw [← hc.posted, e]
      rfl
  · obtain ⟨before, slot, hc, hn, hslot, hlen, ha⟩ := came_of_resetIn hr' (Nat.le_sub_of_add_le hk) rfl
    have hreset : noReset (before ++ [slot]) = false := by simp [noReset, hslot]
    obtain ⟨hbad, hgood⟩ := command_came hr hc ha
    rw [shapeOf_emits] at ht
    refine ⟨before ++ [slot], _, _, hc.slots, h0, hlen ▸ hk, fun hn => absurd (hn.symm.trans hreset) nofun, hbad,
      fun hok => ⟨fun _ _ _ hw he hn h1 h2 => joined_named he hn h1 h2 _ hw hok, _, hgood hok, rfl, ha, .inr ?_⟩⟩
    exact ⟨before, slot, (ranOn D.cfg i s).mem, rfl, hn, hslot, hg.abandoned rfl rfl,
      congrArg (Memory.joined _) hc.posted, hlen ▸ ht.before, hlen ▸ ht.after, ht.mixed⟩

/-! ### An illegal command -/

/-- R82: an opcode is no command exactly when it is 0 or at least 7. -/
theorem instrOfOpc_eq_none_iff : ∀ opc : BitVec 4, instrOfOpc opc = none ↔ opc = 0 ∨ 7 ≤ opc.toNat := by decide

/-- R83: a bit of ZERO, or an opcode outside the map, makes a word illegal. -/
theorem decodeWord_illegal {w : Word} (h : zeroOf w ≠ 0 ∨ instrOfOpc (opcOf w) = none) :
    ∃ why, decodeWord w = .illegal why := by
  unfold decodeWord
  split
  · exact ⟨_, rfl⟩
  · rename_i hz
    split
    · exact ⟨_, rfl⟩
    · rw [h.resolve_left hz]
      exact ⟨_, rfl⟩

theorem commandWrite_illegal {w : Word}
    (h : w.extractLsb' 4 28 ≠ 0 ∨ w.extractLsb' 0 4 = 0 ∨ 7 ≤ (w.extractLsb' 0 4).toNat) (s : State) :
    commandWrite w s = issueIllegal Config.cfg s := by
  obtain ⟨why, e⟩ := decodeWord_illegal (h.imp_right (instrOfOpc_eq_none_iff _).mpr)
  rw [commandWrite, e]

/-- The state an illegal command ends in, before what the host did to data memory meanwhile is joined to it. -/
def State.ranIllegal (c : Cfg) (s : State) : State := runBody c illegalBody (s.accept c {})

/-- An illegal command with nothing of the host to come. -/
theorem issueIllegal_alone (h : s.Ready) :
    issueIllegal c { s with live := [], log := {} } = .next ((s.begun c).left c .illegalCommand 0) := by
  have e : runBody c illegalBody (s.alone.accept c {}) = (s.begun c).left c .illegalCommand 0 := runBody_raised rfl rfl
  refine (illegal_front (s := s.alone) h).trans ?_
  rw [e]
  exact State.conclude_self rfl _

/-- An illegal command with a host: a broken premise leaves no next state; with the premises kept what the host stored is
joined to data memory. -/
theorem illegal_came (h : s.Ready) (hc : Came n s.live made (s.ranIllegal c).live (s.ranIllegal c).log)
    (ha : (s.ranIllegal c).log.awaited = s.log.awaited) :
    let ok := (memAccesses made).all (MemAccess.allowed {} s.log.awaited)
    (ok = false → issueIllegal c s = .fault .hostPremiseBroken) ∧
    (ok = true → issueIllegal c s = .next (s.ranIllegal c).settle) := by
  rw [illegal_front h, ← ha]
  exact hc.concludes {}

/-- What a register reads as in a state of an illegal command the host may look at (R30, R31, R290). -/
theorem readReg_illegal {w : State} (h : s.Ready) (hg : Glimpse s s w) (hp : w.ph = .dispatch ∨ w.ph = .exitScrub)
    (r : Reg) :
    (r = .status → readReg c w r = 0x0005FE01) ∧ (r = .extStatus → readReg c w r = 0) ∧
    (r ≠ .status → r ≠ .extStatus → readReg c w r = readReg c s r) := by
  obtain ⟨-, ha, -⟩ := h
  have hal : w.alarm = false := Bool.eq_false_iff.mpr fun hx => absurd ((hg.alarm hx).symm.trans ha) nofun
  have hline : w.engRst = true := by
    by_contra hne
    have hrel := hg.line.mp (Bool.eq_false_iff.mpr hne)
    rcases hp with hp | hp <;> simp [hp] at hrel
  have hregs : w.regs = s.regs := by rw [hg.regs, ite_self]
  refine ⟨?_, ?_, fun h1 h2 => ?_⟩
  · rintro rfl
    simp only [readReg, statusWord, hg.busy, hg.code, hg.codeN, hal, hline]
    decide
  · rintro rfl
    exact hg.extStatus
  · cases r with
    | status => exact absurd rfl h1
    | extStatus => exact absurd rfl h2
    | ctrl => simp only [readReg, ctrlWord, hg.collapse]
    | _ => simp only [readReg, hregs]

/-- What the host reads while an illegal command runs and no reset comes (R83, R290). -/
theorem illegal_reads (h : s.Ready) (hl : noReset s.live = true)
    (hr : (s.ranIllegal c).log.reads.filterMap HostRead.register =
      s.log.reads.filterMap HostRead.register ++ registerReads [.dispatch, .exitScrub] made) :
    ∃ l, (s.ranIllegal c).log.reads = s.log.reads ++ l ∧
      l.filterMap HostRead.register = registerReads [.dispatch, .exitScrub] made ∧
      ∀ ph off v, .reg ph off v ∈ l → ∃ j : Fin 64, (ph = .dispatch ∨ ph = .exitScrub) ∧ off = 4 * j.val ∧
        (regAt j = .status → v = 0x0005FE01) ∧ (regAt j = .extStatus → v = 0) ∧
        (regAt j ≠ .status → regAt j ≠ .extStatus → v = readReg c s (regAt j)) := by
  obtain ⟨l, hlog, hseen⟩ := illegal_watched (c := c) h hl
  change (s.ranIllegal c).log.reads = s.log.reads ++ l at hlog
  rw [hlog, List.filterMap_append] at hr
  refine ⟨l, hlog, List.append_cancel_left hr, fun ph off v hm => ?_⟩
  obtain ⟨j, w, ⟨hg, hp⟩, rfl, rfl, rfl⟩ := hseen _ hm
  exact ⟨j, hp, rfl, readReg_illegal h hg hp (regAt j)⟩

/-- Settles O33, by the two ways an illegal command with a host goes (`illegal_hosted`): both slots are served, or one of
them holds a reset. -/
theorem hostDuringAnIllegalCommand : Obligations.HostDuringAnIllegalCommand := by
  intro s w hr hw
  simp only [commandWrite_illegal hw]
  rcases illegal_hosted (c := Config.cfg) (s := s) with ⟨l, r, hs, e⟩ | ⟨u, k, hk, hrs, hg, hmem, rfl⟩
  · change s.ranIllegal Config.cfg = _ at e
    obtain ⟨made, hc, hn, ha, hreads⟩ := came_of_serves hs rfl
    rw [show ((s.accept Config.cfg {}).log.awaited) = s.log.awaited from List.append_nil _] at ha
    obtain ⟨hbad, hgood⟩ := illegal_came (c := Config.cfg) (made := made) hr (by rw [e]; exact hc) (by rw [e]; exact ha)
    refine ⟨made, l, _, hc.slots, hc.atMost, hc.all, issueIllegal_alone hr, hbad, fun hok => ?_⟩
    refine ⟨_, hgood hok, by rw [e]; rfl, by rw [e]; exact ha, ?_, .inl ⟨hn, { r with posted := [] }, ?_⟩, fun hl => ?_⟩
    · rw [e, ← hc.posted]; rfl
    · rw [e]; rfl
    · exact illegal_reads hr hl (by rw [e]; exact hreads)
  · change ResetIn k s.live _ (s.ranIllegal Config.cfg).live (s.ranIllegal Config.cfg).log at hrs
    obtain ⟨before, slot, hc, hn, hslot, -, ha⟩ := came_of_resetIn hrs hk rfl
    rw [show ((s.accept Config.cfg {}).log.awaited) = s.log.awaited from List.append_nil _] at ha
    obtain ⟨hbad, hgood⟩ := illegal_came hr hc ha
    refine ⟨before ++ [slot], _, _, hc.slots, hc.atMost, hc.all, issueIllegal_alone hr, hbad, fun hok => ?_⟩
    refine ⟨_, hgood hok, rfl, ha, ?_, .inr ⟨before, slot, rfl, hn, hslot, hg.abandoned rfl rfl⟩, fun hl => ?_⟩
    · rw [← hc.posted, ← hmem]; rfl
    · exact absurd (hl.symm.trans hrs.noReset) nofun

end Sys2Proof.Machine
end

section
/-! PROOFS. Scope: what the block holds between commands: the registers as the host reads and writes them (R21 to R33), the
status word (R30, R240), one step (R33, R95, R280), the values after reset (R55), the invariant (R41, R45, R224). -/

namespace Sys2Proof.Machine

variable {c : Cfg} {s t : State}

/-! ### One step (R95) -/

/-- The bus reaches every aligned offset of the window (R73). -/
theorem regIndex_aligned (i : Fin 64) : regIndex (4 * i.val) = some i := by
  rw [regIndex, dif_pos ⟨by omega, by omega⟩]
  exact congrArg some (Fin.ext (Nat.mul_div_cancel_left _ (by decide)))

theorem busWrite_aligned (i : Fin 64) (v : Word) (s : State) (h : regAt i ≠ .cmd) :
    busWrite (4 * i.val) v s = .next (hostWrite s v (regAt i)) := by
  rw [busWrite, regIndex_aligned]
  generalize hr : regAt i = r at h
  cases r with
  | cmd => contradiction
  | _ => simp only [hr]

theorem busRead_aligned (i : Fin 64) (s : State) :
    busRead (4 * i.val) s = .next (s.note (.reg s.ph (4 * i.val) (readReg Config.cfg s (regAt i)))) := by
  rw [busRead, regIndex_aligned]
  rfl

theorem step_access {e : HostEvent} {rest : List HostEvent} (h : s.script = e :: rest) :
    step s = hostEvent e { s with script := rest } := by
  rw [step, h]

/-- What a register reads does not depend on the accesses to come. -/
theorem readReg_script (c : Cfg) (s : State) (rest : List HostEvent) (r : Reg) :
    readReg c { s with script := rest } r = readReg c s r := by
  cases r <;> rfl

/-- Settles O8, by the one access the step serves (`step_access`). -/
theorem stepRunsTheCommand : Obligations.StepRunsTheCommand := by
  intro s w rest h
  have hs : step s = commandWrite w { s with script := rest } := step_access h
  refine ⟨hs, fun i hd => ?_, fun why hd => ?_⟩
  · rw [hs, commandWrite, hd]
  · rw [hs, commandWrite, hd]

theorem hostMemWrite_inSpace {a : Addr} {b : Bytes} (h : a.toNat + b.length ≤ 2 ^ 64) (s : State) :
    hostMemWrite a b s = .next (s.setMem (s.mem.writeBytes a.toNat b)) :=
  if_pos (decide_eq_true h)

theorem hostMemRead_inSpace {a : Addr} {n : Nat} (h : a.toNat + n ≤ 2 ^ 64) (s : State) :
    hostMemRead a n s = if clearOf s.log.awaited a n then .next (s.note (.mem a (s.mem.readBytes a.toNat n)))
      else .fault .hostPremiseBroken :=
  if_pos (decide_eq_true h)

/-- Settles O11, by the kind of the access. -/
theorem stepServesTheHost : Obligations.StepServesTheHost := by
  intro s rest
  refine ⟨fun h => ?_, fun i v h hc => ?_, fun i h => ?_, fun a b h hin => ?_, fun a n h hin => ?_, fun h => ?_⟩
  · rw [step, h]
  · exact (step_access h).trans (busWrite_aligned i v _ hc)
  · rw [← readReg_script _ _ rest]
    exact (step_access h).trans (busRead_aligned i _)
  · exact (step_access h).trans (hostMemWrite_inSpace hin _)
  · have hs := (step_access h).trans (hostMemRead_inSpace hin _)
    exact ⟨fun hc => hs.trans (if_pos hc), fun hc => hs.trans (if_neg (Bool.eq_false_iff.mp hc))⟩
  · exact step_access h

/-! ### What a write leaves for the next read (R21 to R33) -/

@[simp] theorem setPtr_fields (r : Regs) (p : Ptr) (a : Addr) : (r.setPtr p a).hashSel = r.hashSel ∧
    (r.setPtr p a).labelLen = r.labelLen ∧ (r.setPtr p a).inLen = r.inLen ∧ (r.setPtr p a).outLen = r.outLen := by
  cases p <;> and_intros <;> rfl

/-- What every register reads as after a pointer register was replaced. -/
theorem readReg_setPtr (c : Cfg) (s : State) (p : Ptr) (a : Addr) (r : Reg) :
    readReg c { s with regs := s.regs.setPtr p a } r =
      if r = .lo p then loHalf a else if r = .hi p then hiHalf a else readReg c s r := by
  cases r with
  | lo q => simp only [readReg, ptr_setPtr, Reg.lo.injEq, reduceCtorEq, if_false]; split <;> rfl
  | hi q => simp only [readReg, ptr_setPtr, Reg.hi.injEq, reduceCtorEq, if_false]; split <;> rfl
  | _ => simp [readReg, statusWord, ctrlWord]

theorem readReg_writeReg_same (c : Cfg) (s : State) (v : Word) (r : Reg) :
    readReg c (writeReg s v r) r = writtenValue v (readReg c s r) r := by
  cases r with
  | ctrl => exact ctrl_field v
  | lo p => simp [writeReg, readReg_setPtr, writtenValue]
  | hi p => simp [writeReg, readReg_setPtr, writtenValue]
  | _ => rfl

/-- A write leaves what every other register reads; of a pointer register it leaves the other half. -/
theorem readReg_writeReg_other (c : Cfg) (s : State) (v : Word) {r w : Reg} (h : r ≠ w) :
    readReg c (writeReg s v w) r = readReg c s r := by
  cases w with
  | ctrl | hashSel | labelLen | inLen | outLen => cases r <;> trivial -- its own field, which only `w` reads
  | lo p =>
    rw [writeReg, readReg_setPtr, if_neg h, hiHalf_setLo]
    split
    · next hr => rw [hr]; rfl
    · rfl
  | hi p =>
    rw [writeReg, readReg_setPtr, if_neg h, loHalf_setHi]
    split
    · next hr => rw [hr]; rfl
    · rfl
  | _ => rfl

/-- A write the bus serves changes the parameter registers and CTRL alone (R33). -/
theorem hostWrite_params (s : State) (v : Word) (r : Reg) :
    hostWrite s v r = { s with regs := (hostWrite s v r).regs, collapse := (hostWrite s v r).collapse } := by
  unfold hostWrite
  split
  · rfl
  · cases r <;> rfl

theorem readReg_hostWrite_other (c : Cfg) (s : State) (v : Word) {r w : Reg} (h : r ≠ w) :
    readReg c (hostWrite s v w) r = readReg c s r := by
  unfold hostWrite
  split
  · rfl
  · exact readReg_writeReg_other c s v h

theorem hostWrite_reserved (s : State) (v : Word) : hostWrite s v .reserved = s := ite_self _

/-- R29: a write to CTRL uses bit 0 alone. -/
theorem hostWrite_ctrl_bit0 (s : State) (v : Word) : hostWrite s v .ctrl = hostWrite s (v &&& 1) .ctrl := by
  have hbit : (v &&& 1).getLsbD 0 = v.getLsbD 0 := by simp
  simp only [hostWrite, writeReg, hbit]

/-- R33: the reserved offsets. -/
theorem regAt_reserved : ∀ i : Fin 64,
    4 * i.val = 0x01C ∨ 4 * i.val = 0x02C ∨ 4 * i.val = 0x03C ∨ 4 * i.val = 0x04C ∨ 0x0A8 ≤ 4 * i.val →
      regAt i = .reserved := by decide

/-! ### The status word (R30) -/

theorem statusWord_code (s : State) : (statusWord s).extractLsb' 0 8 = s.code := field_low _ s.code

theorem statusWord_codeN (s : State) : (statusWord s).extractLsb' 8 8 = s.codeN := by
  apply BitVec.eq_of_getLsbD_eq
  intro i hi
  rw [field_bit, statusWord_bit, if_neg (by omega), if_pos (by omega), Nat.add_sub_cancel_left, decide_eq_true hi,
    Bool.true_and]

theorem statusWord_alarm (s : State) : (statusWord s).getLsbD 17 = s.alarm := statusWord_bit s 17

theorem statusWord_engRst (s : State) : (statusWord s).getLsbD 18 = s.engRst := statusWord_bit s 18

theorem statusWord_reserved (s : State) : (statusWord s).extractLsb' 19 13 = 0 := by
  apply BitVec.eq_of_getLsbD_eq
  intro i hi
  rw [field_bit, statusWord_bit, if_neg (by omega), if_neg (by omega), if_neg (by omega), if_neg (by omega),
    if_neg (by omega), Bool.and_false]
  exact (BitVec.getLsbD_zero ..).symm

/-- R240: the kinds are numbered in their order, so a code gives back its kind. -/
theorem ofNat_code (k : Kind) : Kind.ofNat k.code.toNat = k := by cases k <;> rfl

theorem code_injective : Function.Injective Kind.code :=
  Function.LeftInverse.injective (g := fun b : Byte => Kind.ofNat b.toNat) ofNat_code

theorem ctrlWord_bit0 (s : State) : (ctrlWord s).getLsbD 0 = s.collapse := by
  rw [ctrlWord, append_bit]
  simp

/-- Settles O7, field by field of the status word. -/
theorem statusWordLayout : Obligations.StatusWordLayout := by
  refine ⟨by decide, fun k => ?_, fun k k' h => code_injective h, fun s => ?_⟩
  · cases k <;> decide
  · exact ⟨statusWord_code s, statusWord_codeN s, statusWord_busy s, statusWord_alarm s, statusWord_engRst s,
      statusWord_reserved s⟩

/-- Settles O5: reserved space has no storage, a read is noted and changes nothing else, and a write changes the register
written alone. -/
theorem reservedSpaceIsInert : Obligations.ReservedSpaceIsInert := by
  intro s i v
  refine ⟨fun hi => ?_, ⟨field_high _ _, statusWord_reserved s, hostWrite_ctrl_bit0 s v⟩, ⟨_, busRead_aligned i s⟩,
    fun hc => ?_⟩
  · have hr := regAt_reserved i hi
    have hwrite := busWrite_aligned i v s (by rw [hr]; decide)
    have hread := busRead_aligned i s
    rw [hr] at hread hwrite
    exact ⟨hread, hwrite.trans (congrArg _ (hostWrite_reserved s v))⟩
  · refine ⟨_, _, (busWrite_aligned i v s hc).trans (congrArg _ (hostWrite_params s v (regAt i))), fun c r hr => ?_⟩
    rw [← hostWrite_params]
    exact readReg_hostWrite_other c s v hr

/-- Settles O6: what each register reads is a field of the state, and a write while BUSY = 0 replaces that field. -/
theorem registerReadBack : Obligations.RegisterReadBack := by
  refine ⟨fun c s => ?_, fun c s v i hb hc => ⟨_, busWrite_aligned i v s hc, fun r => ?_⟩⟩
  · have hctrl : (readReg c s .ctrl).getLsbD 0 = s.collapse := ctrlWord_bit0 s
    refine ⟨rfl, hctrl, rfl, rfl, rfl, rfl, rfl, rfl, rfl, rfl, rfl, ?_⟩
    simp only [List.forall_mem_cons, List.not_mem_nil, false_imp_iff, implies_true, and_true]
    and_intros <;> rfl
  · rw [hostWrite, hb, if_neg Bool.false_ne_true]
    split
    · next hr => rw [hr]; exact readReg_writeReg_same c s v _
    · next hr => exact readReg_writeReg_other c s v hr

/-! ### Reset (R55) -/

theorem ctrlWord_reset (c : Cfg) : ctrlWord (State.resetOn c) = 0 := by
  simp only [ctrlWord, State.resetOn]
  decide

theorem statusWord_reset (c : Cfg) : statusWord (State.resetOn c) = 0x0004FE01 := by
  simp only [statusWord, State.resetOn]
  decide

/-- Settles O13: every field of `State.resetOn` has the value the rules give it. -/
theorem resetValues : Obligations.ResetValues := by
  intro c
  refine ⟨fun p => ?_, rfl, rfl, rfl, rfl, ctrlWord_reset c, statusWord_reset c, ?_⟩
  · cases p <;> rfl
  · and_intros <;> rfl

/-- Settles O20: the reset state rests, and its memory lists nothing. -/
theorem invariantAtReset : Obligations.InvariantAtReset := ⟨rfl, resting_reset Config.cfg State.reset⟩

/-! ### The invariant (R41, R45, R224) -/

theorem hostWrite_inv (hi : Inv c s) (v : Word) (r : Reg) : Inv c (hostWrite s v r) := by
  obtain ⟨hm, hbusy, heng, hcode, hcodeN, halarm, hph, hwork, hflags⟩ := hostWrite_rest s v r
  obtain ⟨mem, rest⟩ := hi
  refine ⟨by rw [hm]; exact mem, hbusy.trans rest.busy, heng.trans rest.engRst, ?_, ?_, hwork.trans rest.work,
    hflags.trans rest.flags⟩
  · rw [hcodeN, hcode]; exact rest.codeN
  · rw [hph, halarm]; exact rest.phase

theorem note_inv (hi : Inv c s) (r : HostRead) : Inv c (s.note r) :=
  ⟨hi.mem, hi.resting.busy, hi.resting.engRst, hi.resting.codeN, hi.resting.phase, hi.resting.work, hi.resting.flags⟩

theorem setMem_inv (hi : Inv c s) {m : Memory} (hm : m.wf = true) : Inv c (s.setMem m) :=
  ⟨hm, hi.resting.busy, hi.resting.engRst, hi.resting.codeN, hi.resting.phase, hi.resting.work, hi.resting.flags⟩

/-- Every access of the host keeps the invariant, a command among them on every oracle. -/
theorem hostDid_inv {e : HostEvent} (hi : Inv Config.cfg s) (h : HostDid s e t) : Inv Config.cfg t := by
  cases h with
  | command i v hd hr => exact runOn_inv hi hr
  | illegal v w hd hr => exact issueIllegal_inv hi hr
  | write v j hc => exact hostWrite_inv hi v _
  | read j => exact note_inv hi _
  | mem a b hin => exact setMem_inv hi (Memory.wf_writeBytes hi.mem (of_decide_eq_true hin))
  | look a n hin hc => exact note_inv hi _
  | reset => exact ⟨hi.mem, resting_reset _ _⟩

/-- Settles O21, by everything one step can do (`step_cases`). -/
theorem stepKeepsInvariant : Obligations.StepKeepsInvariant := by
  intro s t hi h
  rcases step_cases h with ⟨-, rfl⟩ | ⟨e, rest, -, hd⟩
  · exact hi
  · exact hostDid_inv (inv_script hi) hd

end Sys2Proof.Machine
end

section
/-! PROOFS. Scope: what any command leaves, on every oracle: its status (R30, R31, R36, R257) and its frame (R25, R64, R243);
and the commands after a reset (R55, R283). -/

namespace Sys2Proof.Machine

variable {c : Cfg} {i : Instr} {s t : State} {k : Kind} {info : Word}

/-! ### The status a command leaves -/

/-- An undisturbed command answers the state it ran to, which ends as the rules allow. -/
theorem answers_ends (D : Deployment) (i : Instr) (hu : s.Undisturbed) :
    Answers D i s (ranOn D.cfg i s) ∧ ∃ k info, EndsAs D.cfg i s (ranOn D.cfg i s) k info :=
  ⟨answers_of_runOn (runOn_undisturbed hu), ranOn_ends D.wf D.lawful hu⟩

/-- The code a command leaves names the kind it ended with. -/
theorem Ended.code_eq_iff (h : Ended c s t k info) (k' : Kind) : t.code = k'.code ↔ k = k' := by
  rw [h.code, code_injective.eq_iff]

/-- Settles O24: only GlitchError sets ALARM, and its code is no other kind's. -/
theorem alarmIffGlitchError : Obligations.AlarmIffGlitchError := by
  intro D i s hu
  obtain ⟨ha, k, info, h⟩ := answers_ends D i hu
  exact ⟨_, ha, h.alarm.trans (h.ended.code_eq_iff _).symm⟩

/-- R31: the kinds that carry a provider's status. -/
theorem fromProvider_iff : k.fromProvider = true ↔ k = .hashFailure ∨ k = .entropyFailure ∨ k = .engineFailure := by
  cases k <;> decide

/-- Settles O25: EXT_STATUS is the info of the kind, which is 0 for every kind that is no provider's. -/
theorem extStatusOnlyFromProviders : Obligations.ExtStatusOnlyFromProviders := by
  intro D i s hu
  obtain ⟨ha, k, info, h⟩ := answers_ends D i hu
  refine ⟨_, ha, fun hne => ?_⟩
  rw [h.ended.extStatus] at hne
  simp only [h.ended.code_eq_iff]
  exact fromProvider_iff.mp (h.info.resolve_left hne)

/-- R257, by the fields of the status word. -/
theorem acceptableStatus_statusWord_iff :
    acceptableStatus (statusWord t) = true ↔ t.code = 0x00 ∧ t.codeN = 0xFF ∧ t.busy = false ∧ t.alarm = false := by
  simp only [acceptableStatus, statusWord_code, statusWord_codeN, statusWord_busy, statusWord_alarm, Bool.and_eq_true,
    decide_eq_true_eq, Bool.not_eq_true', and_assoc]

/-- Settles O30: Success has the code the host takes, and is left with BUSY = 0 and no alarm. -/
theorem hostAcceptsOnlySuccess : Obligations.HostAcceptsOnlySuccess := by
  intro D i s hu
  obtain ⟨ha, k, info, h⟩ := answers_ends D i hu
  refine ⟨_, ha, by rw [h.ended.codeN, h.ended.code], ?_⟩
  rw [acceptableStatus_statusWord_iff]
  refine ⟨fun hok => hok.1, fun hs => ?_⟩
  obtain rfl := (h.ended.code_eq_iff _).mp hs
  exact ⟨hs, h.ended.codeN, h.ended.busy, Bool.eq_false_iff.mpr fun hal => absurd (h.alarm.mp hal) nofun⟩

/-! ### The frame of a command -/

/-- R25, R64: the output region of a command that emitted `v`. -/
theorem outputRegion_emitted (hw : c.wf = true) {v : Bytes} (hv : v.length ≤ c.K)
    (hfull : writesLen i = false → v.length = c.K)
    (hr : t.regs = if writesLen i then { s.regs with outLen := BitVec.ofNat 32 v.length } else s.regs) :
    outputRegion c i s t = (targetOf s.regs i, v.length) := by
  have hK : c.K < 2 ^ 31 := (wf_iff.mp hw).2.2.1
  cases hi : writesLen i with
  | true =>
    have hlen : t.regs.outLen.toNat = v.length := by
      rw [hr, hi, if_pos rfl, BitVec.toNat_ofNat]
      exact Nat.mod_eq_of_lt (by omega)
    rw [← hlen]
    cases i <;> trivial
  | false =>
    rw [hfull hi]
    cases i <;> trivial

/-- R64: bytes written below the top leave every byte outside their region. -/
theorem read_outside_emitted {m : Memory} (hm : m.wf = true) {a : Addr} {v : Bytes} {x : Nat}
    (hx : x < a.toNat ∨ a.toNat + v.length ≤ x) : (m.writeBytes a.toNat (v.take (roomAbove a))).read x = m.read x := by
  have hlen : (v.take (roomAbove a)).length ≤ v.length := List.length_take_le' ..
  have hroom : a.toNat + (v.take (roomAbove a)).length ≤ 2 ^ 64 := by
    have := a.isLt
    rw [List.length_take]
    unfold roomAbove
    omega
  exact Memory.read_writeBytes_outside hm hroom (hx.imp_right fun h => by omega)

/-- Settles O29, by what a command emits, which is nothing unless it succeeded (`EndsAs`). -/
theorem commandFrame : Obligations.CommandFrame := by
  intro D i s hu hm
  obtain ⟨ha, k, info, h⟩ := answers_ends D i hu
  refine ⟨_, ha, h.ended.collapse, h.ended.engRst.trans hu.1.2.2.symm, h.ended.script, fun hne => ?_, fun hs => ?_⟩
  · exact (h.failed fun hk => hne ((h.ended.code_eq_iff _).mpr hk)).1
  · obtain ⟨v, hfits, hv, hfull, hmem, hregs, -, -⟩ := h.emitted ((h.ended.code_eq_iff _).mp hs)
    rw [outputRegion_emitted D.wf hv hfull hregs]
    refine ⟨hfits, hv, fun x hx => ?_, ?_⟩
    · rw [hmem]
      exact read_outside_emitted hm hx
    · cases i with
      | decode => rw [hregs]; rfl
      | decrypt => rw [hregs]; rfl
      | _ => exact hregs

/-! ### Commands with null pointers (R62, R121, R141, R175) -/

theorem regionOk_null (n : Nat) : regionOk 0#64 n = false := rfl

theorem encodeParamsOk_null {r : Regs} (h : r.inp = 0) : encodeParamsOk c r = false := by
  simp [encodeParamsOk, h, regionOk_null]

theorem decodeParamsOk_null {r : Regs} (h : r.inp = 0) : decodeParamsOk c r = false := by
  unfold decodeParamsOk
  split
  · rfl
  · simp [h, regionOk_null]

/-- A null mandatory operand pointer fails S_EXP_PTR. -/
theorem expParamsOk_null {r : Regs} (h : ∀ p, r.ptr p = 0) (kind : ExpKind) (b : BaseOperand) (rm : Bool) :
    expParamsOk c kind b rm r = false := by
  cases kind <;> simp [expParamsOk, mandatoryOps, h, regionOk_null]

/-- R283: the kind a command with null pointers fails with. -/
def nullPointerKind : Instr → Kind
  | .encode => .invalidParam
  | .decode => .invalidParam
  | .expPlain => .exponentInvalidParam
  | .expCrt => .exponentInvalidParam
  | .encrypt => .invalidParam
  | .decrypt => .exponentInvalidParam

/-- A command that fails in its first check with nothing recorded but phases has touched no memory. -/
theorem fails_without_memory {p : Phase} {u : State} (hu : s.Undisturbed)
    (e : (shapeOf c s.collapse i).front (s.begun c) = .error (.raised k 0) u) (hk : k ≠ .glitchError)
    (hacts : u.acts = .phase p :: (s.begun c).acts) :
    FailsWith c s (ranOn c i s) k 0 ∧ (actions (ranOn c i s)).filter Action.isMemory = [] := by
  obtain ⟨hf, ha⟩ := fails_of_raised hu e hk
  refine ⟨hf, ?_⟩
  rw [ha, hacts]
  rfl

/-- With every pointer null a command fails in its first check, before any access to data memory. -/
theorem nullPointers_fail (hu : s.Undisturbed) (hff : FaultFree c s.nextCommand) (h : ∀ p, s.regs.ptr p = 0) :
    FailsWith c s (ranOn c i s) (nullPointerKind i) 0 ∧ (actions (ranOn c i s)).filter Action.isMemory = [] := by
  cases i with
  | encode =>
    obtain ⟨u, e, ha⟩ := encodeCore_badParams (s := s.begun c) rfl hff (encodeParamsOk_null (h .inp))
    exact fails_without_memory (i := .encode) hu e (by decide) ha
  | decode =>
    obtain ⟨u, e, ha⟩ := decodeCore_badParams (load := loadEmFromMemory c) (s := s.begun c) rfl hff
      (decodeParamsOk_null (h .inp))
    exact fails_without_memory (i := .decode) hu e (by decide) ha
  | encrypt =>
    obtain ⟨u, e, ha⟩ := encodeCore_badParams (s := s.begun c) rfl hff (encodeParamsOk_null (h .inp))
    obtain ⟨hf, hacts⟩ := encrypt_fails hu (by decide) e
    exact ⟨hf, by rw [hacts, ha]; rfl⟩
  | expPlain =>
    obtain ⟨hf, ha⟩ := exp_badPointers .plain hu hff (expParamsOk_null h ..)
    exact ⟨hf, congrArg _ ha⟩
  | expCrt =>
    obtain ⟨hf, ha⟩ := exp_badPointers .crt hu hff (expParamsOk_null h ..)
    exact ⟨hf, congrArg _ ha⟩
  | decrypt =>
    obtain ⟨hf, ha⟩ := decrypt_badPointers hu hff (expParamsOk_null h ..)
    exact ⟨hf, congrArg _ ha⟩

/-- Settles O15: a reset leaves every pointer null, and with null pointers the first check fails. -/
theorem firstCommandAfterReset : Obligations.FirstCommandAfterReset := by
  refine ⟨fun c u => ⟨⟨rfl, rfl, rfl⟩, fun p => ?_⟩, fun D i s hc h => ?_⟩
  · cases p <;> rfl
  · obtain ⟨hu, -, hff⟩ := hc
    obtain ⟨hf, hmem⟩ := nullPointers_fail (i := i) hu hff h
    refine ⟨_, answers_of_runOn (runOn_undisturbed hu), ?_, hmem⟩
    cases i <;> exact hf

end Sys2Proof.Machine
end

section
/-! PROOFS. Scope: data memory: what a write leaves to be read (R63, R64), the accesses of a command (R64, R70, R220), and the
outputs the host waits for (R75, R296 P8). -/

namespace Sys2Proof.Machine

variable {c : Cfg} {i : Instr} {s : State}

/-- Settles O35, by the rules of a written byte string: inside its region, outside it, and for the canonical form. -/
theorem memoryReadAfterWrite : Obligations.MemoryReadAfterWrite := fun _ _ _ hm h =>
  ⟨Memory.readBytes_writeBytes hm h, fun _ hx => Memory.read_writeBytes_outside hm h hx, Memory.wf_writeBytes hm h⟩

/-- Settles O26, by how the command ended (`EndsAs`): it wrote nothing unless it succeeded, and then its output, which is no
access when it is empty. -/
theorem readsPrecedeTheWrite : Obligations.ReadsPrecedeTheWrite := by
  intro D i s hu
  obtain ⟨ha, k, info, h⟩ := answers_ends D i hu
  refine ⟨_, ha, ?_⟩
  by_cases hk : k = .success
  · obtain ⟨v, -, hv, hfull, -, hregs, ⟨reads, hreads, hacts⟩, -⟩ := h.emitted hk
    refine ⟨reads, _, hacts, hreads, ?_⟩
    rw [outputRegion_emitted D.wf hv hfull hregs]
    split
    · exact .inl rfl
    · exact .inr ⟨rfl, (h.ended.code_eq_iff _).mpr hk⟩
  · exact ⟨_, [], (List.append_nil _).symm, (h.failed hk).2, .inl rfl⟩

/-! ### The outputs the host awaits (R296 P8) -/

/-- Bytes that share an address with one of the regions are not clear of them. -/
theorem not_clearOf_of_common {l : List (Addr × Nat)} {e : Addr × Nat} {a : Addr} {n x : Nat} (he : e ∈ l)
    (hnull : e.1 ≠ 0) (hx : e.1.toNat ≤ x ∧ x < e.1.toNat + e.2 ∧ a.toNat ≤ x ∧ x < a.toNat + n) :
    ¬ clearOf l a n = true := by
  obtain ⟨hlo, hhi, halo, hahi⟩ := hx
  have hmeets : meets a n e = true := by
    simp only [meets, Bool.and_eq_true, decide_eq_true_eq]
    refine ⟨⟨⟨⟨hnull, ?_⟩, ?_⟩, ?_⟩, ?_⟩ <;> omega
  intro hclear
  have hapart := List.all_eq_true.mp hclear e he
  simp [hmeets] at hapart

/-- A register read ends the wait when it shows BUSY = 0 in STATUS, and no other does (R75). -/
theorem awaited_note_read (c : Cfg) (s : State) (j : Fin 64) :
    (s.note (.reg s.ph (4 * j.val) (readReg c s (regAt j)))).log.awaited =
      if 4 * j.val = 0x008 ∧ s.busy = false then [] else s.log.awaited := by
  rw [State.note, showsIdle_eq]
  simp only [Bool.and_eq_true, decide_eq_true_eq, Bool.not_eq_true']

/-- A host that awaits no output may look anywhere inside the address space. -/
theorem hostMemRead_of_nothing_awaited (h : s.log.awaited = []) {a : Addr} {n : Nat} (hin : a.toNat + n ≤ 2 ^ 64) :
    hostMemRead a n s = .next (s.note (.mem a (s.mem.readBytes a.toNat n))) := by
  rw [hostMemRead_inSpace hin, h]
  exact if_pos rfl

/-- An undisturbed command adds its output regions to those the host awaits. -/
theorem ranOn_awaited (hu : s.Undisturbed) :
    (ranOn c i s).log.awaited = s.log.awaited ++ (namedRegions c i s.regs).outputs := by
  obtain ⟨l, r, -, -, e, ha⟩ := ranOn_undisturbed (c := c) (i := i) hu
  rw [e]
  exact ha

/-- Settles O58: the command adds its outputs to the wait, a look that meets one is no access the host may make, and the
read of STATUS, which shows BUSY = 0 since the command has ended, empties the wait. -/
theorem outputsAwaitBusyZero : Obligations.OutputsAwaitBusyZero := by
  refine ⟨fun D i s hu => ?_, fun s j => ⟨_, busRead_aligned j s, awaited_note_read _ s j⟩, fun s => ⟨_, rfl, rfl⟩⟩
  obtain ⟨ha, k, info, h⟩ := answers_ends D i hu
  refine ⟨_, ha, ranOn_awaited hu, fun e a n he hnull hin ⟨x, hx⟩ => ?_, _, busRead_aligned 2 _,
    (statusWord_busy _).trans h.ended.busy, ?_⟩
  · exact (hostMemRead_inSpace hin _).trans (if_neg (not_clearOf_of_common he hnull hx))
  · have hnone := (awaited_note_read Config.cfg (ranOn D.cfg i s) 2).trans (if_pos ⟨rfl, h.ended.busy⟩)
    exact ⟨hnone, fun a n hin => hostMemRead_of_nothing_awaited hnone hin⟩

end Sys2Proof.Machine
end

section
/-! PROOFS. Scope: command words (R81 to R83) and register offsets (R33, R93), a word on its way through a step (R83, log 5),
and what ENCODE answers for an admissible message (R120 to R129). -/

namespace Sys2Proof.Machine

variable {c : Cfg} {s : State} {w : Word} {i : Instr}

/-! ### Command words (R81, R82, R83) -/

/-- R82: the opcode map, read from the command words. -/
theorem instrOfOpc_eq_some_iff : ∀ opc : BitVec 4, instrOfOpc opc = some i ↔ opc = opcOf (encode i) := by
  cases i <;> decide

/-- R80: a command word has no bit of ZERO set. -/
theorem zeroOf_encode (i : Instr) : zeroOf (encode i) = 0 := by cases i <;> decide

theorem word_eq_iff {v : Word} : w = v ↔ zeroOf w = zeroOf v ∧ opcOf w = opcOf v := by
  refine ⟨fun h => ⟨congrArg _ h, congrArg _ h⟩, fun ⟨hz, ho⟩ => ?_⟩
  rw [word_fields w, hz, ho, ← word_fields]

/-- R218: what the decoder gives a command for. Opcode 0 has a branch of its own, and does not stand in the map. -/
theorem decodeWord_eq_instr_iff : decodeWord w = .instr i ↔ zeroOf w = 0 ∧ instrOfOpc (opcOf w) = some i := by
  refine ⟨fun h => ?_, fun ⟨hz, ho⟩ => ?_⟩
  · unfold decodeWord at h
    split_ifs at h with hz hopc
    refine ⟨not_not.mp hz, ?_⟩
    split at h
    · next hi => cases h; exact hi
    · cases h
  · have hopc : opcOf w ≠ 0 := fun h0 => by rw [h0] at ho; cases ho
    rw [decodeWord, if_neg (not_not.mpr hz), if_neg hopc, ho]

/-- R83: a word is illegal by its fields alone; with ZERO clear and an opcode of the map it is that command's. -/
theorem decodeWord_illegal_iff :
    (∃ why, decodeWord w = .illegal why) ↔ zeroOf w ≠ 0 ∨ instrOfOpc (opcOf w) = none := by
  refine ⟨fun ⟨why, h⟩ => ?_, decodeWord_illegal⟩
  by_contra! hcmd
  obtain ⟨hz, ho⟩ := hcmd
  obtain ⟨i, hi⟩ := Option.ne_none_iff_exists'.mp ho
  exact absurd (h.symm.trans (decodeWord_eq_instr_iff.mpr ⟨hz, hi⟩)) nofun

/-- Settles O1: the decoder and the command's word agree in both fields, which make up the word. -/
theorem commandWordsDecodeUniquely : Obligations.CommandWordsDecodeUniquely := by
  intro w i
  calc decodeWord w = .instr i
    _ ↔ zeroOf w = 0 ∧ instrOfOpc (opcOf w) = some i := decodeWord_eq_instr_iff
    _ ↔ zeroOf w = zeroOf (encode i) ∧ opcOf w = opcOf (encode i) := by rw [instrOfOpc_eq_some_iff, zeroOf_encode]
    _ ↔ w = encode i := word_eq_iff.symm

/-- Settles O2: a word is illegal by its ZERO field or by an opcode outside the map. -/
theorem illegalWordsAreExactly : Obligations.IllegalWordsAreExactly := fun _ =>
  decodeWord_illegal_iff.trans (or_congr_right (instrOfOpc_eq_none_iff _))

/-- Settles O3: each literal word through the decoder. -/
theorem literalWordsDecode : Obligations.LiteralWordsDecode := by
  unfold Obligations.LiteralWordsDecode
  decide

/-! ### Register offsets (R33, R93) -/

/-- R93: a register that stands at an index has the offset of that index. -/
theorem regOffset_regAt : ∀ j : Fin 64, regAt j ≠ .reserved → regOffset (regAt j) = some (4 * j.val) := by decide

theorem regAt_lo (p : Ptr) : ∃ j, regAt j = .lo p := by
  refine ⟨Fin.ofNat 64 (ptrOffset p / 4), ?_⟩
  cases p <;> rfl

theorem regAt_hi (p : Ptr) : ∃ j, regAt j = .hi p := by
  refine ⟨Fin.ofNat 64 (ptrOffset p / 4 + 1), ?_⟩
  cases p <;> rfl

/-- R93: every register stands somewhere in the window. -/
theorem exists_regAt (r : Reg) : ∃ j, regAt j = r := by
  cases r with
  | lo p => exact regAt_lo p
  | hi p => exact regAt_hi p
  | _ => decide

/-- The offset of a register and the decoder of offsets are inverse to each other. -/
theorem regOffset_eq_some_iff (r : Reg) (off : Nat) :
    regOffset r = some off ↔ r ≠ .reserved ∧ ∃ j, regIndex off = some j ∧ regAt j = r := by
  refine ⟨fun h => ?_, ?_⟩
  · have hr : r ≠ .reserved := fun he => by rw [he] at h; cases h
    obtain ⟨j, rfl⟩ := exists_regAt r
    obtain rfl : 4 * j.val = off := Option.some_injective _ ((regOffset_regAt j hr).symm.trans h)
    exact ⟨hr, j, regIndex_aligned j, rfl⟩
  · rintro ⟨hr, j, hj, rfl⟩
    rw [regIndex_some hj]
    exact regOffset_regAt j hr

/-- R33: the reserved offsets and no other. -/
theorem regAt_eq_reserved_iff : ∀ j : Fin 64, regAt j = .reserved ↔
    4 * j.val = 0x01C ∨ 4 * j.val = 0x02C ∨ 4 * j.val = 0x03C ∨ 4 * j.val = 0x04C ∨ 0x0A8 ≤ 4 * j.val := by decide

/-- Settles O4: the table row by row, then the two directions of the decoder of offsets. -/
theorem registerOffsetsAgree : Obligations.RegisterOffsetsAgree :=
  ⟨by decide, by decide, regOffset_eq_some_iff, regAt_eq_reserved_iff⟩

/-! ### A word on its way through a step -/

/-- A table word is read as the word the host writes to CMD (log 5). -/
theorem decodeWord_of_tableWord {nbits n : Nat} (h : decodeTableWord nbits n = some i) :
    decodeWord (BitVec.ofNat 32 (n % 2 ^ nbits)) = .instr i := by
  unfold decodeTableWord at h
  split at h
  · split at h
    · next hd => cases h; exact hd
    · cases h
  · cases h

/-- Settles O9: the word placed is the host's next access, a write to CMD (`stepRunsTheCommand`). -/
theorem fetchedWordRuns : Obligations.FetchedWordRuns := by
  intro s nbits n i h
  obtain ⟨-, hrun, -⟩ := stepRunsTheCommand (s.withFetchWord nbits n) _ s.script rfl
  exact hrun i (decodeWord_of_tableWord h)

/-- An illegal command during which the host does nothing: its end is a function of the state it was accepted in (R83). -/
theorem issueIllegal_noHost (h : s.Ready) (hl : s.live = []) :
    issueIllegal c s = .next ((s.accept c {}).left c .illegalCommand 0) := by
  have hrun : runBody c illegalBody (s.accept c {}) = (s.accept c {}).left c .illegalCommand 0 :=
    congrArg stateOf (exitPoint_run (s := s.accept c {}) .illegalCommand 0 hl)
  rw [illegal_front h, hrun]
  exact State.conclude_self rfl _

/-- An illegal command that is not disturbed goes from acceptance to the exit point. -/
theorem issueIllegal_undisturbed (h : s.Undisturbed) :
    ∃ l g, issueIllegal c s = .next (((s.begun c).left c .illegalCommand 0).served l g) := by
  obtain ⟨hr, hn, hm⟩ := h
  rcases illegal_hosted (c := c) (s := s) with ⟨l, g, hs, hrun⟩ | ⟨u, n, -, hreset, -⟩
  · obtain ⟨made, ⟨hl, -, -, hp⟩, -⟩ := came_of_serves hs rfl
    rw [hl, memAccesses_append] at hm
    refine ⟨l, g, ?_⟩
    rw [illegal_front hr, hrun]
    exact State.conclude_self (hp.trans (List.append_eq_nil_iff.mp hm).1) _
  · exact absurd (hn.symm.trans hreset.noReset) nofun

/-- Settles O17: the word is issued as an illegal command, which goes from acceptance to the exit point. -/
theorem illegalCommandEnds : Obligations.IllegalCommandEnds := by
  intro s w hu hw
  simp only [commandWrite_illegal hw]
  obtain ⟨⟨hbusy, halarm, heng⟩, -⟩ := id hu
  obtain ⟨l, g, hrun⟩ := issueIllegal_undisturbed (c := Config.cfg) hu
  refine ⟨_, hrun, left_ended (Framed.refl _) heng, ⟨rfl, rfl⟩, halarm, ?_, fun hl r => ?_⟩
  · show ((s.begun Config.cfg).left Config.cfg .illegalCommand 0).acts.reverse = _
    simp [halarm]
  · have hplain := issueIllegal_noHost (c := Config.cfg) hu.1 hl
    rw [Host.Outcome.next.inj (hrun.symm.trans hplain)]
    exact issueIllegal_noHost (s := { s with regs := r }) hu.1 hl

/-! ### ENCODE (R120 to R129) -/

theorem digestCount_append (l l' : List Action) : digestCount (l ++ l') = digestCount l + digestCount l' :=
  List.countP_append

theorem drawCount_append (l l' : List Action) : drawCount (l ++ l') = drawCount l + drawCount l' :=
  List.countP_append

theorem digestCount_reverse (l : List Action) : digestCount l.reverse = digestCount l := List.countP_reverse

theorem drawCount_reverse (l : List Action) : drawCount l.reverse = drawCount l := List.countP_reverse

/-- A read of data memory is no provider call. -/
theorem providerCounts_readActs (l : List (Addr × Nat)) : digestCount (readActs l) = 0 ∧ drawCount (readActs l) = 0 := by
  simp [digestCount, drawCount, readActs, List.countP_map, Function.comp_def]

theorem digestCount_replicate (n a k : Nat) (sel : Word) :
    digestCount (List.replicate n (.digest a sel k)) = n := by
  simp [digestCount, List.countP_replicate]

theorem drawCount_replicate (n a k : Nat) (sel : Word) : drawCount (List.replicate n (.digest a sel k)) = 0 := by
  simp [drawCount, List.countP_replicate]

/-- R106, R126: EncodeCore makes one Digest call for the label and the rest for the two masks, and one draw. -/
theorem providerCounts_encodeActs (r : Regs) (h : Nat) :
    digestCount (encodeActs c r h) = encodeDigests c h ∧ drawCount (encodeActs c r h) = 1 := by
  obtain ⟨hdigest, hdraw⟩ := providerCounts_readActs [(r.inp, r.inLen.toNat), (r.label, r.labelLen.toNat)]
  constructor
  · simp only [encodeActs, digestCount_append, digestCount_reverse, digestCount_replicate, encodeReads, hdigest]
    show 1 + ceilDiv (dbLen c h) h + 0 + 1 + 0 + 0 = 2 + ceilDiv (dbLen c h) h
    omega
  · simp only [encodeActs, drawCount_append, drawCount_reverse, drawCount_replicate, encodeReads, hdraw]
    rfl

/-- Settles O40, by the run of an encode whose providers succeed (`encode_success`) and the calls it records. -/
theorem encodeResult : Obligations.EncodeResult := by
  intro D s d ⟨hu, hm, hff⟩ hp hd hle hh he
  obtain ⟨hend, halarm, hregs, hstored, hacts⟩ :=
    encode_success D.wf D.lawful hu hm hff hp hd hle (fun j _ => hh j) he
  obtain ⟨hdigest, hdraw⟩ := providerCounts_encodeActs (c := D.cfg) s.regs d.hashLen
  refine ⟨_, answers_of_runOn (runOn_undisturbed hu), hend, halarm, hregs, hstored,
    paddedBlock_length D.wf D.lawful hd hle, ?_, ?_⟩
  · rw [hacts, digestCount_append, digestCount_append, digestCount_reverse, hdigest]
    exact Nat.zero_add _
  · rw [hacts, drawCount_append, drawCount_append, drawCount_reverse, hdraw]
    rfl

end Sys2Proof.Machine
end

section
/-! PROOFS. Scope: the mask generator (R102 to R105), and the provider call that fails first in an encode or a decode (R100,
R101, R126, R158, R246). -/

namespace Sys2Proof.Machine

variable {c : Cfg} {s : State} {d : HashDescriptor} {i : Instr} {j n : Nat} {k : Kind} {info : Word} {buf x : Bytes}

/-! ### The mask in its buffer (R102, R105) -/

/-- R40: a value put at the start of a buffer it may not fit: the part that fits, then the rest of the buffer. -/
theorem put_zero (buf x : Bytes) : put buf 0 x = x.take buf.length ++ buf.drop x.length := by simp [put]

theorem take_put_zero_cut (h : x.length = n) : (put buf 0 x).take n = x.take buf.length := by
  subst h
  rw [put_zero]
  rcases Nat.le_total x.length buf.length with hfits | hlong
  · rw [List.take_of_length_le hfits, List.take_left]
  · rw [List.drop_eq_nil_of_le hlong, List.append_nil, List.take_take, Nat.min_eq_right hlong]

theorem drop_put_zero (h : x.length = n) : (put buf 0 x).drop n = buf.drop n := by
  subst h
  rw [put_zero]
  rcases Nat.le_total x.length buf.length with hfits | hlong
  · rw [List.take_of_length_le hfits, List.drop_left]
  · rw [List.drop_eq_nil_of_le hlong, List.append_nil, List.drop_eq_nil_of_le (List.length_take_le' _ _)]

/-- Settles O38, by the run of MGF when its calls succeed (`mgf_run`) and when one of them fails first (`mgf_fail`). -/
theorem maskGeneration : Obligations.MaskGeneration := by
  intro D s sel d seed n hd hff
  obtain ⟨hpos, -⟩ := wf_lookup D.wf hd
  have hlen := hash_length D.lawful hd
  have hmask : (mgfMask D.cfg sel d.hashLen seed n).length = n := length_mgfMask hpos hlen seed n
  refine ⟨fun hs => ?_, fun j hj hs hf => ?_⟩
  · exact ⟨_, mgf_run hpos hlen hff hs, take_put_zero_of_length hmask, take_put_zero_cut hmask, drop_put_zero hmask,
      rfl, rfl⟩
  · exact ⟨_, mgf_fail hpos hlen hff hj hs hf, rfl, rfl, rfl, rfl⟩

/-! ### The encode stage (R126, R246) -/

/-- What EncodeCore raises, ENCODE and ENCRYPT fail with (R132, R203 a). -/
theorem encodeStage_fails (hi : i = .encode ∨ i = .encrypt) (hu : s.Undisturbed) (hk : k ≠ .glitchError)
    (e : ∃ u, encodeCore c (s.begun c) = .error (.raised k info) u) : FailsWith c s (ranOn c i s) k info := by
  rcases hi with rfl | rfl
  · exact encode_fails hu hk e
  · obtain ⟨u, e⟩ := e
    exact (encrypt_fails hu hk e).1

/-- The Digest calls of an accepted command are numbered from 0 (R106). -/
theorem encodeCore_begun_hashFail (hr : EncodeReady c (s.begun c) d) (hlt : j < encodeDigests c d.hashLen)
    (hs : ∀ i, i < j → c.hashFail s.nextCommand i = 0) (hf : c.hashFail s.nextCommand j ≠ 0)
    (he : 0 < j → (c.entropy s.nextCommand d.hashLen).1 = 0) :
    ∃ u, encodeCore c (s.begun c) = .error (.raised .hashFailure (c.hashFail s.nextCommand j)) u := by
  have h := encodeCore_hashFail hr hlt
  simp only [State.begun_fields, Nat.zero_add] at h
  exact h hs hf he

/-- Settles O42, by the order of the calls in EncodeCore: the label hash is call 0 and comes before the draw, the mask
hashes come after it. -/
theorem encodeStageProviderFailures : Obligations.EncodeStageProviderFailures := by
  intro D i s d hi ⟨hu, _, hff⟩ hp hd hle
  have hr := encodeReady_begun D.wf D.lawful hff hp hd hle
  have hans := answers_of_runOn (D := D) (i := i) (runOn_undisturbed hu)
  refine ⟨fun hf => ?_, fun h0 he => ?_, fun j _ hlt hs hf he => ?_⟩
  · exact ⟨_, hans, encodeStage_fails hi hu (by decide)
      (encodeCore_begun_hashFail hr (by simp [encodeDigests]) (fun _ => nofun) hf nofun)⟩
  · exact ⟨_, hans, encodeStage_fails hi hu (by decide) (encodeCore_entropyFail hr h0 he)⟩
  · exact ⟨_, hans, encodeStage_fails hi hu (by decide) (encodeCore_begun_hashFail hr hlt hs hf fun _ => he)⟩

/-! ### The decode (R158) -/

/-- A decode entered before any Digest call numbers its calls from 0 (R106). -/
theorem decodeCore_firstHashFail {load : Cmd Unit} {w : Work} {la : List Action} (hr : DecodeReady c s d load w la)
    (h0 : s.hashCalls = 0) (hy : w.em.take 1 = [0x00]) (hlt : j < decodeDigests c d.hashLen)
    (hs : ∀ i, i < j → c.hashFail s.commands i = 0) (hf : c.hashFail s.commands j ≠ 0) :
    ∃ u, decodeCore c load s = .error (.raised .hashFailure (c.hashFail s.commands j)) u := by
  have h := decodeCore_hashFail hr hy hlt
  simp only [h0, Nat.zero_add] at h
  exact h hs hf

/-- Settles O45: DECODE finds the block it read in EM, DECRYPT the engine's result reversed, and DecodeCore fails on
either at the same call. -/
theorem decodeHashFailure : Obligations.DecodeHashFailure := by
  intro D s d j ⟨hu, _, hff⟩ hp hd hlt hs hf
  refine ⟨fun hy => ?_, fun hk h0 hy => ?_⟩
  · have hem := put_zeros_block (c := D.cfg) (s := s) (Memory.length_readBytes ..)
    exact ⟨_, answers_of_runOn (runOn_undisturbed hu), decode_fails hu (by decide)
      (decodeCore_firstHashFail (decodeReady_memory D.wf D.lawful hff hp hd) rfl
        ((congrArg (List.take 1) hem).trans hy) hlt hs hf)⟩
  · obtain ⟨hem, -⟩ := reversed_em (s := s) D.lawful
    obtain ⟨u, e⟩ := decodeCore_firstHashFail (decodeReady_reversed D.wf D.lawful hff hp hd) rfl
      ((congrArg (List.take 1) hem).trans hy) hlt hs hf
    exact ⟨_, answers_of_runOn (runOn_undisturbed hu), (decrypt_fails hu hff hk h0 (by decide) e).1⟩

end Sys2Proof.Machine
end

section
/-! PROOFS. Scope: the bound on a message (R122), what ENCODE and ENCRYPT refuse (R121, R122, R132, R203), and the block
ENCODE wrote, decoded again (R136). -/

namespace Sys2Proof.Machine

variable {c : Cfg} {s t : State} {d : HashDescriptor} {i : Instr} {k : Kind} {info : Word}

/-! ### The bound on a message (R122) -/

/-- Settles O39, by the side of the reference hash `h` lies on: the derivation adds or takes away twice the distance. -/
theorem encodeBoundIgnoresHref : Obligations.EncodeBoundIgnoresHref := by
  intro c h
  unfold actualMaxMsgLen
  dsimp only
  split
  · next hle =>
    have hdist : (((h : Int) - c.href).natAbs : Int) = c.href - h := by omega
    rw [hdist]; ring
  · next hgt =>
    have hdist : (((h : Int) - c.href).natAbs : Int) = h - c.href := by omega
    rw [hdist]; ring

/-! ### What the encode stage refuses (R121, R122) -/

/-- EncodeCore that stops in its checks ends ENCODE and ENCRYPT with nothing done but the check (R132, R203 a). -/
theorem encodeStage_refuses (hi : i = .encode ∨ i = .encrypt) (hu : s.Undisturbed) (hk : k ≠ .glitchError)
    (e : ∃ u, encodeCore c (s.begun c) = .error (.raised k info) u ∧
      u.acts = .phase .encCheck :: (s.begun c).acts) :
    FailsWith c s (ranOn c i s) k info ∧ actions (ranOn c i s) =
      [.phase .dispatch, .phase .encCheck, .phase .exitScrub, .phase .exitStatus, .phase .idle] := by
  obtain ⟨u, e, hacts⟩ := e
  have hends : FailsWith c s (ranOn c i s) k info ∧
      actions (ranOn c i s) = u.acts.reverse ++ [.phase .exitScrub, .phase .exitStatus, .phase .idle] := by
    rcases hi with rfl | rfl
    · exact fails_of_raised (i := .encode) hu e hk
    · exact encrypt_fails hu hk e
  rw [hacts] at hends
  exact hends

/-- Settles O41: EncodeCore checks the parameters first and the length next (`encodeCore_badParams`,
`encodeCore_tooLong`). -/
theorem encodeStageRefuses : Obligations.EncodeStageRefuses := by
  intro D i s hi ⟨hu, _, hff⟩
  have hans := answers_of_runOn (D := D) (i := i) (runOn_undisturbed hu)
  refine ⟨fun hp => ⟨_, hans, ?_⟩, fun d hp hd hlong => ⟨_, hans, ?_⟩⟩
  · exact encodeStage_refuses hi hu (by decide) (encodeCore_badParams rfl hff hp)
  · exact encodeStage_refuses hi hu (by decide) (encodeCore_tooLong D.wf rfl hff hp hd hlong)

/-! ### What ENCODE wrote, decoded again (R136) -/

/-- An undisturbed command has one answer, the state it ran to. -/
theorem eq_ranOn_of_answers {D : Deployment} (hu : s.Undisturbed) (h : Answers D i s t) : t = ranOn D.cfg i s :=
  Host.Outcome.next.inj (h.1.symm.trans (runOn_undisturbed hu))

/-- Success is no kind a command raises (R241). -/
theorem success_notMem_ownKinds (col : Bool) (i : Instr) : Kind.success ∉ ownKinds col i := by
  cases i <;> cases col <;> decide

/-- A command whose front part raised by rule did not end with Success. -/
theorem code_ne_success_of_raises (hu : s.Undisturbed) (h : Raises ((shapeOf c s.collapse i).front (s.begun c))) :
    (ranOn c i s).code ≠ Kind.success.code := by
  obtain ⟨k, info, u, e, hk⟩ := h
  obtain ⟨⟨hend, -, -⟩, -⟩ := fails_of_raised hu e hk
  obtain ⟨-, ⟨hglitch, -⟩ | ⟨hown, -⟩, -⟩ := front_raised hu.1 e
  · exact absurd hglitch hk
  · rw [Ne, hend.code_eq_iff]
    rintro rfl
    exact success_notMem_ownKinds _ _ hown

/-- An ENCODE that succeeded was admissible, and no provider failed in it (R120, R133). -/
theorem encodeReady_of_success (hw : c.wf = true) (hL : c.Lawful) (hu : s.Undisturbed) (hff : FaultFree c s.nextCommand)
    (h : (ranOn c .encode s).code = Kind.success.code) :
    ∃ d, EncodeReady c (s.begun c) d ∧ (∀ j, j < encodeDigests c d.hashLen → c.hashFail s.nextCommand j = 0) ∧
      (c.entropy s.nextCommand d.hashLen).1 = 0 :=
  (encodeCore_total hw hL hff).resolve_right fun hr => code_ne_success_of_raises (i := .encode) hu hr h

/-- The verdict of the rules on the block of an admissible message is the message (R136). -/
theorem decodeVerdict_of_encodeReady (hL : c.Lawful) (hr : EncodeReady c (s.begun c) d) (col : Bool) :
    decodeVerdict c s.regs.hashSel d.hashLen (labelBytes s) col
      (paddedBlock c s.regs.hashSel d.hashLen (labelBytes s) (messageBytes s) (seedDrawn c s d.hashLen)) =
        .ok (messageBytes s) := by
  obtain ⟨hpos, hk⟩ := wf_lookup hr.wf hr.lookup
  have hlen : (messageBytes s).length = s.regs.inLen.toNat := Memory.length_readBytes ..
  exact verdict_paddedBlock col hk hpos hr.hash (hlen.trans_le hr.fits) (hL.entropyLength _ _)

/-- What an ENCODE that succeeded left at OUT_ADDR is the block of an admissible message (R120, R129). -/
theorem encode_wrote (hw : c.wf = true) (hL : c.Lawful) (hc : s.Calm c)
    (h : (ranOn c .encode s).code = Kind.success.code) :
    ∃ d, EncodeReady c (s.begun c) d ∧ blockAt c (ranOn c .encode s) s.regs.out =
      paddedBlock c s.regs.hashSel d.hashLen (labelBytes s) (messageBytes s) (seedDrawn c s d.hashLen) := by
  obtain ⟨hu, hm, hff⟩ := hc
  obtain ⟨d, hr, hh, he⟩ := encodeReady_of_success hw hL hu hff h
  obtain ⟨-, -, -, ⟨hblock, -⟩, -⟩ := encode_success hw hL hu hm hff hr.params hr.lookup hr.fits hh he
  rw [paddedBlock_length (s := s) hw hL hr.lookup hr.fits] at hblock
  exact ⟨d, hr, hblock⟩

/-- Settles O56: the block DECODE finds is the one ENCODE wrote (`encode_wrote`), and DECODE answers the verdict on it,
which is the message. -/
theorem encodeDecodeRoundTrip : Obligations.EncodeDecodeRoundTrip := by
  intro D s t s' hc ht hs ⟨hu', hm', hff'⟩ hh' hp' hsel hlab hblk
  obtain rfl := eq_ranOn_of_answers hc.1 ht
  obtain ⟨d, hr, hwrote⟩ := encode_wrote D.wf D.lawful hc hs
  have hd : D.cfg.lookup s'.regs.hashSel = some d := (congrArg _ hsel).trans hr.lookup
  have hdec := decode_answers D.wf D.lawful hu' hm' hff' hp' hd hh'
  rw [hblk, hwrote, hsel, hlab, decodeVerdict_of_encodeReady D.lawful hr] at hdec
  obtain ⟨hend, -, hstored, hregs⟩ := hdec
  exact ⟨_, answers_of_runOn (runOn_undisturbed hu'), hend, hstored, congrArg Regs.outLen hregs⟩

end Sys2Proof.Machine
end

section
/-! PROOFS. Scope: the decode of DECODE and DECRYPT: what it answers (R140 to R154), where it stops early (R141, R143, R158),
what its steps 6 to 8 accept (R150, R151, R156), and that its record up to the evaluation point is data-independent (R155). -/

namespace Sys2Proof.Machine

variable {c : Cfg} {s t t1 t2 : State} {d : HashDescriptor} {sel : Word} {h : Nat} {col : Bool} {m label em : Bytes}
  {load : Cmd Unit} {w : Work} {la before l1 l2 : List Action} {r : Regs}

/-! ### The answer (R140 to R154) -/

/-- Settles O43: DECODE leaves what the verdict of the rules says (`decode_answers`). -/
theorem decodeResult : Obligations.DecodeResult := by
  intro D s d ⟨hu, hm, hff⟩ hp hd hh
  exact ⟨_, answers_of_runOn (runOn_undisturbed hu), decode_answers D.wf D.lawful hu hm hff hp hd hh⟩

/-! ### Early failures (R141, R143, R158) -/

theorem digestCount_frontActs (r : Regs) (hla : digestCount la = 0) : digestCount (frontActs r la) = 0 := by
  obtain ⟨hlabel, -⟩ := providerCounts_readActs [(r.label, r.labelLen.toNat)]
  rw [frontActs, labelActs, digestCount_append, digestCount_append, digestCount_reverse, hlabel, hla]
  rfl

/-- The wrapper and the reversal call no hash (R176, R202). -/
theorem digestCount_reversed (c : Cfg) (s : State) : digestCount (s.reversed c).acts = 0 := by
  obtain ⟨hreads, -⟩ := providerCounts_readActs (wrapRegions c .crt (.pointer s.regs.inp) s.regs)
  rw [reversed_acts, digestCount_append, digestCount_append, digestCount_reverse, hreads]
  rfl

/-- The leading byte is checked before any hash is called (R143), whatever the hash provider would do. -/
theorem decodeCore_byteMismatch_noDigest (hr : DecodeReady c s d load w la) (hy : w.em.take 1 ≠ [0x00])
    (hla : digestCount la = 0) (hs : digestCount s.acts = 0) :
    ∃ u, decodeCore c load s = .error (.raised .byteMismatchError 0) u ∧ digestCount u.acts = 0 := by
  refine ⟨_, decodeCore_byteMismatch hr hy, ?_⟩
  show digestCount ([.phase .decY] ++ frontActs s.regs la ++ s.acts) = 0
  rw [digestCount_append, digestCount_append, digestCount_frontActs s.regs hla, hs]
  rfl

/-- The exit point calls no hash (R222). -/
theorem digestCount_exit (l : List Action) :
    digestCount (l.reverse ++ [.phase .exitScrub, .phase .exitStatus, .phase .idle]) = digestCount l := by
  rw [digestCount_append, digestCount_reverse]
  rfl

/-- Settles O44: each run stops in DecodeCore, at its parameters (`decodeCore_badParams`) or at the leading byte
(`decodeCore_byteMismatch`), and goes to the exit point. -/
theorem decodeEarlyFailures : Obligations.DecodeEarlyFailures := by
  intro D s ⟨hu, _, hff⟩
  refine ⟨fun hp => ?_, fun hp hy => ?_, fun hk h0 hp hy => ?_⟩
  · obtain ⟨u, e, hacts⟩ := decodeCore_badParams (c := D.cfg) (s := s.begun D.cfg) (load := loadEmFromMemory D.cfg)
      rfl hff hp
    obtain ⟨hfails, hrecord⟩ := fails_of_raised (i := .decode) hu e (by decide)
    rw [hacts] at hrecord
    exact ⟨_, answers_of_runOn (runOn_undisturbed hu), hfails, hrecord⟩
  · obtain ⟨d, hd⟩ := decodeParamsOk_lookup hp
    obtain ⟨hreads, -⟩ := providerCounts_readActs [(s.regs.inp, D.cfg.K)]
    have hem := put_zeros_block (c := D.cfg) (s := s) (Memory.length_readBytes ..)
    obtain ⟨u, e, hcount⟩ := decodeCore_byteMismatch_noDigest (decodeReady_memory D.wf D.lawful hff hp hd)
      (by rw [hem]; exact hy) (by rw [digestCount_reverse, hreads]) rfl
    obtain ⟨hfails, hrecord⟩ := fails_of_raised (i := .decode) hu e (by decide)
    exact ⟨_, answers_of_runOn (runOn_undisturbed hu), hfails, by rw [hrecord, digestCount_exit, hcount]⟩
  · obtain ⟨d, hd⟩ := decodeParamsOk_lookup hp
    obtain ⟨hem, -⟩ := reversed_em (s := s) D.lawful
    obtain ⟨u, e, hcount⟩ := decodeCore_byteMismatch_noDigest (decodeReady_reversed D.wf D.lawful hff hp hd)
      (by rw [hem]; exact hy) rfl (digestCount_reversed _ _)
    obtain ⟨hfails, hrecord⟩ := decrypt_fails hu hff hk h0 (by decide) e
    exact ⟨_, answers_of_runOn (runOn_undisturbed hu), hfails, by rw [hrecord, digestCount_exit, hcount]⟩

/-! ### What steps 6 to 8 accept (R150, R151, R156) -/

/-- The scan answers found and no violation exactly when the rest is zeros, 0x01 and something (R156). -/
theorem scanPadding_accepts_iff (h : Nat) (rest : Bytes) :
    (scanPadding h rest).found = true ∧ (scanPadding h rest).viol = false ↔ ∃ p m, rest = zeros p ++ [0x01] ++ m := by
  have hspec := scanFrom_spec h rest 0
  rw [exists_comm, scanPadding]
  simp only [← afterSeparator_iff]
  cases hsep : afterSeparator rest with
  | some m =>
    rw [hsep] at hspec
    obtain ⟨hfound, hviol, -⟩ := hspec
    exact ⟨fun _ => ⟨m, rfl⟩, fun _ => ⟨hfound, hviol⟩⟩
  | none =>
    rw [hsep] at hspec
    refine ⟨fun ⟨hfound, hviol⟩ => ?_, nofun⟩
    simp [hfound, hviol] at hspec

/-- The scan of zeros, 0x01 and anything: `sep` is the index of the 0x01 (R150). -/
theorem scanPadding_zeros (h p : Nat) (m : Bytes) :
    scanPadding h (zeros p ++ [0x01] ++ m) = { found := true, viol := false, sep := h + p } := by
  rw [scanPadding]
  induction p generalizing h with
  | zero => exact scanFrom_found (h + 1) m { found := true, viol := false, sep := h } rfl
  | succ p ih =>
    have hzero : scanByte h 0x00 {} = {} := rfl
    show scanFrom (h + 1) (zeros p ++ [0x01] ++ m) (scanByte h 0x00 {}) = _
    rw [hzero, ih, Nat.add_right_comm, Nat.add_assoc]

/-- A scan that finds its separator finds it at or after the index it starts from (R150). -/
theorem le_sep_of_scanFrom_found (a : Nat) (rest : Bytes) (f : ScanState) (hf : f.found = false)
    (hfound : (scanFrom a rest f).found = true) : a ≤ (scanFrom a rest f).sep := by
  induction rest generalizing a f with
  | nil => exact absurd (hf.symm.trans hfound) (by decide)
  | cons b rest ih =>
    by_cases hb : b = 0x01
    · have htaken : (scanByte a b f).found = true ∧ (scanByte a b f).sep = a := by simp [scanByte, hb, hf]
      rw [scanFrom, scanFrom_found _ _ _ htaken.1, htaken.2]
    · have hpassed : (scanByte a b f).found = false := by
        simp only [scanByte, hf, beq_eq_false_iff_ne.mpr hb]
        rfl
      exact Nat.le_of_succ_le (ih _ _ hpassed hfound)

/-- Settles O47: the separator lies in the rest, which starts behind the h bytes of the label hash. -/
theorem lengthCheckCannotFail : Obligations.LengthCheckCannotFail := by
  intro c h rest _ hfound
  have hsep : h ≤ (scanPadding h rest).sep := le_sep_of_scanFrom_found h rest {} rfl hfound
  unfold messageLength dbLen maxMessageLen
  omega

/-- R156: which blocks the rules answer a message for. -/
theorem decodeVerdict_eq_ok_iff : decodeVerdict c sel h label col em = .ok m ↔
    em.take 1 = [0x00] ∧ (recoveredDb c sel h em).take h = hashOf c sel label ∧
      ∃ p, (recoveredDb c sel h em).drop h = zeros p ++ [0x01] ++ m := by
  rw [← afterSeparator_iff]
  unfold decodeVerdict
  by_cases hy : em.take 1 = [0x00]
  · rw [if_neg (not_not.mpr hy)]
    by_cases hl : (recoveredDb c sel h em).take h = hashOf c sel label
    · rw [if_neg (not_not.mpr hl)]
      cases afterSeparator ((recoveredDb c sel h em).drop h) <;> simp [hy, hl]
    · rw [if_pos hl]
      exact iff_of_false nofun fun ⟨_, hl', _⟩ => hl hl'
  · rw [if_pos hy]
    exact iff_of_false nofun fun ⟨hy', _⟩ => hy hy'

/-- No verdict of the rules fails with the kind Success (R240). -/
theorem decodeVerdict_ne_error_success : decodeVerdict c sel h label col em ≠ .error .success := by
  have hkind : ∀ k, k ≠ Kind.success → (.error (structuralKind col k) : Except Kind Bytes) ≠ .error .success := by
    cases col <;> simp [structuralKind]
  unfold decodeVerdict
  split
  · nofun
  · split
    · exact hkind _ (by decide)
    · split
      · exact hkind _ (by decide)
      · nofun

/-- A decode ends with Success exactly when the verdict is a message. -/
theorem DecodeAnswer.success_iff {v : Except Kind Bytes} (ha : DecodeAnswer c s t v) (hv : v ≠ .error .success) :
    t.code = Kind.success.code ↔ ∃ m, v = .ok m := by
  cases v with
  | ok m =>
    obtain ⟨hend, -⟩ := ha
    exact ⟨fun _ => ⟨m, rfl⟩, fun _ => hend.code⟩
  | error k =>
    obtain ⟨hend, -⟩ := ha
    rw [hend.code_eq_iff]
    exact ⟨fun hk => absurd (congrArg _ hk) hv, nofun⟩

/-- Settles O46: `acc` and the scan by their own rules, and DECODE by the verdict it answers (`decode_answers`). -/
theorem decodeAcceptsExactly : Obligations.DecodeAcceptsExactly := by
  refine ⟨fun x y hxy => compareAcc_eq_zero hxy, fun h rest => ⟨scanPadding_accepts_iff h rest, ?_⟩, ?_⟩
  · rintro p m rfl
    rw [scanPadding_zeros]
    refine ⟨rfl, ?_⟩
    show (zeros p ++ [0x01] ++ m).drop (h + p - h + 1) = m
    exact List.drop_left' (by simp [zeros])
  · intro D s d ⟨hu, hm, hff⟩ hp hd hh
    refine ⟨_, answers_of_runOn (runOn_undisturbed hu), ?_⟩
    rw [(decode_answers D.wf D.lawful hu hm hff hp hd hh).success_iff decodeVerdict_ne_error_success]
    simp only [decodeVerdict_eq_ok_iff, exists_and_left]
    rw [exists_comm]

/-! ### Data independence (R155) -/

/-- Two records that went the same way to the evaluation point agree up to it. -/
theorem agree_upToEval (hla : BeforeEval la) (hbefore : BeforeEval before)
    (e1 : actions t1 = evalActs c r h la before ++ (.phase .decEval :: l1))
    (e2 : actions t2 = evalActs c r h la before ++ (.phase .decEval :: l2)) :
    .phase .decEval ∈ actions t1 ∧ .phase .decEval ∈ actions t2 ∧ beforeEval (actions t1) = beforeEval (actions t2) := by
  rw [e1, e2, beforeEval_evalActs hla hbefore, beforeEval_evalActs hla hbefore]
  simp

/-- Settles O48: what DECODE and DECRYPT record before the evaluation point is a function of the registers
(`decode_reachesEval`, `decrypt_reachesEval`). -/
theorem decodeDataIndependence : Obligations.DecodeDataIndependence := by
  intro D s1 s2 d ⟨hu1, _, hff1⟩ ⟨hu2, _, hff2⟩ hregs hp1 hd1 hh1 hh2
  have hp2 : decodeParamsOk D.cfg s2.regs = true := hregs ▸ hp1
  have hd2 : D.cfg.lookup s2.regs.hashSel = some d := hregs ▸ hd1
  refine ⟨fun hy1 hy2 => ?_, fun hk1 h01 h02 hy1 hy2 => ?_⟩
  · obtain ⟨_, e1⟩ := decode_reachesEval D.wf D.lawful hu1 hff1 hp1 hd1 hh1 hy1
    obtain ⟨_, e2⟩ := decode_reachesEval D.wf D.lawful hu2 hff2 hp2 hd2 hh2 hy2
    rw [← hregs] at e2
    exact ⟨_, _, answers_of_runOn (runOn_undisturbed hu1), answers_of_runOn (runOn_undisturbed hu2),
      agree_upToEval (readActs_ne _) (by simp [BeforeEval]) e1 e2⟩
  · have hk2 : decryptPointersOk D.cfg s2.regs = true := hregs ▸ hk1
    obtain ⟨_, e1⟩ := decrypt_reachesEval D.wf D.lawful hu1 hff1 hp1 hd1 hh1 hk1 h01 hy1
    obtain ⟨_, e2⟩ := decrypt_reachesEval D.wf D.lawful hu2 hff2 hp2 hd2 hh2 hk2 h02 hy2
    have hacts : (s2.reversed D.cfg).acts = (s1.reversed D.cfg).acts := by rw [reversed_acts, reversed_acts, hregs]
    rw [← hregs, hacts] at e2
    exact ⟨_, _, answers_of_runOn (runOn_undisturbed hu1), answers_of_runOn (runOn_undisturbed hu2),
      agree_upToEval (List.forall_mem_nil _) reversed_acts_ne e1 e2⟩

end Sys2Proof.Machine
end

section
/-! PROOFS. Scope: the exponentiation wrapper: what EXP_PLAIN and EXP_CRT answer (R170 to R182, R187), the engine's line over
every command (R176 to R178), and what DECRYPT looks at before its codec parameters (R201, R203). -/

namespace Sys2Proof.Machine

variable {c : Cfg} {s : State}

/-! ### The engine's line (R176 to R178) -/

/-- Settles O27: how a command ended says what it did on the line (`EndsAs`), by whether the kind is Success. -/
theorem engineLineIsBracketed : Obligations.EngineLineIsBracketed := by
  intro D i s hu
  obtain ⟨ha, k, info, h⟩ := answers_ends D i hu
  refine ⟨_, ha, h.ended.engRst, ?_⟩
  simp only [h.ended.code_eq_iff]
  exact h.bracket

/-! ### EXP_PLAIN and EXP_CRT (R170, R171) -/

/-- Either entry point on good pointers answers what the engine gave (R176, R180), all K bytes of it (R172, R173). -/
theorem answers_exp (D : Deployment) (kind : ExpKind) (hc : s.Calm D.cfg)
    (hp : expPointersOk D.cfg kind s.regs = true) :
    let r := engineResult D.cfg kind s (blockAt D.cfg s s.regs.opBase)
    ∃ t, Answers D (expInstr kind) s t ∧
      (r.1 = 0 → Ended D.cfg s t .success 0 ∧ t.alarm = false ∧ t.regs = s.regs ∧ Stored s t s.regs.opRes r.2 ∧
        r.2.length = D.cfg.K) ∧
      (r.1 ≠ 0 → FailsWith D.cfg s t .engineFailure r.1) := by
  obtain ⟨hu, hm, hff⟩ := hc
  obtain ⟨hgave, hfailed⟩ := exp_answers kind D.lawful hu hm hff hp
  refine ⟨_, answers_of_runOn (runOn_undisturbed hu), fun h0 => ?_, hfailed⟩
  obtain ⟨hend, halarm, hregs, hstored⟩ := hgave h0
  exact ⟨hend, halarm, hregs, hstored, engineAnswer_length D.lawful ..⟩

/-- Settles O49, the plain entry point of `answers_exp`. -/
theorem expPlainResult : Obligations.ExpPlainResult := fun D _ hc hp => answers_exp D .plain hc hp

/-- Settles O50, the CRT entry point of `answers_exp`. -/
theorem expCrtResult : Obligations.ExpCrtResult := fun D _ hc hp => answers_exp D .crt hc hp

/-- Settles O51: the wrapper stops in its pointer check and goes through HOLD (`exp_badPointers`). -/
theorem expBadPointers : Obligations.ExpBadPointers := by
  intro D kind s ⟨hu, _, hff⟩ hp
  exact ⟨_, answers_of_runOn (runOn_undisturbed hu), exp_badPointers kind hu hff hp⟩

/-! ### DECRYPT before its codec parameters (R201, R203) -/

/-- A read of data memory is off the engine's line. -/
theorem bracketOf_readActs (l : List (Addr × Nat)) : bracketOf (readActs l) = [] := by
  rw [bracketOf, List.filter_eq_nil_iff]
  intro a ha
  obtain ⟨e, -, rfl⟩ := List.mem_map.mp ha
  exact Bool.false_ne_true

/-- DECRYPT has made a full bracket when it enters DecodeCore (R176, R201). -/
theorem bracketOf_reversed (c : Cfg) (s : State) : bracketOf (s.reversed c).acts.reverse = fullBracket .crt := by
  rw [reversed_acts, List.reverse_append, List.reverse_append, List.reverse_reverse, bracketOf_append, bracketOf_append,
    bracketOf_readActs]
  rfl

/-- Settles O55: bad pointers stop the wrapper in its check (`decrypt_badPointers`), a failing engine behind its bracket
(`decrypt_engineFailure`), and bad codec parameters stop DecodeCore, which comes after both (`decodeCore_badParams`). -/
theorem decryptEngineComesFirst : Obligations.DecryptEngineComesFirst := by
  intro D s ⟨hu, _, hff⟩
  have hans := answers_of_runOn (D := D) (i := .decrypt) (runOn_undisturbed hu)
  refine ⟨fun hk => ⟨_, hans, ?_⟩, fun hk hne => ⟨_, hans, ?_⟩, fun hk h0 hp => ⟨_, hans, ?_⟩⟩
  · obtain ⟨hfails, hacts⟩ := decrypt_badPointers hu hff hk
    exact ⟨hfails, by rw [hacts]; rfl⟩
  · exact decrypt_engineFailure hu hff hk hne
  · obtain ⟨u, e, hrecord⟩ := decodeCore_badParams (c := D.cfg) (s := s.reversed D.cfg) (load := pure ()) rfl hff hp
    obtain ⟨hfails, hacts⟩ := decrypt_fails hu hff hk h0 (by decide) e
    refine ⟨hfails, ?_⟩
    rw [hacts, hrecord, List.reverse_cons, bracketOf_append, bracketOf_append, bracketOf_reversed]
    rfl

end Sys2Proof.Machine
end

section
/-! PROOFS. Scope: the composite commands: what ENCRYPT (R200, R203, R204) and DECRYPT (R201, R202) answer, and the message
ENCRYPT took, given back by DECRYPT (R207). -/

namespace Sys2Proof.Machine

variable {c : Cfg} {s s' t : State} {d : HashDescriptor} {k : Kind} {info : Word} {em : Bytes}

/-! ### ENCRYPT (R200, R203) -/

/-- Settles O52, by the run of an encrypt whose hash and entropy providers succeed (`encrypt_answers`), and the K bytes
the engine's port promises (R172). -/
theorem encryptResult : Obligations.EncryptResult := by
  intro D s d ⟨hu, hm, hff⟩ hp hd hle hh he hk
  obtain ⟨hgave, hfailed, -⟩ := encrypt_answers D.wf D.lawful hu hm hff hp hd hle (fun j _ => hh j) he
  refine ⟨_, answers_of_runOn (runOn_undisturbed hu), fun h0 => ?_, hfailed hk⟩
  obtain ⟨hend, halarm, hregs, hstored⟩ := hgave hk h0
  exact ⟨hend, halarm, hregs, hstored, engineAnswer_length D.lawful ..⟩

theorem bracketOf_replicate_digest (n a k : Nat) (sel : Word) : bracketOf (List.replicate n (.digest a sel k)) = [] := by
  simp [bracketOf]

/-- The encode stage writes nothing to the engine's line (R200). -/
theorem bracketOf_encodeActs (c : Cfg) (r : Regs) (h : Nat) : bracketOf (encodeActs c r h).reverse = [] := by
  simp only [encodeActs, encodeReads, List.reverse_append, List.reverse_reverse, List.reverse_replicate,
    bracketOf_append, bracketOf_readActs, bracketOf_replicate_digest]
  rfl

/-- The calls and the line of a command that made the whole encode stage and then recorded `l` (R106, R126). -/
theorem record_of_encodeStage (c : Cfg) (r : Regs) (h : Nat) (l : List Action) :
    digestCount ([.phase .dispatch] ++ (encodeActs c r h).reverse ++ l) = encodeDigests c h + digestCount l ∧
    drawCount ([.phase .dispatch] ++ (encodeActs c r h).reverse ++ l) = 1 + drawCount l ∧
    bracketOf ([.phase .dispatch] ++ (encodeActs c r h).reverse ++ l) = bracketOf l := by
  obtain ⟨hdigest, hdraw⟩ := providerCounts_encodeActs (c := c) r h
  rw [List.append_assoc, digestCount_append, digestCount_append, digestCount_reverse, hdigest, drawCount_append,
    drawCount_append, drawCount_reverse, hdraw, bracketOf_append, bracketOf_append, bracketOf_encodeActs]
  exact ⟨Nat.zero_add _, Nat.zero_add _, rfl⟩

/-- Settles O53: the wrapper stops in its pointer check, behind the record of the whole encode stage
(`encrypt_answers`, `record_of_encodeStage`). -/
theorem encryptKeyPointersComeLast : Obligations.EncryptKeyPointersComeLast := by
  intro D s d ⟨hu, hm, hff⟩ hp hd hle hh he hk
  obtain ⟨-, -, hbad⟩ := encrypt_answers D.wf D.lawful hu hm hff hp hd hle (fun j _ => hh j) he
  obtain ⟨hfails, hacts⟩ := hbad hk
  refine ⟨_, answers_of_runOn (runOn_undisturbed hu), hfails, ?_⟩
  rw [hacts]
  exact record_of_encodeStage ..

/-! ### DECRYPT (R201, R202) -/

/-- Settles O54: DECRYPT leaves what the verdict of the rules says (`decrypt_answers`). -/
theorem decryptResult : Obligations.DecryptResult := by
  intro D s d ⟨hu, hm, hff⟩ hk h0 hp hd hh
  exact ⟨_, answers_of_runOn (runOn_undisturbed hu), decrypt_answers D.wf D.lawful hu hm hff hk h0 hp hd hh⟩

/-! ### What ENCRYPT produced, decrypted again (R207) -/

theorem FailsWith.code_ne_success (h : FailsWith c s t k info) (hk : k ≠ .success) : t.code ≠ Kind.success.code :=
  let ⟨hend, _, _⟩ := h
  mt (hend.code_eq_iff .success).mp hk

/-- An ENCRYPT that succeeded was admissible, and neither the hash nor the entropy provider failed in it (R200, R203 a). -/
theorem encodeReady_of_encrypt_success (hw : c.wf = true) (hL : c.Lawful) (hu : s.Undisturbed)
    (hff : FaultFree c s.nextCommand) (h : (ranOn c .encrypt s).code = Kind.success.code) :
    ∃ d, EncodeReady c (s.begun c) d ∧ (∀ j, j < encodeDigests c d.hashLen → c.hashFail s.nextCommand j = 0) ∧
      (c.entropy s.nextCommand d.hashLen).1 = 0 := by
  refine (encodeCore_total hw hL hff).resolve_right ?_
  rintro ⟨k, info, u, e, hk⟩
  have hraises : Raises (encryptFront c (s.begun c)) := ⟨k, info, u, by rw [encryptFront, bind_error e], hk⟩
  exact code_ne_success_of_raises (i := .encrypt) hu hraises h

/-- An ENCRYPT that succeeded handed the block of an admissible message to an engine that succeeded, and left the
engine's result at OUT_ADDR (R200, R204). -/
theorem encrypt_wrote (hw : c.wf = true) (hL : c.Lawful) (hc : s.Calm c)
    (h : (ranOn c .encrypt s).code = Kind.success.code) :
    ∃ d, EncodeReady c (s.begun c) d ∧
      let r := engineResult c .plain s
        (paddedBlock c s.regs.hashSel d.hashLen (labelBytes s) (messageBytes s) (seedDrawn c s d.hashLen))
      r.1 = 0 ∧ blockAt c (ranOn c .encrypt s) s.regs.out = r.2 := by
  obtain ⟨hu, hm, hff⟩ := hc
  obtain ⟨d, hr, hh, he⟩ := encodeReady_of_encrypt_success hw hL hu hff h
  obtain ⟨hgave, hfailed, hbad⟩ := encrypt_answers hw hL hu hm hff hr.params hr.lookup hr.fits hh he
  have hk : encryptPointersOk c s.regs = true := by
    by_contra hk
    exact (hbad (Bool.eq_false_of_not_eq_true hk)).1.code_ne_success (by decide) h
  have h0 : (engineResult c .plain s (paddedBlock c s.regs.hashSel d.hashLen (labelBytes s) (messageBytes s)
      (seedDrawn c s d.hashLen))).1 = 0 := by
    by_contra h0
    exact (hfailed hk h0).code_ne_success (by decide) h
  obtain ⟨-, -, -, hblock, -⟩ := hgave hk h0
  rw [engineResult, engineAnswer_length hL] at hblock
  exact ⟨d, hr, h0, hblock⟩

/-- R184, on the calls two commands make: with EngineRoundTrip for their operands, and no failure drawn for the second,
the second undoes what the first made of a block. -/
theorem engineResult_roundTrip (hrt : EngineRoundTrip c (mandatoryBytes c .plain s) (optionalBytes c .plain s)
      (mandatoryBytes c .crt s') (optionalBytes c .crt s'))
    (hlen : em.length = c.K) (hy : em.take 1 = [0x00]) (h0 : (engineResult c .plain s em).1 = 0)
    (hdraw : c.engineFail s'.nextCommand = 0) :
    let r := engineResult c .crt s' (engineResult c .plain s em).2
    r.1 = 0 ∧ revBytes r.2 = em := by
  have hplain : engineResult c .plain s em = c.enginePlain (plainOps c em (mandatoryBytes c .plain s)
      (optionalBytes c .plain s)) := engineAnswer_of_success h0
  rw [hplain] at h0 ⊢
  obtain ⟨hstatus, hrev⟩ := hrt em hlen hy h0
  have hcrt := (engineAnswer_status_eq_zero (kind := .crt) ..).mpr ⟨hdraw, hstatus⟩
  exact ⟨hcrt, (congrArg (revBytes ·.2) (engineAnswer_of_success hcrt)).trans hrev⟩

/-- Settles O57: the block DECRYPT finds is what the engine made of ENCRYPT's (`encrypt_wrote`), the engine gives that
block back (`engineResult_roundTrip`), and the verdict on it is the message. -/
theorem encryptDecryptRoundTrip : Obligations.EncryptDecryptRoundTrip := by
  intro D s t s' hrt hc ht hs ⟨hu', hm', hff'⟩ hh' hdraw hk' hp' hsel hlab hblk
  obtain rfl := eq_ranOn_of_answers hc.1 ht
  obtain ⟨d, hr, h0, hwrote⟩ := encrypt_wrote D.wf D.lawful hc hs
  have hd : D.cfg.lookup s'.regs.hashSel = some d := (congrArg _ hsel).trans hr.lookup
  obtain ⟨h0', hrev⟩ := engineResult_roundTrip hrt (paddedBlock_length (s := s) D.wf D.lawful hr.lookup hr.fits) rfl h0
    hdraw
  rw [← hwrote, ← hblk] at h0' hrev
  have hdec := decrypt_answers D.wf D.lawful hu' hm' hff' hk' h0' hp' hd hh'
  rw [hrev, hsel, hlab, decodeVerdict_of_encodeReady D.lawful hr] at hdec
  obtain ⟨hend, -, hstored, hregs⟩ := hdec
  exact ⟨_, answers_of_runOn (runOn_undisturbed hu'), hend, hstored, congrArg Regs.outLen hregs⟩

end Sys2Proof.Machine
end

section
/-! PROOFS. Scope: the command sequencer: acceptance (R217), the locked state (R221), the exit point (R222, R223), how every
accepted command ends (R225, R241), and the phases of a success (R219). -/

namespace Sys2Proof.Machine

variable {c : Cfg} {i : Instr} {s t : State} {body : Cmd Unit} {names : Named}

/-! ### Acceptance (R217) -/

/-- Settles O10, arm by arm (`exec_eq`). -/
theorem execRunsOnDeployment : Obligations.ExecRunsOnDeployment := exec_eq

/-- A block that is idle and not locked accepts the command and runs its body. -/
theorem issue_accepted (hb : s.busy = false) (ha : s.alarm = false) :
    issue c body names s = (runBody c body (s.accept c names)).conclude names s.live := by
  rw [issue, hb, ha, if_neg Bool.false_ne_true, if_neg Bool.false_ne_true]

/-- Settles O16: every word is issued, a command with its own body and any other with `illegalBody`, and `State.accept` is
the one update they share. -/
theorem acceptanceIsAtomic : Obligations.AcceptanceIsAtomic := by
  refine ⟨fun c => ⟨fun i => ⟨bodyOf c i, runOn_eq c i⟩, illegalBody, fun _ => rfl⟩, fun c s body names hb ha => ?_⟩
  have hdropped (v : Word) (r : Reg) : hostWrite (s.accept c names) v r = s.accept c names := if_pos rfl
  exact ⟨_, issue_accepted hb ha, rfl, rfl, rfl, rfl, rfl, rfl, rfl, rfl, rfl, rfl, rfl, rfl, rfl, rfl, rfl, hdropped⟩

/-! ### The locked state (R221) -/

/-- A locked block answers any body's word at once. -/
theorem issue_locked (hb : s.busy = false) (ha : s.alarm = true) : issue c body names s = .next s.answerLocked := by
  rw [issue, hb, if_neg Bool.false_ne_true, if_pos ha]

theorem commandWrite_locked (hb : s.busy = false) (ha : s.alarm = true) (w : Word) :
    commandWrite w s = .next s.answerLocked := by
  unfold commandWrite
  split
  · rw [exec_eq, runOn_eq, issue_locked hb ha]
  · rw [issueIllegal, issue_locked hb ha]

/-- No access of the host but a reset ends the alarm of a locked block. -/
theorem hostDid_keeps_alarm {e : HostEvent} (h : HostDid s e t) (hb : s.busy = false) (ha : s.alarm = true)
    (he : e ≠ .reset) : t.alarm = true := by
  cases h with
  | command i v hd hr =>
    rw [runOn_eq, issue_locked hb ha] at hr
    cases hr
    exact ha
  | illegal v w hd hr =>
    rw [issueIllegal, issue_locked hb ha] at hr
    cases hr
    exact ha
  | write v j hc =>
    obtain ⟨-, -, -, -, -, halarm, -⟩ := hostWrite_rest s v (regAt j)
    exact halarm.trans ha
  | read j => exact ha
  | mem a b hin => exact ha
  | look a n hin hc => exact ha
  | reset => exact absurd rfl he

theorem step_keeps_alarm (hb : s.busy = false) (ha : s.alarm = true) (h : step s = .next t)
    (hreset : ∀ rest, s.script ≠ .reset :: rest) : t.alarm = true := by
  rcases step_cases h with ⟨-, rfl⟩ | ⟨e, rest, hscript, hd⟩
  · exact ha
  · exact hostDid_keeps_alarm hd hb ha fun he => hreset rest (he ▸ hscript)

/-- A locked block is one that rests with ALARM = 1 (R45). -/
theorem Inv.ph_locked (hi : Inv c s) (ha : s.alarm = true) : s.ph = .locked := by
  rw [hi.resting.phase, if_pos ha]

/-- Settles O18: the word is answered before it is decoded, and a step that keeps ALARM and the invariant (O21) keeps the
block locked. -/
theorem lockedStateAnswersGlitchError : Obligations.LockedStateAnswersGlitchError := by
  intro s hi ha
  refine ⟨hi.ph_locked ha, fun w => commandWrite_locked hi.resting.busy ha w, fun t h hreset => ?_⟩
  have ht : Inv Config.cfg t := stepKeepsInvariant s t hi h
  have hat : t.alarm = true := step_keeps_alarm hi.resting.busy ha h hreset
  exact ⟨ht.ph_locked hat, ht.resting.busy, hat⟩

/-! ### The exit point (R222, R223) -/

/-- Settles O19: with no reset to come the exit point runs to `State.left`, beside what the host sees meanwhile
(`exitPoint_cases`). -/
theorem exitPointLeaves : Obligations.ExitPointLeaves := by
  intro c s k info hb hn
  obtain ⟨l, r, -, e⟩ := exitPoint_cases (c := c) k info hb hn
  refine ⟨_, e, ?_⟩
  and_intros <;> rfl

/-! ### How a command ends -/

/-- Settles O22, by how an undisturbed command ends (`answers_ends`). -/
theorem everyCommandEnds : Obligations.EveryCommandEnds := by
  intro D i s hu
  obtain ⟨ha, k, info, h⟩ := answers_ends D i hu
  exact ⟨_, k, info, ha, h.ended, h.kind⟩

/-- Settles O28: a command that left the code of Success ended with that kind, and then its front part, its emission and
the exit point were all entered (`EndsAs`). -/
theorem successVisitsThePhases : Obligations.SuccessVisitsThePhases := by
  intro D i s hu
  obtain ⟨ha, k, info, h⟩ := answers_ends D i hu
  refine ⟨_, ha, fun hs => ?_⟩
  obtain ⟨_, -, -, -, -, -, -, hphases⟩ := h.emitted ((h.ended.code_eq_iff _).mp hs)
  exact hphases

end Sys2Proof.Machine
end

section
/-! PROOFS. Scope: what guards a command against faults: the double evaluation (R250) and the held read-back (R179, R252), what
an error leaves behind (R242, R243), and the single-fault property (R255). -/

namespace Sys2Proof.Machine

variable {c : Cfg} {i : Instr} {s t t0 : State} {site : Site} {pred a b : Bool} {k : Kind}

/-! ### The verdict of two copies (R250) -/

theorem verdict_of_ne (h : a ≠ b) : verdict a b = .split := if_pos h

theorem verdict_self (a : Bool) : verdict a a = if a then .pass else .fail := if_neg (not_not_intro rfl)

theorem verdict_eq_pass_iff : ∀ {a b : Bool}, verdict a b = .pass ↔ a = true ∧ b = true := by decide

/-! ### Double evaluation (R250) -/

/-- What a copy of an evaluation answers: the predicate, inverted where the oracle says so (R250). -/
def copyOf (c : Cfg) (s : State) (site : Site) (pred : Bool) (copy : Copy) : Bool :=
  pred ^^ c.glitch s.commands s.evals site copy

theorem copyOf_faultFree (h : FaultFree c s.commands) (copy : Copy) : copyOf c s site pred copy = pred := by
  rw [copyOf, h, Bool.xor_false]

theorem evalTwice_run :
    evalTwice c site pred s = .ok (verdict (copyOf c s site pred .A) (copyOf c s site pred .B)) s.bumpEvals := rfl

theorem critEval_differ (h : copyOf c s site pred .A ≠ copyOf c s site pred .B) :
    critEval c site pred s = .error (.raised .glitchError 0) s.bumpEvals.setAlarm := by
  rw [critEval, bind_ok evalTwice_run, verdict_of_ne h, settle_split]

theorem critEval_agree (h : copyOf c s site pred .A = copyOf c s site pred .B) :
    critEval c site pred s = .ok (copyOf c s site pred .A) s.bumpEvals := by
  rw [critEval, bind_ok evalTwice_run, ← h, verdict_self]
  cases copyOf c s site pred .A
  · exact settle_fail
  · exact settle_pass

/-! ### The held read-back (R179, R252) -/

theorem expHeldCheck_passes (ha : copyOf c s .expHeld s.engRst .A = true) (hb : copyOf c s .expHeld s.engRst .B = true) :
    expHeldCheck c s = .ok () s.bumpEvals := by
  rw [expHeldCheck, get_bind_run, bind_ok evalTwice_run, verdict_eq_pass_iff.mpr ⟨ha, hb⟩]
  rfl

/-- Copies that differ and copies that agree on `false` end the command alike. -/
theorem expHeldCheck_trips (h : copyOf c s .expHeld s.engRst .A = false ∨ copyOf c s .expHeld s.engRst .B = false) :
    expHeldCheck c s = .error (.raised .glitchError 0) s.bumpEvals.setAlarm := by
  have hv : verdict (copyOf c s .expHeld s.engRst .A) (copyOf c s .expHeld s.engRst .B) ≠ .pass := by
    rw [Ne, verdict_eq_pass_iff]
    rintro ⟨ha, hb⟩
    simp [ha, hb] at h
  rw [expHeldCheck, get_bind_run, bind_ok evalTwice_run]
  cases hx : verdict (copyOf c s .expHeld s.engRst .A) (copyOf c s .expHeld s.engRst .B) with
  | pass => exact absurd hx hv
  | fail => rfl
  | split => rfl

/-- Settles O36, by whether the copies agree, and for the read-back by whether both are `true`. -/
theorem doubleEvaluation : Obligations.DoubleEvaluation := by
  refine ⟨fun c s site pred => ⟨critEval_differ, critEval_agree, critEval_faultFree site pred⟩,
    fun c s => ⟨expHeldCheck_passes, expHeldCheck_trips, fun hff he => ?_⟩⟩
  exact expHeldCheck_passes ((copyOf_faultFree hff .A).trans he) ((copyOf_faultFree hff .B).trans he)

/-! ### What an error leaves (R242, R243) -/

/-- Settles O23: a code other than Success's is that of a kind that emits nothing, and the exit point left the rest
(`EndsAs`). -/
theorem errorsArePrecise : Obligations.ErrorsArePrecise := by
  intro D i s hu
  obtain ⟨ha, k, info, h⟩ := answers_ends D i hu
  refine ⟨_, ha, fun hne => ?_⟩
  obtain ⟨hmem, hregs⟩ := (h.failed fun hk => hne ((h.ended.code_eq_iff _).mpr hk)).1
  exact ⟨hmem, hregs, h.ended.collapse, h.ended.busy, h.ended.engRst, h.ended.work, h.ended.flags⟩

/-! ### One inversion (R255) -/

theorem AtMostOneInversion.noDoubleInversion {n : Nat} (h : AtMostOneInversion c n) : NoDoubleInversion c n := by
  rintro e site ⟨hA, hB⟩
  obtain ⟨-, -, hAB⟩ := h e e site site .A .B hA hB
  cases hAB

/-- A command the fault-free machine would have ended with some code, `t0` its end there, ends with that code or with
GlitchError and nothing written. -/
theorem code_or_glitch (h : t = t0 ∨ (Ended c s t .glitchError 0 ∧ NoOutput s t ∧ t.alarm = true)) {code : Byte}
    (h0 : t0.code = code) :
    t.code = code ∨ (t.code = Kind.glitchError.code ∧ t.mem = s.mem ∧ t.regs = s.regs) := by
  rcases h with rfl | ⟨hend, hno, -⟩
  · exact .inl h0
  · exact .inr ⟨hend.code, hno⟩

/-- Settles O37: with no double inversion the command is the fault-free machine's, or ends GlitchError with no output
(`ranOn_orGlitch`); a Success is not the latter. -/
theorem singleFault : Obligations.SingleFault := by
  intro D i s hu hone
  have hor := ranOn_orGlitch (i := i) hu hone.noDoubleInversion
  refine ⟨_, _, answers_of_runOn (runOn_undisturbed hu), runOn_undisturbed hu, fun hs => ?_, code_or_glitch hor,
    fun _ _ => code_or_glitch hor, hor⟩
  refine hor.resolve_right fun ⟨hend, _, _⟩ => ?_
  exact absurd ((hend.code_eq_iff _).mp hs) nofun

end Sys2Proof.Machine
end

section
/-! PROOFS. Scope: the reset input (R280, R281), writes dropped while BUSY = 1, and what the host reads while a command runs
(R290). -/

namespace Sys2Proof.Machine

variable {D : Deployment} {c : Cfg} {i : Instr} {s fin w : State} {body : Cmd Unit} {names : Named}

/-! ### The reset input (R280, R281) -/

/-- Settles O14: the block's fields are those of the reset state, whose STATUS is known (`statusWord_reset`). -/
theorem resetInput : Obligations.ResetInput := fun c _ => ⟨rfl, rfl, rfl, rfl, statusWord_reset c, rfl⟩

/-! ### Writes while BUSY = 1 (R290) -/

theorem hostWrite_busy (hb : s.busy = true) (v : Word) (r : Reg) : hostWrite s v r = s := if_pos hb

/-- A running block drops any body's word. -/
theorem issue_busy (hb : s.busy = true) : issue c body names s = .next s := if_pos hb

theorem exec_busy (hb : s.busy = true) (i : Instr) : exec i s = .next s := by rw [exec_eq, runOn_eq, issue_busy hb]

theorem commandWrite_busy (hb : s.busy = true) (v : Word) : commandWrite v s = .next s := by
  unfold commandWrite
  split
  · exact exec_busy hb _
  · exact issue_busy hb

theorem busWrite_cmd {j : Fin 64} (h : regAt j = .cmd) (v : Word) (s : State) :
    busWrite (4 * j.val) v s = commandWrite v s := by
  rw [busWrite, regIndex_aligned]
  simp only [h]

/-- Settles O12, by whether the register written is CMD. -/
theorem writesWhileBusyAreDropped : Obligations.WritesWhileBusyAreDropped := by
  intro s j v hb
  refine ⟨?_, exec_busy hb⟩
  by_cases hcmd : regAt j = .cmd
  · rw [busWrite_cmd hcmd, commandWrite_busy hb]
  · rw [busWrite_aligned j v s hcmd, hostWrite_busy hb]

/-! ### What a register reads as while a command runs (R30, R290) -/

theorem Regs.ptr_withOutLen (r : Regs) (v : Word) (p : Ptr) : { r with outLen := v }.ptr p = r.ptr p := by
  cases p <;> rfl

/-- STATUS up to its bit BUSY, whatever the alarm and the engine's line. -/
theorem Glimpse.status_low (h : Glimpse s fin w) : (statusWord w).extractLsb' 0 17 = 0x1FE01 := by
  simp only [statusWord, h.busy, h.code, h.codeN]
  generalize w.alarm = alarm
  generalize w.engRst = held
  revert alarm held
  decide

/-- Every register but STATUS, EXT_STATUS and OUT_LEN reads as before the command. -/
theorem Glimpse.readReg_other (h : Glimpse s fin w) {r : Reg} (hst : r ≠ .status) (hext : r ≠ .extStatus)
    (hlen : r ≠ .outLen) : readReg c w r = readReg c s r := by
  cases r with
  | status => contradiction
  | extStatus => contradiction
  | outLen => contradiction
  | ctrl => simp only [readReg, ctrlWord, h.collapse]
  | lo p => simp only [readReg, h.regs, Regs.ptr_withOutLen]
  | hi p => simp only [readReg, h.regs, Regs.ptr_withOutLen]
  | _ => simp only [readReg, h.regs]

/-- What the host reads of each register in a state inside the command. -/
theorem Glimpse.reads (h : Glimpse s fin w) {r : Reg} {v : Word} (hv : v = readReg c w r) :
    (r = .status → v.extractLsb' 0 17 = 0x1FE01 ∧ v.extractLsb' 19 13 = 0 ∧
      (v.getLsbD 18 = false ↔ w.ph = .expRelease ∨ w.ph = .expRun) ∧
      (v.getLsbD 17 = true → fin.alarm = true) ∧ (w.ph = .exitScrub → v.getLsbD 17 = fin.alarm)) ∧
    (r = .extStatus → v = 0) ∧
    (r = .outLen → v = if w.ph = .decCopy ∨ w.ph = .exitScrub then fin.regs.outLen else s.regs.outLen) ∧
    (r ≠ .status → r ≠ .extStatus → r ≠ .outLen → v = readReg c s r) := by
  subst hv
  refine ⟨?_, ?_, ?_, h.readReg_other⟩
  · rintro rfl
    rw [show readReg c w .status = statusWord w from rfl, statusWord_engRst, statusWord_alarm]
    exact ⟨h.status_low, statusWord_reserved w, h.line, h.alarm, h.scrub⟩
  · rintro rfl
    exact h.extStatus
  · rintro rfl
    exact congrArg Regs.outLen h.regs

/-! ### The reads of a command (R290) -/

/-- With no reset to come the host comes to one slot for each of the command's phases but the last two, as far as there
are any, and the register reads the command adds to its log are those of the slots it came to. -/
theorem ranOn_came (hl : noReset s.live = true) :
    ∃ ps p made, Came ps.length s.live made (ranOn c i s).live (ranOn c i s).log ∧ noReset made = true ∧
      phasesOf (actions (ranOn c i s)) = ps ++ [.exitStatus, p] ∧
      (ranOn c i s).log.awaited = s.log.awaited ++ (namedRegions c i s.regs).outputs ∧
      (ranOn c i s).log.reads.filterMap HostRead.register =
        s.log.reads.filterMap HostRead.register ++ registerReads ps made := by
  rcases ranOn_hosted (c := c) (i := i) (s := s) (fun h => absurd (hl.symm.trans h) nofun) with
    ⟨ps, l, r, hs, ⟨p, hp⟩, e⟩ | ⟨k, -, hr, -⟩
  · obtain ⟨made, hcame, hn, hawaited, hreads⟩ := came_of_serves hs rfl
    rw [e]
    exact ⟨ps, p, made, hcame, hn, hp, hawaited, hreads⟩
  · exact absurd (hl.symm.trans hr.noReset) nofun

/-- Premises the host keeps in all its slots it keeps in those it came to. -/
theorem Came.allowed {n : Nat} {live made rest : List LiveSlot} {g : HostLog} (h : Came n live made rest g)
    {ok : MemAccess → Bool} (hok : (memAccesses live).all ok = true) : (memAccesses made).all ok = true := by
  rw [h.slots, memAccesses_append, List.all_append, Bool.and_eq_true] at hok
  exact hok.1

/-- Settles O31: the host comes to every slot (`ranOn_came`), so the reads are those of the slots, and each was made in a
state inside the command (`ranOn_watched`). -/
theorem readsWhileBusy : Obligations.ReadsWhileBusy := by
  intro D i s hr hl _ hok
  obtain ⟨ps, p, made, hcame, hn, hphases, hawaited, hreads⟩ := ranOn_came (c := D.cfg) (i := i) hl
  obtain ⟨l, hlog, hseen⟩ := ranOn_watched (c := D.cfg) (i := i) hr hl
  obtain ⟨-, hanswers⟩ := command_came hr hcame hawaited
  have hp : phasesOf (actions (ranOn D.cfg i s).settle) = ps ++ [.exitStatus, p] := hphases
  have hlen : (phasesOf (actions (ranOn D.cfg i s).settle)).length = ps.length + 2 := by rw [hp]; simp
  rw [hlog, List.filterMap_append] at hreads
  refine ⟨_, made, _, l, hanswers (hcame.allowed hok), hcame.slots, rfl, ?_, ?_, hlog, ?_, fun ph off v hmem => ?_⟩
  · exact hlen ▸ Nat.add_le_add_right hcame.atMost 2
  · exact (hcame.all hn).imp_right fun h => by rw [hlen, h]
  · rw [hp, registerReads_first hcame.atMost]
    exact List.append_cancel_left hreads
  · obtain ⟨j, w, hw, rfl, rfl, hv⟩ := hseen _ hmem
    exact ⟨j, rfl, hw.reads hv⟩

end Sys2Proof.Machine
end
